-- ==== Sys2Proof/Word.lean ====
section
/-! DEFINITION. The word types of the FX4 model and their plainest byte arithmetic (R6: bit 0 is the
least significant bit, multi-byte values are little-endian). -/

namespace Sys2Proof

/-- One byte. -/
abbrev Byte := BitVec 8
/-- A control-space register (R10: 64 bits wide). -/
abbrev Word := BitVec 64
/-- A unit code of Table 1.2. -/
abbrev UnitCode := BitVec 16
/-- A tick of the shared time base (R9: 1 ns). -/
abbrev Tick := Nat
/-- Partition number, 0 to 15 (R31). -/
abbrev PartId := Fin 16
/-- Slice number, 0 to 15 (R12). -/
abbrev SliceId := Fin 16
/-- Array number 4s + a (Table 12.1). -/
abbrev ArrayId := Fin 64
/-- Global memory or flue port number (R21). -/
abbrev PortId := Fin 32
/-- A view of the control space: 0 to 15 partition-local, 16 the operator (R413). -/
abbrev View := Fin 17

/-- The `n` low bytes of a number, least significant first (R6). -/
def bytesLE : Nat → Nat → List Byte
  | 0, _ => []
  | n + 1, v => BitVec.ofNat 8 v :: bytesLE n (v / 256)

/-- The number a little-endian byte string stands for (R6). -/
def natLE : List Byte → Nat
  | [] => 0
  | b :: bs => b.toNat + 256 * natLE bs

/-- Bytes `off` to `off + n - 1` of a string as a number, least significant first. -/
def fieldLE (bs : List Byte) (off n : Nat) : Nat := natLE ((bs.drop off).take n)

/-- Bits `hi` down to `lo` of a register as a number (R6). -/
def fld (w : Word) (hi lo : Nat) : Nat := (w.toNat >>> lo) % 2 ^ (hi + 1 - lo)

/-- A value placed at bit `lo` of a register. -/
def put (v lo : Nat) : Word := BitVec.ofNat 64 (v <<< lo)

/-- A Boolean as a bit. -/
def bit (b : Bool) : Nat := if b then 1 else 0

/-- Rounding a quotient up. -/
def ceilDiv (a b : Nat) : Nat := (a + b - 1) / b

/-- Rounding up to a multiple (R57). -/
def roundUp (a m : Nat) : Nat := ceilDiv a m * m

end Sys2Proof
end

