-- ==== Sys2Proof/Config.lean ====
section
/-! DEFINITION. What the spec fixes for every engine (counts and limits of Table 0.3, the mixer's constants,
the timing constants), and the values it leaves open, as constants without a body; the surroundings' answers (memory data, grants,
sensor samples) are operands of the commands. -/

namespace Sys2Proof.Config

/-- Lines of one slice's stage buffer (R19). -/
def linesPerSlice : Nat := 65536
/-- Bytes of one stage-buffer line (R19). -/
def lineBytes : Nat := 512
/-- Ledger entries (R199). -/
def ledgerEntries : Nat := 32768
/-- Member-table entries (R270). -/
def memberEntries : Nat := 8192
/-- Group-table entries (R271). -/
def groupEntries : Nat := 1024
/-- Key slots (R351). -/
def keySlots : Nat := 64
/-- Beats of an epoch (R9). -/
def epochBeats : Nat := 65536
/-- Ticks of a start-up epoch (R377). -/
def startupEpochTicks : Nat := 1048576
/-- The decision beat's distance from the commit point, and the least slot start (R238, R240). -/
def decisionBeats : Nat := 8192
/-- The largest value of a 40-bit ledger counter (R218). -/
def counterMax : Nat := 2 ^ 40 - 1
/-- The largest value of a 48-bit telemetry counter (R428). -/
def telMax : Nat := 2 ^ 48 - 1
/-- Records the report queue holds (R326). -/
def queueMax : Nat := 1024
/-- What the TS32 field of a head holds under ROWTS = 1, by tensor identifier: Table 2.10 says only that readers ignore it (log
entry 58). -/
opaque headTs32 : BitVec 24 → BitVec 32

/-- Multiplier of the mixer (R168). -/
def mixM : BitVec 128 := 0xA97D3C51E26B8F0D5B1E94C73D62A0F5#128
/-- Multiplier of the key schedule (R168). -/
def keyM : BitVec 128 := 0x6F4ED2B931A8C75DE0942B7C83F15A69#128
/-- The kindling seed (R178). -/
def kindling : BitVec 128 := 0x4B494E444C494E470000000000000001#128
/-- The stream identifier reserved for rotation signs (R91). -/
def rotStream : BitVec 32 := 0xFFFFFF00#32
/-- The "none" key of slots, segments and ledger lists (Tables 9.6, 9.7, 11.9). -/
def noKey : Nat := 0xFFFFFFFF

/-- Handshakes per beat at stretch 64, in units of 1/100 (Table 9.2: 19.2, 21.28 and 23.2). -/
def ratePer100 (grade : Nat) : Nat :=
  if grade ≤ 1 then 1920 else if grade = 2 then 2128 else 2320

/-- Beats of a proving burn, BURN_g (R315). -/
def burnBeats (grade : Nat) : Nat :=
  if grade ≤ 1 then 23 else if grade = 2 then 21 else 20

/-- Voltage floor of a grade in mV (Table 9.2). -/
def floorMv (grade : Nat) : Nat :=
  if grade ≤ 1 then 700 else if grade = 2 then 750 else 800

end Sys2Proof.Config
end

