-- ==== Sys2Proof/Syntax.lean ====
section
/-! DEFINITION. The commands of the FX4 (spec/opcode_table.json) and the plain data they carry: packets,
draught images, damper messages, context images, units' work. A command carries first the tick at which
it is stamped (R226, log entry 1). -/

namespace Sys2Proof

/-! ## Formats and places -/

/-- Element code formats (Table 2.1). E5M2 is a storage format only: an image that names it as an operand or output format is
rejected (R46, R102). -/
inductive ElemFmt where
  | e2m1 | i4 | c16 | e4m3 | i8 | c256 | e5m2
  deriving DecidableEq, Repr

/-- Wide formats (Table 2.7). -/
inductive WideFmt where
  | f32 | f16 | bf16
  deriving DecidableEq, Repr

/-- OCP Microscaling element types, the two unsupported ones included (Table 2.12). -/
inductive MxType where
  | fp8e4m3 | fp8e5m2 | fp6e3m2 | fp6e2m3 | fp4 | int8
  deriving DecidableEq, Repr

/-- What an ingress station in convert mode reads (R16): wide, plain OCP FP8 with its tensor scale (R72), or MX (R67). -/
inductive SrcFmt where
  | wide (f : WideFmt)
  | fp8 (e5m2 : Bool) (scale : BitVec 32)
  | mx (t : MxType) (block : Nat)
  deriving DecidableEq, Repr

/-- Rounding modes (R87). -/
inductive Rnd where
  | rne | sr4 | sr3
  deriving DecidableEq, Repr

/-- Intermediate formats (Table 5.3). -/
inductive IFmt where
  | f32 | bf16 | f16 | exact
  deriving DecidableEq, Repr

/-- Row-statistic policies (R162). -/
inductive RowPolicy where
  | delayed | rowHold | twoPass
  deriving DecidableEq, Repr

/-- Where a stream or region lies: external memory (byte address), or a stage buffer (partition-local slice and line). -/
inductive Place where
  | mem (addr : Nat)
  | buf (slice line : Nat)
  deriving DecidableEq, Repr

/-- The bit source of a drawn stage: the indexed generator, or a declared stream (R179). -/
structure BitSrc where
  stream : BitVec 32
  declared : Bool
  deriving DecidableEq, Repr

/-- A rotation (R90, R138): log2 of the block, and the rotation key. -/
structure Rotation where
  log2 : Nat
  key : BitVec 24
  deriving DecidableEq, Repr

/-- The code binding of a narrow tensor: result-bearing fields, then placement (R57-R64, R254). -/
structure TensorRef where
  tid : BitVec 24
  fmt : ElemFmt
  g : Nat
  rows : Nat
  k : Nat
  codebook : Nat
  entry : Option Nat
  rnd : Rnd
  src : BitSrc
  counting : Bool
  rot : Option Rotation
  rowTs : Bool
  code : Place
  scale : Place
  ash : Place
  ashCap : Nat
  deriving DecidableEq, Repr

/-- A wide (or OCP) tensor or region: format, extents, row pitch in bytes (R53), and its place. -/
structure WideRef where
  tid : BitVec 24
  fmt : SrcFmt
  rows : Nat
  cols : Nat
  pitch : Nat
  colReduction : Bool
  rnd : Rnd
  src : BitSrc
  place : Place
  scales : Place
  deriving DecidableEq, Repr

/-- A vector region with its format (Table 5.1). -/
structure VecRef where
  place : Place
  fmt : WideFmt
  len : Nat
  deriving DecidableEq, Repr

/-- The factor of a scale stage (R129). -/
inductive ScaleArg where
  | scalar (c : BitVec 32)
  | vector (v : VecRef) (byRow : Bool)
  deriving DecidableEq, Repr

/-- Activation kinds (R131). -/
inductive ActKind where
  | relu | relu2
  | leaky (slope : BitVec 32)
  | table (handle : Nat)
  deriving DecidableEq, Repr

/-- Where a send stage sends (R275, R276). -/
inductive SendSel where
  | shift (k : Int)
  | perm (list : Place)
  deriving DecidableEq, Repr

/-- The target of a quantise-out: an output code binding, or an MX or FP8 export (R71, R73, R137). -/
inductive OutTarget where
  | code (t : TensorRef)
  | mx (t : MxType) (w : WideRef)
  | fp8 (e5m2 : Bool) (w : WideRef) (entry : Option Nat) (counting : Bool)
  deriving DecidableEq, Repr

/-- The stages of Table 5.1; `amax` is a quantise-out's amax region under two-pass (R166); `invalid` holds the codes the table does not give. -/
inductive Stage where
  | transpose
  | gather (index : Place) (n : Nat)
  | rotate (r : Rotation) (ifm : IFmt)
  | scale (arg : ScaleArg) (ifm : IFmt)
  | quantise
  | bias (v : VecRef) (byRow : Bool) (ifm : IFmt)
  | residual (w : WideRef) (alpha : BitVec 32) (ifm : IFmt)
  | activation (kind : ActKind) (gate : Option WideRef) (ifm : IFmt)
  | norm (layer : Bool) (n : Nat) (eps : BitVec 32) (gain offset : Option VecRef) (ifm : IFmt)
  | clamp (lo hi : BitVec 32) (ifm : IFmt)
  | dropout (keep : Nat) (mask : BitVec 24) (src : BitSrc) (factor : BitVec 32) (ifm : IFmt)
  | statistics (entry : Nat) (tid : BitVec 24)
  | quantOut (target : OutTarget) (byRows : Bool) (rot : Option Rotation) (policy : Option RowPolicy) (amax : Option Place)
    (ifm : IFmt)
  | digest (key id : Nat)
  | send (group : Nat) (sel : SendSel)
  | invalid (code : Byte)
  deriving DecidableEq, Repr

/-- An operand of a product: pass mode reads an engine tensor, convert mode runs a prologue on a wide one (R16). -/
inductive Operand where
  | pass (t : TensorRef)
  | convert (input : WideRef) (prologue : List Stage) (out : TensorRef)
  deriving DecidableEq, Repr

/-- Where a binding's output goes when no quantise-out takes it (R17, R122 rule 8). -/
inductive Output where
  | wide (w : WideRef)
  | p128 (w : WideRef)
  | pf32 (w : WideRef)
  | viaQuant
  deriving DecidableEq, Repr

/-! ## Image records (R252-R258) -/

/-- A chain record (R119-R124, R145). `taps` pairs a stage index with a wide output binding (R139). -/
structure Chain where
  stages : List Stage
  taps : List (Nat × WideRef)
  sepEq : Bool
  s : WideFmt
  prodRnd : Rnd
  prodTid : BitVec 24
  prodSrc : BitSrc
  deriving DecidableEq, Repr

/-- Distributions of a fill (Table 7.5). -/
inductive Dist where
  | uniform (lo hi : BitVec 32)
  | bernoulli (p16 : Nat)
  | normalTable (mean std : BitVec 32)
  | normalBm (mean std : BitVec 32)
  deriving DecidableEq, Repr

/-- The fields of a chained-product binding beside its operands (Table 6.1); the last is placement. -/
structure Chained where
  d : Nat
  nk : Nat
  sigma : BitVec 32
  causal : Option Int
  keymask : Option Place
  bias : Option WideRef
  expHandle : Nat
  pFmt : ElemFmt
  pRnd : Rnd
  pStream : BitVec 32
  pTid : BitVec 24
  spanLog2 : Nat
  stateOut : Option Place
  /-- Placement: merge-tree nodes whose state another member merges, as (level, node, group, rank) (R155, R156). -/
  sends : List (Nat × Nat × Nat × Nat)
  deriving DecidableEq, Repr

/-- The fields of a sampler binding (Table 7.7). -/
structure Sampler where
  scores : WideRef
  rows : Nat
  v : Nat
  invT : BitVec 32
  greedy : Bool
  mask : Option Place
  rowkey : Place
  tid : BitVec 24
  out : Place
  outScore : Option Place
  exportTo : Option Place
  /-- Where the slot after a host window puts the indices that stand in OUT (R196, step 4). -/
  index : Option Place
  /-- Placement: the entries of each row sampled here, from `first` on, and the (group, rank) that merges (R193). -/
  first : Nat
  count : Nat
  dest : Option (Nat × Nat)
  deriving DecidableEq, Repr

/-- A receiving binding (R274, R279, R280): group, tensor, packet type, extents, reference, landing region (slice, first
line, lines), and the limit of a dynamic size. -/
structure Receive where
  group : Nat
  tid : BitVec 24
  type : Byte
  rowTiles : Nat
  colTiles : Nat
  parts : Nat
  /-- Reduction positions that the parts together cover (R106). -/
  k : Nat
  ref : BitVec 64
  slice : Nat
  line : Nat
  lines : Nat
  /-- The narrow tensor that TILE_CODE and STREAM packets land in, or the wide region of TILE_WIDE. -/
  tensor : Option TensorRef
  wide : Option WideRef
  /-- STREAM packets that the image routes to a binding of fixed size (R278). -/
  expected : Nat
  dynamic : Bool
  tMax : Nat
  deriving DecidableEq, Repr

/-- What one whole operation is (R254, R437). A dynamic exchange names (slice, first line) of its counts, a u32 per rank, and of
the lines it sends, by ascending rank (R280). -/
inductive BindKind where
  | product (a b : Operand) (rowTiles colTiles parts : Nat) (chain : Option Nat) (out : Output)
  | copy (code : Option TensorRef) (wide : Option WideRef) (chain : Option Nat) (out : Output)
  | fill (dist : Dist) (src : BitSrc) (tid : BitVec 24) (chain : Option Nat) (out : Output)
  | chained (q k v : Operand) (c : Chained) (chain : Option Nat) (out : Output)
  | sampler (s : Sampler)
  | exchange (r : Receive) (counts source : Nat × Nat)
  | receive (r : Receive)
  | weightDigest (t : TensorRef) (key id : Nat)
  deriving DecidableEq, Repr

/-- A binding record: its KEY, its logical bytes (R254, log entry 5), what it is, and placement: the local flue ports through which
its packets leave or arrive (R438), and the first line, from its region's, of each P128 tile it writes or lands, in ascending order
of part, row tile and column tile (R108; a tile the list does not give stands 128 lines after the one before it). `psum` is the region
(slice, first line) for the parts of a split product that is not itself written as P128 or PF32 (R114). -/
structure Binding where
  key : Nat
  logical : List Byte
  ports : List Nat
  tiles : List Nat
  psum : Option (Nat × Nat)
  kind : BindKind
  deriving DecidableEq, Repr

/-- A chain record with its KEY and logical bytes. -/
structure ChainRec where
  key : Nat
  logical : List Byte
  chain : Chain
  deriving DecidableEq, Repr

/-- A segment body (Table 9.6); lists are in the order G1, G2, G3. -/
structure Segment where
  key : Nat
  ledgerOff : List Nat
  commitOff : List Nat
  ledgerList : Nat
  next : Nat
  deriving DecidableEq, Repr

/-- A slot body (Table 9.7). -/
structure Slot where
  key : Nat
  commit : Bool
  counting : Bool
  kind : Nat
  units : Byte
  slice : Nat
  len : List Nat
  start : List Nat
  workN : Nat
  workFirst : Nat
  bind : Nat
  seg : Nat
  deriving DecidableEq, Repr

/-- A variant body (Table 9.8); `cond` holds the N_COND named conditions. -/
structure Variant where
  key : Nat
  delta : List Nat
  w1 : List Nat
  w0 : List Nat
  cond : List Nat
  kind : Nat
  seg : Nat
  deriving DecidableEq, Repr

/-- A codebook record as its bytes (Table 2.3): 32 bytes for C16, 1,040 for C256. -/
structure CodebookRec where
  key : Nat
  c256 : Bool
  bytes : List Byte
  deriving DecidableEq, Repr

/-- An activation table record as its 4,128 bytes (Table 5.4). -/
structure ActRec where
  key : Nat
  bytes : List Byte
  deriving DecidableEq, Repr

/-- A declared region (R144): slice, first line, lines, the slots in which it is live, and the term of R143 that it serves where that term
is no tensor, vector or landing region with lines of its own: a binding, which of its chains (0 to 2 an operand's prologue, 3 its chain),
and the stage, or 255 for what the binding itself needs (R161, a copy's input) and 254 for what a receiving binding needs beside its
landing region (R283). -/
structure Region where
  key : Nat
  slice : Nat
  line : Nat
  lines : Nat
  live : List Nat
  term : Option (Nat × Nat × Nat)
  deriving DecidableEq, Repr

/-- A route between slices of the partition (R23), with the units at its ends. -/
structure Route where
  key : Nat
  src : Nat
  dst : Nat
  units : List UnitCode
  carriesCode : Bool
  carriesScale : Bool
  deriving DecidableEq, Repr

/-- A lease record (R287). -/
structure LeaseRec where
  key : Nat
  switch : BitVec 32
  group : Nat
  lines : Nat
  deriving DecidableEq, Repr

/-- A section-table entry (R253). -/
structure SectionEntry where
  type : Nat
  count : Nat
  offset : Nat
  length : Nat
  deriving DecidableEq, Repr

/-- The head of a record as the image holds it (R253): type, key, LOGICAL_LEN, BODY_LEN, and whether its zero bytes are zero. -/
structure RecHead where
  type : Nat
  key : Nat
  logicalLen : Nat
  bodyLen : Nat
  zerosOk : Bool
  deriving DecidableEq, Repr

/-- The image header (Table 9.4); the two digests as byte strings. -/
structure ImgHeader where
  timeline : BitVec 64
  logicalDigest : List Byte
  imageDigest : List Byte
  length : Nat
  nSections : Nat
  patch : Bool
  slices : Nat
  fwMin : Nat
  part : Nat
  version : Nat
  magic : Nat
  deriving DecidableEq, Repr

/-- A draught image (R252): its bytes as the loader reads them, and their reading as records (log entry 5).
`base` is the BASE section of a patch (R254). -/
structure Image where
  raw : List Byte
  header : ImgHeader
  sections : List SectionEntry
  heads : List RecHead
  segments : List Segment
  slots : List Slot
  variants : List Variant
  bindings : List Binding
  chains : List ChainRec
  codebooks : List CodebookRec
  actTables : List ActRec
  streams : List (BitVec 32)
  ledgerLists : List (Nat × List Nat)
  regions : List Region
  routes : List Route
  leases : List LeaseRec
  base : List Byte
  deriving DecidableEq, Repr

/-! ## Packets (Table 10.1) -/

/-- A packet header, field by field, with the packet check it carries. -/
structure PktHdr where
  pcrc : BitVec 32
  aux : BitVec 32
  ref : BitVec 64
  kPart : BitVec 32
  colTile : BitVec 32
  rowTile : BitVec 32
  step : BitVec 32
  epoch : BitVec 64
  tid : BitVec 32
  zero : BitVec 16
  fmt : Byte
  attempt : Byte
  nLines : BitVec 16
  tileTag : BitVec 16
  job : BitVec 16
  gen : BitVec 16
  group : BitVec 16
  dst : BitVec 16
  src : BitVec 16
  flags : Byte
  type : Byte
  deriving DecidableEq, Repr

/-- A packet: header and payload bytes (R264). -/
structure Packet where
  hdr : PktHdr
  payload : List Byte
  deriving DecidableEq, Repr

/-! ## Messages and observed facts -/

/-- A damper grant message (Table 15.7): START, SRC, and (GRANT, CEILING) of the 65 domains. -/
structure GrantMsg where
  start : Nat
  src : Byte
  domains : List (BitVec 16 × BitVec 16)
  deriving DecidableEq, Repr

/-- One sensor sample (R337): domain, millivolts, and junction temperature in 1/8 °C. -/
structure Sample where
  dom : Fin 65
  mv : Nat
  temp : Int
  deriving DecidableEq, Repr

/-- What a domain drew in the epoch that ends (R337, R429): average current in mA and power in mW. -/
structure Measure where
  dom : Fin 65
  ma : Nat
  mw : Nat
  deriving DecidableEq, Repr

/-- What initialisation finds on read-back (R376): corrected words, uncorrectable slices, and the table stores. -/
structure InitFindings where
  corrected : List UnitCode
  sbBad : List SliceId
  tableBad : Bool
  deriving DecidableEq, Repr

/-- What the start-up burn observes of one array (R378, R380): the drained accumulators of T_a and T_b, in element order. -/
structure ArrayBurn where
  array : ArrayId
  accs : List (BitVec 128)
  deriving DecidableEq, Repr

/-- What a checker did in the start-up burn (Table 14.4): the tiles of its slice whose verdict was negative (array, and true for T_b), and
whether it missed the flipped sum. -/
structure CheckerBurn where
  slice : SliceId
  negative : List (Fin 4 × Bool)
  missed : Bool
  deriving DecidableEq, Repr

/-- What a station or a row unit delivered in its start-up test (Table 14.4): the bytes that differ from those its input gives. -/
structure UnitBurn where
  unit : UnitCode
  flips : List (Nat × Byte)
  deriving DecidableEq, Repr

/-- The observations of a start-up burn: arrays, a third array's run for each disagreeing pair (by the pair's first array), checkers,
stations and row units, and the units with an uncorrectable word, a residue or parity failure or a launch that overran. -/
structure BurnFindings where
  arrays : List ArrayBurn
  thirds : List (ArrayId × ArrayBurn)
  checkers : List CheckerBurn
  units : List UnitBurn
  broken : List UnitCode
  deriving DecidableEq, Repr

/-- Instructions of the TEST wrapper (R410). -/
inductive TestInstr where
  | wsBypass | wsExtest | wsIntest | wsSafe | wsClamp | instrNet
  deriving DecidableEq, Repr

/-- One error the ledger sweep finds (R219, R220): global entry, word, bit, and whether it is uncorrectable. -/
structure EccFinding where
  entry : Nat
  word : Nat
  bit : Nat
  bad : Bool
  deriving DecidableEq, Repr

/-- The outcome of a context save at its end (R365, R366): whole, or an error answered to one of its three ordered writes. -/
inductive SaveEnd where
  | done
  | memError (write : Fin 3)
  deriving DecidableEq, Repr

/-- A context image as read from memory: the header bytes, the body bytes in cipher text, and the tag (R362). -/
structure CtxImage where
  header : List Byte
  body : List Byte
  tag : List Byte
  deriving DecidableEq, Repr

/-- A context descriptor (Table 13.11). -/
structure Descriptor where
  valid : Bool
  zerosOk : Bool
  key : Nat
  quantum : Nat
  seg0 : Nat
  seed : BitVec 128
  slotLen : Nat
  ctxAddr : Nat
  imageLen : Nat
  imageAddr : Nat
  deriving DecidableEq, Repr

/-- The two slots of a context, as they stand in memory (R362, R365). -/
structure CtxSlots where
  slot0 : CtxImage
  slot1 : CtxImage
  deriving DecidableEq, Repr

/-- A save at its end: how it ended, and the active context's descriptor and slots as the engine finds them in memory for it (R365, R366). -/
structure SaveFound where
  ended : SaveEnd
  desc : Descriptor
  slots : CtxSlots
  deriving DecidableEq, Repr

/-- What memory holds for a context that may be switched to (R371): its descriptor, its draught image and its two slots. -/
structure NextCtx where
  index : Nat
  desc : Descriptor
  image : Image
  slot0 : CtxImage
  slot1 : CtxImage
  deriving DecidableEq, Repr

/-- Kinds of lines a station reads from memory. -/
inductive LineKind where
  | head | rowScale | code | scale | ash | wide
  deriving DecidableEq, Repr

/-- What happens to the hardware in a handshake (R20, R297, R298): nothing; a residue or parity failure; stage-buffer
words corrected; a stage-buffer word of a line that cannot be corrected; bits of an accumulator flipped by a fault in
the array; bits of a row (true) or column reference sum flipped by a fault in the checker. -/
inductive Check where
  | ok
  | residue
  | corrected (words : Nat)
  | uncorrectable (line : Fin 65536) (word : Fin 64)
  | upset (elem : Fin 4096) (flip : BitVec 128)
  | tapUpset (row : Bool) (index : Fin 64) (flip : BitVec 128)
  deriving DecidableEq, Repr

/-- The drain of an array's latches (R14): what the checks find on the way, at the egress station or at the array's de-quantiser. -/
structure DrainEnd where
  array : ArrayId
  egress : Bool
  check : Check
  deriving DecidableEq, Repr

/-- A node that a merge of states forms (R155): its number in its level, and the row unit whose residue or parity check fails in the merge, if
one does (R298). -/
structure MergeNode where
  index : Nat
  fault : Option (Fin 4)
  deriving DecidableEq, Repr

/-- A byte address of the TEL port in one of its spaces: 0 telemetry, 1 debug (Table 15.8). -/
structure TelAddr where
  space : Fin 2
  offset : BitVec 32
  deriving DecidableEq, Repr

/-- The work of one handshake (R104 and the rules of each unit), naming the slot it belongs to.
`opnd` numbers the operands of the binding (0 a or Q or the copy's input, 1 b or K, 2 V). -/
inductive Work where
  /-- An ingress station issues the read of one line (R393). -/
  | fetch (st : Fin 2) (slot opnd : Nat) (kind : LineKind) (index : Nat) (port : Fin 2) (id : Fin 1024)
  /-- A station in pass mode checks one code block and moves its groups into its pipeline (R66). -/
  | pass (st : Fin 2) (slot opnd block : Nat)
  /-- A station in convert mode runs the prologue and the quantiser on one group (R16, R75). -/
  | convert (st : Fin 2) (slot opnd row grp : Nat)
  /-- A station imports one group of an MX tensor directly (R68). -/
  | importMx (st : Fin 2) (slot opnd row grp : Nat)
  /-- An array begins its next tile of the slot (R14, R437). -/
  | beginTile (a : Fin 4) (slot unit : Nat)
  /-- One operand register of an array takes the group in turn (R18, R29). -/
  | load (a : Fin 4) (rowSide : Bool) (index : Fin 64)
  /-- One handshake of an array's dot units (R104). -/
  | dots (a : Fin 4)
  /-- A row unit runs a copy or fill binding's elements through the chain (R120, R182). -/
  | rows (u : Fin 4) (slot row col n : Nat)
  /-- A row unit samples a range of entries of one score row (R191, R193). -/
  | sample (u : Fin 4) (slot row v n : Nat)
  /-- A row unit writes the sampler's choice of a row (R193, R195). -/
  | choose (u : Fin 4) (slot row : Nat)
  /-- A row unit forms a chained product's output row from its root state (R157). -/
  | output (u : Fin 4) (slot row : Nat)
  /-- A station consumes the next global line of a dynamic exchange (R281). -/
  | consume (st : Fin 2) (slot : Nat)
  /-- A station hashes one line of a weight shard (R318). -/
  | hash (st : Fin 2) (bind : Nat) (kind : LineKind) (index : Nat)
  deriving DecidableEq, Repr

/-- Who presents a register request: a CFG view (R413), a CFG request whose view field, 17 to 31, names none (R400), or the root of trust
on SEC (R431). -/
inductive Requester where
  | cfg (v : View)
  | unknown (v : Fin 15)
  | sec
  deriving DecidableEq, Repr

/-- One array's run of an in-service burn (R315), by its faults: bits that differ in its 8,192 drained accumulators (T_a, then T_b) and
in its checker's 256 reference sums (row sums and column sums of T_a, then of T_b), and whether the flipped sum was missed. -/
structure BurnRun where
  array : ArrayId
  flips : List (Fin 8192 × BitVec 128)
  refs : List (Fin 256 × BitVec 128)
  missed : Bool
  deriving DecidableEq, Repr

/-! ## The commands, one constructor per row of spec/opcode_table.json -/

/-- The commands of the block. The first operand is the tick of the event (R226). -/
inductive Instr where
  | powerGoodRise (t : Tick)
  | powerGoodFall (t : Tick) (dom : Fin 65)
  | engineReset (t : Tick)
  | resetRelease (t : Tick)
  | timeBaseLock (t : Tick)
  | timeBaseLockTimeout (t : Tick)
  | initialisation (t : Tick) (f : InitFindings)
  | stokerFirstInstructions (t : Tick)
  | startupEpoch (t : Tick) (m : List Measure)
  | startupBurnComplete (t : Tick) (f : BurnFindings)
  | timebaseLoss (t : Tick) (strobe : Bool)
  | epochBoundary (t : Tick) (p : PartId) (m : List Measure)
  | grantMessage (t : Tick) (m : GrantMsg)
  | grantLoss (t : Tick)
  | emergencyThrottle (t : Tick)
  | throttleRelease (t : Tick)
  | sensorSample (t : Tick) (l : List Sample)
  | attemptAnchor (t : Tick) (p : PartId)
  | slotLaunch (t : Tick) (p : PartId) (slot : Nat)
  | variantSelect (t : Tick) (p : PartId) (variant : Nat)
  | handshake (t : Tick) (s : SliceId) (w : Work) (c : Check)
  | tileComplete (t : Tick) (a : ArrayId)
  | drainComplete (t : Tick) (a : DrainEnd)
  | tileVerdict (t : Tick) (a : ArrayId)
  | ashPacketWrite (t : Tick) (p : PartId) (bind : Nat)
  | sendLaunch (t : Tick) (port : PortId)
  | slotComplete (t : Tick) (p : PartId) (slot : Nat)
  | slotEndCheck (t : Tick) (p : PartId) (slot : Nat)
  | unitHangCheck (t : Tick) (p : PartId) (slot : Nat) (unit : UnitCode) (idle : Bool)
  | hostWindowStart (t : Tick) (p : PartId) (slot : Nat)
  | hostWindowEnd (t : Tick) (p : PartId) (slot : Nat)
  | ledgerPoint (t : Tick) (p : PartId)
  | commitPoint (t : Tick) (p : PartId)
  | decisionBeat (t : Tick) (p : PartId)
  | contextSaveComplete (t : Tick) (p : PartId) (e : SaveFound) (next : List NextCtx)
  | ledgerUpdateComplete (t : Tick) (p : PartId)
  | holdLimitExpiry (t : Tick) (p : PartId)
  | arbitrationRerun (t : Tick) (p : PartId)
  /-- The re-run of a listed tile ends: the bits that differ in its 128 drained sums from those its operands give, or none where the
  arbiter's checker fails it. -/
  | arbitrationResult (t : Tick) (p : PartId) (item : Nat) (flips : Option (List (Fin 128 × BitVec 128)))
  | inServiceBurn (t : Tick) (a b : BurnRun)
  /-- The front one of the burns that have failed is judged, with the third array's run where one ran. -/
  | provingFail (t : Tick) (third : Option BurnRun)
  | ledgerSweep (t : Tick) (l : List EccFinding)
  | stokerLockstep (t : Tick) (addr : BitVec 32)
  | stokerRestartComplete (t : Tick) (measured : Bool)
  | firmwareActivation (t : Tick)
  | memReadResponse (t : Tick) (port : PortId) (id : Fin 1024) (data : List Byte) (tag : BitVec 16) (err : Fin 4)
  | memWriteAck (t : Tick) (port : PortId) (id : Fin 1024) (err : Fin 4)
  | linkDown (t : Tick) (port : PortId)
  | linkUp (t : Tick) (port : PortId)
  | tileCode (t : Tick) (p : PartId) (k : Packet)
  | tileWide (t : Tick) (p : PartId) (k : Packet)
  | tileP128 (t : Tick) (p : PartId) (k : Packet)
  | tilePf32 (t : Tick) (p : PartId) (k : Packet)
  | stream (t : Tick) (p : PartId) (k : Packet)
  | verdict (t : Tick) (p : PartId) (k : Packet)
  | notice (t : Tick) (p : PartId) (k : Packet)
  | agreeStart (t : Tick) (p : PartId) (k : Packet)
  | agreeWant (t : Tick) (p : PartId) (k : Packet)
  | agreeHold (t : Tick) (p : PartId) (k : Packet)
  | agreeResume (t : Tick) (p : PartId) (k : Packet)
  | agreeReplace (t : Tick) (p : PartId) (k : Packet)
  | ledger (t : Tick) (p : PartId) (k : Packet)
  | ledgerRepairRequest (t : Tick) (p : PartId) (k : Packet)
  | ledgerRepairAnswer (t : Tick) (p : PartId) (k : Packet)
  | state (t : Tick) (p : PartId) (k : Packet)
  | stateMerge (t : Tick) (p : PartId) (bind rowTile level : Nat) (node : MergeNode)
  | sample (t : Tick) (p : PartId) (k : Packet)
  | count (t : Tick) (p : PartId) (k : Packet)
  | credit (t : Tick) (p : PartId) (k : Packet)
  | leaseRefused (t : Tick) (p : PartId) (k : Packet)
  | leaseChoice (t : Tick) (p : PartId) (k : Packet)
  | digest (t : Tick) (p : PartId) (k : Packet)
  | unknownPacket (t : Tick) (p : PartId) (k : Packet)
  | recordEmit (t : Tick)
  | startGo (t : Tick) (v : Requester)
  | join (t : Tick) (v : Requester)
  | cancel (t : Tick) (v : Requester)
  | hostGo (t : Tick) (v : Requester)
  | loadImage (t : Tick) (v : Requester)
  | loadComplete (t : Tick) (p : PartId) (img : Image) (memErr : Bool)
  | stagePatch (t : Tick) (v : Requester) (img : Image) (memErr : Bool)
  | withdraw (t : Tick) (v : Requester)
  | lgrHoldReplay (t : Tick) (v : Requester)
  | lgrHoldCommit (t : Tick) (v : Requester)
  | chkHoldReplay (t : Tick) (v : Requester)
  | chkHoldRegroup (t : Tick) (v : Requester)
  | chkArbGo (t : Tick) (v : Requester) (seq : BitVec 32) (arbiter : UnitCode)
  | ctxRegister (t : Tick) (v : Requester) (index : Fin 8) (d : Descriptor) (img : Option Image)
  | ctxDeregister (t : Tick) (v : Requester) (index : Fin 8)
  | ctxSave (t : Tick) (v : Requester) (index : Fin 8) (d : Descriptor)
  | ctxRestore (t : Tick) (v : Requester) (index : Fin 8) (d : Descriptor)
  | ctxRestoreComplete (t : Tick) (p : PartId) (slot0 slot1 : CtxImage)
  /-- The slots are as memory holds them: the one the runtime chose has BODY_LEN and the body in clear (R367). -/
  | ctxSeal (t : Tick) (v : Requester) (index : Fin 8) (d : Descriptor) (slots : CtxSlots)
  | rngSeedHiWrite (t : Tick) (v : Requester) (data : Word)
  | probeStart (t : Tick) (v : Requester)
  | probeDone (t : Tick) (p : PartId)
  | rptTailWrite (t : Tick) (v : Requester) (data : BitVec 32)
  | ledgerWord0Read (t : Tick) (r : Requester) (index : Nat)
  | ledgerWordStage (t : Tick) (r : Requester) (index : Nat) (word : Fin 3) (data : Word)
  | ledgerWord3Write (t : Tick) (r : Requester) (index : Nat) (data : Word)
  | tableEntryWrite (t : Tick) (r : Requester) (isGroup : Bool) (index : Nat) (word1 : Word)
  | loReadLatch (t : Tick) (r : Requester) (addr : BitVec 24)
  | registerWrite (t : Tick) (r : Requester) (addr : BitVec 24) (data : Word)
  /-- A read of the TEL/DBG port in space 0 (telemetry, R430) or 1 (debug, R434). -/
  | debugRead (t : Tick) (v : Fin 32) (addr : TelAddr)
  | partitionAssign (t : Tick) (p : PartId)
  | partitionReset (t : Tick) (p : PartId)
  | partitionResetComplete (t : Tick) (p : PartId)
  | scrubStart (t : Tick) (p : PartId)
  | partitionFree (t : Tick) (p : PartId)
  | fenceConfirm (t : Tick) (s : SliceId) (data : Word)
  | fwLock (t : Tick) (bank : Fin 2) (measurement : List Byte)
  | fwClear (t : Tick) (bank : Fin 2)
  | fwStart (t : Tick)
  | fwSwap (t : Tick)
  | fwResetRestart (t : Tick)
  | keyInstall (t : Tick) (cmd : Word)
  | keyZeroise (t : Tick) (cmd : Word)
  | testInstruction (t : Tick) (secTestEn : Bool) (code : TestInstr)
  | ledgerClearComplete (t : Tick) (p : PartId)
  deriving DecidableEq, Repr

end Sys2Proof
end

