-- ==== Sys2Proof/Machine/Digest.lean ====
section
/-! DEFINITION. The digests, checks and ciphers the spec names by their standards: CRC-32C (R265), SHA-384
(R117, R252, R257, R258), AES-CMAC (R318) and AES-256-GCM (R362). The standards' own texts are not part of the
spec (log entry 10, PRESUMED). -/

namespace Sys2Proof.Machine

/-! ## CRC-32C -/

/-- One bit of the reflected Castagnoli division. -/
def crcBit (c : BitVec 32) : BitVec 32 :=
  if c.getLsbD 0 then (c >>> 1) ^^^ 0x82F63B78#32 else c >>> 1

/-- One byte of the division. -/
def crcByte (c : BitVec 32) (b : Byte) : BitVec 32 :=
  crcBit (crcBit (crcBit (crcBit (crcBit (crcBit (crcBit (crcBit (c ^^^ b.setWidth 32))))))))

/-- CRC-32C with initial value and final XOR 0xFFFF_FFFF (R265). -/
def crc32c (bs : List Byte) : BitVec 32 := (bs.foldl crcByte 0xFFFFFFFF#32) ^^^ 0xFFFFFFFF#32

/-! ## SHA-384 -/

/-- Round constants, first half. -/
def shaK0 : List (BitVec 64) :=
  [0x428A2F98D728AE22, 0x7137449123EF65CD, 0xB5C0FBCFEC4D3B2F, 0xE9B5DBA58189DBBC,
   0x3956C25BF348B538, 0x59F111F1B605D019, 0x923F82A4AF194F9B, 0xAB1C5ED5DA6D8118,
   0xD807AA98A3030242, 0x12835B0145706FBE, 0x243185BE4EE4B28C, 0x550C7DC3D5FFB4E2,
   0x72BE5D74F27B896F, 0x80DEB1FE3B1696B1, 0x9BDC06A725C71235, 0xC19BF174CF692694,
   0xE49B69C19EF14AD2, 0xEFBE4786384F25E3, 0x0FC19DC68B8CD5B5, 0x240CA1CC77AC9C65,
   0x2DE92C6F592B0275, 0x4A7484AA6EA6E483, 0x5CB0A9DCBD41FBD4, 0x76F988DA831153B5,
   0x983E5152EE66DFAB, 0xA831C66D2DB43210, 0xB00327C898FB213F, 0xBF597FC7BEEF0EE4,
   0xC6E00BF33DA88FC2, 0xD5A79147930AA725, 0x06CA6351E003826F, 0x142929670A0E6E70,
   0x27B70A8546D22FFC, 0x2E1B21385C26C926, 0x4D2C6DFC5AC42AED, 0x53380D139D95B3DF,
   0x650A73548BAF63DE, 0x766A0ABB3C77B2A8, 0x81C2C92E47EDAEE6, 0x92722C851482353B]

/-- Round constants, second half. -/
def shaK1 : List (BitVec 64) :=
  [0xA2BFE8A14CF10364, 0xA81A664BBC423001, 0xC24B8B70D0F89791, 0xC76C51A30654BE30,
   0xD192E819D6EF5218, 0xD69906245565A910, 0xF40E35855771202A, 0x106AA07032BBD1B8,
   0x19A4C116B8D2D0C8, 0x1E376C085141AB53, 0x2748774CDF8EEB99, 0x34B0BCB5E19B48A8,
   0x391C0CB3C5C95A63, 0x4ED8AA4AE3418ACB, 0x5B9CCA4F7763E373, 0x682E6FF3D6B2B8A3,
   0x748F82EE5DEFB2FC, 0x78A5636F43172F60, 0x84C87814A1F0AB72, 0x8CC702081A6439EC,
   0x90BEFFFA23631E28, 0xA4506CEBDE82BDE9, 0xBEF9A3F7B2C67915, 0xC67178F2E372532B,
   0xCA273ECEEA26619C, 0xD186B8C721C0C207, 0xEADA7DD6CDE0EB1E, 0xF57D4F7FEE6ED178,
   0x06F067AA72176FBA, 0x0A637DC5A2C898A6, 0x113F9804BEF90DAE, 0x1B710B35131C471B,
   0x28DB77F523047D84, 0x32CAAB7B40C72493, 0x3C9EBE0A15C9BEBC, 0x431D67C49C100D4C,
   0x4CC5D4BECB3E42B6, 0x597F299CFC657E2A, 0x5FCB6FAB3AD6FAEC, 0x6C44198C4A475817]

/-- Initial hash value of SHA-384. -/
def shaH0 : List (BitVec 64) :=
  [0xCBBB9D5DC1059ED8, 0x629A292A367CD507, 0x9159015A3070DD17, 0x152FECD8F70E5939,
   0x67332667FFC00B31, 0x8EB44A8768581511, 0xDB0C2E0D64F98FA7, 0x47B5481DBEFA4FA4]

/-- Small sigma functions of the message schedule. -/
def shaS (a b c : Nat) (x : BitVec 64) : BitVec 64 := x.rotateRight a ^^^ x.rotateRight b ^^^ (x >>> c)

/-- Big sigma functions of the rounds. -/
def shaB (a b c : Nat) (x : BitVec 64) : BitVec 64 := x.rotateRight a ^^^ x.rotateRight b ^^^ x.rotateRight c

/-- The message schedule, newest word first. -/
def shaSched : Nat → List (BitVec 64) → List (BitVec 64)
  | 0, w => w
  | n + 1, w =>
    shaSched n ((shaS 19 61 6 (w.getD 1 0) + w.getD 6 0 + shaS 1 8 7 (w.getD 14 0) + w.getD 15 0) :: w)

/-- One round on the working variables a..h. -/
def shaRound (v : List (BitVec 64)) (kw : BitVec 64 × BitVec 64) : List (BitVec 64) :=
  match v with
  | [a, b, c, d, e, f, g, h] =>
    let t1 := h + shaB 14 18 41 e + ((e &&& f) ^^^ (~~~e &&& g)) + kw.1 + kw.2
    let t2 := shaB 28 34 39 a + ((a &&& b) ^^^ (a &&& c) ^^^ (b &&& c))
    [t1 + t2, a, b, c, d + t1, e, f, g]
  | v => v

/-- Big-endian value of a byte string. -/
def natBE (bs : List Byte) : Nat := bs.foldl (fun n b => 256 * n + b.toNat) 0

/-- The `n` bytes of a number, most significant first. -/
def bytesBE (n v : Nat) : List Byte := (bytesLE n v).reverse

/-- One 128-byte block. -/
def shaBlock (h : List (BitVec 64)) (blk : List Byte) : List (BitVec 64) :=
  let w := (List.range 16).map fun i => BitVec.ofNat 64 (natBE ((blk.drop (8 * i)).take 8))
  let ws := (shaSched 64 w.reverse).reverse
  List.zipWith (· + ·) h (((shaK0 ++ shaK1).zip ws).foldl shaRound h)

/-- All blocks of a padded message. -/
def shaBlocks : Nat → List (BitVec 64) → List Byte → List (BitVec 64)
  | 0, h, _ => h
  | n + 1, h, bs => shaBlocks n (shaBlock h (bs.take 128)) (bs.drop 128)

/-- SHA-384 as its 48 bytes. -/
def sha384 (bs : List Byte) : List Byte :=
  let n := bs.length
  let padLen := (239 - n % 128) % 128
  let m := bs ++ 0x80#8 :: List.replicate padLen 0#8 ++ bytesBE 16 (8 * n)
  ((shaBlocks (m.length / 128) shaH0 m).flatMap fun x => bytesBE 8 x.toNat).take 48

/-! ## AES-256 -/

/-- Multiplication by x in the AES field. -/
def aesX (a : Byte) : Byte := if a.getLsbD 7 then (a <<< 1) ^^^ 0x1B#8 else a <<< 1

/-- Multiplication in the AES field, by the bits of `b` from bit 0. -/
def aesMulN : Nat → Byte → Byte → Byte
  | 0, _, _ => 0
  | n + 1, a, b => (if b.getLsbD 0 then a else 0) ^^^ aesMulN n (aesX a) (b >>> 1)

/-- Multiplication in the AES field. -/
def aesMul (a b : Byte) : Byte := aesMulN 8 a b

/-- The power a^(2^n - 2) by repeated squaring: the inverse for n = 8, zero for zero. -/
def aesInv : Nat → Byte → Byte
  | 0, _ => 1
  | n + 1, a => let r := aesInv n a
                let sq := aesMul r r
                if n = 7 then sq else aesMul sq a

/-- The AES substitution box. -/
def aesSbox (a : Byte) : Byte :=
  let b := aesInv 8 a
  b ^^^ b.rotateLeft 1 ^^^ b.rotateLeft 2 ^^^ b.rotateLeft 3 ^^^ b.rotateLeft 4 ^^^ 0x63#8

/-- The key schedule of AES-256, newest 4-byte word first; `i` counts the words made so far. -/
def aesExpand : Nat → Nat → Byte → List (List Byte) → List (List Byte)
  | 0, _, _, ws => ws
  | n + 1, i, rc, ws =>
    let t := ws.headD []
    let t' := if i % 8 = 0 then
                let s := ((t.drop 1) ++ (t.take 1)).map aesSbox
                (s.headD 0 ^^^ rc) :: s.drop 1
              else if i % 8 = 4 then t.map aesSbox else t
    aesExpand n (i + 1) (if i % 8 = 0 then aesX rc else rc) (List.zipWith (· ^^^ ·) (ws.getD 7 []) t' :: ws)

/-- The 15 round keys of a 32-byte key. -/
def aesRoundKeys (key : List Byte) : List (List Byte) :=
  let w0 := (List.range 8).map fun i => (key.drop (4 * i)).take 4
  let ws := (aesExpand 52 8 1 w0.reverse).reverse
  (List.range 15).map fun r => ((ws.drop (4 * r)).take 4).flatten

/-- ShiftRows on a column-major block. -/
def aesShift (b : List Byte) : List Byte :=
  (List.range 16).map fun i => b.getD ((i + 4 * (i % 4)) % 16) 0

/-- MixColumns on one column. -/
def aesMixCol (c : List Byte) : List Byte :=
  (List.range 4).map fun i =>
    aesMul 2 (c.getD i 0) ^^^ aesMul 3 (c.getD ((i + 1) % 4) 0) ^^^ c.getD ((i + 2) % 4) 0 ^^^ c.getD ((i + 3) % 4) 0

/-- MixColumns on a block. -/
def aesMix (b : List Byte) : List Byte :=
  ((List.range 4).map fun j => aesMixCol ((b.drop (4 * j)).take 4)).flatten

/-- Bytewise exclusive or. -/
def xorBytes (a b : List Byte) : List Byte := List.zipWith (· ^^^ ·) a b

/-- The rounds after the first key addition. -/
def aesRounds : List (List Byte) → List Byte → List Byte
  | [], b => b
  | [k], b => xorBytes (aesShift (b.map aesSbox)) k
  | k :: ks, b => aesRounds ks (xorBytes (aesMix (aesShift (b.map aesSbox))) k)

/-- AES-256 on one block under its round keys. -/
def aesEnc (rks : List (List Byte)) (blk : List Byte) : List Byte :=
  aesRounds (rks.drop 1) (xorBytes blk (rks.headD []))

/-! ## AES-CMAC -/

/-- Doubling in the CMAC field, on the big-endian block. -/
def cmacDbl (b : List Byte) : List Byte :=
  let n := natBE b
  let d := (2 * n) % 2 ^ 128
  bytesBE 16 (if n ≥ 2 ^ 127 then (BitVec.ofNat 128 d ^^^ 0x87#128).toNat else d)

/-- The chained blocks of CMAC, the last one masked. -/
def cmacBlocks (rks : List (List Byte)) (k1 k2 : List Byte) : Nat → List Byte → List Byte → List Byte
  | 0, x, _ => x
  | n + 1, x, m =>
    if n = 0 then
      let last := if m.length = 16 then xorBytes m k1
                  else xorBytes (m ++ 0x80#8 :: List.replicate (15 - m.length) 0) k2
      aesEnc rks (xorBytes x last)
    else cmacBlocks rks k1 k2 n (aesEnc rks (xorBytes x (m.take 16))) (m.drop 16)

/-- AES-CMAC under a 256-bit key (R318). -/
def aesCmac (key msg : List Byte) : List Byte :=
  let rks := aesRoundKeys key
  let k1 := cmacDbl (aesEnc rks (List.replicate 16 0))
  cmacBlocks rks k1 (cmacDbl k1) (max 1 (ceilDiv msg.length 16)) (List.replicate 16 0) msg

/-! ## AES-256-GCM -/

/-- Multiplication in the GHASH field, over the bits of `x` from the most significant. -/
def ghashMul : Nat → BitVec 128 → BitVec 128 → BitVec 128 → BitVec 128
  | 0, _, _, z => z
  | n + 1, x, v, z =>
    ghashMul n (x <<< 1) (if v.getLsbD 0 then (v >>> 1) ^^^ (0xE1#128 <<< 120) else v >>> 1)
      (if x.getLsbD 127 then z ^^^ v else z)

/-- A byte string cut into zero-padded blocks. -/
def blocks16 : Nat → List Byte → List (BitVec 128)
  | 0, _ => []
  | n + 1, bs =>
    let b := bs.take 16
    BitVec.ofNat 128 (natBE (b ++ List.replicate (16 - b.length) 0)) :: blocks16 n (bs.drop 16)

/-- GHASH of a string's blocks. -/
def ghash (h : BitVec 128) (bs : List (BitVec 128)) : BitVec 128 :=
  bs.foldl (fun y b => ghashMul 128 (y ^^^ b) h 0) 0

/-- The counter-mode key stream from counter value `c`, xored onto the text. -/
def gctr (rks : List (List Byte)) (nonce : List Byte) : Nat → Nat → List Byte → List Byte
  | 0, _, _ => []
  | n + 1, c, bs =>
    xorBytes (bs.take 16) (aesEnc rks (nonce ++ bytesBE 4 c)) ++ gctr rks nonce n (c + 1) (bs.drop 16)

/-- Encryption and decryption of a text: the same counter stream. -/
def gcmCrypt (key nonce text : List Byte) : List Byte :=
  gctr (aesRoundKeys key) nonce (ceilDiv text.length 16) 2 text

/-- The tag over the additional data and the cipher text (R362). -/
def gcmTag (key nonce aad cipher : List Byte) : List Byte :=
  let rks := aesRoundKeys key
  let h := BitVec.ofNat 128 (natBE (aesEnc rks (List.replicate 16 0)))
  let lens := BitVec.ofNat 128 (8 * aad.length * 2 ^ 64 + 8 * cipher.length)
  let y := ghash h (blocks16 (ceilDiv aad.length 16) aad ++ blocks16 (ceilDiv cipher.length 16) cipher ++ [lens])
  xorBytes (bytesBE 16 y.toNat) (aesEnc rks (nonce ++ bytesBE 4 1))

end Sys2Proof.Machine
end

