-- ==== Sys2Proof/Machine/State.lean ====
section
/-! DEFINITION. The state of the FX4: every register, buffer, queue, counter, mode and pin the spec gives the
block, as plain data, and `State.reset` (INVENTORY.md, '## State' lists each with its rule). -/

namespace Sys2Proof.Machine

/-- Sparse storage by number: a list of (key, value) pairs with keys strictly rising and no value equal to
what an unlisted key reads as (log entry 16). -/
abbrev Tab (α : Type) := List (Nat × α)

/-- The stage buffers' bytes: cells of slice * 2^25 + 512 * line + byte (Table 16.15, R19). -/
abbrev Memory := List Host.Cell

/-! ## Engine -/

/-- Engine states (Table 14.2). -/
inductive Phase where
  | reset | init | firmware | budget | burn | ready | noService | halted
  deriving DecidableEq, Repr

/-- Severities (Table 11.10). -/
inductive Severity where
  | info | correctable | stepReplay | partFatal | engFatal
  deriving DecidableEq, Repr

/-- A report record (Table 11.9). -/
structure Rec where
  syndrome : BitVec 128
  epoch : Word
  /-- Start tick of the epoch that holds the event, for the coarsened form (R348). -/
  epochStart : Nat
  time : Nat
  step : BitVec 32
  slot : Nat
  tid : Option (BitVec 24)
  tag : Option Nat
  temp : Int
  volt : Nat
  unit : UnitCode
  attempt : Nat
  part : Option PartId
  grade : Nat
  severity : Severity
  code : Byte
  limit : Bool
  coarse : Bool
  arb : Bool
  /-- Left queued at a partition reset: it goes to the operator only (R346). -/
  opOnly : Bool
  seq : BitVec 32
  deriving DecidableEq, Repr

/-- What a unit gives the report unit for a record (R323): the fields that are not the report unit's own. -/
structure Report where
  code : Byte
  severity : Severity
  unit : UnitCode
  part : Option PartId
  synd : Nat := 0
  slot : Nat := Config.noKey
  tid : Option (BitVec 24) := none
  tag : Option Nat := none
  limit : Bool := false
  deriving DecidableEq, Repr

/-- An in-service burn that has failed and whose record is not raised yet (R317): the pair's runs, the stream and the burn count of its
draws (R315). -/
structure FailedBurn where
  a : BurnRun
  b : BurnRun
  stream : Nat
  count : Nat
  deriving DecidableEq, Repr

/-- The start-up burn's progress (R375 steps 7 to 10): first and last request, the epoch a grant covers, judged or not. -/
structure BurnPhase where
  firstReq : Option Nat
  granted : Option Nat
  judged : Bool
  deriving DecidableEq, Repr

/-- Engine-wide registers and start-up state. -/
structure Eng where
  phase : Phase
  cause : Byte
  arraysOk : Nat
  /-- ENG_FENCEs, one word per slice (Table 14.6). -/
  fences : Tab (BitVec 16)
  /-- Fences requested and not yet confirmed (R383), with the record that caused each (R384). -/
  fenceReqs : List (UnitCode × Option Rec)
  opsel : PartId
  secsel : PartId
  releasedAt : Nat
  tbLocked : Bool
  bootLockstep : Nat
  awaitCycle : Bool
  testMode : Bool
  /-- The instruction that the TEST wrapper holds (R410). -/
  wrapper : TestInstr
  /-- Shared units found with a residue or parity failure at start-up (R386). -/
  sharedBad : List UnitCode
  burn : BurnPhase
  /-- In-service burns that have failed, oldest first (R317). -/
  burnFails : List FailedBurn
  /-- CFG_IGNORED_OP (Table 16.10). -/
  ignoredOp : Nat
  deriving DecidableEq, Repr

/-- Strap inputs (Table 15.10). -/
structure Straps where
  memRdLat : Nat
  memWrLat : Nat
  flueLat : Nat
  memMhz : Nat
  flueMhz : Nat
  chip : BitVec 32
  deriving DecidableEq, Repr

/-- PWR pins (Table 15.9); `vset` holds codes that differ from the start-up setpoint. -/
structure Pwr where
  good : BitVec 65
  en : BitVec 65
  vset : Tab Nat
  /-- Array domains switched off since start-up: fenced until a start-up burn passes (R338). -/
  wasOff : List Nat
  deriving DecidableEq, Repr

/-- A damper request sent (R331, Table 15.7), with the ceilings stamped before it (R332). -/
structure DmpReq where
  start : Nat
  len : Nat
  src : Byte
  amps : Tab Nat
  ceil : Tab Nat
  sentEpoch : Nat
  deriving DecidableEq, Repr

/-- Domain telemetry (R429). -/
structure DomTel where
  mv : Nat
  temp : Int
  minMv : Nat
  maxTemp : Int
  /-- Lowest voltage and highest temperature sampled in the running epoch. -/
  cur : Option (Nat × Int)
  current : Nat
  below : Nat
  short : Nat
  late : Nat
  deriving DecidableEq, Repr

/-- The damper interface. -/
structure Dmp where
  tempWarn : Nat
  guard : Nat
  gradeMax : Nat
  stretchStep : Nat
  fitEn : Bool
  wait : Nat
  loss : Bool
  /-- A grant message has set the ceilings since reset (R332, R429). -/
  told : Bool
  unfit : List PartId
  throttle : Bool
  /-- Ticks of the last assertion and release (R228, R336). -/
  throttleAt : Nat
  releasedAt : Nat
  reqs : List DmpReq
  ceil : Tab Nat
  grant : Tab Nat
  lastReq : Tab Nat
  tel : Tab DomTel
  deriving DecidableEq, Repr

/-- One firmware bank (R356, Table 16.14); `words` is its instruction memory. -/
structure Bank where
  version : BitVec 32
  svn : BitVec 16
  valid : Bool
  locked : Bool
  measurement : List Byte
  words : Tab Word
  deriving DecidableEq, Repr

/-- The stoker pair. -/
structure Stk where
  bank0 : Bank
  bank1 : Bank
  active : Bool
  bankSel : Bool
  running : Bool
  /-- The pair has been restarted or started and its completion is awaited (R314, R357). -/
  restarting : Bool
  /-- A firmware activation is under way (R357). -/
  activating : Bool
  /-- The banks have been swapped and the pair restarts from the new active one (R357). -/
  swapping : Bool
  restarts : Nat
  /-- Tick of the last restart (R314). -/
  lastRestart : Option Nat
  /-- Syndrome of the last STOKER_LOCKSTEP record (R307, Table 11.11). -/
  synd : Nat
  /-- Start-up epoch at which the ledger sweep last ended (R221). -/
  lastSweep : Nat
  deriving DecidableEq, Repr

/-- The report unit (R326); `out` holds what has crossed RPT (R406, log entry 6). -/
structure Rpt where
  queue : List Rec
  seq : BitVec 32
  dropInfo : Nat
  dropCorr : Nat
  dropStep : Nat
  dropPart : Nat
  dropEng : Nat
  out : List Rec
  /-- SEQ of the records whose place among those of their tick is not the one they were raised in (R26), by the number in order
  of raising. -/
  moved : List (BitVec 32 × BitVec 32)
  deriving DecidableEq, Repr

/-- Event messages to the root of trust (R405). -/
inductive SecEvent where
  | fence (u : UnitCode)
  | lockstep
  | resetDone (p : PartId)
  | ready (r : Rec)
  deriving DecidableEq, Repr

/-- A response on CFG, SEC or TEL (Tables 15.4, 15.8). -/
structure Rsp where
  rdata : Word
  status : Nat
  deriving DecidableEq, Repr

/-! ## Tables -/

/-- A ledger entry (Table 8.1); `hist` holds HIST15..HIST0 with HIST0 in the low byte. -/
structure LedgerEntry where
  zeroGroups : BitVec 40
  flushed : BitVec 40
  ashSat : BitVec 40
  ashUsed : BitVec 40
  clipped : BitVec 40
  groups : BitVec 40
  elements : BitVec 40
  hist : BitVec 128
  amax : BitVec 32
  ts32 : BitVec 32
  policy : BitVec 4
  valid : Bool
  silent : Bool
  fbActive : Bool
  failCause : BitVec 3
  fbLeft : BitVec 6
  tid : BitVec 24
  deriving DecidableEq, Repr

/-- A group-table entry: as written, the values in force, and whether a change is pending (R271, R273). -/
structure GroupEntry where
  written : BitVec 128
  inForce : BitVec 128
  pending : Bool
  deriving DecidableEq, Repr

/-- A key slot (R351, Table 13.6) with its nonce (R364). -/
structure KeySlot where
  key : BitVec 256
  keyId : BitVec 32
  kind : BitVec 2
  purpose : BitVec 2
  valid : Bool
  rand : BitVec 48
  count : BitVec 48
  deriving DecidableEq, Repr

/-- The key window of SEC (Table 16.14). -/
structure KeyWin where
  data : BitVec 256
  nonce : BitVec 48
  refused : Bool
  group : BitVec 32
  deriving DecidableEq, Repr

/-- What a view holds between requests: latched HI halves by partition * 2^24 + address (R416), the ledger snapshot and
the staged words of one entry (R423), and the latched word 1 and staged word 0 of a member and of a group entry (R424).
Entries go by their global numbers. -/
structure ViewLatch where
  hi : Tab Word
  snap : Option (Nat × LedgerEntry)
  staged : Option (Nat × Option Word × Option Word × Option Word)
  membSnap : Option (Nat × Word)
  membStaged : Option (Nat × Word)
  grpSnap : Option (Nat × Word)
  grpStaged : Option (Nat × Word)
  deriving DecidableEq, Repr

/-! ## Data path -/

/-- An operand group in a register: its integers (R100), which positions are escaped, whether its elements have three
limbs (R103), and its GS8 byte (R47). -/
structure OpGroup where
  q : List Int
  esc : List Bool
  wide : Bool
  gs8 : Byte
  deriving DecidableEq, Repr

/-- A tile in an array, or a block of a copy, fill or sampler in a row unit. -/
structure Tile where
  part : PartId
  slot : Nat
  bind : Nat
  unit : Nat
  row : Nat
  col : Nat
  k : Nat
  tag : Nat
  /-- 0 a product; 1 the scores and 2 the P·V product of a chained product (R151, R153). -/
  phase : Nat
  deriving DecidableEq, Repr

/-- What has failed under some values (R20, R298): VERDICT_MISMATCH's low syndrome bits and the unit, each once. -/
abbrev Failure := List (Nat × UnitCode)

/-- A tile that waits for its verdict (R299): the 128 drained sums D1 and reference sums C1 (rows first), or none for a tile that no
array completed; the sums without any fault, which a re-run finds (R310); the cause of a negative verdict that has its record already (an overflow, R107; an abandoned tile, R66); and
the sources and units of residue or SECDED failures. -/
structure Judge where
  tile : Tile
  sums : Option (List (BitVec 128) × List (BitVec 128))
  truth : List (BitVec 128)
  cause : Option Byte
  failure : Failure
  deriving DecidableEq, Repr

/-- One array with its drain latches and the checker's sums for it (R14, R104, R297). -/
structure ArraySt where
  acc : Tab (BitVec 128)
  latch : Tab (BitVec 128)
  gsum : Tab (BitVec 54)
  rowOp : Tab OpGroup
  colOp : Tab OpGroup
  tapRow : Tab (BitVec 128)
  tapCol : Tab (BitVec 128)
  /-- Group in hand and the cursor of R104: limb i, limb j, part. -/
  grp : Nat
  limbI : Nat
  limbJ : Nat
  part : Nat
  tile : Option Tile
  drained : Option Tile
  overflow : Bool
  failure : Failure
  judges : List Judge
  /-- The tap sums as they are without a fault in the checker: what a re-run of the tile will find (R310). -/
  pureRow : Tab (BitVec 128)
  pureCol : Tab (BitVec 128)
  deriving DecidableEq, Repr

/-- A line a station has read (R393). -/
structure StLine where
  part : PartId
  slot : Nat
  opnd : Nat
  kind : LineKind
  index : Nat
  data : List Byte
  tag : BitVec 16
  /-- A stage-buffer word of the line cannot be corrected, or a check failed on the way: VERDICT_MISMATCH's low syndrome
  bits and the unit (R20, R298). -/
  fail : Failure
  deriving DecidableEq, Repr

/-- A checked or quantised group in a station's pipeline. -/
structure StGroup where
  part : PartId
  slot : Nat
  opnd : Nat
  row : Nat
  grp : Nat
  g : OpGroup
  fail : Failure
  deriving DecidableEq, Repr

/-- One ingress station. -/
structure Station where
  lines : List StLine
  groups : List StGroup
  deriving DecidableEq, Repr

/-- A memory read outstanding (R393). -/
structure MemRead where
  port : PortId
  id : Fin 1024
  part : PartId
  station : Nat
  slot : Nat
  opnd : Nat
  kind : LineKind
  index : Nat
  addr : Nat
  dropped : Bool
  /-- The loader's read of line `index` of an image (R422), no station's. -/
  loader : Bool
  deriving DecidableEq, Repr

/-- A memory write (R393): a line with its word mask and tag; without an identifier while it waits for one, or for an
earlier write to the same line (R394). -/
structure MemWrite where
  port : PortId
  id : Option (Fin 1024)
  part : PartId
  slot : Nat
  addr : Nat
  data : List Byte
  mask : BitVec 64
  tag : BitVec 16
  dropped : Bool
  deriving DecidableEq, Repr

/-- The stage buffers (R19, R20, R64). -/
structure StageBufs where
  mem : Memory
  /-- Lines whose written-since-load bit is set, by slice * 65,536 + line. -/
  valid : Tab Bool
  tag : Tab (BitVec 16)
  /-- Words that cannot be corrected, by (slice * 65,536 + line) * 64 + word. -/
  bad : Tab Bool
  deriving DecidableEq, Repr

/-- A packet that waits for a send context, with its partition and whether it takes the control context (R269). -/
structure Waiting where
  part : PartId
  pkt : Packet
  chip : BitVec 32
  dstPart : Nat
  dstPort : Nat
  toSwitch : Bool
  control : Bool
  deriving DecidableEq, Repr

/-- A flue port (R269, R284, R398): link level, the tick each context is free again, and the waiting packets. -/
structure FluePort where
  up : Bool
  /-- The link fell in the current attempt: nothing more is sent until an anchor finds it up (R398). -/
  stopped : Bool
  contexts : List Nat
  waiting : List Waiting
  /-- Sends whose last flit may still be to come, with the tick at which it has left (R284). -/
  sending : List (Nat × Waiting)
  /-- Sends cut off after a flit because their partition was HALTED, with the tick (R266): the peer sees no packet. -/
  cut : List (Nat × Waiting)
  deriving DecidableEq, Repr

/-- A slice's counters (Table 16.10, column Slice) and its burn register (Table 16.12). -/
structure SliceSt where
  counters : Tab Nat
  burnLast : BitVec 32
  burnCount : BitVec 32
  residueUnits : List (UnitCode × Nat)
  deriving DecidableEq, Repr

/-! ## Partitions -/

/-- Partition-table states (Table 13.2). -/
inductive PState where
  | free | assigned | resetting | scrubbing
  deriving DecidableEq, Repr

/-- Schedule states (Table 9.10). -/
inductive Sched where
  | empty | loading | ready | starting | running | held | done | halted
  deriving DecidableEq, Repr

/-- The causes for which a partition is held at a commit point, in the order of R249. -/
inductive HoldCause where
  | fallback
  | arbitration
  | triage (code : Byte)
  | replayLimit (code : Byte)
  | digest
  | stoker
  | firmware
  | seal
  | throttle
  | peer
  deriving DecidableEq, Repr

/-- A decision at a commit point (R211, R240). -/
inductive Decision where
  | commit | replay | hold
  deriving DecidableEq, Repr

/-- The partition-table fields the root of trust writes (Tables 13.3 and 13.5). -/
structure PCfg where
  tenant : BitVec 32
  size : Nat
  first : Nat
  state : PState
  /-- Event 0x03 has been sent for the reset in progress (Table 16.4). -/
  resetDone : Bool
  lgrBase : Nat
  lgrCount : Nat
  membBase : Nat
  membCount : Nat
  grpBase : Nat
  grpCount : Nat
  keyBase : Nat
  keyCount : Nat
  keyKind : BitVec 2
  dbgSeen : Bool
  opProfile : Bool
  opDebug : Bool
  deriving DecidableEq, Repr

/-- A running or ended slot of the attempt (R232, R234). -/
structure SlotRun where
  key : Nat
  launched : Nat
  done : Option Nat
  aborted : Bool
  /-- Why it is incomplete, as SLOT_OVERRUN's cause and port (Table 11.11). -/
  cause : Nat
  causePort : Nat
  memErr : Bool
  /-- Per slice: the first unwritten line read, its tick and the further reads (R19). -/
  unwritten : List (Nat × Nat × Nat × Nat)
  /-- Stations that have stopped feeding the slot's product (R66). -/
  stopped : List UnitCode
  /-- Units of work begun and finished, and the tiles begun of each unit of a chained product (R437, R160). -/
  begun : List Nat
  finished : List Nat
  sub : Tab Nat
  /-- Tensor scales of operands under direct MX import (R68). -/
  scales : List (Nat × BitVec 32)
  deriving DecidableEq, Repr

/-- What dooms an attempt (R300), kept for R306: the report code, the syndrome when the member's own record did it. -/
structure Doom where
  code : Byte
  syndrome : BitVec 128
  own : Bool
  tick : Nat
  deriving DecidableEq, Repr

/-- One ledger exchange record (Table 10.9) with its sender. -/
structure ExRec where
  src : Nat
  pos : Nat
  entry : Nat
  tid : BitVec 24
  counts : List (BitVec 40)
  amax : BitVec 32
  deriving DecidableEq, Repr

/-- A tile on the arbitration list (R309), with the re-run's arbiter and end (R310, R311). -/
structure ArbItem where
  tile : Tile
  array : ArrayId
  /-- The attempt whose verdict listed it. -/
  att : Nat
  /-- Number of the VERDICT_MISMATCH record in order of raising (`Rpt.seqOf` gives its SEQ). -/
  seq : BitVec 32
  d1 : List (BitVec 128)
  c1 : List (BitVec 128)
  /-- The tile's sums as its operands give them, which a re-run without a fault drains (R310). -/
  truth : List (BitVec 128)
  arbiter : Option UnitCode
  tries : Nat
  done : Bool
  deriving DecidableEq, Repr

/-- A tile sent whose verdict is still to follow it: binding, coordinates, and the ranks it went to (R276, R277). -/
structure SentTile where
  bind : Nat
  row : Nat
  col : Nat
  part : Nat
  ranks : List Nat
  deriving DecidableEq, Repr

/-- One live stream (R176, R180). -/
structure Stream where
  id : BitVec 32
  cur : BitVec 128
  cmt : BitVec 128
  deriving DecidableEq, Repr

/-- The current attempt of a partition (R238 to R244, R300 to R306). -/
structure Attempt where
  live : Bool
  number : Nat
  limit : Nat
  grade : Nat
  anchorEpoch : Nat
  anchorTick : Nat
  /-- COMMIT slots launch in this attempt (R242). -/
  runsCommit : Bool
  /-- Some cause doomed the attempt before its last COMMIT slot ended: the next runs them again (R304). -/
  commitAgain : Bool
  launched : Bool
  /-- First tick at which launches of the attempt are suppressed (R234, R301). -/
  suppressFrom : Option Nat
  doom : Option Doom
  /-- Codes of the member's own step-replay records of the attempt, with the syndrome of the first of each, in order (R324). -/
  causes : List (Byte × BitVec 128)
  fb : Bool
  policies : List Word
  clearDone : Bool
  variants : List (Nat × Bool)
  slots : List SlotRun
  tilesBegun : Tab Nat
  /-- Per slice: the tick at which it last began tiles and the unit codes that began them then, ascending (R32). -/
  begunNow : List (Nat × Nat × List Nat)
  /-- TS32 of the entries that the step's bindings name, as the first launch fixed them (R79). -/
  scales : List (Nat × BitVec 32)
  /-- Tiles begun whose verdict is not yet in. -/
  openTiles : Nat
  pointSent : Bool
  exchange : List ExRec
  exchangeDone : Bool
  /-- Verdict words received: binding, sender, row, column, part. -/
  verdicts : List (Nat × Nat × Nat × Nat × Nat)
  noticeReplay : Bool
  noticeHold : Bool
  decision : Option Decision
  final : Bool
  /-- The stream states from before a commit decision of the member's own took them forward (R180): what a replay of the job restores. -/
  rewind : Option (List Stream)
  arb : Bool
  /-- Lease uses, by the key of their variant, refused in time (R288); leases requested, with their first epoch; and the choices by use:
  member, ring (R291). -/
  refused : List Nat
  requested : List (Nat × Nat)
  choices : List (Nat × Nat × Bool)
  /-- Entries with an uncorrectable error in this step and the syndromes of its records; a second one is fatal (R220). -/
  eccEntries : List (Nat × Nat)
  /-- Own tiles with a positive verdict, binding, row, column and part, each with the array whose checker gave it; and own tiles sent (R277). -/
  judged : List ((Nat × Nat × Nat × Nat) × Nat)
  /-- Arrays whose domain fell below 0.65 V under a slot of the attempt: no verdict of theirs is positive (R329). -/
  low : List Nat
  sent : List SentTile
  /-- Lines of weight shards hashed: identifier, kind, line index (R319). -/
  hashed : List (Nat × Nat × Nat)
  /-- Verdicts owed for states, records and shares sent: binding, row, part, group, rank (R278). -/
  owed : List (Nat × Nat × Nat × Nat × Nat)
  deriving DecidableEq, Repr

/-- A want of a member (R246). -/
structure Want where
  member : Nat
  from_ : Nat
  grade : Nat
  stretch : Nat
  deriving DecidableEq, Repr

/-- A START word (Table 10.10) with the header facts a join needs. -/
structure StartWord where
  src : Nat
  epoch : Nat
  tick : Nat
  timeline : BitVec 64
  logical : List Byte
  grade : Nat
  stretch : Nat
  join : Byte
  limit : Nat
  step : BitVec 32
  attempt : Nat
  deriving DecidableEq, Repr

/-- Agreement state (R245 to R250, R263). -/
structure Agree where
  starts : List StartWord
  wants : List Want
  /-- RESUME words by member: e_p and outcome (true replay). -/
  resumes : List (Nat × Nat × Bool)
  /-- REPLACE words by member: e_p, timeline digest, logical digest's first 8 bytes. -/
  replaces : List (Nat × Nat × BitVec 64 × BitVec 64)
  joining : Bool
  ownResume : Bool
  /-- STEP of the held attempt, which a joining member carries in its packets until its anchor (R250). -/
  carry : Option (BitVec 32)
  deriving DecidableEq, Repr

/-- Schedule registers and time base of a partition (Table 16.5, R223). -/
structure Sch where
  state : Sched
  /-- State to return to when a load is rejected (R261). -/
  before : Sched
  epoch : Word
  epochTick : Nat
  timed : Bool
  stretch : Nat
  step : Word
  seg : BitVec 32
  commitFirst : Bool
  hostSlot : BitVec 32
  hostPending : Bool
  hostGo : Bool
  wantStretch : Nat
  wantGrade : Nat
  /-- Grade whose floor the setpoints of the partition's array domains have (R328): set at the tick of an anchor, before the attempt itself
  begins. 0 before the first. -/
  graded : Nat
  /-- Stretch added for temperature (R335). -/
  heat : Nat
  commitEpoch : Nat
  holds : List HoldCause
  heldSince : Nat
  /-- Epoch at whose beat 0 the next attempt is anchored, once known (R241, R249, R371). -/
  nextAnchor : Option Nat
  /-- The outcome the next anchor follows: true replay. -/
  outcomeReplay : Bool
  /-- The anchor to come is the first after a start, a rejoin or a switch. -/
  first : Bool
  deriving DecidableEq, Repr

/-- Loader registers (Table 16.6). -/
structure Ldr where
  addr : Word
  len : BitVec 32
  result : Nat
  reject : BitVec 48
  image : Option Image
  staged : Option Image
  /-- The epoch from which the agreed patch takes effect (R263). -/
  patchFrom : Option Nat
  patchDigest : List Byte
  /-- A first full image has been loaded since reset: RWL fields are locked (R11, R435). -/
  locked : Bool
  /-- Lines of the image being loaded whose read has been issued, those that have come, and whether a read was answered with an error
  (R422). -/
  asked : Nat
  lines : Tab (List Byte)
  readErr : Bool
  deriving DecidableEq, Repr

/-- The RNG block of a partition (Table 16.7). -/
structure Rng where
  seed : BitVec 128
  stagedLo : Word
  /-- The seed that a write of RNG_SEED_HI has made pending (R169, R425). -/
  pending : Option (BitVec 128)
  /-- The pending seed takes effect at the first step that begins after the next commit point (R169). -/
  ripe : Bool
  probeSeed : BitVec 128
  probeP0 : BitVec 128
  probeP1 : BitVec 128
  probeBusy : Option Word
  probeDone : Bool
  probeOut : Word
  strSel : BitVec 32
  streams : List Stream
  embers : List Stream
  deriving DecidableEq, Repr

/-- A dynamic exchange in progress (R280, R281). -/
structure DynEx where
  bind : Nat
  counts : List (Nat × Nat)
  consumed : Nat
  grants : List (Nat × Nat)
  /-- Grants received as a source, by rank. -/
  credit : List (Nat × Nat)
  /-- Lines landed, by global line. -/
  landed : List Nat
  deriving DecidableEq, Repr

/-- A chained-product state of one row at a tree node (R154, R155). -/
structure ChState where
  bind : Nat
  row : Nat
  level : Nat
  node : Nat
  m : BitVec 32
  l : BitVec 32
  o : List (BitVec 32)
  f : Bool
  /-- Residue and SECDED failures under its values (R298). -/
  fail : Failure
  deriving DecidableEq, Repr

/-- A best candidate of a score row (R193). -/
structure Best where
  bind : Nat
  row : Nat
  z : BitVec 32
  v : Nat
  parts : List Nat
  deriving DecidableEq, Repr

/-- A PF32 running sum (R115): the owner's binding, output tile, sum so far, parts received, and the owner's own tile
once it has drained. -/
structure RunSum where
  bind : Nat
  row : Nat
  col : Nat
  vals : List (BitVec 32)
  count : Nat
  own : Option Tile
  deriving DecidableEq, Repr

/-- The last tick at which FLU_RED_CHOICE was written, what the register held before that tick's writes, and the bits they wrote (R426). -/
structure ChoiceMark where
  tick : Nat
  old : BitVec 256
  wrote : BitVec 256
  deriving DecidableEq, Repr

/-- FLU registers and receive state of a partition (Tables 10.5 and 16.8). -/
structure Flu where
  tag : BitVec 16
  jobGroup : BitVec 10
  self : BitVec 13
  grpErr : Bool
  redChoice : BitVec 256
  dyn : List DynEx
  /-- Tiles landed, for the waits of R279: binding, row, column, part. -/
  landed : List (Nat × Nat × Nat × Nat)
  states : List ChState
  best : List Best
  sums : List RunSum
  /-- STATE packets that wait for the rest of their state (R268). -/
  chunks : List Packet
  /-- Tick at which GRP_ERR was set last (R417). -/
  grpErrAt : Option Nat
  choiceMark : Option ChoiceMark
  deriving DecidableEq, Repr

/-- The record ring of a partition (R427). -/
structure Ring where
  head : BitVec 32
  tail : BitVec 32
  dropped : BitVec 32
  slots : Tab Rec
  deriving DecidableEq, Repr

/-- Telemetry of a partition (Tables 16.10 and 16.11). -/
structure Tel where
  counters : Tab Nat
  powerEpoch : BitVec 32
  power : BitVec 32
  blockEpoch : BitVec 32
  blockPower : BitVec 32
  blockSum : Nat
  /-- Epochs of the block in progress that the sum holds (R348). -/
  blockN : Nat
  slackSel : BitVec 32
  slack : Tab Nat
  deriving DecidableEq, Repr

/-- A digest of one identifier: sender's rank, identifier, sum and lines (R318, R320). -/
structure DigestRec where
  rank : Nat
  id : Nat
  digest : BitVec 128
  lines : Nat
  deriving DecidableEq, Repr

/-- Checker and hold registers of a partition (Tables 11.3, 11.5, 11.6). -/
structure Chk where
  holdEp : Nat
  cause : Byte
  replayLim : Bool
  pending : Bool
  arbUnit : UnitCode
  arbResult : Nat
  arbDone : Bool
  arbSeq : BitVec 32
  arbGo : Bool
  list : List ArbItem
  digGroup : BitVec 10
  digInterval : BitVec 6
  digEnable : Bool
  digAddr : Word
  own : List DigestRec
  recv : List DigestRec
  /-- The release was ACTION 0b11 (R322). -/
  regroup : Bool
  deriving DecidableEq, Repr

/-- A save in progress (R365): the context, the STEP and the body as the commit decision leaves them. -/
structure SaveJob where
  index : Nat
  step : Word
  body : List Byte
  deriving DecidableEq, Repr

/-- A write of a context slot on its way to memory (R365, R367). -/
structure CtxWrite where
  addr : Nat
  bytes : List Byte
  deriving DecidableEq, Repr

/-- A context image as it was written (R365, R367). -/
structure SaveSt where
  index : Nat
  slot : Nat
  step : Word
  image : CtxImage
  deriving DecidableEq, Repr

/-- Context control of a partition (Tables 13.10 and 13.11). -/
structure Ctx where
  saveEvery : Nat
  index : Nat
  base : Word
  savedStep : BitVec 32
  /-- Descriptors as the engine last read them (OP 1 to 5). -/
  descs : Tab Descriptor
  /-- REGISTERED. -/
  reg : BitVec 8
  images : Tab Image
  result : Nat
  active : Nat
  /-- OP 3 asks for a save at the next commit decision. -/
  request : Bool
  /-- A failed save is tried again on the same slot (R366). -/
  retry : Option Nat
  saving : Option SaveJob
  /-- The turn has ended: the context to switch to once the save is complete (R371). -/
  switching : Bool
  restoring : Option Nat
  /-- The STEP of the valid images of the two slots of each context, as the engine last wrote or read them. -/
  slotSteps : Tab (Option Nat × Option Nat)
  /-- Committed steps run in the turn (R371). -/
  turn : Nat
  /-- Contexts that OP 2 takes out at their next switch (R370). -/
  leaving : List Nat
  /-- The context image last written whole (R365, R367), as it went to memory. -/
  written : Option SaveSt
  /-- The writes that the last save or seal issued, in their order (R365). -/
  writes : List CtxWrite
  deriving DecidableEq, Repr

/-- A value on its way through a chain: an exact accumulator value with its scale reference, the F32 sum of a product's PF32 parts, or
F32 bits. -/
inductive Val where
  | exact (a : BitVec 128) (tsa tsb : BitVec 32)
  | sum (b : BitVec 32)
  | f32 (b : BitVec 32)
  deriving DecidableEq, Repr

/-- An output element held until its row or group is complete (R77, R133, R164). -/
structure HeldVal where
  bind : Nat
  /-- 0 before normalisation, 1 before quantise-out, 4 for a send; from 5 on, bytes and words that wait for the rest of
  their 8-byte word: 5 MX scales, 6 two-pass amax, 7 and 8 a sampler's index and score. -/
  stage : Nat
  row : Nat
  col : Nat
  val : Val
  deriving DecidableEq, Repr

/-- A quantised output group held until its packet is whole (R61, R393). -/
structure OutGroup where
  bind : Nat
  g : Nat
  codes : List Nat
  gs8 : Byte
  ash : List (BitVec 32)
  deriving DecidableEq, Repr

/-- The assembly of one output tensor's streams (R61, R63). -/
structure OutAsm where
  bind : Nat
  nextAsh : Nat
  ashPackets : Nat
  nAsh : Nat
  rowTs : Tab (BitVec 32)
  overflow : Bool
  finished : Bool
  deriving DecidableEq, Repr

/-- Scores of a chained product's key tile held until the tile is whole (R151, R152), and its P·V sums (R153). -/
structure ScoreRow where
  bind : Nat
  row : Nat
  tile : Nat
  scores : List (Nat × BitVec 32)
  fault : Bool
  mNew : BitVec 32
  lT : BitVec 32
  pGroups : List OpGroup
  oT : List (Nat × BitVec 32)
  deriving DecidableEq, Repr

/-- A line that a digest stage hashes once it is whole: binding, kind in the digest header (4 a wide line, 2 an MX scale line), line
from the tensor's start, bytes written so far (R140, R318). -/
structure WideLine where
  bind : Nat
  kind : Byte
  line : Nat
  count : Nat
  data : List Byte
  deriving DecidableEq, Repr

/-- What the units hold of a partition's results in progress; `refs` has the scale references of the P128 tiles written:
binding, unit, reference (R54, R55). -/
structure Held where
  vals : List HeldVal
  groups : List OutGroup
  asms : List OutAsm
  scores : List ScoreRow
  lines : List WideLine
  refs : List (Nat × Nat × BitVec 64)
  deriving DecidableEq, Repr

/-- A ledger update of a commit point that the stoker is running (R212, R213): the touched entries, with AMAX and FAIL_CAUSE
as the commit point found them, the latched policy records, the mark fb, and whether R213 follows it with a commit decision. -/
structure LgrUpdate where
  entries : List Nat
  totals : List (BitVec 32 × BitVec 3)
  policies : List Word
  fb : Bool
  setFb : Bool
  commit : Bool
  deriving DecidableEq, Repr

/-- One hardware partition. -/
structure Part where
  cfg : PCfg
  mode : BitVec 10
  sch : Sch
  att : Attempt
  agree : Agree
  ldr : Ldr
  fprint : Word
  policies : Tab Word
  lgrHold : Bool
  lgrUpdate : Option LgrUpdate
  rng : Rng
  flu : Flu
  ring : Ring
  tel : Tel
  chk : Chk
  ctx : Ctx
  held : Held
  deriving DecidableEq, Repr

/-! ## The state -/

/-- Everything but the queue, the tick and the stage buffers. -/
structure Dev where
  eng : Eng
  straps : Straps
  pwr : Pwr
  dmp : Dmp
  stk : Stk
  rpt : Rpt
  secOut : List SecEvent
  rsp : Option Rsp
  ledger : Tab LedgerEntry
  ledgerBad : Tab Bool
  members : Tab (BitVec 128)
  groups : Tab GroupEntry
  keys : Tab KeySlot
  keyWin : KeyWin
  views : Tab ViewLatch
  arrays : Tab ArraySt
  stations : Tab Station
  ports : Tab FluePort
  /-- Packets launched, in order; one that its port lists as cut did not leave whole (R266). -/
  flueOut : List Waiting
  memReads : List MemRead
  memWrites : List MemWrite
  slices : Tab SliceSt
  parts : Tab Part
  deriving DecidableEq, Repr

/-- The state of the block: `pending` is the model's queue of waiting commands, `now` the tick of the last event. -/
structure State where
  pending : List Instr
  now : Nat
  sb : StageBufs
  dev : Dev
  deriving DecidableEq, Repr

/-! ## Reset values -/

/-- A ledger entry after start-up (R200, R222). -/
def LedgerEntry.reset : LedgerEntry :=
  ⟨0, 0, 0, 0, 0, 0, 0, 0, 0, 0, 0, false, false, false, 0, 0, 0⟩
/-- A group entry after start-up (R376). -/
def GroupEntry.reset : GroupEntry := ⟨0, 0, false⟩
/-- A key slot after start-up (R376). -/
def KeySlot.reset : KeySlot := ⟨0, 0, 0, 0, false, 0, 0⟩
/-- A view with nothing latched or staged. -/
def ViewLatch.reset : ViewLatch := ⟨[], none, none, none, none, none, none⟩
/-- An operand register at zero. -/
def OpGroup.reset : OpGroup := ⟨[], [], false, 0⟩
/-- An array at zero (R346). -/
def ArraySt.reset : ArraySt :=
  ⟨[], [], [], [], [], [], [], 0, 0, 0, 0, none, none, false, [], [], [], []⟩
/-- An empty station. -/
def Station.reset : Station := ⟨[], []⟩
/-- A flue port at reset: link level low until the pin rises (log entry 3), 13 free contexts (R269). -/
def FluePort.reset : FluePort := ⟨false, false, List.replicate 13 0, [], [], []⟩
/-- A slice's counters at zero. -/
def SliceSt.reset : SliceSt := ⟨[], 0, 0, []⟩
/-- A domain's telemetry at reset (R429). -/
def DomTel.reset : DomTel := ⟨0, 0, 0, 0, none, 0, 0, 0, 0⟩
/-- A firmware bank at reset (R389). -/
def Bank.reset : Bank := ⟨0, 0, false, false, [], []⟩
/-- No attempt (R306: the limit attempt of a step's first attempt is 3). -/
def Attempt.none_ : Attempt :=
  { live := false, number := 0, limit := 3, grade := 0, anchorEpoch := 0, anchorTick := 0, runsCommit := false,
    commitAgain := false, launched := false, suppressFrom := none, doom := none, causes := [], fb := false, policies := [],
    clearDone := false, variants := [], slots := [], tilesBegun := [], begunNow := [], scales := [], openTiles := 0, pointSent := false,
    exchange := [], exchangeDone := false, verdicts := [], noticeReplay := false, noticeHold := false,
    decision := none, final := false, rewind := none, arb := false, refused := [], requested := [], choices := [], eccEntries := [], judged := [], low := [], sent := [], hashed := [], owed := [] }
/-- No agreement word held. -/
def Agree.none_ : Agree := ⟨[], [], [], [], false, false, none⟩
/-- A FREE partition-table entry (Table 13.3). -/
def PCfg.reset : PCfg := ⟨0, 0, 0, .free, false, 0, 0, 0, 0, 0, 0, 0, 0, 0, false, false, false⟩
/-- Schedule registers at reset (Table 16.5). -/
def Sch.reset : Sch :=
  { state := .empty, before := .empty, epoch := 0, epochTick := 0, timed := false, stretch := 0, step := 0, seg := 0,
    commitFirst := false, hostSlot := 0xFFFFFFFF#32, hostPending := false, hostGo := false, wantStretch := 0,
    wantGrade := 0, graded := 0, heat := 0, commitEpoch := 0, holds := [], heldSince := 0, nextAnchor := none, outcomeReplay := false,
    first := false }
/-- Loader registers at reset (Table 16.6). -/
def Ldr.reset : Ldr := ⟨0, 0, 0, 0, none, none, none, [], false, 0, [], false⟩
/-- The RNG block at reset (Table 16.7, R169). -/
def Rng.reset : Rng := ⟨0, 0, none, false, 0, 0, 0, none, false, 0, 0, [], []⟩
/-- FLU registers at reset (Tables 10.5 and 16.8). -/
def Flu.reset : Flu := ⟨0, 0, 0, false, 0, [], [], [], [], [], [], none, none⟩
/-- An empty ring (R427). -/
def Ring.reset : Ring := ⟨0, 0, 0, []⟩
/-- Telemetry at zero (R343). -/
def Tel.reset : Tel := ⟨[], 0, 0, 0, 0, 0, 0, 0, []⟩
/-- CHK registers at reset (Tables 11.3, 11.5, 11.6). -/
def Chk.reset : Chk := ⟨4096, 0, false, false, 0, 0, false, 0, false, [], 0, 0, false, 0, [], [], false⟩
/-- Context registers at reset (Table 13.10). -/
def Ctx.reset : Ctx := ⟨0, 0, 0, 0, [], 0, [], 0, 0, false, none, none, false, none, [], 0, [], none, []⟩
/-- Nothing held. -/
def Held.reset : Held := ⟨[], [], [], [], [], []⟩
/-- What a policy record reads after reset (Table 8.3): both thresholds 0xFFFF, all else zero. -/
def policyReset : Word := 0xFFFFFFFF00000000#64
/-- A FREE partition (R376). -/
def Part.reset : Part :=
  { cfg := .reset, mode := 0, sch := .reset, att := .none_, agree := .none_, ldr := .reset, fprint := 0,
    policies := [], lgrHold := false, lgrUpdate := none, rng := .reset, flu := .reset, ring := .reset,
    tel := .reset, chk := .reset, ctx := .reset, held := .reset }

/-- Every unit right after reset: held in RESET (R373), tables as R376 leaves them, pwr_en all ones and start-up
setpoints (R408); the values the spec does not give are those of log entries 3, 4 and 17. -/
def Dev.reset : Dev :=
  { eng := { phase := .reset, cause := 0, arraysOk := 0, fences := [], fenceReqs := [], opsel := 0,
             secsel := 0, releasedAt := 0, tbLocked := false, bootLockstep := 0, awaitCycle := false,
             testMode := false, wrapper := .wsBypass, sharedBad := [], burn := ⟨none, none, false⟩, burnFails := [], ignoredOp := 0 },
    straps := ⟨25, 19, 2500, 2000, 2000, 0⟩,
    pwr := ⟨0, BitVec.allOnes 65, [(64, 50)], []⟩,
    dmp := { tempWarn := 90, guard := 25, gradeMax := 3, stretchStep := 8, fitEn := true, wait := 0, loss := false, told := false,
             unfit := [], throttle := false, throttleAt := 0, releasedAt := 0, reqs := [], ceil := [], grant := [],
             lastReq := [], tel := [] },
    stk := { bank0 := .reset, bank1 := .reset, active := false, bankSel := false, running := false,
             restarting := false, activating := false, swapping := false, restarts := 0, lastRestart := none, synd := 0, lastSweep := 0 },
    rpt := ⟨[], 0, 0, 0, 0, 0, 0, [], []⟩, secOut := [], rsp := none, ledger := [], ledgerBad := [], members := [],
    groups := [], keys := [], keyWin := ⟨0, 0, false, 0⟩, views := [], arrays := [], stations := [], ports := [],
    flueOut := [], memReads := [], memWrites := [], slices := [], parts := [] }

/-- The stage buffers with every word zero and every validity bit clear (R376). -/
def StageBufs.reset : StageBufs := ⟨[], [], [], []⟩

/-- The block right after reset. -/
def State.reset : State := { pending := [], now := 0, sb := .reset, dev := .reset }

/-! ## Stops -/

/-- Why a step faults: no command does. Each has the effect the spec gives it. -/
inductive Fault
  deriving DecidableEq, Repr

/-- Why a step refuses. -/
inductive Refusal where
  /-- Raised by an arm of `exec` whose command has no meaning yet. Safe: the run stops. -/
  | notModelled (mnemonic : String)
  deriving DecidableEq, Repr

end Sys2Proof.Machine
end

