-- ==== Sys2Proof/Machine/Operands.lean ====
section
/-! DEFINITION. How the block's operands are laid out in bits and bytes: unit codes (Table 1.2), ledger entries
(Table 8.1), policy records (Table 8.3), member and group entries (Tables 10.3, 10.4), packets (Table 10.1), verdict and
agreement words (Tables 10.7, 10.10), report records (Table 11.9), damper messages (Table 15.7). -/

namespace Sys2Proof.Machine

/-! ## Unit codes (R28) -/

/-- The unit code of a slice's unit of a kind and index. -/
def unitOf (slice kind idx : Nat) : UnitCode := BitVec.ofNat 16 (slice * 4096 + kind * 256 + idx)
/-- Slice field. -/
def unitSlice (u : UnitCode) : Nat := u.toNat / 4096
/-- Kind field. -/
def unitKind (u : UnitCode) : Nat := u.toNat / 256 % 16
/-- Index field. -/
def unitIdx (u : UnitCode) : Nat := u.toNat % 256
/-- Array 4s + a. -/
def arrayUnit (a : Nat) : UnitCode := unitOf (a / 4) 0 (a % 4)
/-- A shared unit. -/
def sharedUnit (i : Nat) : UnitCode := unitOf 0 0xF i
/-- "No unit" in a syndrome (R325). -/
def noUnit : Nat := 0xFFFF

/-! ## Ledger entries (Table 8.1) -/

/-- An entry as its 512 bits. -/
def LedgerEntry.toBits (e : LedgerEntry) : Nat :=
  e.tid.toNat + e.fbLeft.toNat * 2 ^ 24 + e.failCause.toNat * 2 ^ 30 + bit e.fbActive * 2 ^ 33 + bit e.silent * 2 ^ 34
    + bit e.valid * 2 ^ 35 + e.policy.toNat * 2 ^ 36 + e.ts32.toNat * 2 ^ 40 + e.amax.toNat * 2 ^ 72
    + e.hist.toNat * 2 ^ 104 + e.elements.toNat * 2 ^ 232 + e.groups.toNat * 2 ^ 272 + e.clipped.toNat * 2 ^ 312
    + e.ashUsed.toNat * 2 ^ 352 + e.ashSat.toNat * 2 ^ 392 + e.flushed.toNat * 2 ^ 432 + e.zeroGroups.toNat * 2 ^ 472

/-- Bits `lo` up of a number, `n` of them. -/
def bitsAt (v lo n : Nat) : BitVec n := BitVec.ofNat n (v / 2 ^ lo)

/-- An entry from its 512 bits. -/
def LedgerEntry.ofBits (v : Nat) : LedgerEntry :=
  { tid := bitsAt v 0 24, fbLeft := bitsAt v 24 6, failCause := bitsAt v 30 3, fbActive := v.testBit 33,
    silent := v.testBit 34, valid := v.testBit 35, policy := bitsAt v 36 4, ts32 := bitsAt v 40 32,
    amax := bitsAt v 72 32, hist := bitsAt v 104 128, elements := bitsAt v 232 40, groups := bitsAt v 272 40,
    clipped := bitsAt v 312 40, ashUsed := bitsAt v 352 40, ashSat := bitsAt v 392 40, flushed := bitsAt v 432 40,
    zeroGroups := bitsAt v 472 40 }

/-- Word w of an entry (R423). -/
def LedgerEntry.word (e : LedgerEntry) (w : Nat) : Word := bitsAt e.toBits (64 * w) 64

/-- An entry with its read-write fields taken from four new words (R423, Table 8.1). -/
def LedgerEntry.writeWords (e : LedgerEntry) (w0 w1 w2 w3 : Word) : LedgerEntry :=
  let n := LedgerEntry.ofBits (w0.toNat + w1.toNat * 2 ^ 64 + w2.toNat * 2 ^ 128 + w3.toNat * 2 ^ 192)
  { e with hist := n.hist, ts32 := n.ts32, policy := n.policy, valid := n.valid, fbActive := n.fbActive,
           fbLeft := n.fbLeft, tid := n.tid }

/-- HIST i (Table 8.1). -/
def LedgerEntry.histAt (e : LedgerEntry) (i : Nat) : Nat := e.hist.toNat / 2 ^ (8 * i) % 256

/-! ## Policy records (Table 8.3) -/

/-- τc. -/
def polClip (w : Word) : Nat := fld w 63 48
/-- τz. -/
def polFlush (w : Word) : Nat := fld w 47 32
/-- F. -/
def polStick (w : Word) : Nat := fld w 29 24
/-- FB_FMT. -/
def polFb (w : Word) : Nat := fld w 23 20
/-- W − 1. -/
def polW1 (w : Word) : Nat := fld w 19 16
/-- m. -/
def polMargin (w : Word) : Nat := fld w 15 14
/-- k. -/
def polEsc (w : Word) : Nat := fld w 13 11

/-! ## Member and group entries (Tables 10.3, 10.4) -/

/-- Fabric address of a member. -/
def mChip (m : BitVec 128) : BitVec 32 := bitsAt m.toNat 96 32
/-- Job member index. -/
def mIndex (m : BitVec 128) : Nat := m.toNat / 2 ^ 83 % 2 ^ 13
/-- Partition on the member's chip. -/
def mPart (m : BitVec 128) : Nat := m.toNat / 2 ^ 79 % 16
/-- PORTS_LOG2. -/
def mPortsLog2 (m : BitVec 128) : Nat := m.toNat / 2 ^ 76 % 8
/-- VALID. -/
def mValid (m : BitVec 128) : Bool := m.getLsbD 64

/-- EFFECTIVE. -/
def gEffective (g : BitVec 128) : Nat := g.toNat / 2 ^ 64
/-- GEN. -/
def gGen (g : BitVec 128) : Nat := g.toNat / 2 ^ 48 % 2 ^ 16
/-- BASE. -/
def gBase (g : BitVec 128) : Nat := g.toNat / 2 ^ 35 % 2 ^ 13
/-- N. -/
def gN (g : BitVec 128) : Nat := g.toNat / 2 ^ 21 % 2 ^ 14
/-- RANK. -/
def gRank (g : BitVec 128) : Nat := g.toNat / 2 ^ 8 % 2 ^ 13
/-- VALID. -/
def gValid (g : BitVec 128) : Bool := g.getLsbD 0

/-! ## Packets (R265) -/

/-- Header bytes 0 to 59. -/
def hdrBytes60 (h : PktHdr) : List Byte :=
  [h.type, h.flags] ++ bytesLE 2 h.src.toNat ++ bytesLE 2 h.dst.toNat ++ bytesLE 2 h.group.toNat
    ++ bytesLE 2 h.gen.toNat ++ bytesLE 2 h.job.toNat ++ bytesLE 2 h.tileTag.toNat ++ bytesLE 2 h.nLines.toNat
    ++ [h.attempt, h.fmt] ++ bytesLE 2 h.zero.toNat ++ bytesLE 4 h.tid.toNat ++ bytesLE 8 h.epoch.toNat
    ++ bytesLE 4 h.step.toNat ++ bytesLE 4 h.rowTile.toNat ++ bytesLE 4 h.colTile.toNat ++ bytesLE 4 h.kPart.toNat
    ++ bytesLE 8 h.ref.toNat ++ bytesLE 4 h.aux.toNat

/-- The packet check of a header and payload (R265). -/
def pktCrc (k : Packet) : BitVec 32 := crc32c (hdrBytes60 k.hdr ++ k.payload)

/-- A packet with its check filled in. -/
def pktSeal (k : Packet) : Packet := { k with hdr := { k.hdr with pcrc := pktCrc k } }

/-- Flits of a packet (R397): header and payload as one byte string, cut into pieces of 256 bytes, the last filled with zeros. -/
def pktFlits (k : Packet) : List (List Byte) :=
  let bs := hdrBytes60 k.hdr ++ bytesLE 4 k.hdr.pcrc.toNat ++ k.payload
  (List.range (ceilDiv (64 + k.payload.length) 256)).map fun i =>
    let piece := (bs.drop (256 * i)).take 256
    piece ++ List.replicate (256 - piece.length) 0

/-- Check 1 of Table 10.6. -/
def pktCrcOk (k : Packet) : Bool := k.hdr.pcrc == pktCrc k

/-- Payload line i. -/
def pktLine (k : Packet) (i : Nat) : List Byte := (k.payload.drop (512 * i)).take 512

/-- A payload line of 512 bytes from its first bytes. -/
def padLine (bs : List Byte) : List Byte := bs.take 512 ++ List.replicate (512 - bs.length) 0

/-- Packet types (Table 10.2). -/
def tyTileCode : Byte := 0x01
/-- TILE_WIDE. -/
def tyTileWide : Byte := 0x02
/-- TILE_P128. -/
def tyTileP128 : Byte := 0x03
/-- TILE_PF32. -/
def tyTilePf32 : Byte := 0x04
/-- STREAM. -/
def tyStream : Byte := 0x05
/-- VERDICT. -/
def tyVerdict : Byte := 0x06
/-- NOTICE. -/
def tyNotice : Byte := 0x07
/-- AGREE. -/
def tyAgree : Byte := 0x08
/-- LEDGER. -/
def tyLedger : Byte := 0x09
/-- STATE. -/
def tyState : Byte := 0x0A
/-- SAMPLE. -/
def tySample : Byte := 0x0B
/-- COUNT. -/
def tyCount : Byte := 0x0C
/-- CREDIT. -/
def tyCredit : Byte := 0x0D
/-- LEASE. -/
def tyLease : Byte := 0x0E
/-- DIGEST. -/
def tyDigest : Byte := 0x0F

/-- A verdict word (Table 10.7): unit of the checker, cause, positive or not. -/
def verdictWord (unit : UnitCode) (cause : Byte) (pos : Bool) : BitVec 32 :=
  BitVec.ofNat 32 (unit.toNat * 65536 + cause.toNat * 256 + (if pos then 1 else 2))

/-- A positive verdict word. -/
def verdictPos (w : BitVec 32) : Bool := w.toNat % 4 == 1

/-! ## Agreement words (Table 10.10) -/

/-- A START payload. -/
def startLine (w : StartWord) : List Byte :=
  padLine (bytesLE 8 w.epoch ++ bytesLE 8 w.tick ++ bytesLE 8 w.timeline.toNat ++ w.logical.take 48
    ++ List.replicate (48 - w.logical.length) 0
    ++ [BitVec.ofNat 8 w.grade, BitVec.ofNat 8 w.stretch, w.join, BitVec.ofNat 8 w.limit])

/-- Reading a START packet. -/
def readStart (k : Packet) : StartWord :=
  let l := pktLine k 0
  { src := k.hdr.src.toNat % 8192, epoch := fieldLE l 0 8, tick := fieldLE l 8 8,
    timeline := BitVec.ofNat 64 (fieldLE l 16 8), logical := (l.drop 24).take 48, grade := fieldLE l 72 1,
    stretch := fieldLE l 73 1, join := BitVec.ofNat 8 (fieldLE l 74 1), limit := fieldLE l 75 1, step := k.hdr.step,
    attempt := k.hdr.attempt.toNat }

/-- A WANT payload. -/
def wantLine (ep grade stretch : Nat) : List Byte := padLine (bytesLE 8 ep ++ bytesLE 1 grade ++ bytesLE 1 stretch)
/-- A HOLD payload. -/
def holdLine (ep commit : Nat) : List Byte := padLine (bytesLE 8 ep ++ bytesLE 8 commit)
/-- A RESUME payload. -/
def resumeLine (ep : Nat) (replay : Bool) : List Byte := padLine (bytesLE 8 ep ++ bytesLE 1 (bit replay))
/-- A REPLACE payload. -/
def replaceLine (ep : Nat) (logical timeline : BitVec 64) : List Byte :=
  padLine (bytesLE 8 ep ++ bytesLE 8 logical.toNat ++ bytesLE 8 timeline.toNat)

/-! ## Ledger exchange records (Table 10.9) -/

/-- The 64 bytes of an exchange record. -/
def ExRec.bytes (r : ExRec) : List Byte :=
  r.counts.flatMap (fun c => bytesLE 5 c.toNat) ++ List.replicate 3 0 ++ bytesLE 2 r.entry ++ bytesLE 4 r.tid.toNat
    ++ bytesLE 4 r.amax.toNat ++ List.replicate 16 0

/-- Record i of a LEDGER packet whose first record has list position `pos`. -/
def readExRec (src pos : Nat) (payload : List Byte) (i : Nat) : ExRec :=
  let b := (payload.drop (64 * i)).take 64
  { src := src, pos := pos + i, entry := fieldLE b 38 2, tid := BitVec.ofNat 24 (fieldLE b 40 4),
    counts := (List.range 7).map fun j => BitVec.ofNat 40 (fieldLE b (5 * j) 5), amax := BitVec.ofNat 32 (fieldLE b 44 4) }

/-! ## Report records (Table 11.9) -/

/-- Severity code (Table 11.10). -/
def Severity.code : Severity → Nat
  | .info => 0 | .correctable => 1 | .stepReplay => 2 | .partFatal => 3 | .engFatal => 4

/-- The 64 bytes of a record. -/
def Rec.bytes (r : Rec) : List Byte :=
  bytesLE 4 r.seq.toNat ++ [0, BitVec.ofNat 8 (bit r.limit + 2 * bit r.coarse + 4 * bit r.arb), 0x01, r.code]
    ++ bytesLE 1 r.severity.code ++ bytesLE 1 r.grade
    ++ bytesLE 1 (match r.part with | some p => p.val | none => 128)
    ++ bytesLE 1 r.attempt ++ bytesLE 2 r.unit.toNat ++ bytesLE 2 r.volt ++ bytesLE 2 (r.temp % 65536).toNat
    ++ bytesLE 2 (match r.tag with | some g => g % 16384 + 32768 | none => 0)
    ++ bytesLE 4 (match r.tid with | some i => i.toNat + 2 ^ 31 | none => 0)
    ++ bytesLE 4 r.slot ++ bytesLE 4 r.step.toNat ++ bytesLE 8 r.time ++ bytesLE 8 r.epoch.toNat
    ++ bytesLE 16 r.syndrome.toNat

/-- Word w of a record (R427, R434). -/
def Rec.word (r : Rec) (w : Nat) : Word := BitVec.ofNat 64 (fieldLE r.bytes (8 * w) 8)

/-- The four transfers of a record on RPT (R406): 16 bytes each and rpt_last. -/
def Rec.transfers (r : Rec) : List (BitVec 128 × Bool) :=
  (List.range 4).map fun i => (BitVec.ofNat 128 (fieldLE r.bytes (16 * i) 16), i == 3)

/-- What has crossed RPT so far (R406). -/
def Rpt.crossed (q : Rpt) : List (BitVec 128 × Bool) := q.out.flatMap Rec.transfers

/-- The words of an event message to the root of trust (R405); engine ready carries its record after the first word. -/
def SecEvent.words (e : SecEvent) : List Word :=
  match e with
  | .fence u => [BitVec.ofNat 64 (0x01 + u.toNat * 2 ^ 16)]
  | .lockstep => [0x02]
  | .resetDone p => [BitVec.ofNat 64 (0x03 + p.val * 2 ^ 8)]
  | .ready r => 0x04 :: (List.range 8).map r.word

/-- The record a tenant receives (R348, R349, Table 13.4). -/
def Rec.coarsen (r : Rec) : Rec :=
  if r.code = 0 then r
  else
    { r with time := r.epochStart, temp := 0, volt := 0, coarse := true,
             syndrome := if r.code = 0x13 then r.syndrome &&& BitVec.ofNat 128 (2 ^ 32 - 1) else r.syndrome }

/-! ## Damper messages (Table 15.7) -/

/-- The words of a request message. -/
def DmpReq.words (r : DmpReq) (amp : Nat → Nat) : List Word :=
  [BitVec.ofNat 64 r.start, BitVec.ofNat 64 (r.len * 2 ^ 32 + r.src.toNat * 2 ^ 24 + 1)]
    ++ (List.range 17).map fun w =>
      BitVec.ofNat 64 ((List.range 4).foldl (fun n i => n + (if 4 * w + i < 65 then amp (4 * w + i) * 2 ^ (16 * i) else 0)) 0)

/-! ## Streams and embers (Table 7.4, R181) -/

/-- The 32-byte ember record of a stream: its committed counter and its identifier (Table 7.4). -/
def Stream.ember (s : Stream) : List Byte :=
  bytesLE 16 s.cmt.toNat ++ bytesLE 4 s.id.toNat ++ List.replicate 12 0

/-- Reading an ember record; none when it is invalid (R181). -/
def readEmber (b : List Byte) : Option Stream :=
  let id := fieldLE b 16 4
  let c := fieldLE b 0 16
  if fieldLE b 20 12 = 0 ∧ c / 2 ^ 64 = id ∧ b.length = 32 then
    some ⟨BitVec.ofNat 32 id, BitVec.ofNat 128 c, BitVec.ofNat 128 c⟩
  else none

end Sys2Proof.Machine
end

