-- ==== Sys2Proof/Machine/Flags.lean ====
section
/-! DEFINITION. Derived status: fences and slice conditions (R33, R381, R382), the minimum service set (R386), severities,
calibration failures (R210), hold causes and their codes (R249), schedule-state and engine-state codes. -/

namespace Sys2Proof.Machine

/-! ## Fences -/

/-- The bit of ENG_FENCEs that a unit code names (Table 14.6); a row unit shares its array's bit (R380). -/
def fenceBit (u : UnitCode) : Option Nat :=
  let i := unitIdx u
  match unitKind u with
  | 0 | 3 => if i < 4 then some i else none
  | 1 => if i < 2 then some (4 + i) else none
  | 2 => if i < 2 then some (6 + i) else none
  | 4 => if i = 0 then some 8 else none
  | 5 => if i = 0 then some 9 else none
  | 6 => if i < 2 then some (10 + i) else none
  | 7 => if i < 2 then some (12 + i) else none
  | 8 => if i = 0 then some 14 else none
  | 9 => if i = 0 then some 15 else none
  | _ => none

/-- Condition of a slice from its fence word: 0 whole, 1 degraded, 2 fenced (R33, R382). -/
def sliceCond (f : BitVec 16) : Nat :=
  if f = 0 then 0
  else
    let healthy (lo n : Nat) := ((List.range n).filter fun i => !f.getLsbD (lo + i)).length
    if f.toNat / 256 ≠ 0 then 2
    else if 2 ≤ healthy 0 4 ∧ 1 ≤ healthy 4 2 ∧ 1 ≤ healthy 6 2 then 1 else 2

/-- ENG_SLICE_MAP (Table 14.5). -/
def sliceMap (fences : Tab (BitVec 16)) : Nat :=
  (List.range 16).foldl (fun n s => n + sliceCond ((fences.lookup s).getD 0) * 4 ^ s) 0

/-- Whether a slice offers service (R386). -/
def anyService (fences : Tab (BitVec 16)) : Bool :=
  (List.range 16).any fun s => sliceCond ((fences.lookup s).getD 0) < 2

/-- Arrays without a fence, for ENG_STATE.ARRAYS (Table 14.1). -/
def arraysUp (fences : Tab (BitVec 16)) : Nat :=
  ((List.range 64).filter fun a => !((fences.lookup (a / 4)).getD 0).getLsbD (a % 4)).length

/-! ## Calibration (Table 8.4) -/

/-- FAIL_CAUSE of an entry under a policy record. -/
def failCauseOf (pol : Word) (e : LedgerEntry) : BitVec 3 :=
  let clip := polClip pol ≠ 0xFFFF ∧ polClip pol * e.elements.toNat < e.clipped.toNat * 2 ^ 20
  let ash := e.ashSat ≠ 0
  let flush := polFlush pol ≠ 0xFFFF ∧ polFlush pol * e.groups.toNat < e.flushed.toNat * 2 ^ 16
  BitVec.ofNat 3 (bit (decide clip) + 2 * bit (decide ash) + 4 * bit (decide flush))

/-! ## Codes -/

/-- Engine states (Table 14.2). -/
def Phase.code : Phase → Nat
  | .reset => 0 | .init => 1 | .firmware => 2 | .budget => 3 | .burn => 4 | .ready => 5 | .noService => 6 | .halted => 7

/-- Partition-table states (Table 13.2). -/
def PState.code : PState → Nat
  | .free => 0 | .assigned => 1 | .resetting => 2 | .scrubbing => 3

/-- Schedule states (Table 9.10). -/
def Sched.code : Sched → Nat
  | .empty => 0 | .loading => 1 | .ready => 2 | .starting => 3 | .running => 4 | .held => 5 | .done => 6 | .halted => 7

/-- Key of a hold cause in the order of R249. -/
def HoldCause.rank : HoldCause → Nat
  | .fallback => 0 | .arbitration => 1 | .triage _ => 2 | .replayLimit _ => 3 | .digest => 4 | .stoker => 5
  | .firmware => 6 | .seal => 7 | .throttle => 8 | .peer => 9

/-- The report code that R307 raises for a hold cause (R249). -/
def HoldCause.code : HoldCause → Byte
  | .fallback => 0x0F | .arbitration => 0x02 | .triage c => c | .replayLimit c => c | .digest => 0x0C | .stoker => 0x0A
  | .firmware => 0x0A | .seal => 0x01 | .throttle => 0x12 | .peer => 0x0D

/-- Whether a hold cause is released by the runtime through CHK_HOLD (Table 11.3). -/
def HoldCause.viaChk : HoldCause → Bool
  | .triage _ | .replayLimit _ | .digest => true
  | _ => false

/-- The first of the causes in the order of R249. -/
def firstCause (l : List HoldCause) : Option HoldCause :=
  l.foldl (fun m c => match m with | some d => if c.rank < d.rank then some c else m | none => some c) none

/-- States in which a partition sends and receives packets (R266). -/
def mayFlue (s : Sched) : Bool := s == .starting || s == .running || s == .held

end Sys2Proof.Machine
end

