-- ==== Sys2Proof/Machine/Offsets.lean ====
section
/-! DEFINITION. Where the slots of an attempt stand: segments, slots and variants by key, the shifts of selected variants, start and end
offsets (R231, R238, R243, R255). -/

namespace Sys2Proof.Machine

/-- A grade-indexed field (R255). -/
def gradeAt (l : List Nat) (grade : Nat) : Nat := l.getD (grade - 1) 0

/-- Segment by key. -/
def segOf (img : Image) (key : Nat) : Option Segment := img.segments.find? fun s => s.key == key
/-- Slot by key. -/
def slotOf (img : Image) (key : Nat) : Option Slot := img.slots.find? fun s => s.key == key
/-- Variant by key. -/
def variantOf (img : Image) (key : Nat) : Option Variant := img.variants.find? fun v => v.key == key
/-- The bit that marks a variant in a slot's SEG (R255). -/
def variantBit : Nat := 2 ^ 31

/-- Variants of a segment. -/
def variantsOf (img : Image) (seg : Nat) : List Variant := img.variants.filter fun v => v.seg == seg

/-- Whether a variant has been selected in the attempt. -/
def Attempt.selected (a : Attempt) (key : Nat) : Bool := a.variants.contains (key, true)

/-- Sum of the shifts of the selected variants whose window ends at or before an offset (R243). -/
def Attempt.shiftAt (a : Attempt) (img : Image) (seg offset : Nat) : Nat :=
  (variantsOf img seg).foldl (fun n v =>
    if a.selected v.key ∧ gradeAt v.w1 a.grade ≤ offset then n + gradeAt v.delta a.grade else n) 0

/-- Sum of the shifts of all selected variants. -/
def Attempt.shiftAll (a : Attempt) (img : Image) (seg : Nat) : Nat :=
  (variantsOf img seg).foldl (fun n v => if a.selected v.key then n + gradeAt v.delta a.grade else n) 0

/-- Sum of the shifts that move a variant's window and its own slots: those of the other selected variants whose windows end at or before its
W0. Its own shift moves neither, the window of no beat included (R243). -/
def Attempt.shiftBefore (a : Attempt) (img : Image) (v : Variant) : Nat :=
  (variantsOf img v.seg).foldl (fun n u =>
    if u.key ≠ v.key ∧ a.selected u.key ∧ gradeAt u.w1 a.grade ≤ gradeAt v.w0 a.grade then n + gradeAt u.delta a.grade else n) 0

/-- Window of a variant on the attempt's timeline: first beat and end beat (R243). -/
def Attempt.window (a : Attempt) (img : Image) (v : Variant) : Nat × Nat :=
  let s := a.shiftBefore img v
  (gradeAt v.w0 a.grade + s, gradeAt v.w1 a.grade + s)

/-- Whether a base slot is replaced by a selected variant (R243). -/
def Attempt.replaced (a : Attempt) (img : Image) (l : Slot) : Bool :=
  (variantsOf img l.seg).any fun v =>
    a.selected v.key && decide (gradeAt v.w0 a.grade ≤ gradeAt l.start a.grade)
      && decide (gradeAt l.start a.grade < gradeAt v.w1 a.grade)

/-- Whether a slot is on the attempt's timeline: a base slot not replaced, or a slot of a selected variant (R243). -/
def Attempt.onTimeline (a : Attempt) (img : Image) (seg : Nat) (l : Slot) : Bool :=
  if l.seg < variantBit then l.seg == seg && !a.replaced img l
  else a.selected (l.seg - variantBit) && (match variantOf img (l.seg - variantBit) with
    | some v => v.seg == seg
    | none => false)

/-- Start offset of a slot in the attempt (R238, R243). -/
def Attempt.startOf (a : Attempt) (img : Image) (l : Slot) : Nat :=
  let st := gradeAt l.start a.grade
  if l.seg < variantBit then st + a.shiftAt img l.seg st
  else match variantOf img (l.seg - variantBit) with
    | some v => st + a.shiftBefore img v
    | none => st

/-- End beat of a slot (R231). -/
def Attempt.endOf (a : Attempt) (img : Image) (l : Slot) : Nat := a.startOf img l + gradeAt l.len a.grade

end Sys2Proof.Machine
end

