-- ==== Sys2Proof/Machine/Ops.lean ====
section
/-! DEFINITION. The shared operations: tables, the stage buffers, partitions, counters, report records and what they
cause (R299 to R308, R323 to R326), groups, control packets, time. -/

namespace Sys2Proof.Machine

/-! ## Tables (log entry 16) -/

/-- What a table holds at a key; `d` is what an unlisted key reads as. -/
def tabGet {α : Type} (d : α) : Tab α → Nat → α
  | [], _ => d
  | (k, v) :: t, i => if k = i then v else tabGet d t i

/-- A table with a key removed. -/
def tabErase {α : Type} : Tab α → Nat → Tab α
  | [], _ => []
  | (k, v) :: t, i => if k = i then tabErase t i else (k, v) :: tabErase t i

/-- A table with a key listed at its place. -/
def tabPut {α : Type} : Tab α → Nat → α → Tab α
  | [], i, x => [(i, x)]
  | (k, v) :: t, i, x => if i < k then (i, x) :: (k, v) :: t else if i = k then (i, x) :: t else (k, v) :: tabPut t i x

/-- A table with a key set, in canonical form: the default is never listed. -/
def tabSet {α : Type} [DecidableEq α] (d : α) (t : Tab α) (i : Nat) (x : α) : Tab α :=
  if x = d then tabErase t i else tabPut t i x

/-- A table with a key's value changed. -/
def tabMod {α : Type} [DecidableEq α] (d : α) (t : Tab α) (i : Nat) (f : α → α) : Tab α := tabSet d t i (f (tabGet d t i))

/-- Canonical form: every key is above `lo` and below the next, and no value is the default. -/
def tabWfFrom {α : Type} [DecidableEq α] (d : α) : Nat → Tab α → Bool
  | _, [] => true
  | lo, (k, v) :: t => decide (lo ≤ k) && decide (v ≠ d) && tabWfFrom d (k + 1) t

/-- Canonical form of a table. -/
def tabWf {α : Type} [DecidableEq α] (d : α) (t : Tab α) : Bool := tabWfFrom d 0 t

/-- A table without the keys of a range. -/
def tabClear {α : Type} (lo n : Nat) (t : Tab α) : Tab α := t.filter fun x => !(decide (lo ≤ x.1) && decide (x.1 < lo + n))

/-- Canonical form of the stage buffers' bytes. -/
def Memory.wf (m : Memory) : Bool := tabWf (0 : Byte) m

/-- Canonical form of the stage buffers: their bytes, validity bits, tags and words in error (log entry 16). -/
def StageBufs.wf (sb : StageBufs) : Bool :=
  sb.mem.wf && tabWf false sb.valid && tabWf 0 sb.tag && tabWf false sb.bad

/-! ## Stage buffers (R19, R20) -/

/-- Number of a line. -/
def lineKey (slice line : Nat) : Nat := slice * Config.linesPerSlice + line
/-- Address of a line's first byte. -/
def lineAddr (slice line : Nat) : Nat := lineKey slice line * 512

/-- One byte of the stage buffers as it stands. -/
def memGet (m : Memory) (a : Nat) : Byte := tabGet 0 m a
/-- One byte written. -/
def memSet (m : Memory) (a : Nat) (b : Byte) : Memory := tabSet 0 m a b

/-- Bytes written from an address on. -/
def memWrite : Memory → Nat → List Byte → Memory
  | m, _, [] => m
  | m, a, b :: bs => memWrite (memSet m a b) (a + 1) bs

/-- Whether a line has been written since the load. -/
def sbValid (sb : StageBufs) (slice line : Nat) : Bool := tabGet false sb.valid (lineKey slice line)

/-- A line as a reader sees it: zeros when its bit is clear (R19). -/
def sbRead (sb : StageBufs) (slice line : Nat) : List Byte :=
  if sbValid sb slice line then (List.range 512).map fun i => memGet sb.mem (lineAddr slice line + i)
  else List.replicate 512 0

/-- Whether a line holds a word that cannot be corrected (R20). -/
def sbBad (sb : StageBufs) (slice line : Nat) : Bool :=
  (List.range 64).any fun w => tabGet false sb.bad (lineKey slice line * 64 + w)

/-- A write of part of one line (R19): the bit is set, and the rest of a line whose bit was clear becomes zero. The
64-bit words written whole, or zeroed, hold no error any more (R20). A write without a tag sets the tag to zero (R64). -/
def sbWrite (sb : StageBufs) (slice line off : Nat) (bs : List Byte) (tag : Option (BitVec 16)) : StageBufs :=
  let k := lineKey slice line
  let fresh := !sbValid sb slice line
  let base := if fresh then memWrite sb.mem (lineAddr slice line) (List.replicate 512 0) else sb.mem
  let whole (w : Nat) : Bool := fresh || (decide (off ≤ 8 * w) && decide (8 * w + 8 ≤ off + bs.length))
  { mem := memWrite base (lineAddr slice line + off) bs,
    valid := tabSet false sb.valid k true,
    tag := tabSet 0 sb.tag k (tag.getD 0),
    bad := sb.bad.filter fun x => !(decide (x.1 / 64 = k) && whole (x.1 % 64)) }

/-- Bytes written from a byte offset within a slice on, line by line. -/
def sbWriteSpan : Nat → StageBufs → Nat → Nat → List Byte → StageBufs
  | 0, sb, _, _, _ => sb
  | n + 1, sb, slice, at_, bs =>
    if bs.isEmpty then sb
    else
      let off := at_ % 512
      let here := bs.take (512 - off)
      sbWriteSpan n (sbWrite sb slice (at_ / 512) off here none) slice (at_ + here.length) (bs.drop (512 - off))

/-- Validity bits of a range of slices cleared (R19, R346). -/
def sbClearValid (sb : StageBufs) (first size : Nat) : StageBufs :=
  { sb with valid := tabClear (first * Config.linesPerSlice) (size * Config.linesPerSlice) sb.valid }

/-! ## Commands on parts of the state -/

/-- A command that changes no stage buffer: the units, under the tick it is stamped with (R226, log entry 1). -/
def onDev (t : Tick) (s : State) (f : Nat → Dev → Dev) : Host.Outcome State Fault Refusal :=
  .next { s with now := max s.now t, dev := f (max s.now t) s.dev }

/-- A command on the units and the stage buffers. -/
def onAll (t : Tick) (s : State) (f : Nat → StageBufs × Dev → StageBufs × Dev) : Host.Outcome State Fault Refusal :=
  let r := f (max s.now t) (s.sb, s.dev)
  .next { s with now := max s.now t, sb := r.1, dev := r.2 }

/-! ## Partitions -/

/-- Partition p. -/
def Dev.part (d : Dev) (p : PartId) : Part := tabGet Part.reset d.parts p.val
/-- Partition p replaced. -/
def Dev.setPart (d : Dev) (p : PartId) (x : Part) : Dev := { d with parts := tabSet Part.reset d.parts p.val x }
/-- Partition p changed. -/
def Dev.modPart (d : Dev) (p : PartId) (f : Part → Part) : Dev := d.setPart p (f (d.part p))

/-- The 16 partitions. -/
def allParts : List PartId := (List.range 16).map fun i => Fin.ofNat 16 i

/-- Change every partition that satisfies a test. -/
def Dev.eachPart (d : Dev) (q : PartId → Part → Bool) (f : PartId → Dev → Dev) : Dev :=
  allParts.foldl (fun d p => if q p (d.part p) then f p d else d) d

/-- Whether a partition's entry covers a slice. -/
def PCfg.covers (c : PCfg) (slice : Nat) : Bool :=
  c.state != .free && decide (c.first ≤ slice) && decide (slice < c.first + c.size)

/-- The partition that holds a slice. -/
def Dev.ownerOf (d : Dev) (slice : Nat) : Option PartId := allParts.find? fun p => (d.part p).cfg.covers slice

/-- Engine slice of a partition-local one. -/
def Part.slice (x : Part) (i : Nat) : Nat := x.cfg.first + i

/-- Schedule registers of p changed. -/
def Dev.modSch (d : Dev) (p : PartId) (f : Sch → Sch) : Dev := d.modPart p fun x => { x with sch := f x.sch }
/-- Attempt of p changed. -/
def Dev.modAtt (d : Dev) (p : PartId) (f : Attempt → Attempt) : Dev := d.modPart p fun x => { x with att := f x.att }
/-- What the units hold of p changed. -/
def Dev.modHeld (d : Dev) (p : PartId) (f : Held → Held) : Dev := d.modPart p fun x => { x with held := f x.held }

/-! ## Counters (R428) -/

/-- A counter of a partition raised; frozen while the partition is SCRUBBING (R347). -/
def Dev.bump (d : Dev) (p : PartId) (c n : Nat) : Dev :=
  d.modPart p fun x =>
    if x.cfg.state = .scrubbing then x
    else { x with tel := { x.tel with counters := tabSet 0 x.tel.counters c (min Config.telMax (tabGet 0 x.tel.counters c + n)) } }

/-- A slice's counter raised (Table 16.10). -/
def Dev.bumpSlice (d : Dev) (slice c n : Nat) : Dev :=
  { d with slices := tabMod SliceSt.reset d.slices slice fun x =>
      { x with counters := tabSet 0 x.counters c (min Config.telMax (tabGet 0 x.counters c + n)) } }

/-- CFG_IGNORED_OP raised. -/
def Dev.bumpOp (d : Dev) : Dev := { d with eng := { d.eng with ignoredOp := min Config.telMax (d.eng.ignoredOp + 1) } }

/-! ## Report records -/

/-- The voltage domain of a unit (Table 12.1). -/
def domainOf (u : UnitCode) : Nat := if unitKind u = 0 ∨ unitKind u = 3 then 4 * unitSlice u + unitIdx u else 64

/-- A domain's telemetry. -/
def Dev.domTel (d : Dev) (n : Nat) : DomTel := tabGet DomTel.reset d.dmp.tel n

/-- A record with every field filled in (Table 11.9). -/
def Dev.mkRec (d : Dev) (t : Nat) (r : Report) : Rec :=
  let x := match r.part with | some p => d.part p | none => Part.reset
  let own : Bool := match r.part with
    | some _ => !(x.sch.state == .empty || x.sch.state == .loading || x.sch.state == .ready || x.sch.state == .starting)
    | none => false
  let tel := d.domTel (domainOf r.unit)
  { syndrome := BitVec.ofNat 128 r.synd,
    epoch := if own then x.sch.epoch else BitVec.ofNat 64 (t / Config.startupEpochTicks),
    epochStart := if own then x.sch.epochTick else t / Config.startupEpochTicks * Config.startupEpochTicks,
    time := t, step := x.sch.step.setWidth 32, slot := r.slot, tid := r.tid, tag := r.tag, temp := tel.temp,
    volt := tel.mv, unit := r.unit, attempt := x.att.number, part := r.part, grade := x.att.grade,
    severity := r.severity, code := r.code, limit := r.limit, coarse := false, arb := x.att.arb,
    opOnly := false, seq := d.rpt.seq }

/-- A dropped record counted by severity, saturating at 4,095 (Table 16.9). -/
def Rpt.drop (q : Rpt) (s : Severity) : Rpt :=
  match s with
  | .info => { q with dropInfo := min 4095 (q.dropInfo + 1) }
  | .correctable => { q with dropCorr := min 4095 (q.dropCorr + 1) }
  | .stepReplay => { q with dropStep := min 4095 (q.dropStep + 1) }
  | .partFatal => { q with dropPart := min 4095 (q.dropPart + 1) }
  | .engFatal => { q with dropEng := min 4095 (q.dropEng + 1) }

/-- The oldest record of the lowest severity in the queue. -/
def lowestRec (l : List Rec) : Option Rec :=
  l.foldl (fun m r => match m with
    | some x => if r.severity.code < x.severity.code then some r else m
    | none => some r) none

/-- Rank of a record among those of its tick: partition, those of none last, then unit code, then report code (R26). -/
def Rec.rank (r : Rec) : Nat := (match r.part with | some p => p.val | none => 16) * 2 ^ 24 + r.unit.toNat * 2 ^ 8 + r.code.toNat

/-- A record put behind those queued before it, and before those of its own tick that rank after it (R26). -/
def insertRec (r : Rec) : List Rec → List Rec
  | [] => [r]
  | x :: l => if x.time = r.time ∧ r.rank < x.rank then r :: x :: l else x :: insertRec r l

/-- SEQ of the record that was raised as number n. -/
def Rpt.seqOf (q : Rpt) (n : BitVec 32) : BitVec 32 := (q.moved.lookup n).getD n

/-- The new SEQ of every raised record after a change of some, as pairs of old and new SEQ. -/
def remap (old : List (BitVec 32 × BitVec 32)) (ps : List (BitVec 32 × BitVec 32)) : List (BitVec 32 × BitVec 32) :=
  ((old.map fun x => (x.1, (ps.lookup x.2).getD x.2)) ++ ps.filter fun x => !old.any fun y => y.2 == x.1).filter fun x => x.1 != x.2

/-- A record enters the queue at its place (R26). Records leave in SEQ order (R406), so the places keep their SEQ and the records
of the tick take those of the places they now stand in. -/
def Rpt.enqueue (q : Rpt) (r : Rec) : Rpt :=
  let l := insertRec r q.queue
  let ns := q.queue.map (·.seq) ++ [r.seq]
  { q with queue := List.zipWith (fun x n => { x with seq := n }) l ns, moved := remap q.moved ((l.map (·.seq)).zip ns) }

/-- A record queued or dropped (R326). -/
def Rpt.push (q : Rpt) (r : Rec) : Rpt :=
  if r.severity.code ≤ 1 then
    if 768 < q.queue.length then q.drop r.severity else q.enqueue r
  else if q.queue.length < Config.queueMax then q.enqueue r
  else
    match lowestRec q.queue with
    | some x =>
      if x.severity.code < r.severity.code then
        { (q.drop x.severity) with queue := q.queue.filter (fun y => y.seq != x.seq) }.enqueue r
      else q.drop r.severity
    | none => q.drop r.severity

/-- A record raised: it takes its SEQ and enters the queue. No record names a partition from its scrub until its next assignment (R347):
none while it is SCRUBBING or FREE. -/
def Dev.raise (d : Dev) (t : Nat) (r : Report) : Dev :=
  let quiet : Bool := match r.part with | some p => (d.part p).cfg.state == .scrubbing || (d.part p).cfg.state == .free | none => false
  if quiet then d else { d with rpt := { d.rpt.push (d.mkRec t r) with seq := d.rpt.seq + 1 } }

/-! ## Time (R223) -/

/-- The beat of an epoch that holds the tick `dt` after the epoch's start. -/
def beatOf (dt stretch : Nat) : Nat := (4 * dt + 3) / stretch
/-- Ticks of an epoch. -/
def epochLen (stretch : Nat) : Nat := 16384 * stretch

/-- Offset in beats from the attempt's anchor of a tick of the current epoch. -/
def Part.offset (x : Part) (t : Nat) : Nat :=
  (x.sch.epoch.toNat - x.att.anchorEpoch) * 65536 + beatOf (t - x.sch.epochTick) x.sch.stretch

/-- The start tick of the beat at an offset from the anchor, if it lies in the current epoch. -/
def Part.beatTick (x : Part) (n : Nat) : Option Nat :=
  if x.att.anchorEpoch + n / 65536 = x.sch.epoch.toNat then some (x.sch.epochTick + n % 65536 * x.sch.stretch / 4)
  else none

/-- The epoch that holds the beat at an offset from the anchor. -/
def Part.epochAt (x : Part) (n : Nat) : Nat := x.att.anchorEpoch + n / 65536

/-- Whether the partition counts epochs now. -/
def Part.running (x : Part) : Bool := x.sch.timed && (x.sch.state == .running || x.sch.state == .held)

/-! ## Groups (R270, R271) -/

/-- Member entry i of a partition's range. -/
def Dev.member (d : Dev) (p : PartId) (i : Nat) : BitVec 128 := tabGet 0 d.members ((d.part p).cfg.membBase + i)

/-- Group entry h of a partition's range. -/
def Dev.group (d : Dev) (p : PartId) (h : Nat) : GroupEntry := tabGet GroupEntry.reset d.groups ((d.part p).cfg.grpBase + h)

/-- The member list an entry names, in rank order. -/
def Dev.listOf (d : Dev) (p : PartId) (g : BitVec 128) : List (BitVec 128) :=
  (List.range (gN g)).map fun i => d.member p (gBase g + i)

/-- Validity of entry values under R271. -/
def Dev.grpValid (d : Dev) (p : PartId) (g : BitVec 128) : Bool :=
  gValid g && decide (gBase g + gN g ≤ (d.part p).cfg.membCount) && (d.listOf p g).all mValid

/-- A group in force and valid, by handle: its entry. -/
def Dev.grp (d : Dev) (p : PartId) (h : Nat) : Option (BitVec 128) :=
  let g := (d.group p h).inForce
  if h < (d.part p).cfg.grpCount ∧ d.grpValid p g then some g else none

/-- The job group's entry. -/
def Dev.jobGrp (d : Dev) (p : PartId) : Option (BitVec 128) := d.grp p (d.part p).flu.jobGroup.toNat

/-- The job's members, own included. -/
def Dev.jobMembers (d : Dev) (p : PartId) : List (BitVec 128) :=
  match d.jobGrp p with | some g => d.listOf p g | none => []

/-- Own job member index. -/
def Part.self (x : Part) : Nat := x.flu.self.toNat

/-- The other members of the job. -/
def Dev.peers (d : Dev) (p : PartId) : List (BitVec 128) := (d.jobMembers p).filter fun m => mIndex m != (d.part p).self

/-! ## Sending (R266, R269, R270, R438) -/

/-- STEP of the current attempt, as packets carry it (R250, R274). -/
def Part.pktStep (x : Part) : BitVec 32 := x.agree.carry.getD (x.sch.step.setWidth 32)

/-- What a packet says beside its payload. FLAGS.LAST is 1 where the sender sets it: in the last packet of a tile, a stream, a state or a share. A
packet that is a whole exchange by itself (VERDICT, NOTICE, AGREE, COUNT, CREDIT, LEASE, DIGEST, a repair's LEDGER) leaves it 0 (DESIGN CHOICE,
log entry 69: R265 does not say what a transfer is). -/
structure PktArgs where
  type : Byte
  group : Nat
  fmt : Byte := 0xFF
  aux : Nat := 0
  ref : Nat := 0
  row : Nat := 0
  col : Nat := 0
  kPart : Nat := 0
  tid : Nat := 0
  tag : Nat := 0
  flags : Byte := 0
  epoch : Option Nat := none
  step : Option (BitVec 32) := none
  attempt : Option Nat := none
  payload : List Byte := []

/-- A packet of partition p to a member index, sealed. -/
def Dev.mkPkt (d : Dev) (p : PartId) (a : PktArgs) (dst : Nat) : Packet :=
  let x := d.part p
  pktSeal
    { hdr := { pcrc := 0, aux := BitVec.ofNat 32 a.aux, ref := BitVec.ofNat 64 a.ref, kPart := BitVec.ofNat 32 a.kPart,
               colTile := BitVec.ofNat 32 a.col, rowTile := BitVec.ofNat 32 a.row,
               step := a.step.getD x.pktStep,
               epoch := match a.epoch with | some e => BitVec.ofNat 64 e | none => x.sch.epoch,
               tid := BitVec.ofNat 32 a.tid, zero := 0, fmt := a.fmt,
               attempt := BitVec.ofNat 8 (a.attempt.getD x.att.number),
               nLines := BitVec.ofNat 16 (a.payload.length / 512), tileTag := BitVec.ofNat 16 a.tag, job := x.flu.tag,
               gen := BitVec.ofNat 16 (gGen (d.group p a.group).inForce), group := BitVec.ofNat 16 a.group,
               dst := BitVec.ofNat 16 dst, src := BitVec.ofNat 16 x.self, flags := a.flags, type := a.type },
      payload := a.payload }

/-- Global number of a partition's local flue port. -/
def Part.port (x : Part) (i : Nat) : Nat := (2 * x.cfg.first + i) % 32

/-- A packet handed to a port of the partition, if its state lets it send (R266). -/
def Dev.sendAt (d : Dev) (p : PartId) (port : Nat) (w : Waiting) : Dev :=
  if mayFlue (d.part p).sch.state ∧ (d.part p).cfg.state = .assigned then
    { d with ports := tabMod FluePort.reset d.ports ((d.part p).port port) fun q => { q with waiting := q.waiting ++ [w] } }
  else d

/-- A packet to a member through a local port; it arrives on port x mod 2^PORTS_LOG2 (R270). -/
def Dev.sendTo (d : Dev) (p : PartId) (port : Nat) (control : Bool) (a : PktArgs) (m : BitVec 128) : Dev :=
  d.sendAt p port ⟨p, d.mkPkt p a (mIndex m), mChip m, mPart m, port % 2 ^ mPortsLog2 m, false, control⟩

/-- A control packet to every other member of the job, through local port 0 (R438). -/
def Dev.sendJob (d : Dev) (p : PartId) (a : PktArgs) : Dev :=
  (d.peers p).foldl (fun d m => d.sendTo p 0 true { a with group := (d.part p).flu.jobGroup.toNat } m) d

/-- A LEASE packet to a switch (R288, R289). -/
def Dev.sendSwitch (d : Dev) (p : PartId) (chip : BitVec 32) (a : PktArgs) : Dev :=
  d.sendAt p 0 ⟨p, d.mkPkt p a 0, chip, 0, 0, true, true⟩

/-- Whether a rank of a group is the member itself: what it is sent stays where it is (R275). -/
def Dev.isOwn (d : Dev) (p : PartId) (h rank : Nat) : Bool :=
  match (d.grp p h).bind fun g => (d.listOf p g)[rank]? with
  | some m => mIndex m == (d.part p).self
  | none => false

/-- A P128 part to the switch of a lease, DST naming the owner (R290). -/
def Dev.sendPart (d : Dev) (p : PartId) (port : Nat) (a : PktArgs) (owner : BitVec 128) (chip : BitVec 32) : Dev :=
  d.sendAt p port ⟨p, d.mkPkt p a (mIndex owner), chip, 0, 0, true, false⟩

/-- Waiting packets of a partition dropped: its ports hold idle (R266). -/
def Dev.idleFlue (d : Dev) (p : PartId) : Dev :=
  let ports := d.ports.map fun x => (x.1, { x.2 with waiting := x.2.waiting.filter fun w => w.part != p })
  { d with ports := ports.filter fun x => decide (x.2 ≠ FluePort.reset) }

/-! ## Halts, dooms and what a record causes (R300, R301, R324) -/

/-- A partition in HALTED (R260): no hold, no window and no further attempt is open. -/
def Part.halt (x : Part) : Part :=
  { x with
      sch := { x.sch with state := .halted, holds := [], nextAnchor := none, hostPending := false, hostGo := false },
      chk := { x.chk with pending := false }, lgrHold := false }

/-- The sends of a partition on a port that a HALT or the fall of its link cuts off after their current flit (R266, R398). -/
def FluePort.cutOff (q : FluePort) (t : Nat) (p : PartId) : FluePort :=
  let hit (x : Nat × Waiting) : Bool := decide (t < x.1) && x.2.part == p
  { q with sending := q.sending.filter fun x => !hit x, cut := q.cut ++ (q.sending.filter hit).map fun x => (t, x.2) }

/-- Sends of a partition in progress cut off on every port. -/
def Dev.cutFlue (d : Dev) (t : Nat) (p : PartId) : Dev := { d with ports := d.ports.map fun x => (x.1, x.2.cutOff t p) }

/-- A partition enters HALTED (R260, R266). -/
def Dev.haltPart (d : Dev) (t : Nat) (p : PartId) : Dev := ((d.modPart p Part.halt).cutFlue t p).idleFlue p

/-- The engine enters HALTED and with it every assigned partition (Table 11.10, Table 14.2); NO_SERVICE it leaves by a reset alone
(R374). -/
def Dev.haltEngine (d : Dev) (t : Nat) : Dev :=
  let ph : Phase := if d.eng.phase = .noService then .noService else .halted
  let d : Dev := { d with eng := { d.eng with phase := ph } }
  d.eachPart (fun _ x => x.cfg.state == .assigned) fun p d => d.haltPart t p

/-- A replay notice to every other member (R301): AUX names the unit and the code of the cause. -/
def Dev.sendNotice (d : Dev) (p : PartId) (unit : UnitCode) (code : Byte) : Dev :=
  d.sendJob p { type := tyNotice, group := 0, aux := unit.toNat * 256 + code.toNat }

/-- The end beat of an attempt's last COMMIT slot, one of a selected variant included, none without one (R304). -/
def Attempt.lastCommitEnd (a : Attempt) (img : Image) (seg : Nat) : Option Nat :=
  ((img.slots.filter fun l => l.commit && a.onTimeline img seg l).map (a.endOf img)).max?

/-- Releases, kind 2, for the leases of a doomed attempt whose epochs have not begun (R289). -/
def Dev.releaseLeases (d : Dev) (p : PartId) : Dev :=
  let x := d.part p
  match x.ldr.image with
  | none => d
  | some img =>
    x.att.requested.foldl (fun d r =>
      match img.leases.find? fun l => l.key == r.1 with
      | some l =>
        if x.sch.epoch.toNat < r.2 ∧ (d.grp p l.group).map gRank = some 0 then
          d.sendSwitch p l.switch { type := tyLease, group := l.group, aux := 2 * 2 ^ 28 + r.1 }
        else d
      | none => d) d

/-- A step-replay record of the member's own kept for triage (R324). -/
def Attempt.own (a : Attempt) (code : Byte) (synd : Nat) : Attempt :=
  if (a.causes.lookup code).isSome then a else { a with causes := a.causes ++ [(code, BitVec.ofNat 128 synd)] }

/-- Dooming an attempt (R300, R301, R304, R306): `own` when the member's own record does it, with its unit. -/
def Dev.doom (d : Dev) (t : Nat) (p : PartId) (code : Byte) (synd : Nat) (own : Bool) (unit : UnitCode) : Dev :=
  if !(d.part p).att.live then d
  else
    let d := if own then d.modAtt p fun a => a.own code synd else d
    let x := d.part p
    match x.att.doom with
    | some m =>
      if own && !m.own then d.modAtt p fun a => { a with doom := some { m with code := code, syndrome := BitVec.ofNat 128 synd, own := true } }
      else d
    | none =>
      let again := x.att.runsCommit && (match x.ldr.image with
        | some img => (match x.att.lastCommitEnd img x.sch.seg.toNat with
            | some e => decide (x.offset t < e)
            | none => false)
        | none => false)
      let d := d.modAtt p fun a =>
        { a with doom := some ⟨code, BitVec.ofNat 128 synd, own, t⟩,
                 suppressFrom := some (match a.suppressFrom with | some u => min u (t + 1) | none => t + 1),
                 commitAgain := a.commitAgain || again,
                 noticeReplay := a.noticeReplay || a.decision.isSome }
      let d := d.releaseLeases p
      if own then d.sendNotice p unit code else d

/-- A record raised with what its severity causes (Table 11.10). STOKER_LOCKSTEP dooms nothing (R300). -/
def Dev.report (d : Dev) (t : Nat) (r : Report) : Dev :=
  let d := d.raise t r
  match r.severity with
  | .info | .correctable => d
  | .stepReplay =>
    match r.part with
    | some p => if r.code = 0x0A then d else d.doom t p r.code r.synd true r.unit
    | none => d
  | .partFatal => match r.part with | some p => d.haltPart t p | none => d
  | .engFatal => d.haltEngine t

/-- Severity of a SLOT_OVERRUN (R236). -/
def Part.overrunSeverity (x : Part) : Severity := if x.att.doom.isSome then .info else .stepReplay

/-- A fence requested from the root of trust (R383, R405), with the record that caused it (R384). -/
def Dev.requestFence (d : Dev) (t : Nat) (u : UnitCode) (r : Option Report) : Dev :=
  { d with eng := { d.eng with fenceReqs := d.eng.fenceReqs ++ [(u, r.map (d.mkRec t))] },
           secOut := d.secOut ++ [.fence u] }

/-- A hold cause added (R249): the partition reads HELD. -/
def Dev.hold (d : Dev) (p : PartId) (c : HoldCause) : Dev :=
  d.modSch p fun h =>
    if h.state = .halted then h
    else { h with holds := if h.holds.contains c then h.holds else h.holds ++ [c],
                  heldSince := if h.state = .held then h.heldSince else h.epoch.toNat, state := .held }

/-- Fence word of a slice. -/
def Dev.fence (d : Dev) (slice : Nat) : BitVec 16 := tabGet 0 d.eng.fences slice

/-- Whether the fence map fences a unit, by its own bit or with its slice (R382). -/
def Dev.fenceSet (d : Dev) (u : UnitCode) : Bool :=
  sliceCond (d.fence (unitSlice u)) == 2 || (match fenceBit u with | some b => (d.fence (unitSlice u)).getLsbD b | none => false)

/-- Whether a unit is fenced: by the map, or an array whose domain has been off and on which no start-up burn has passed since (R338). -/
def Dev.fenced (d : Dev) (u : UnitCode) : Bool :=
  d.fenceSet u || (unitKind u == 0 && decide (unitIdx u < 4) && d.pwr.wasOff.contains (4 * unitSlice u + unitIdx u))

/-- A response on CFG, SEC or TEL. -/
def Dev.respond (d : Dev) (rdata : Word) (status : Nat) : Dev := { d with rsp := some ⟨rdata, status⟩ }

/-- The engine's state changed. -/
def Dev.setPhase (d : Dev) (ph : Phase) (cause : Byte) : Dev := { d with eng := { d.eng with phase := ph, cause := cause } }

/-- The partition a view's banked registers belong to (R413, R414). -/
def Dev.viewPart (d : Dev) (v : View) : PartId := if h : v.val < 16 then ⟨v.val, h⟩ else d.eng.opsel

/-- A request of a view ignored and counted (R413, R428). -/
def Dev.ignored (d : Dev) (v : View) : Dev := if h : v.val < 16 then d.bump ⟨v.val, h⟩ 0 1 else d.bumpOp

/-- GRP_ERR of a partition set (R271, R273). -/
def Dev.setGrpErr (d : Dev) (t : Nat) (p : PartId) : Dev :=
  d.modPart p fun x => { x with flu := { x.flu with grpErr := true, grpErrAt := some t } }

/-! ## Register requests (R400, R413) -/

/-- Whether a requester is one of those that Table 15.4 knows. -/
def isKnown (r : Requester) : Bool := match r with | .unknown _ => false | _ => true

/-- Whether a requester sees the operator's map (R413, R431). -/
def isOp (r : Requester) : Bool := match r with | .cfg v => v.val == 16 | .unknown _ => false | .sec => true

/-- Number of a requester's latches: its view, 17 for the SEC space. -/
def reqId (r : Requester) : Nat := match r with | .cfg v => v.val | .sec => 17 | .unknown v => 18 + v.val

/-- The partition whose banked registers a requester sees (R413 to R415). -/
def Dev.reqPart (d : Dev) (r : Requester) : PartId := match r with | .cfg v => d.viewPart v | .sec => d.eng.secsel | .unknown _ => 0

/-- A request ignored and counted (R413, R418, R428); a SEC request is none of a view's. -/
def Dev.reqIgnored (d : Dev) (r : Requester) : Dev := match r with | .cfg v => d.ignored v | _ => d

/-- States in which the engine answers no register request (Table 15.4). -/
def Dev.deaf (d : Dev) : Bool := d.eng.phase == .reset || d.eng.phase == .init

/-- Whether a requester's registers answer: out of RESET and INIT, and to a view that exists (Table 15.4). -/
def Dev.hears (d : Dev) (r : Requester) : Bool := !d.deaf && isKnown r

/-- A request served: with status 2 in RESET and INIT, with status 1 from no view or at an address that is no multiple of 8 (Table 15.4). -/
def serve (r : Requester) (addr : Nat) (d : Dev) (f : Dev → Dev) : Dev :=
  if d.deaf then d.respond 0 2 else if !isKnown r || decide (addr % 8 ≠ 0) then d.respond 0 1 else f d

/-- Staged window writes of a partition's entries discarded in every view (R423, R424). -/
def Dev.dropStaged (d : Dev) (p : PartId) : Dev :=
  let c := (d.part p).cfg
  let own (b n i : Nat) : Bool := decide (b ≤ i) && decide (i < b + n)
  let keep (l : ViewLatch) : ViewLatch :=
    { l with staged := l.staged.filter fun (s : Nat × Option Word × Option Word × Option Word) => !own c.lgrBase c.lgrCount s.1,
             membStaged := l.membStaged.filter fun (s : Nat × Word) => !own c.membBase c.membCount s.1,
             grpStaged := l.grpStaged.filter fun (s : Nat × Word) => !own c.grpBase c.grpCount s.1 }
  { d with views := (d.views.map fun (e : Nat × ViewLatch) => (e.1, keep e.2)).filter fun e => decide (e.2 ≠ ViewLatch.reset) }

end Sys2Proof.Machine
end

