-- ==== Sys2Proof/Machine/Float.lean ====
section
/-! DEFINITION. Wide formats and F32 arithmetic (R52, R110, R111, R125, R126, Tables 2.4 and 2.7), every value an exact
rational until its one rounding. A zero has no sign and a NaN no payload here: no output depends on either (R126, log
entry 12). -/

namespace Sys2Proof.Machine

/-- The value of a wide element: NaN, a signed infinity, or a real number. -/
inductive FVal where
  | nan
  | inf (neg : Bool)
  | fin (q : Rat)
  deriving DecidableEq, Repr

/-- 2^e as a rational. -/
def pow2 (e : Int) : Rat := if 0 ≤ e then ((2 ^ e.toNat : Nat) : Rat) else 1 / ((2 ^ (-e).toNat : Nat) : Rat)

/-- Magnitude. -/
def rabs (q : Rat) : Rat := if q < 0 then -q else q

/-- The larger of two rationals. -/
def rmax (a b : Rat) : Rat := if a < b then b else a

/-- The smaller of two rationals. -/
def rmin (a b : Rat) : Rat := if b < a then b else a

/-- floor(log2 q) for q > 0. -/
def floorLog2 (q : Rat) : Int :=
  let l : Int := (q.num.natAbs.log2 : Int) - (q.den.log2 : Int)
  if pow2 l ≤ q then l else l - 1

/-- ceil(log2 q) for q > 0: the smallest L with 2^L ≥ q (R78). -/
def ceilLog2 (q : Rat) : Int :=
  let l := floorLog2 q
  if pow2 l = q then l else l + 1

/-- The places of a binary format: exponent and mantissa widths and bias (Tables 2.4, 2.7). -/
structure FmtSpec where
  exp : Nat
  man : Nat
  bias : Nat
  deriving DecidableEq, Repr

/-- Binary32. -/
def specF32 : FmtSpec := ⟨8, 23, 127⟩
/-- Binary16. -/
def specF16 : FmtSpec := ⟨5, 10, 15⟩
/-- The upper half of binary32. -/
def specBF16 : FmtSpec := ⟨8, 7, 127⟩
/-- OCP E4M3 (no infinity; largest 448). -/
def specE4M3 : FmtSpec := ⟨4, 3, 7⟩
/-- OCP E5M2. -/
def specE5M2 : FmtSpec := ⟨5, 2, 15⟩
/-- MXFP4 E2M1. -/
def specE2M1 : FmtSpec := ⟨2, 1, 1⟩

/-- The spec of a wide format. -/
def specOf : WideFmt → FmtSpec
  | .f32 => specF32 | .f16 => specF16 | .bf16 => specBF16

/-- Bytes per element of a wide format (Table 5.3). -/
def wideBytes : WideFmt → Nat
  | .f32 => 4 | .f16 => 2 | .bf16 => 2

/-- Magnitude of a finite pattern without its sign bit. -/
def magOf (f : FmtSpec) (pat : Nat) : Rat :=
  let e := pat / 2 ^ f.man
  let m := pat % 2 ^ f.man
  if e = 0 then (m : Rat) * pow2 (1 - f.bias - f.man)
  else ((2 ^ f.man + m : Nat) : Rat) * pow2 ((e : Int) - f.bias - f.man)

/-- The pattern of infinity, one above the largest finite pattern of an IEEE-style format. -/
def infPat (f : FmtSpec) : Nat := (2 ^ f.exp - 1) * 2 ^ f.man

/-- Reading an IEEE-style pattern (R52: subnormals exact, negative zero as zero). -/
def decodeF (f : FmtSpec) (pat : Nat) : FVal :=
  let w := f.exp + f.man
  let neg := decide (pat / 2 ^ w % 2 = 1)
  let mag := pat % 2 ^ w
  if mag = infPat f then .inf neg
  else if infPat f < mag then .nan
  else .fin (if neg then -(magOf f mag) else magOf f mag)

/-- The canonical quiet NaN pattern (R126). -/
def nanPat (f : FmtSpec) : Nat := infPat f + 2 ^ (f.man - 1)

/-- How a magnitude is placed on a format's grid: the grid exponent, the count of ulps below, and the fraction. -/
def gridOf (f : FmtSpec) (m : Rat) : Int × Nat × Rat :=
  let emin : Int := 1 - f.bias
  let e := max (floorLog2 m) emin
  let q := m / pow2 (e - f.man)
  let n := q.floor.toNat
  (e, n, q - (n : Rat))

/-- The pattern of `n` ulps at grid exponent `e` (a carry into the next binade included). -/
def patOf (f : FmtSpec) (e : Int) (n : Nat) : Nat := (e - (1 - f.bias)).toNat * 2 ^ f.man + n

/-- Round to nearest, ties to even, a positive magnitude to a pattern, with no upper limit. -/
def rneMag (f : FmtSpec) (m : Rat) : Nat :=
  let (e, n, fr) := gridOf f m
  patOf f e (if fr > 1 / 2 ∨ (fr = 1 / 2 ∧ n % 2 = 1) then n + 1 else n)

/-- Truncate a positive magnitude to a pattern. -/
def truncMag (f : FmtSpec) (m : Rat) : Nat :=
  let (e, n, _) := gridOf f m
  patOf f e n

/-- The SR-n choice of R88 and R111: the outer neighbour when the top n bits of the draw lie below floor(frac * 2^n). -/
def srUp (n : Nat) (r : Word) (frac : Rat) : Bool :=
  decide (r.toNat / 2 ^ (64 - n) < (frac * (2 ^ n : Nat)).floor.toNat)

/-- Number of bits a stochastic mode compares (R88). -/
def rndBits : Rnd → Nat
  | .rne => 0 | .sr4 => 4 | .sr3 => 3

/-- Rounding a positive magnitude under a mode with a drawn word (R110, R111); beyond the largest finite value as RNE. -/
def roundMag (f : FmtSpec) (mode : Rnd) (r : Word) (m : Rat) : Nat :=
  match mode with
  | .rne => rneMag f m
  | _ =>
    if m > magOf f (infPat f - 1) then rneMag f m
    else
      let (e, n, fr) := gridOf f m
      patOf f e (if srUp (rndBits mode) r fr then n + 1 else n)

/-- Writing a value into an IEEE-style format (R110, R126): no negative zero, canonical NaN, overflow to infinity. -/
def encodeF (f : FmtSpec) (mode : Rnd) (r : Word) (v : FVal) : Nat :=
  let sgn := 2 ^ (f.exp + f.man)
  match v with
  | .nan => nanPat f
  | .inf neg => infPat f + (if neg then sgn else 0)
  | .fin q =>
    if q = 0 then 0
    else
      let p := min (roundMag f mode r (rabs q)) (infPat f)
      if p = 0 then 0 else p + (if q < 0 then sgn else 0)

/-- Whether rounding a finite value overflows to infinity (R110, R125). -/
def overflows (f : FmtSpec) (v : FVal) : Bool :=
  match v with
  | .fin q => q ≠ 0 && decide (infPat f ≤ rneMag f (rabs q))
  | _ => false

/-- Value of an F32 pattern. -/
def f32Val (b : BitVec 32) : FVal := decodeF specF32 b.toNat

/-- F32 pattern of a value, RNE. -/
def toF32 (v : FVal) : BitVec 32 := BitVec.ofNat 32 (encodeF specF32 .rne 0 v)

/-- Rounding an F32 value to a wide format and back (a stage's IF, R123). -/
def throughWide (w : WideFmt) (b : BitVec 32) : BitVec 32 :=
  match w with
  | .f32 => b
  | w => toF32 (decodeF (specOf w) (encodeF (specOf w) .rne 0 (f32Val b)))

/-! ## Operations of R125 -/

/-- Negation. -/
def vNeg : FVal → FVal
  | .nan => .nan | .inf n => .inf (!n) | .fin q => .fin (-q)

/-- Exact sum, invalid operations giving NaN. -/
def vAdd : FVal → FVal → FVal
  | .nan, _ => .nan
  | _, .nan => .nan
  | .inf a, .inf b => if a = b then .inf a else .nan
  | .inf a, _ => .inf a
  | _, .inf b => .inf b
  | .fin a, .fin b => .fin (a + b)

/-- Exact product, zero times infinity giving NaN. -/
def vMul : FVal → FVal → FVal
  | .nan, _ => .nan
  | _, .nan => .nan
  | .inf a, .inf b => .inf (a != b)
  | .inf a, .fin q => if q = 0 then .nan else .inf (a != decide (q < 0))
  | .fin q, .inf a => if q = 0 then .nan else .inf (a != decide (q < 0))
  | .fin a, .fin b => .fin (a * b)

/-- Exact quotient; a zero divisor gives infinity, or NaN for 0/0. -/
def vDiv : FVal → FVal → FVal
  | .nan, _ => .nan
  | _, .nan => .nan
  | .inf _, .inf _ => .nan
  | .inf a, .fin q => .inf (a != decide (q < 0))
  | .fin _, .inf _ => .fin 0
  | .fin a, .fin b => if b = 0 then (if a = 0 then .nan else .inf (decide (a < 0))) else .fin (a / b)

/-- F32 addition. -/
def fAdd (a b : BitVec 32) : BitVec 32 := toF32 (vAdd (f32Val a) (f32Val b))
/-- F32 subtraction. -/
def fSub (a b : BitVec 32) : BitVec 32 := toF32 (vAdd (f32Val a) (vNeg (f32Val b)))
/-- F32 multiplication. -/
def fMul (a b : BitVec 32) : BitVec 32 := toF32 (vMul (f32Val a) (f32Val b))
/-- F32 division. -/
def fDiv (a b : BitVec 32) : BitVec 32 := toF32 (vDiv (f32Val a) (f32Val b))
/-- Fused multiply-add, one rounding. -/
def fFma (a b c : BitVec 32) : BitVec 32 := toF32 (vAdd (vMul (f32Val a) (f32Val b)) (f32Val c))
/-- F32 of a natural number. -/
def f32OfNat (n : Nat) : BitVec 32 := toF32 (.fin n)

/-- Whether a pattern is NaN. -/
def isNan (b : BitVec 32) : Bool := f32Val b == .nan

/-- Order on values as reals (+0 equals -0), false when either is NaN. -/
def vLt : FVal → FVal → Bool
  | .nan, _ => false
  | _, .nan => false
  | .inf a, .inf b => a && !b
  | .inf a, .fin _ => a
  | .fin _, .inf b => !b
  | .fin a, .fin b => decide (a < b)

/-- F32 order. -/
def fLt (a b : BitVec 32) : Bool := vLt (f32Val a) (f32Val b)

/-- Larger of two F32 values, the first when they compare equal. -/
def fMax (a b : BitVec 32) : BitVec 32 := if fLt a b then b else a

/-- Negative infinity. -/
def negInf : BitVec 32 := 0xFF800000#32
/-- Positive infinity. -/
def posInf : BitVec 32 := 0x7F800000#32
/-- The canonical F32 NaN. -/
def nan32 : BitVec 32 := 0x7FC00000#32
/-- 1.0. -/
def one32 : BitVec 32 := 0x3F800000#32

/-! ## Correctly rounded functions -/

/-- Integer square root by bits: the largest r below 2^n more than `lo` with r^2 ≤ x. -/
def isqrtBits (x : Nat) : Nat → Nat → Nat
  | 0, lo => lo
  | n + 1, lo => isqrtBits x n (if (lo + 2 ^ n) * (lo + 2 ^ n) ≤ x then lo + 2 ^ n else lo)

/-- floor(sqrt x). -/
def isqrt (x : Nat) : Nat := isqrtBits x (x.log2 / 2 + 1) 0

/-- The F32 nearest sqrt q (ties to even) for q > 0, decided on squares. -/
def sqrtF32 (q : Rat) : BitVec 32 :=
  let e := floorLog2 q / 2
  let ulp := pow2 (e - 23)
  let n := isqrt (q / (ulp * ulp)).floor.toNat
  let h : Rat := (n : Rat) + 1 / 2
  let up := q > h * h * (ulp * ulp) ∨ (q = h * h * (ulp * ulp) ∧ n % 2 = 1)
  toF32 (.fin (((if up then n + 1 else n : Nat) : Rat) * ulp))

/-- Correctly rounded reciprocal square root (R133). -/
def fRsqrt (b : BitVec 32) : BitVec 32 :=
  match f32Val b with
  | .nan => nan32
  | .inf neg => if neg then nan32 else 0
  | .fin q => if q = 0 then posInf else if q < 0 then nan32 else sqrtF32 (1 / q)

/-- Fixed-point scale of the series below: 2^600. -/
def fxBits : Nat := 600

/-- Sum of z^(2k+1)/(2k+1) from a scaled power `t` of z, z2 the scaled square. -/
def atanhSum (z2 : Nat) : Nat → Nat → Nat → Nat
  | 0, _, _ => 0
  | n + 1, k, t => t / (2 * k + 1) + atanhSum z2 n (k + 1) (t * z2 / 2 ^ fxBits)

/-- 2^600 * 2 * atanh z for a rational z in [0, 1/3]. -/
def atanh2 (z : Rat) : Nat :=
  let s := (z * (2 ^ fxBits : Nat)).floor.toNat
  2 * atanhSum (s * s / 2 ^ fxBits) 200 0 s

/-- ln q for q > 0, to far beyond F32 (log entry 11). -/
def lnRat (q : Rat) : Rat :=
  let e := floorLog2 q
  let m := q / pow2 e
  let lnM : Int := atanh2 ((m - 1) / (m + 1))
  let ln2 : Int := atanh2 (1 / 3)
  ((lnM + e * ln2 : Int) : Rat) / (2 ^ fxBits : Nat)

/-- Alternating sum of z^(2k+1)/(2k+1) for z = 1/n. -/
def atanInv (n : Nat) : Nat → Nat → Nat → Int
  | 0, _, _ => 0
  | f + 1, k, t => (if k % 2 = 0 then 1 else -1) * ((t / (2 * k + 1) : Nat) : Int) + atanInv n f (k + 1) (t / (n * n))

/-- pi, scaled by 2^600 (Machin). -/
def piFx : Int := 16 * atanInv 5 300 0 (2 ^ fxBits / 5) - 4 * atanInv 239 300 0 (2 ^ fxBits / 239)

/-- Cosine series: term 2k with alternating sign, argument squared scaled. -/
def cosSum (x2 : Nat) : Nat → Nat → Nat → Int
  | 0, _, _ => 0
  | f + 1, k, t =>
    (if k % 2 = 0 then 1 else -1) * (t : Int) + cosSum x2 f (k + 1) (t * x2 / 2 ^ fxBits / ((2 * k + 1) * (2 * k + 2)))

/-- cos(pi * t) for t in [0, 2] (R188), exact at multiples of one half. -/
def cosPi (t : Rat) : Rat :=
  let t := if t > 1 then 2 - t else t
  let (t, neg) := if t > 1 / 2 then (1 - t, true) else (t, false)
  let c : Rat :=
    if t = 1 / 2 then 0
    else
      let x := ((piFx : Rat) * t).floor.toNat
      ((cosSum (x * x / 2 ^ fxBits) 120 0 (2 ^ fxBits) : Int) : Rat) / (2 ^ fxBits : Nat)
  if neg then -c else c

/-- Normal-integral series: (-1)^k x^(2k+1) / (k! 2^k (2k+1)). -/
def phiSum (x2 : Nat) : Nat → Nat → Nat → Int
  | 0, _, _ => 0
  | f + 1, k, t =>
    (if k % 2 = 0 then 1 else -1) * ((t / (2 * k + 1) : Nat) : Int)
      + phiSum x2 f (k + 1) (t * x2 / 2 ^ fxBits / (2 * (k + 1)))

/-- Phi(x) - 1/2 for x ≥ 0, scaled by 2^600. -/
def phiFx (x : Rat) : Nat :=
  let s := (x * (2 ^ fxBits : Nat)).floor.toNat
  let sum := (phiSum (s * s / 2 ^ fxBits) 320 0 s).toNat
  sum * 2 ^ fxBits / isqrt (2 * piFx.toNat * 2 ^ fxBits)

/-- The largest positive F32 pattern whose Phi is not above p (scaled, less one half), by bits. -/
def probitBits (p : Nat) : Nat → Nat → Nat
  | 0, lo => lo
  | n + 1, lo =>
    let c := lo + 2 ^ n
    probitBits p n (if c < 0x41000000 ∧ phiFx (magOf specF32 c) ≤ p then c else lo)

/-- Phi^-1(p) correctly rounded to F32 for 1/2 ≤ p < 1 (R187). -/
def probitUp (p : Rat) : BitVec 32 :=
  let s := ((p - 1 / 2) * (2 ^ fxBits : Nat)).floor.toNat
  if s = 0 then 0
  else
    let lo := probitBits s 31 0
    let mid := (magOf specF32 lo + magOf specF32 (lo + 1)) / 2
    BitVec.ofNat 32 (if phiFx mid ≤ s then lo + 1 else lo)

/-- Phi^-1(p) correctly rounded to F32, by symmetry below one half. -/
def probit (p : Rat) : BitVec 32 :=
  if p < 1 / 2 then probitUp (1 - p) ^^^ 0x80000000#32 else probitUp p

/-- -ln(-ln u) correctly rounded to F32 (R191). -/
def gumbel (u : Rat) : BitVec 32 := toF32 (.fin (-(lnRat (-(lnRat u)))))

end Sys2Proof.Machine
end

