-- ==== Sys2Proof/Machine/Formats.lean ====
section
/-! DEFINITION. Element codes, scales, ash entries and the geometry of narrow tensors (R38-R51, R57-R64, R436). -/

namespace Sys2Proof.Machine

/-- Eight-bit formats (Table 2.1). -/
def isWide8 : ElemFmt → Bool
  | .e4m3 | .i8 | .c256 | .e5m2 => true
  | _ => false

/-- A codebook: the non-escape codes with their entries in the twelve-fraction-bit domain, and the escape code (R38, R39). -/
structure Codebook where
  vals : List (Nat × Int)
  esc : Option Nat
  deriving DecidableEq, Repr

/-- Two's complement reading of the low `n` bits. -/
def signed (n v : Nat) : Int := if v % 2 ^ n < 2 ^ (n - 1) then (v % 2 ^ n : Nat) else (v % 2 ^ n : Nat) - (2 ^ n : Nat)

/-- Low `n` bits of an integer in two's complement. -/
def unsigned (n : Nat) (i : Int) : Nat := (i % (2 ^ n : Nat)).toNat

/-- The magnitudes of E2M1 in eighths, by code bits [2:0] (Table 2.2). -/
def e2m1Mag : List Nat := [0, 4, 8, 12, 16, 24, 32, 48]

/-- The built-in E2M1 codebook (Table 2.2). -/
def bookE2m1 : Codebook :=
  { vals := ((List.range 16).filter (· ≠ 8)).map fun c =>
      (c, (if c < 8 then (1 : Int) else -1) * 512 * (e2m1Mag.getD (c % 8) 0 : Nat)),
    esc := some 8 }

/-- The built-in I4 codebook (Table 2.2). -/
def bookI4 : Codebook :=
  { vals := ((List.range 16).filter (· ≠ 8)).map fun c => (c, 4096 * signed 4 c), esc := some 8 }

/-- The built-in I8 codebook (R45). -/
def bookI8 : Codebook :=
  { vals := ((List.range 256).filter (· ≠ 128)).map fun c => (c, 4096 * signed 8 c), esc := some 128 }

/-- The E4M3 entry of a code: value times 4,096 (R44). -/
def e4m3Entry (c : Nat) : Int :=
  let m := (magOf specE4M3 (c % 128) * 4096).floor
  if c < 128 then m else -m

/-- The built-in E4M3 codebook: no NaN code, 0x80 the escape (R44). -/
def bookE4m3 : Codebook :=
  { vals := ((List.range 256).filter fun c => c ≠ 127 ∧ c ≠ 128 ∧ c ≠ 255).map fun c => (c, e4m3Entry c),
    esc := some 128 }

/-- A user codebook read from its record (Table 2.3). -/
def bookUser (r : CodebookRec) : Codebook :=
  if r.c256 then
    let e := fieldLE r.bytes 1024 2
    { vals := ((List.range 256).filter fun c => c ≠ e).map fun c => (c, signed 32 (fieldLE r.bytes (4 * c) 4)),
      esc := if e = 0xFFFF then none else some e }
  else
    let e := fieldLE r.bytes 16 1
    { vals := ((List.range 16).filter fun c => c ≠ e).map fun c => (c, 512 * signed 8 (fieldLE r.bytes c 1)),
      esc := if e = 0xFF then none else some e }

/-- The check sum of a codebook record (R42). -/
def bookSum (r : CodebookRec) : Nat := (r.bytes.foldl (fun n b => n + b.toNat) 0) % 2 ^ 32

/-- The codebook of a format, user records by handle (R40-R45). No operand or output has E5M2 (R46, R102): its arm is never used. -/
def bookOf (recs : List CodebookRec) (f : ElemFmt) (h : Nat) : Codebook :=
  match f with
  | .e2m1 => bookE2m1
  | .i4 => bookI4
  | .e4m3 => bookE4m3
  | .i8 | .e5m2 => bookI8
  | .c16 => ((recs.find? fun r => !r.c256 && r.key == h).map bookUser).getD bookE2m1
  | .c256 => ((recs.find? fun r => r.c256 && r.key == h).map bookUser).getD bookI8

/-- The entry of a code, none for the escape or a code without an entry. -/
def Codebook.entry (b : Codebook) (c : Nat) : Option Int := b.vals.lookup c

/-- The zero code (R60). -/
def Codebook.zeroCode (b : Codebook) : Nat := ((b.vals.find? fun x => x.2 == 0).map (·.1)).getD 0

/-- The value of an entry. -/
def entryVal (q : Int) : Rat := (q : Rat) / 4096

/-- Largest non-escape entry, with its code (R83). -/
def Codebook.top (b : Codebook) : Nat × Int :=
  b.vals.foldl (fun m x => if m.2 < x.2 then x else m) (b.zeroCode, 0)

/-- Smallest non-escape entry, with its code (R83). -/
def Codebook.bottom (b : Codebook) : Nat × Int :=
  b.vals.foldl (fun m x => if x.2 < m.2 then x else m) (b.zeroCode, 0)

/-- Whether `x` is to be preferred to `m` for value v: nearer; at equal distance the even code, else the lower (R43). -/
def nearer (v : Rat) (m x : Nat × Int) : Bool :=
  let dm := rabs (v - entryVal m.2)
  let dx := rabs (v - entryVal x.2)
  decide (dx < dm) || (dx == dm && (if m.1 % 2 = x.1 % 2 then decide (x.1 < m.1) else x.1 % 2 == 0))

/-- The nearest-entry rule (R43). -/
def Codebook.nearest (b : Codebook) (v : Rat) : Nat :=
  (b.vals.foldl (fun m x => if nearer v m x then x else m) (b.zeroCode, 0)).1

/-- The largest entry not above v and the smallest not below v, with codes (R88). -/
def Codebook.bracket (b : Codebook) (v : Rat) : (Nat × Int) × (Nat × Int) :=
  (b.vals.foldl (fun m x => if entryVal x.2 ≤ v ∧ m.2 < x.2 then x else m) b.bottom,
   b.vals.foldl (fun m x => if v ≤ entryVal x.2 ∧ x.2 < m.2 then x else m) b.top)

/-- The code of an in-range value under a rounding mode (R87, R88); `r` is the element's draw. -/
def Codebook.round (b : Codebook) (mode : Rnd) (r : Word) (y : Rat) : Nat :=
  match mode with
  | .rne => b.nearest y
  | _ =>
    let (lo, hi) := b.bracket y
    if lo.2 = hi.2 then lo.1
    else
      let (inner, outer) := if y > 0 then (lo, hi) else (hi, lo)
      let frac := rabs (y - entryVal inner.2) / rabs (entryVal outer.2 - entryVal inner.2)
      if srUp (rndBits mode) r frac then outer.1 else inner.1

/-! ## Scales (R47, R48) -/

/-- The value of a GS8 byte's scale: (8 + M) * 2^(E - 11) (R76). -/
def gs8Value (b : Nat) : Rat := ((8 + b % 8 : Nat) : Rat) * pow2 ((b / 8 % 16 : Nat) - (11 : Int))

/-- Valid tensor scales: positive and normal (R48). -/
def ts32Ok (t : BitVec 32) : Bool := decide (0x00800000 ≤ t.toNat ∧ t.toNat < 0x7F800000)

/-- The value of a valid TS32. -/
def ts32Val (t : BitVec 32) : Rat := magOf specF32 (t.toNat % 2 ^ 31)

/-- TS32 = 2^c for c in -126..127. -/
def ts32Pow2 (c : Int) : BitVec 32 := BitVec.ofNat 32 ((c + 127).toNat * 2 ^ 23)

/-! ## Ash entries (R49) -/

/-- An ash entry word. -/
def ashWord (pos : Nat) (last : Bool) (val : Int) : BitVec 32 :=
  BitVec.ofNat 32 (pos * 2 ^ 25 + (if last then 2 ^ 24 else 0) + unsigned 24 val)

/-- Position of an entry. -/
def ashPos (w : BitVec 32) : Nat := w.toNat / 2 ^ 25
/-- LAST of an entry. -/
def ashLast (w : BitVec 32) : Bool := w.getLsbD 24
/-- VAL of an entry. -/
def ashVal (w : BitVec 32) : Int := signed 24 w.toNat

/-- The entries a group with X = 1 takes from the rest of a packet: up to and including the first with LAST (R436). -/
def ashTake : List (BitVec 32) → List (BitVec 32) × List (BitVec 32)
  | [] => ([], [])
  | w :: ws => if ashLast w then ([w], ws) else let (a, b) := ashTake ws; (w :: a, b)

/-- Assigning a packet's entries to the groups of its span, given by their GS8 bytes (R436). -/
def ashAssign : List Byte → List (BitVec 32) → List (List (BitVec 32)) × List (BitVec 32)
  | [], ws => ([], ws)
  | g :: gs, ws =>
    if g.getLsbD 7 then
      let (a, r) := ashTake ws
      let (rest, left) := ashAssign gs r
      (a :: rest, left)
    else
      let (rest, left) := ashAssign gs ws
      ([] :: rest, left)

/-! ## Geometry (R57-R59) -/

/-- Block height (Table 2.8). -/
def blockRows (f : ElemFmt) : Nat := if isWide8 f then 4 else 8
/-- Kp (R57). -/
def kPad (k : Nat) : Nat := roundUp k 128
/-- prows (R57). -/
def rowsPad (f : ElemFmt) (rows : Nat) : Nat := roundUp rows (blockRows f)
/-- Logical element index (R57), a 64-bit number. -/
def elemIndex (k r c : Nat) : Nat := r * kPad k + c
/-- Code block of (r, k) (Table 2.8). -/
def blockOf (f : ElemFmt) (k r c : Nat) : Nat := r / blockRows f * (kPad k / 128) + c / 128
/-- Byte of (r, k) in its block (Table 2.8). -/
def byteInBlock (f : ElemFmt) (r c : Nat) : Nat :=
  if isWide8 f then 128 * (r % 4) + c % 128 else 64 * (r % 8) + c % 128 / 2
/-- Groups per block (Table 2.8). -/
def groupsPerBlock (f : ElemFmt) (g : Nat) : Nat := blockRows f * (128 / g)
/-- Group index of (r, k) (R59). -/
def groupOf (f : ElemFmt) (g k r c : Nat) : Nat :=
  blockOf f k r c * groupsPerBlock f g + (r % blockRows f * (128 / g) + c % 128 / g)
/-- Blocks of a tensor. -/
def blockCount (t : TensorRef) : Nat := rowsPad t.fmt t.rows / blockRows t.fmt * (kPad t.k / 128)
/-- Groups of a tensor. -/
def groupCount (t : TensorRef) : Nat := blockCount t * groupsPerBlock t.fmt t.g
/-- Scale packets of a tensor (R59). -/
def scalePackets (t : TensorRef) : Nat := ceilDiv (groupCount t) 512
/-- Row and first reduction position of group `n` (the inverse of R59). -/
def groupPlace (t : TensorRef) (n : Nat) : Nat × Nat :=
  let gpb := groupsPerBlock t.fmt t.g
  let b := n / gpb
  let w := n % gpb
  let per := 128 / t.g
  (b / (kPad t.k / 128) * blockRows t.fmt + w / per, b % (kPad t.k / 128) * 128 + w % per * t.g)

/-- Lines of the scale region before the scale packets: the head line and a row-scale table (R63). -/
def scaleHead (t : TensorRef) : Nat := 1 + (if t.rowTs then ceilDiv (4 * rowsPad t.fmt t.rows) 512 else 0)

/-- Tag of code packet b (R64). -/
def codeTag (tid : BitVec 24) (b : Nat) : BitVec 16 := BitVec.ofNat 16 b ^^^ tid.setWidth 16
/-- Tag of scale packet b (R64). -/
def scaleTag (tid : BitVec 24) (b : Nat) : BitVec 16 := codeTag tid b ^^^ 0x8000#16

/-- FMT codes of the head (Table 2.10). -/
def fmtCode : ElemFmt → Nat
  | .e2m1 => 0 | .i4 => 1 | .c16 => 2 | .e4m3 => 4 | .i8 => 5 | .c256 => 6 | .e5m2 => 7

/-- GSZ codes (Table 2.10). -/
def gszCode (g : Nat) : Nat := if g = 32 then 0 else if g = 64 then 1 else if g = 128 then 2 else 3

/-- The head line of a tensor (R63, Table 2.10). -/
def headLine (t : TensorRef) (ts : BitVec 32) (cbSum nAsh step : Nat) : List Byte :=
  let user := t.fmt == .c16 || t.fmt == .c256
  let w0 := ts.toNat * 2 ^ 32 + bit t.rot.isSome * 2 ^ 31 + bit t.rowTs * 2 ^ 30 + gszCode t.g * 2 ^ 28
    + fmtCode t.fmt * 2 ^ 24 + t.tid.toNat
  let w3 := if user then cbSum * 2 ^ 32 + t.codebook else 0
  let w5 := step % 2 ^ 32 * 2 ^ 32 + ((t.rot.map (·.log2)).getD 0) * 2 ^ 28
  [w0, t.rows, t.k, w3, nAsh, w5, 0x0001000000000000, 0].flatMap (bytesLE 8) ++ List.replicate 448 0

/-- An ash packet line (Table 2.9). -/
def ashLine (tid : BitVec 24) (first span : Nat) (entries : List (BitVec 32)) : List Byte :=
  bytesLE 8 first ++ bytesLE 4 span ++ bytesLE 2 entries.length ++ bytesLE 2 (tid.toNat % 65536)
    ++ (entries.flatMap fun e => bytesLE 4 e.toNat) ++ List.replicate (4 * (124 - entries.length)) 0

/-- Where the next ash packet ends under the rule of R61: from group `first`, with the entry counts of the groups
known so far; `none` while the closing group is not known yet. The result is the span. -/
def ashSpan (counts : List Nat) (complete : Bool) : Nat → Nat → Option Nat
  | n, used =>
    match counts with
    | [] => if complete then some n else none
    | c :: cs => if used + c > 124 ∨ n = 2 ^ 32 - 1 then some n else ashSpan cs complete (n + 1) (used + c)

end Sys2Proof.Machine
end

