-- ==== Sys2Proof/Machine/Rng.lean ====
section
/-! DEFINITION. The mixer, the indexed and stream generators, fills and the sampler's draws (R168-R193). -/

namespace Sys2Proof.Machine

/-- Words K[i] of the key schedule from word i on (R168). -/
def keyWords : Nat → Nat → BitVec 128 → List (BitVec 128)
  | 0, _, _ => []
  | n + 1, i, k =>
    let k1 := k * Config.keyM + BitVec.ofNat 128 (i + 1)
    let k2 := k1 ^^^ (k1 >>> 71)
    k2 :: keyWords n (i + 1) k2

/-- The five-word key schedule of a seed (R168). -/
def keySchedule (seed : BitVec 128) : List (BitVec 128) := keyWords 5 0 seed

/-- One round of the mixer with its round key (R168). -/
def mixRound (x k : BitVec 128) : BitVec 128 :=
  let x1 := x * Config.mixM
  let x2 := x1 ^^^ (x1 >>> 64)
  (x2 ^^^ (x2 >>> 37)) + k

/-- mix(P0, P1, K): four rounds, the tweak block after round 1 (R168). -/
def mix (p0 p1 : BitVec 128) (ks : List (BitVec 128)) : Word :=
  let x := p0 ^^^ ks.getD 0 0
  let x := mixRound x (ks.getD 1 0)
  let x := mixRound x (ks.getD 2 0) ^^^ p1
  let x := mixRound x (ks.getD 3 0)
  let x := mixRound x (ks.getD 4 0)
  (x >>> 64).setWidth 64 ^^^ x.setWidth 64

/-- Block P0 of an indexed draw (Table 7.1). -/
def packP0 (stream step : BitVec 32) (index : Nat) : BitVec 128 :=
  BitVec.ofNat 128 (stream.toNat * 2 ^ 96 + step.toNat * 2 ^ 64 + index % 2 ^ 64)

/-- Block P1 of a draw: domain tag, data term and tensor identifier (Table 7.1). -/
def packP1 (tag : Nat) (data : BitVec 16) (tid : BitVec 24) : BitVec 128 :=
  BitVec.ofNat 128 (tag * 2 ^ 40 + data.toNat * 2 ^ 24 + tid.toNat)

/-- An indexed draw under a seed with a domain tag (R170, R171). -/
def indexedDraw (seed : BitVec 128) (tag : Nat) (stream step : BitVec 32) (tid : BitVec 24) (index : Nat)
    (data : BitVec 16) : Word :=
  mix (packP0 stream step index) (packP1 tag data tid) (keySchedule seed)

/-- A stream draw at counter c: P1 has domain tag 0x01 and nothing else (R176). -/
def streamDraw (seed c : BitVec 128) : Word := mix c (packP1 1 0 0) (keySchedule seed)

/-- The counter at which stream s starts (R176). -/
def streamStart (s : BitVec 32) : BitVec 128 := BitVec.ofNat 128 (s.toNat * 2 ^ 64)

/-- A counter moved on within its stream: modulo 2^64, never into the identifier (R176). -/
def streamAdvance (c : BitVec 128) (n : Nat) : BitVec 128 :=
  BitVec.ofNat 128 (c.toNat / 2 ^ 64 * 2 ^ 64 + (c.toNat + n) % 2 ^ 64)

/-- The top n bits of a draw as a number. -/
def topBits (r : Word) (n : Nat) : Nat := r.toNat / 2 ^ (64 - n)

/-- Rotation sign of reduction position k: true for -1 (R91). -/
def rotSign (seed : BitVec 128) (key : BitVec 24) (k : Nat) : Bool :=
  (indexedDraw seed 0 Config.rotStream 0 key k 0).getLsbD 63

/-! ## Distributions -/

/-- The table lookup and interpolation of R186 over a function F^-1 of probabilities. -/
def qdraw (r : Word) (finv : Rat → BitVec 32) : BitVec 32 :=
  let j : Nat := r.toNat / 2 ^ 52
  let f : Nat := r.toNat / 2 ^ 28 % 2 ^ 24
  let edge (i : Nat) : BitVec 32 := finv (((i : Nat) : Rat) / 4096)
  if 1 ≤ j ∧ j ≤ 4094 then
    fFma (toF32 (.fin ((f : Rat) * pow2 (-24)))) (fSub (edge (j + 1)) (edge j)) (edge j)
  else
    let h : Nat := if j = 0 then f + 1 else 2 ^ 24 - f
    let b : Nat := h.log2
    let x (c : Nat) : BitVec 32 := finv (if j = 0 then pow2 (-(c : Int)) else 1 - pow2 (-(c : Int)))
    if b = 24 then x 12
    else
      let fr := toF32 (.fin (((h - 2 ^ b : Nat) : Rat) * pow2 (-(b : Int))))
      fFma fr (fSub (x (35 - b)) (x (36 - b))) (x (36 - b))

/-- The standard normal table draw (R187). -/
def normalDraw (r : Word) : BitVec 32 := qdraw r probit

/-- The Gumbel draw of the sampler (R191). -/
def gumbelDraw (r : Word) : BitVec 32 := qdraw r gumbel

/-- The Box-Muller draw of R188 from its two outputs. -/
def boxMuller (ra rb : Word) : BitVec 32 :=
  let u1 := magOf specF32 (truncMag specF32 (((2 * ra.toNat + 1 : Nat) : Rat) * pow2 (-65)))
  let u2 : Rat := (topBits rb 24 : Rat) * pow2 (-24)
  let a := toF32 (.fin (lnRat u1))
  let c := match f32Val a with
    | .fin q => if q = 0 then 0 else sqrtF32 (-2 * q)
    | _ => 0
  fMul c (toF32 (.fin (cosPi (2 * u2))))

/-- The value of one fill element from its draws (R183-R188). -/
def fillValue (d : Dist) (r rb : Word) : BitVec 32 :=
  match d with
  | .uniform lo hi => fFma (toF32 (.fin ((topBits r 24 : Rat) * pow2 (-24)))) (fSub hi lo) lo
  | .bernoulli p => if topBits r 16 < p then one32 else 0
  | .normalTable mean std => fFma (normalDraw r) std mean
  | .normalBm mean std => fFma (boxMuller r rb) std mean

/-! ## Sampler (R191-R193) -/

/-- A partial record's "no candidate" index. -/
def noCandidate : Nat := 0xFFFFFFFF

/-- Merging two partial records (R193). -/
def mergeBest (a b : BitVec 32 × Nat) : BitVec 32 × Nat :=
  if a.2 = noCandidate then b
  else if b.2 = noCandidate then a
  else if fLt a.1 b.1 then b
  else if fLt b.1 a.1 then a
  else if b.2 < a.2 then b else a

/-- z of an entry (R191): scaled score plus Gumbel noise, or the score itself when greedy. -/
def sampleZ (greedy : Bool) (invT x : BitVec 32) (r : Word) : BitVec 32 :=
  if greedy then x else fAdd (fMul x invT) (gumbelDraw r)

/-- The Gumbel draw's inputs: request key as stream, position as step, entry as index (R192). -/
def sampleDraw (seed : BitVec 128) (rowkey : Word) (tid : BitVec 24) (v : Nat) : Word :=
  indexedDraw seed 3 (BitVec.ofNat 32 (rowkey.toNat / 2 ^ 32)) (BitVec.ofNat 32 rowkey.toNat) tid v 0

end Sys2Proof.Machine
end

