-- ==== Sys2Proof/Machine/Quant.lean ====
section
/-! DEFINITION. The quantiser (R74-R98), rotation (R90-R92), MX and FP8 exchange (R68-R73). -/

namespace Sys2Proof.Machine

/-! ## Tensor scales (R78, R81, R201) -/

/-- The octave byte of an F32 amax (R201). -/
def octave (amax : BitVec 32) : Nat :=
  match f32Val amax with
  | .fin q => if q ≤ 0 then 0 else (max (ceilLog2 q) (-126) + 127).toNat
  | _ => 255

/-- TS32 from the largest octave byte of the window and the margin m (R201). -/
def ts32OfTop (top m : Nat) : BitVec 32 :=
  if top = 0 then one32 else ts32Pow2 (max (-126) (min 127 ((top : Int) - 137 + m)))

/-- A row's own scale under row hold, from the row's exact amax (R81): its logarithm is taken before any rounding. -/
def rowTs32 (amax : Rat) (m : Nat) : BitVec 32 :=
  if amax = 0 then one32 else ts32Pow2 (max (-126) (min 127 (ceilLog2 amax - 10 + (m : Int))))

/-- A magnitude rounded upward to F32, infinity beyond the largest (R98). -/
def roundUpF32 (q : Rat) : BitVec 32 :=
  if q = 0 then 0
  else
    let (e, n, fr) := gridOf specF32 q
    BitVec.ofNat 32 (min (patOf specF32 e (if fr = 0 then n else n + 1)) (infPat specF32))

/-- The larger of two non-negative F32 patterns, compared as unsigned integers (R208). -/
def umax (a b : BitVec 32) : BitVec 32 := if a.toNat < b.toNat then b else a

/-! ## Counters (Table 3.5) -/

/-- What one quantisation adds to a ledger entry. -/
structure QStats where
  elements : Nat
  groups : Nat
  clipped : Nat
  ashUsed : Nat
  ashSat : Nat
  flushed : Nat
  zeroGroups : Nat
  amax : BitVec 32
  deriving DecidableEq, Repr

/-- A quantised group: codes by position, GS8 byte, ash entries (position, VAL), counts. -/
structure QGroup where
  codes : List Nat
  gs8 : Byte
  ash : List (Nat × Int)
  stats : QStats
  deriving DecidableEq, Repr

/-- Order of candidates: magnitude descending, lower position first (R83). -/
def ranksBefore (a b : Nat × Rat) : Bool :=
  decide (rabs b.2 < rabs a.2) || (rabs a.2 == rabs b.2 && decide (a.1 < b.1))

/-- Insertion into a ranked list. -/
def rankInsert (a : Nat × Rat) : List (Nat × Rat) → List (Nat × Rat)
  | [] => [a]
  | b :: l => if ranksBefore b a then b :: rankInsert a l else a :: b :: l

/-- The elements by rank (R83). -/
def rank (l : List (Nat × Rat)) : List (Nat × Rat) := l.foldr rankInsert []

/-- u / d, and 0 when d is 0 (R83). -/
def ratio (u d : Rat) : Rat := if d = 0 then 0 else u / d

/-- The smallest GS8 byte from `b` on whose value is not below s, or 0x7F (R83). -/
def gs8From (s : Rat) : Nat → Nat → Nat
  | 0, _ => 0x7F
  | n + 1, b => if s ≤ gs8Value b then b else gs8From s n (b + 1)

/-- GS8 and the escaped positions of a group from its finite elements (R83). -/
def chooseScale (xs : List (Nat × Rat)) (k : Nat) (emax emin : Rat) : Nat × List Nat :=
  let ord := rank xs
  let a := ((ord.head?).map fun x => rabs x.2).getD 0
  let rest := ord.drop k
  let pmax := rest.foldl (fun m x => if x.2 > 0 then rmax m x.2 else m) 0
  let nmax := rest.foldl (fun m x => if x.2 > 0 then m else rmax m (-x.2)) 0
  let s := rmax (rmax (ratio pmax emax) (ratio nmax (-emin))) (a / 2047)
  let gs := gs8From s 127 1
  let esc := ((ord.take k).filter fun x => decide (x.2 / gs8Value gs > emax) || decide (x.2 / gs8Value gs < emin)).map (·.1)
  (gs, esc)

/-- Nearest integer, ties to even. -/
def rneInt (q : Rat) : Int :=
  let n := q.floor
  let fr := q - (n : Rat)
  if fr > 1 / 2 ∨ (fr = 1 / 2 ∧ n % 2 = 1) then n + 1 else n

/-- The saturated ash value and whether it saturated (R85). -/
def ashSatVal (y : Rat) : Int × Bool :=
  let v := rneInt (y * 4096)
  if v > 8388607 then (8388607, true) else if v < -8388607 then (-8388607, true) else (v, false)

/-- The code of a position that is not escaped (R84, R86, R88), and whether it counts as clipped. -/
def codeAt (b : Codebook) (mode : Rnd) (r : Word) (gs : Rat) (v : FVal) (ts : Rat) : Nat × Bool :=
  match v with
  | .nan => (b.zeroCode, true)
  | .inf neg => (if neg then b.bottom.1 else b.top.1, true)
  | .fin q =>
    let y := q / ts / gs
    if y > entryVal b.top.2 then (b.top.1, true)
    else if y < entryVal b.bottom.2 then (b.bottom.1, true)
    else (b.round mode r y, false)

/-- The quantiser on one group (R75, R82-R86, Table 3.5). An element is `none` when it is padding; the word is its draw. -/
def quantGroup (b : Codebook) (escK : Nat) (mode : Rnd) (ts : Rat) (elems : List (Option (FVal × Word))) : QGroup :=
  let k := if b.esc.isNone then 0 else escK
  let real := elems.filterMap id
  let idx := (List.range elems.length).zip elems
  let fins := idx.filterMap fun x => match x.2 with
    | some (.fin q, _) => some (x.1, q / ts)
    | _ => none
  let nonFin := real.foldl (fun n x => match x.1 with | .fin _ => n | _ => n + 1) 0
  let amaxQ := real.foldl (fun m x => match x.1 with | .fin q => rmax m (rabs q) | _ => m) 0
  let a := fins.foldl (fun m x => rmax m (rabs x.2)) 0
  let base : QStats :=
    { elements := real.length, groups := if real.isEmpty then 0 else 1, clipped := nonFin, ashUsed := 0, ashSat := 0,
      flushed := 0, zeroGroups := 0, amax := roundUpF32 amaxQ }
  let zeros := elems.map fun _ => b.zeroCode
  if real.isEmpty then ⟨zeros, 0, [], base⟩
  else if a = 0 then ⟨zeros, 0, [], { base with zeroGroups := 1 }⟩
  else if a < pow2 (-5) then ⟨zeros, 0, [], { base with flushed := 1 }⟩
  else
    let (gs, esc) := chooseScale fins k (entryVal b.top.2) (entryVal b.bottom.2)
    let g := gs8Value gs
    let ash := idx.filterMap fun x => match x.2 with
      | some (.fin q, _) => if esc.contains x.1 then some (x.1, ashSatVal (q / ts / g)) else none
      | _ => none
    let coded := idx.map fun x => match x.2 with
      | none => (b.zeroCode, false)
      | some (v, r) => if esc.contains x.1 then (b.esc.getD 0, false) else codeAt b mode r g v ts
    let sat := (ash.filter fun x => x.2.2).length
    let clip := ((idx.zip coded).filter fun x => x.2.2 && (match x.1.2 with | some (.fin _, _) => true | _ => false)).length
    ⟨coded.map (·.1), BitVec.ofNat 8 (gs + (if ash.isEmpty then 0 else 128)), ash.map fun x => (x.1, x.2.1),
     { base with clipped := nonFin + clip + sat, ashUsed := ash.length, ashSat := sat }⟩

/-- The ash entry words of a group, LAST on the final one (R49). -/
def ashWords : List (Nat × Int) → List (BitVec 32)
  | [] => []
  | [x] => [ashWord x.1 true x.2]
  | x :: xs => ashWord x.1 false x.2 :: ashWords xs

/-! ## Rotation (R90-R92) -/

/-- One butterfly stage of stride `st` over an F32 block. -/
def butterfly (st : Nat) (z : List (BitVec 32)) : List (BitVec 32) :=
  (List.range z.length).map fun i =>
    if i / st % 2 = 0 then fAdd (z.getD i 0) (z.getD (i + st) 0) else fSub (z.getD (i - st) 0) (z.getD i 0)

/-- All butterfly stages from stage s on. -/
def butterflies : Nat → Nat → List (BitVec 32) → List (BitVec 32)
  | 0, _, z => z
  | n + 1, s, z => butterflies n (s + 1) (butterfly (2 ^ s) z)

/-- h of an operand: r/2, or for odd r one less for the lead and one more for the other (R92). -/
def rotShift (r : Nat) (lead : Bool) : Nat := if r % 2 = 0 then r / 2 else if lead then (r - 1) / 2 else (r + 1) / 2

/-- The rotation of block j of a row (R91, R92). -/
def rotateBlock (seed : BitVec 128) (rot : Rotation) (lead : Bool) (j : Nat) (z : List (BitVec 32)) : List (BitVec 32) :=
  let signed := (List.range z.length).map fun i =>
    if rotSign seed rot.key (j * 2 ^ rot.log2 + i) then fMul 0xBF800000#32 (z.getD i 0) else z.getD i 0
  (butterflies rot.log2 0 signed).map fun x =>
    fMul x (BitVec.ofNat 32 ((127 - rotShift rot.log2 lead) * 2 ^ 23))

/-! ## MX and FP8 (R67-R73) -/

/-- d and emax_elem of an MX type (R68, Table 2.12). -/
def mxD : MxType → Nat
  | .int8 => 6 | _ => 0

/-- emax_elem (Table 2.12). -/
def mxEmax : MxType → Int
  | .fp8e4m3 => 8 | .fp8e5m2 => 15 | .fp4 => 2 | _ => 0

/-- TS32 of a direct import from the largest E8M0 byte, none when every byte is 0xFF (R68). -/
def mxTs32 (t : MxType) (eMax : Option Nat) : BitVec 32 × Int :=
  match eMax with
  | none => (one32, 0)
  | some e => let c := max ((e : Int) - 134 - mxD t) (-126); (ts32Pow2 c, c)

/-- The GS8 exponent of a block: e - 127 - d - t + 8 (R68). -/
def mxE (t : MxType) (e : Nat) (c : Int) : Int := (e : Int) - 127 - mxD t - c + 8

/-- One element of a direct import (R69): code, ash VAL, clipped; `n` counts the ash entries the group already has. -/
def mxElem (t : MxType) (n raw : Nat) : Nat × Option Int × Bool :=
  match t with
  | .fp4 => (if raw = 8 then 0 else raw, none, false)
  | .int8 => if raw = 128 then (if n < 4 then (128, some (-128 * 4096), false) else (129, none, true)) else (raw, none, false)
  | _ => if raw = 128 then (0, none, false) else if raw = 127 ∨ raw = 255 then (0, none, true) else (raw, none, false)

/-- The elements of a block in order, counting ash entries (R69). -/
def mxElems (t : MxType) : Nat → Nat → List Nat → List (Nat × Nat × Option Int × Bool)
  | _, _, [] => []
  | n, p, x :: xs =>
    let r := mxElem t n x
    (p, r) :: mxElems t (if r.2.1.isSome then n + 1 else n) (p + 1) xs

/-- Whether an element is a NaN, which is written as code 0 and counts as clipped whatever its block's scale (R69). -/
def mxNan (t : MxType) (raw : Nat) : Bool := match t with | .fp4 | .int8 => false | _ => raw % 128 == 127

/-- Direct import of one block with scale byte e (R68, R69). -/
def mxImport (t : MxType) (c : Int) (e : Nat) (raw : List Nat) : QGroup :=
  let zero : List Nat := raw.map fun _ => 0
  let base : QStats := ⟨raw.length, 1, 0, 0, 0, 0, 0, 0⟩
  let ex := mxE t e c
  if e = 255 then ⟨zero, 0, [], { base with clipped := raw.length, zeroGroups := 1 }⟩
  else if ex < 1 then ⟨zero, 0, [], { base with flushed := 1, clipped := (raw.filter (mxNan t)).length }⟩
  else
    let l := mxElems t 0 0 raw
    let ash := l.filterMap fun x => x.2.2.1.map fun v => (x.1, v)
    ⟨l.map (·.2.1), BitVec.ofNat 8 (ex.toNat * 8 + (if ash.isEmpty then 0 else 128)), ash,
     { base with clipped := (l.filter fun x => x.2.2.2).length, ashUsed := ash.length }⟩

/-- Value of an MX element before its block scale (R70). -/
def mxValue (t : MxType) (raw : Nat) : FVal :=
  match t with
  | .fp8e4m3 => if raw % 128 = 127 then .nan else .fin (if raw < 128 then magOf specE4M3 raw else -(magOf specE4M3 (raw % 128)))
  | .fp8e5m2 => decodeF specE5M2 raw
  | .fp4 => .fin (if raw < 8 then magOf specE2M1 raw else -(magOf specE2M1 (raw % 8)))
  | .int8 => .fin ((signed 8 raw : Rat) / 64)
  | _ => .nan

/-- Value import of an MX element: exact in F32, infinity beyond its range (R70). -/
def mxImportValue (t : MxType) (e raw : Nat) : BitVec 32 :=
  if e = 255 then nan32 else toF32 (vMul (mxValue t raw) (.fin (pow2 ((e : Int) - 127))))

/-- An OCP FP8 element times its tensor scale, one F32 multiplication (R72). -/
def fp8Import (e5m2 : Bool) (scale : BitVec 32) (raw : Nat) : BitVec 32 :=
  let v := if raw = 128 then FVal.fin 0 else mxValue (if e5m2 then .fp8e5m2 else .fp8e4m3) raw
  fMul (toF32 v) scale

/-- A finite value rounded into a small format and then saturated (R71, R73); DEDUCED: the flag says the rounded value lay above the limit (log entry 37). -/
def satEncode (f : FmtSpec) (maxPat : Nat) (sgn : Nat) (q : Rat) : Nat × Bool :=
  if q = 0 then (0, false)
  else
    let p := rneMag f (rabs q)
    let p' := min p maxPat
    (if p' = 0 then 0 else p' + (if q < 0 then sgn else 0), decide (maxPat < p))

/-- FP8 export of a value under the tensor's TS32 (R73): byte, and whether it counts as clipped. -/
def fp8Export (e5m2 : Bool) (ts : Rat) (v : FVal) : Nat × Bool :=
  let (f, mx) := if e5m2 then (specE5M2, 0x7B) else (specE4M3, 0x7E)
  match v with
  | .nan => (0, true)
  | .inf neg => (mx + (if neg then 128 else 0), true)
  | .fin q => satEncode f mx 128 (q / ts)

/-- MX export of a block (R71): scale byte and elements, a non-finite value as R52 has it. `exportRange` says where they count. -/
def mxExport (t : MxType) (vs : List FVal) : Nat × List Nat :=
  let a := vs.foldl (fun m v => match v with | .fin q => rmax m (rabs q) | _ => m) 0
  let x : Int := if a = 0 then -127 else max (-127) (floorLog2 a - mxEmax t)
  let one (q : Rat) : Nat :=
    match t with
    | .fp4 => (satEncode specE2M1 7 8 q).1
    | .fp8e5m2 => (satEncode specE5M2 0x7B 128 q).1
    | .int8 => unsigned 8 (max (-127) (min 127 (rneInt (q * 64))))
    | _ => (satEncode specE4M3 0x7E 128 q).1
  ((x + 127).toNat, vs.map fun v => match v with
    | .fin q => one (q / pow2 x)
    | .nan => 0
    | .inf neg => one (if neg then -(pow2 100) else pow2 100))

end Sys2Proof.Machine
end

