-- ==== Sys2Proof/Machine/Dot.lean ====
section
/-! DEFINITION. Exact accumulation (R100-R107), the checker's reference sums (R297), de-quantisation (R109, R114), and
the operands of the proving burns (R378, R379). -/

namespace Sys2Proof.Machine

/-! ## Operand groups (R100) -/

/-- The integers of a group from its codes, GS8 byte and ash entries (R100); a zero group is zero throughout. -/
def opGroup (b : Codebook) (wide : Bool) (codes : List Nat) (gs8 : Byte) (ash : List (BitVec 32)) : OpGroup :=
  let zero := gs8.toNat % 128 = 0
  let at_ (i : Nat) : Int × Bool :=
    let c := codes.getD i 0
    if zero then (0, false)
    else if b.esc = some c then ((((ash.find? fun w => ashPos w == i).map ashVal).getD 0), true)
    else ((b.entry c).getD 0, false)
  let l := (List.range codes.length).map at_
  { q := l.map (·.1), esc := l.map (·.2), wide := wide, gs8 := gs8 }

/-- S of R101: the sum of the products of two groups. -/
def dotSum (a b : OpGroup) : Int := (List.zipWith (· * ·) a.q b.q).foldl (· + ·) 0

/-- (8 + M) * 2^E of a GS8 byte (R101), and 0 for a zero group. -/
def gs8Scale (g : Byte) : Int :=
  let v := g.toNat % 128
  if v = 0 then 0 else ((8 + v % 8) * 2 ^ (v / 8) : Nat)

/-- The group contribution C of R101. -/
def contribution (a b : OpGroup) : Int := dotSum a b * gs8Scale a.gs8 * gs8Scale b.gs8

/-! ## Limbs and passes (R103-R105) -/

/-- Number of limbs of an operand. -/
def limbCount (wide : Bool) : Nat := if wide then 3 else 1

/-- Weight of a limb (Table 4.1). -/
def limbWeight (wide : Bool) (l : Nat) : Nat := if wide then 8 * l else 9

/-- Limb l of an integer q (Table 4.1); an escaped position feeds 0. -/
def limbOf (wide esc : Bool) (q : Int) (l : Nat) : Int :=
  if esc then 0
  else if wide then (if l < 2 then q / 2 ^ (8 * l) % 256 else q / 2 ^ 16)
  else q / 512

/-- What one handshake adds to the group-sum register (R104, R105): limb pass (i, j) over part `part` of 32 positions,
and the escape unit's products in the first pass. -/
def passSum (a b : OpGroup) (i j part : Nat) : Int :=
  (List.range 32).foldl (fun s n =>
    let p := 32 * part + n
    let qa := a.q.getD p 0
    let qb := b.q.getD p 0
    let ea := a.esc.getD p false
    let eb := b.esc.getD p false
    let lanes : Int :=
      if ea || eb then 0
      else limbOf a.wide false qa i * limbOf b.wide false qb j * 2 ^ (limbWeight a.wide i + limbWeight b.wide j)
    let esc : Int := if (ea || eb) ∧ i = 0 ∧ j = 0 then qa * qb else 0
    s + lanes + esc) 0

/-- Whether an integer lies in 128-bit two's complement (R107). -/
def fits128 (i : Int) : Bool := decide (-(2 ^ 127) ≤ i ∧ i < 2 ^ 127)

/-- 128-bit addition with its overflow mark (R107). -/
def add128 (a b : BitVec 128) : BitVec 128 × Bool := (a + b, !fits128 (a.toInt + b.toInt))

/-! ## The checker (R297) -/

/-- The scaled integers of a group. -/
def scaled (g : OpGroup) : List Int := g.q.map (· * gs8Scale g.gs8)

/-- Sum of lists position by position. -/
def sumLists (n : Nat) (l : List (List Int)) : List Int :=
  l.foldl (fun acc x => (List.range n).map fun i => acc.getD i 0 + x.getD i 0) (List.replicate n 0)

/-- Product sum of two lists. -/
def dotInts (a b : List Int) : Int := (List.zipWith (· * ·) a b).foldl (· + ·) 0

/-- Row sums then column sums of a tile of accumulators (R297), element 64i + j. -/
def tileSums (acc : Tab (BitVec 128)) : List (BitVec 128) :=
  ((List.range 64).map fun i => (List.range 64).foldl (fun s j => s + tabGet 0 acc (64 * i + j)) 0)
    ++ ((List.range 64).map fun j => (List.range 64).foldl (fun s i => s + tabGet 0 acc (64 * i + j)) 0)

/-- Rows and columns whose sums differ, with the first of each (Table 11.11, VERDICT_MISMATCH). -/
def mismatchSynd (d c : List (BitVec 128)) : Nat :=
  let bad := (List.range 128).filter fun i => d.getD i 0 != c.getD i 0
  let rows := bad.filter (· < 64)
  let cols := (bad.filter (64 ≤ ·)).map (· - 64)
  rows.length * 2 ^ 8 + cols.length * 2 ^ 16 + rows.headD 0 * 2 ^ 24 + cols.headD 0 * 2 ^ 32

/-! ## De-quantisation (R109) -/

/-- V = A * 2^-46 * TSa * TSb, exactly. -/
def dequant (a : BitVec 128) (tsa tsb : BitVec 32) : Rat := (a.toInt : Rat) * pow2 (-46) * ts32Val tsa * ts32Val tsb

/-- The value a chain value stands for. -/
def Val.real : Val → FVal
  | .exact a x y => .fin (dequant a x y)
  | .sum b | .f32 b => f32Val b

/-- The data term of a value (R89): A[15:0], or bits [15:0] of the F32. -/
def Val.data : Val → BitVec 16
  | .exact a _ _ => a.setWidth 16
  | .sum b | .f32 b => b.setWidth 16

/-! ## Proving-burn operands (R378, R379) -/

/-- Draw j of a burn: stream σ, burn count n (R378). -/
def burnDraw (σ n j : Nat) : Word :=
  streamDraw Config.kindling (BitVec.ofNat 128 (σ * 2 ^ 64 + n * 2 ^ 24 + j))

/-- A burn operand's code (R379). -/
def burnCode (f : ElemFmt) (r : Word) : Nat :=
  if isWide8 f then
    let c := r.toNat / 2 ^ 56
    if f = .e4m3 ∧ c = 0x7F then 0x7E else if f = .e4m3 ∧ c = 0xFF then 0xFE else c
  else r.toNat / 2 ^ 60

/-- A burn escape's ash value (R379). -/
def burnAsh (r : Word) : Int := if r.toNat % 2 ^ 24 = 0x800000 then 0x7FFFFF else signed 24 r.toNat

/-- Codes of a group with the fifth and later escapes turned into code 0 (R379). -/
def burnEscapes (esc : Nat) : Nat → List (Nat × Word) → List (Nat × Option Int)
  | _, [] => []
  | n, (c, r) :: l =>
    if c = esc then
      if n < 4 then (c, some (burnAsh r)) :: burnEscapes esc (n + 1) l else (0, none) :: burnEscapes esc n l
    else (c, none) :: burnEscapes esc n l

/-- Group g of row i of a burn operand, from the first draw indices of its codes and scales (Table 14.3). -/
def burnGroup (f : ElemFmt) (σ n codeBase scaleBase k i g : Nat) : OpGroup :=
  let raw := (List.range 32).map fun p =>
    let r := burnDraw σ n (codeBase + i * k + 32 * g + p)
    (burnCode f r, r)
  let book := bookOf [] f 0
  let l := burnEscapes (book.esc.getD 256) 0 raw
  let gs := (burnDraw σ n (scaleBase + i * (k / 32) + g)).toNat / 2 ^ 56 % 128
  let gs := if gs = 0 then 1 else gs
  let has := l.any fun x => x.2.isSome
  { q := l.map fun x => match x.2 with | some v => v | none => (book.entry x.1).getD 0,
    esc := l.map fun x => x.2.isSome, wide := isWide8 f, gs8 := BitVec.ofNat 8 (gs + (if has then 128 else 0)) }

/-- Accumulator (i, j) of burn tile T_a (false) or T_b (true). -/
def burnAcc (σ n : Nat) (b : Bool) (i j : Nat) : BitVec 128 :=
  let (fa, fb, k, ca, cb, sa, sb) :=
    if b then (ElemFmt.e4m3, ElemFmt.i8, 512, 0x100000, 0x108000, 0x110000, 0x110400)
    else (ElemFmt.e2m1, ElemFmt.e2m1, 4096, 0, 0x40000, 0x80000, 0x82000)
  BitVec.ofInt 128 ((List.range (k / 32)).foldl (fun s g =>
    s + contribution (burnGroup fa σ n ca sa k i g) (burnGroup fb σ n cb sb k j g)) 0)

/-- The known answer of R380: the row and column sums of the accumulators of T_a, then of T_b. -/
def burnKnown (σ n : Nat) : List (BitVec 128) :=
  [false, true].flatMap fun b =>
    ((List.range 64).map fun i => (List.range 64).foldl (fun s j => s + burnAcc σ n b i j) 0)
      ++ (List.range 64).map fun j => (List.range 64).foldl (fun s i => s + burnAcc σ n b i j) 0

/-- Groups of 32 values of a station test as they leave the station (Table 14.4): codes, E2M1 under RNE with k = 2, then GS8 bytes, then
ash entries. The order of the three, and k = 2 at the egress station, are DESIGN CHOICES (log entry 34). -/
def stationBytes (ts : Rat) (vs : List FVal) : List Byte :=
  let book := bookOf [] .e2m1 0
  let qs := (List.range (ceilDiv vs.length 32)).map fun g =>
    quantGroup book 2 .rne ts (((vs.drop (32 * g)).take 32).map fun v => some (v, 0))
  let codes := qs.flatMap (·.codes)
  ((List.range (codes.length / 2)).map fun i => BitVec.ofNat 8 (codes.getD (2 * i) 0 + 16 * codes.getD (2 * i + 1) 0))
    ++ qs.map (·.gs8) ++ qs.flatMap fun q => (ashWords q.ash).flatMap fun w => bytesLE 4 w.toNat

/-- The station-test value v_t (Tables 14.3 and 14.4). -/
def stationInput (t : Nat) : Rat := (((burnDraw 0 0 (0x200000 + t)).toNat / 2 ^ 40 : Nat) * pow2 (-24) - 1 / 2) * 64

/-- What an ingress station makes of the station-test values. -/
def ingressAnswer : List Byte := stationBytes 1 ((List.range 1024).map fun t => .fin (stationInput t))

/-- What a row unit makes of T_a's de-quantised tile (Table 14.4): 1.0 added to each F32 value, then RELU. -/
def rowAnswer : List (BitVec 32) :=
  (List.range 4096).map fun k =>
    let x := fAdd (toF32 (.fin (dequant (burnAcc 0 0 false (k / 64) (k % 64)) one32 one32))) one32
    if fLt 0 x then x else 0

/-- What an egress station makes of the row unit's output, row by row. -/
def egressAnswer : List Byte := stationBytes (pow2 (-6)) (rowAnswer.map f32Val)

/-- The known answer of a unit's start-up test by its kind: ingress station, row unit, egress station (Table 14.4). -/
def unitAnswer (kind : Nat) : List Byte :=
  match kind with
  | 1 => ingressAnswer
  | 2 => egressAnswer
  | _ => rowAnswer.flatMap fun x => bytesLE 4 x.toNat

/-- Bytes with faults. -/
def flipBytes (bs : List Byte) (flips : List (Nat × Byte)) : List Byte :=
  flips.foldl (fun l f => l.set f.1 (l.getD f.1 0 ^^^ f.2)) bs

/-- The sums of an array's burn: 4,096 accumulators of T_a, then of T_b. -/
def burnSums (accs : List (BitVec 128)) : List (BitVec 128) :=
  let tile (l : List (BitVec 128)) : List (BitVec 128) :=
    ((List.range 64).map fun i => ((l.drop (64 * i)).take 64).foldl (· + ·) 0)
      ++ (List.range 64).map fun j => (List.range 64).foldl (fun s i => s + l.getD (64 * i + j) 0) 0
  tile (accs.take 4096) ++ tile (accs.drop 4096)

end Sys2Proof.Machine
end

