-- ==== Sys2Proof/Machine/Timeline.lean ====
section
/-! DEFINITION. The timeline of the running attempt: segments, slots, variants and their shifts (R238 to R244, R255,
R437), units of slots, what the segment's bindings are. -/

namespace Sys2Proof.Machine

/-- Binding by key. -/
def bindOf (img : Image) (key : Nat) : Option Binding := img.bindings.find? fun b => b.key == key
/-- Chain by key. -/
def chainOf (img : Image) (key : Option Nat) : Chain :=
  match key with
  | some k => ((img.chains.find? fun c => c.key == k).map (·.chain)).getD ⟨[], [], false, .f32, .rne, 0, ⟨0, false⟩⟩
  | none => ⟨[], [], false, .f32, .rne, 0, ⟨0, false⟩⟩
/-- Ledger list of a segment (R206). -/
def ledgerListOf (img : Image) (s : Segment) : List Nat := (img.ledgerLists.lookup s.ledgerList).getD []

/-- The segment the attempt runs. -/
def Part.segment (x : Part) : Option Segment :=
  match x.ldr.image with | some img => segOf img x.sch.seg.toNat | none => none

/-- The touched entries of the step (R206). -/
def Part.touched (x : Part) : List Nat :=
  match x.ldr.image, x.segment with | some img, some s => ledgerListOf img s | _, _ => []

/-- Offset of the ledger point (R239, R243). -/
def Attempt.ledgerOff (a : Attempt) (img : Image) (s : Segment) : Nat := gradeAt s.ledgerOff a.grade + a.shiftAll img s.key

/-- Offset of the commit point (R239, R243). -/
def Attempt.commitOff (a : Attempt) (img : Image) (s : Segment) : Nat :=
  roundUp (gradeAt s.commitOff a.grade + a.shiftAll img s.key) 65536

/-- Whether a segment ends the program (R241). -/
def segIsLast (s : Segment) : Bool := s.next == Config.noKey

/-- The slots on the attempt's timeline. -/
def Part.timeline (x : Part) : List Slot :=
  match x.ldr.image with
  | some img => img.slots.filter fun l => x.att.onTimeline img x.sch.seg.toNat l
  | none => []

/-- Whether a slot on the attempt's timeline works on a unit of a binding (R437). -/
def Part.covers (x : Part) (bind unit : Nat) : Bool :=
  x.timeline.any fun l => l.bind == bind && decide (l.workFirst ≤ unit) && decide (unit < l.workFirst + l.workN)

/-- The lease in force under which a slot sends P128 parts to a group: a base slot in the window of a lease variant that is not
selected (R243, R256, R290, log entry 56). -/
def Part.leaseFor (x : Part) (img : Image) (l : Slot) (h : Nat) : Option LeaseRec :=
  let st := gradeAt l.start x.att.grade
  if l.seg < variantBit then
    ((variantsOf img l.seg).filter fun v => v.kind == 1 && !x.att.selected v.key && decide (gradeAt v.w0 x.att.grade ≤ st)
      && decide (st < gradeAt v.w1 x.att.grade)).findSome? fun v => img.leases.find? fun r => v.cond[0]? == some r.key && r.group == h
  else none

/-- Units a slot names (Table 9.7), as unit codes: arrays (with their row units), ingress and egress stations. -/
def Part.unitsOf (x : Part) (l : Slot) : List UnitCode :=
  let s := x.slice l.slice
  ((List.range 4).filterMap fun i => if l.units.getLsbD i then some (unitOf s 0 i) else none)
    ++ ((List.range 2).filterMap fun i => if l.units.getLsbD (4 + i) then some (unitOf s 1 i) else none)
    ++ (List.range 2).filterMap fun i => if l.units.getLsbD (6 + i) then some (unitOf s 2 i) else none

/-- Arrays a slot names, in ascending index (R437). -/
def slotArrays (l : Slot) : List Nat := (List.range 4).filter fun i => l.units.getLsbD i

/-- The slot run of the attempt with a key. -/
def Attempt.run (a : Attempt) (key : Nat) : Option SlotRun := a.slots.find? fun r => r.key == key

/-- Whether a slot is running: launched, not ended, not aborted. -/
def Attempt.isRunning (a : Attempt) (key : Nat) : Bool :=
  match a.run key with | some r => r.done.isNone && !r.aborted | none => false

/-- A slot run changed. -/
def Attempt.modRun (a : Attempt) (key : Nat) (f : SlotRun → SlotRun) : Attempt :=
  { a with slots := a.slots.map fun r => if r.key = key then f r else r }

/-- The bindings of the current segment: those a slot of it or of one of its variants names (R274). -/
def Part.segBindings (x : Part) : List Binding :=
  match x.ldr.image with
  | none => []
  | some img =>
    img.bindings.filter fun b => img.slots.any fun l => l.bind == b.key
      && (l.seg == x.sch.seg.toNat
          || (decide (variantBit ≤ l.seg) && (variantsOf img x.sch.seg.toNat).any fun v => v.key + variantBit == l.seg))

/-- Base segment of a slot (R255). -/
def baseSeg (img : Image) (l : Slot) : Nat :=
  if l.seg < variantBit then l.seg else ((variantOf img (l.seg - variantBit)).map (·.seg)).getD Config.noKey

/-- Bindings that slots of a segment or of its variants name. -/
def bindsOfSeg (img : Image) (seg : Nat) : List Binding := img.bindings.filter fun b => img.slots.any fun l => l.bind == b.key && baseSeg img l == seg

/-- The receiving part of a binding. -/
def recvOf : BindKind → Option Receive
  | .receive r => some r
  | .exchange r _ _ => some r
  | _ => none

/-- First line of tile i of a binding's P128 region, from the region's (R108). -/
def tileAt (tiles : List Nat) (i : Nat) : Nat :=
  match tiles[i]?, tiles.getLast? with
  | some n, _ => n
  | none, some n => n + 128 * (i + 1 - tiles.length)
  | none, none => 128 * i

/-- Binding of the current segment under a key. -/
def Part.segBind (x : Part) (key : Nat) : Option Binding := x.segBindings.find? fun b => b.key == key

/-- Lowest local flue port on which a binding's packets arrive (R438). -/
def Part.portOf (x : Part) (key : Nat) : Nat := (((x.segBind key).map (·.ports)).getD []).min?.getD 0

/-- Local flue port through which a binding's packets leave a slice: of those it names, one of the slice's own (R21, R438). Which of two
is free to the engine; the model takes the one named first (DESIGN CHOICE, log entry 59). -/
def sendPort (b : Binding) (slice : Nat) : Nat := (b.ports.find? fun q => q / 2 == slice).getD (2 * slice)

/-- Slice in which the timeline works on a binding. -/
def Part.sliceOf (x : Part) (key : Nat) : Nat := ((x.timeline.find? fun l => l.bind == key).map (·.slice)).getD 0

/-- Receiving bindings of the current segment (R274). -/
def Part.receivers (x : Part) : List (Nat × Receive) :=
  x.segBindings.filterMap fun b => (recvOf b.kind).map fun r => (b.key, r)

/-- Stretch of epoch e: the largest stretch any member wants for it (R246). -/
def Part.stretchFor (x : Part) (members : List Nat) (e : Nat) : Nat :=
  let want (m : Nat) : Nat := ((x.agree.wants.filter fun w => w.member == m && decide (w.from_ ≤ e)).getLast?.map (·.stretch)).getD 64
  members.foldl (fun n m => max n (want m)) 64

/-- Grade of an attempt anchored at epoch e: the lowest grade any member wants for it (R246). -/
def Part.gradeFor (x : Part) (members : List Nat) (e : Nat) : Nat :=
  let want (m : Nat) : Nat := ((x.agree.wants.filter fun w => w.member == m && decide (w.from_ ≤ e)).getLast?.map (·.grade)).getD 3
  members.foldl (fun n m => min n (want m)) 3

/-- Whether a tick lies before the start tick of the beat at an offset from the anchor (R227): a beat of an epoch whose boundary is still to
come counts from that boundary on, at stretch 64 at least. -/
def Part.beforeBeat (x : Part) (n off : Nat) : Bool :=
  let e := x.sch.epoch.toNat
  let k := x.epochAt off
  if k < e then false
  else if k = e then decide (n < x.sch.epochTick + off % 65536 * x.sch.stretch / 4)
  else decide (e + 1 < k) || decide (n < x.sch.epochTick + epochLen x.sch.stretch + off % 65536 * 16)

/-- Whether an event at a tick still belongs to the attempt's window, which ends at its commit point (Table 9.1). -/
def Part.inAttempt (x : Part) (n : Nat) : Bool :=
  match x.ldr.image, x.segment with
  | some img, some g => segIsLast g || !x.att.live || x.beforeBeat n (x.att.commitOff img g)
  | _, _ => true

/-- Whether an event at a tick comes before the attempt's decision beat (R240, Table 9.1). -/
def Part.undecided (x : Part) (n : Nat) : Bool :=
  !x.att.final && match x.ldr.image, x.segment with
    | some img, some g => segIsLast g || !x.att.live || x.beforeBeat n (x.att.commitOff img g + Config.decisionBeats)
    | _, _ => true

/-- A want recorded in the order of its epoch (R246): a later WANT takes effect at its own e_p. -/
def insertWant (l : List Want) (w : Want) : List Want :=
  (l.filter fun v => decide (v.from_ ≤ w.from_)) ++ w :: l.filter fun v => decide (w.from_ < v.from_)

/-- Job member indices, own included. -/
def Dev.memberIds (d : Dev) (p : PartId) : List Nat := (d.jobMembers p).map mIndex

/-! ## Records and patches (R253, R262, R263) -/

/-- Records of a section as their heads and bodies, from the image's bytes. -/
def recordsAt (raw : List Byte) : List RecHead → Nat → List (RecHead × List Byte)
  | [], _ => []
  | h :: l, off => (h, (raw.drop (off + 16)).take h.bodyLen) :: recordsAt raw l (off + 16 + h.bodyLen)

/-- Records of an image, section by section in the order of its table. -/
def imageRecords (img : Image) : List (RecHead × List Byte) :=
  img.sections.flatMap fun s => recordsAt img.raw (img.heads.filter fun h => h.type == s.type) s.offset

/-- A record's bytes (R253). -/
def recordBytes (r : RecHead × List Byte) : List Byte :=
  bytesLE 2 r.1.type ++ [0, 0] ++ bytesLE 4 r.1.key ++ bytesLE 4 r.1.logicalLen ++ bytesLE 4 r.1.bodyLen ++ r.2

/-- Sections laid one after another from an offset: the table's entries and the bytes. -/
def laySections (recs : List (RecHead × List Byte)) : List Nat → Nat → List SectionEntry × List Byte
  | [], _ => ([], [])
  | t :: l, off =>
    let rs := recs.filter fun r => r.1.type == t
    let bs := rs.flatMap recordBytes
    let rest := laySections recs l (off + bs.length)
    if rs.isEmpty then rest else (⟨t, rs.length, off, bs.length⟩ :: rest.1, bs ++ rest.2)

/-- Base and patch together (R262): a section the patch holds replaces the base's; the bytes are those of their records. -/
def patchImage (base patch : Image) : Image :=
  let has (t : Nat) : Bool := patch.sections.any fun s => s.type == t
  let types := (List.range 12).map (· + 1)
  let recs := types.flatMap fun t => (imageRecords (if has t then patch else base)).filter fun r => r.1.type == t
  let laid := laySections recs types 128
  { base with
    header := { base.header with timeline := patch.header.timeline, logicalDigest := patch.header.logicalDigest },
    raw := List.replicate 128 0 ++ laid.2, sections := laid.1, heads := recs.map (·.1),
    segments := if has 1 then patch.segments else base.segments,
    slots := if has 2 then patch.slots else base.slots,
    variants := if has 3 then patch.variants else base.variants,
    bindings := if has 4 then patch.bindings else base.bindings,
    chains := if has 5 then patch.chains else base.chains,
    codebooks := if has 6 then patch.codebooks else base.codebooks,
    actTables := if has 7 then patch.actTables else base.actTables,
    streams := if has 8 then patch.streams else base.streams,
    ledgerLists := if has 9 then patch.ledgerLists else base.ledgerLists,
    regions := if has 10 then patch.regions else base.regions,
    routes := if has 11 then patch.routes else base.routes,
    leases := if has 12 then patch.leases else base.leases }

/-- Chain key and output of a binding. -/
def outputOf (k : BindKind) : Option Nat × Output :=
  match k with
  | .product _ _ _ _ _ ch out | .copy _ _ ch out | .fill _ _ _ ch out | .chained _ _ _ _ ch out => (ch, out)
  | _ => (none, .viaQuant)

/-- Whether a binding is a PF32 binding (R115, R117): it writes, sends or receives PF32 parts. -/
def isPf32 (k : BindKind) : Bool :=
  (match (outputOf k).2 with | .pf32 _ => true | _ => false) || (match recvOf k with | some r => r.type == tyTilePf32 | none => false)

/-- Fingerprint of R117. -/
def fingerprint (fw : BitVec 32) (img : Image) (seed : BitVec 128) : Word :=
  let pf := (img.bindings.filter fun b => isPf32 b.kind).length
  let h := sha384 (bytesLE 8 fw.toNat ++ img.header.logicalDigest ++ bytesLE 16 seed.toNat ++ bytesLE 8 pf)
  BitVec.ofNat 64 (natLE (h.take 8) / 2 * 2 + (if pf = 0 then 0 else 1))

/-- The active firmware bank. -/
def Stk.activeBank (k : Stk) : Bank := if k.active then k.bank1 else k.bank0
/-- The staged firmware bank. -/
def Stk.stagedBank (k : Stk) : Bank := if k.active then k.bank0 else k.bank1

/-- The fingerprint of a partition recomputed (R117). -/
def Dev.refingerprint (d : Dev) (p : PartId) : Dev :=
  d.modPart p fun x => match x.ldr.image with
    | some img => { x with fprint := fingerprint d.stk.activeBank.version img x.rng.seed }
    | none => { x with fprint := 0 }

/-- Setpoint code of a grade (R408). -/
def vsetCode (grade guard : Nat) : Nat := ceilDiv (Config.floorMv grade + guard - 600) 5

/-- The grade in force on an array domain: the one its partition's setpoints were last set for, G1 where none holds it (R328). -/
def Dev.gradeOn (d : Dev) (n : Nat) : Nat := match d.ownerOf (n / 4) with | some p => max 1 (d.part p).sch.graded | none => 1

/-- Every array domain at the setpoint of its grade and GUARD (R327). -/
def Dev.regulate (d : Dev) : Dev :=
  { d with pwr := { d.pwr with vset := (List.range 64).foldl (fun v n => tabSet 25 v n (vsetCode (d.gradeOn n) d.dmp.guard)) d.pwr.vset } }

/-- The partition's array setpoints set for a grade (R328); the start-up setpoint is code 25. -/
def Dev.setGrade (d : Dev) (p : PartId) (grade : Nat) : Dev :=
  let x := d.part p
  { d with pwr := { d.pwr with vset :=
      (List.range (4 * x.cfg.size)).foldl (fun v i => tabSet 25 v (4 * x.cfg.first + i) (vsetCode grade d.dmp.guard)) d.pwr.vset } }.modSch p
    fun h => { h with graded := grade }

end Sys2Proof.Machine
end

