-- ==== Sys2Proof/Machine/Shapes.lean ====
section
/-! DEFINITION. What a binding makes and sends, the tiles and packets that a receiving binding expects (R278, R279), and the lines of the
landing region of a dynamic exchange (R281). -/

namespace Sys2Proof.Machine

/-! ## What a binding makes and sends -/

/-- Extents of a binding's output tensor as rows and reduction length of its logical index (R57). -/
def targetExtents (t : OutTarget) : Nat × Nat :=
  match t with
  | .code t => (t.rows, t.k)
  | .mx _ w | .fp8 _ w _ _ => if w.colReduction then (w.cols, w.rows) else (w.rows, w.cols)

/-- The quantise-out of a chain, with its place. -/
def quantStage (c : Chain) : Option (Nat × Stage) :=
  ((List.range c.stages.length).zip c.stages).find? fun x => match x.2 with | .quantOut .. => true | _ => false

/-- The tensor an operand is in codes. -/
def operandTensor : Operand → TensorRef
  | .pass t => t
  | .convert _ _ t => t

/-- Extents of an output that no quantise-out takes. -/
def outWide : Output → Nat × Nat
  | .wide w | .p128 w | .pf32 w => (w.rows, w.cols)
  | .viaQuant => (0, 0)

/-- Output rows and columns of a binding (the coordinates of R437). -/
def outShape (img : Image) (k : BindKind) : Nat × Nat :=
  match k with
  | .product a b _ _ _ _ _ => ((operandTensor a).rows, (operandTensor b).rows)
  | .chained q _ _ c _ _ => ((operandTensor q).rows, c.d)
  | .copy _ _ ch out | .fill _ _ _ ch out =>
    (match quantStage (chainOf img ch) with
    | some (_, .quantOut t byRows _ _ _ _) => let e := targetExtents t; if byRows then (e.2, e.1) else e
    | _ => outWide out)
  | _ => (0, 0)

/-- Identifier that records about a binding's tiles carry: its output tensor's. -/
def outTid (img : Image) (k : BindKind) : BitVec 24 :=
  match k with
  | .sampler s => s.tid
  | k =>
    match quantStage (chainOf img (outputOf k).1), (outputOf k).2 with
    | some (_, .quantOut (.code t) _ _ _ _ _), _ => t.tid
    | some (_, .quantOut (.mx _ w) _ _ _ _ _), _ | some (_, .quantOut (.fp8 _ w _ _) _ _ _ _ _), _ => w.tid
    | _, .wide w | _, .p128 w | _, .pf32 w => w.tid
    | _, .viaQuant => 0

/-- Identifier of the tensor a binding's product is (Table 9.5): PRODUCT_TID of its chain, or its output's. -/
def sumTid (img : Image) (k : BindKind) : BitVec 24 :=
  let ofOut : Output → BitVec 24 | .wide w | .p128 w | .pf32 w => w.tid | .viaQuant => 0
  match outputOf k with
  | (_, .p128 w) => w.tid
  | (_, .pf32 w) => w.tid
  | (some c, _) => (chainOf img (some c)).prodTid
  | (none, out) => ofOut out

/-- The send stage of a chain. -/
def sendOf (c : Chain) : Option (Nat × SendSel) :=
  c.stages.findSome? fun s => match s with | .send g sel => some (g, sel) | _ => none

/-- Parts of a product's reduction. -/
def partsOf : BindKind → Nat
  | .product _ _ _ _ parts _ _ => max 1 parts
  | _ => 1

/-- Tiles across a binding's sent output: the row length of its permutation list (R276). -/
def sendCols (img : Image) (k : BindKind) : Nat :=
  match quantStage (chainOf img (outputOf k).1) with
  | some (_, .quantOut (.code t) _ _ _ _ _) => kPad t.k / 128
  | _ => ceilDiv (outShape img k).2 64

/-- Tiles down a binding's sent output. -/
def sendRows (img : Image) (k : BindKind) : Nat :=
  match quantStage (chainOf img (outputOf k).1) with
  | some (_, .quantOut (.code t) _ _ _ _ _) => ceilDiv t.rows 64
  | _ => ceilDiv (outShape img k).1 64

/-! ## What a receiving binding expects (R278, R279) -/

/-- Bindings of a segment whose send stage sends to a receiving binding. -/
def sendersOf (img : Image) (seg : Nat) (r : Receive) : List Binding :=
  (bindsOfSeg img seg).filter fun b => match sendOf (chainOf img (outputOf b.kind).1) with
    | some (g, _) => g == r.group && (outTid img b.kind == r.tid || sumTid img b.kind == r.tid)
    | none => false

/-- Packets that carry a stream of n lines, 15 in each (R268). -/
def streamPackets (n : Nat) : Nat := ceilDiv n 15

/-- Packets of a stream binding of fixed size: those of its tensor's four streams, or of its region (DEDUCED, log entry 38: R268 lets a
packet carry up to 15 lines). -/
def streamExpected (r : Receive) : Nat :=
  match r.tensor with
  | some t => streamPackets (blockCount t) + streamPackets (scalePackets t) + streamPackets t.ashCap + streamPackets (scaleHead t)
  | none => streamPackets r.lines

/-- Tiles that the image routes to a receiving binding of fixed size, as row, column and part (R278, R279): those within its extents that
a sending binding of the image makes; all of them where no binding of the image sends it any, since then other members' images do (DEDUCED,
log entry 38). -/
def routedTiles (r : Receive) (img : Image) (seg : Nat) : List (Nat × Nat × Nat) :=
  let from_ := sendersOf img seg r
  ((List.range r.rowTiles).flatMap fun i => (List.range r.colTiles).flatMap fun j => (List.range r.parts).map fun p => (i, j, p)).filter fun t =>
    from_.isEmpty || from_.any fun b =>
      decide (t.1 < sendRows img b.kind) && decide (t.2.1 < sendCols img b.kind) && decide (t.2.2 < partsOf b.kind)

/-- Whether a type is that of a tile packet. -/
def isTile (y : Byte) : Bool := y == tyTileCode || y == tyTileWide || y == tyTileP128 || y == tyTilePf32

/-- States or records that a receiving binding expects, or packets of a stream, each with its verdict (R278, R279). -/
def expectedPackets (r : Receive) : Nat := if r.type = tyStream then streamExpected r else r.rowTiles * r.colTiles * r.parts

/-! ## Dynamic exchanges (R280, R281) -/

/-- The dynamic exchange of a binding. -/
def Part.dyn (x : Part) (bind : Nat) : DynEx := (x.flu.dyn.find? fun y => y.bind == bind).getD ⟨bind, [], 0, [], [], []⟩

/-- The exchange of the segment in whose landing region a line of a stage buffer lies. -/
def Part.dynOf (x : Part) (slice line : Nat) : Option (Nat × Receive) :=
  x.segBindings.findSome? fun b => match b.kind with
    | .exchange r _ _ => if r.slice = slice ∧ r.line ≤ line ∧ line < r.line + r.lines then some (b.key, r) else none
    | _ => none

/-- Line i of a region of a stage buffer, as slice and line of the engine: none while it may not be read. A region that begins in the
landing region of an exchange is read by global lines, line x at x mod C_land once it has landed and until line x + C_land has (R281). -/
def Part.lineAt (x : Part) (slice first i : Nat) : Option (Nat × Nat) :=
  match x.dynOf slice first with
  | none => some (x.slice slice, first + i)
  | some (key, r) =>
    let g := first - r.line + i
    let y := x.dyn key
    if y.landed.contains g ∧ !y.landed.contains (g + r.lines) then some (x.slice slice, r.line + g % max 1 r.lines) else none

end Sys2Proof.Machine
end

