-- ==== Sys2Proof/Machine/Draws.lean ====
section
/-! DEFINITION. What a slot's units see beside their input: the environment of a chain, its draws from the indexed
generator or a declared stream (R89, R111, R135, R179), and its reads of regions (R19, R121). -/

namespace Sys2Proof.Machine

/-! ## Declared streams (R179) -/

/-- A use of a declared stream: binding, place in it (0 to 2 an operand's quantise, 16 + i stage i of the chain, 15 a
fill), stream, and the index span it takes. -/
structure StreamUse where
  bind : Nat
  use : Nat
  stream : BitVec 32
  span : Nat
  deriving DecidableEq, Repr

/-- prows * Kp of a narrow tensor (R57). -/
def codeSpan (t : TensorRef) : Nat := rowsPad t.fmt t.rows * kPad t.k

/-- Rows * Kp of a wide output, whose rows are not padded (R57). -/
def wideSpan (w : WideRef) : Nat := if w.colReduction then w.cols * kPad w.rows else w.rows * kPad w.cols

/-- Logical index of output element (row, col) under the chain's output binding (R57): along the reduction axis. -/
def outIndex (c : Chain) (out : Output) (row col : Nat) : Nat :=
  match quantStage c, out with
  | some (_, .quantOut t byRows _ _ _ _), _ =>
    let k := (targetExtents t).2
    if byRows then elemIndex k col row else elemIndex k row col
  | _, .wide w | _, .p128 w | _, .pf32 w => if w.colReduction then elemIndex w.rows col row else elemIndex w.cols row col
  | _, .viaQuant => 0

/-- Span of the output index (R57, R179). -/
def outSpan (c : Chain) (out : Output) : Nat :=
  match quantStage c, out with
  | some (_, .quantOut t _ _ _ _ _), _ => (match t with
      | .code t => codeSpan t
      | t => (targetExtents t).1 * kPad (targetExtents t).2)
  | _, .wide w | _, .p128 w | _, .pf32 w => wideSpan w
  | _, .viaQuant => 0

/-- Stream uses of an operand's prologue. -/
def operandUses (bind use : Nat) : Operand → List StreamUse
  | .pass _ => []
  | .convert _ _ t => if t.src.declared then [⟨bind, use, t.src.stream, codeSpan t⟩] else []

/-- Stream uses of a chain's stages, in image order. -/
def chainUses (bind : Nat) (c : Chain) (out : Output) : List StreamUse :=
  ((List.range c.stages.length).zip c.stages).filterMap fun x =>
    match x.2 with
    | .dropout _ _ s _ _ => if s.declared then some ⟨bind, 16 + x.1, s.stream, outSpan c out⟩ else none
    | .quantOut (.code t) _ _ _ _ _ => if t.src.declared then some ⟨bind, 16 + x.1, t.src.stream, codeSpan t⟩ else none
    | _ => none

/-- Stream uses of a binding, in image order. -/
def bindUses (img : Image) (b : Binding) : List StreamUse :=
  match b.kind with
  | .product x y _ _ _ ch out => operandUses b.key 0 x ++ operandUses b.key 1 y ++ chainUses b.key (chainOf img ch) out
  | .copy _ _ ch out => chainUses b.key (chainOf img ch) out
  | .fill _ s _ ch out =>
    (if s.declared then [⟨b.key, 15, s.stream, outSpan (chainOf img ch) out⟩] else []) ++ chainUses b.key (chainOf img ch) out
  | .chained q k v _ ch out =>
    operandUses b.key 0 q ++ operandUses b.key 1 k ++ operandUses b.key 2 v ++ chainUses b.key (chainOf img ch) out
  | _ => []

/-- Slots of a segment and of its variants, in image order. -/
def segSlots (img : Image) (seg : Nat) : List Slot :=
  img.slots.filter fun l => l.seg == seg
    || (decide (variantBit ≤ l.seg) && (variantsOf img seg).any fun v => v.key + variantBit == l.seg)

/-- Binding keys of a step in slot order, each once. -/
def stepBinds (img : Image) (seg : Nat) : List Nat :=
  (segSlots img seg).foldl (fun l x => if l.contains x.bind then l else l ++ [x.bind]) []

/-- Stream uses of a step, in the order of R179. The slots of every variant count, selected or not, and a binding counts once
(DESIGN CHOICE, log entry 65): the loader fixes c_b before any variant is decided. -/
def stepUses (img : Image) (seg : Nat) : List StreamUse :=
  (stepBinds img seg).flatMap fun k => match bindOf img k with | some b => bindUses img b | none => []

/-- The spans of the uses of a stream before a given use. -/
def spansBefore (l : List StreamUse) (bind use : Nat) (s : BitVec 32) : Nat :=
  ((l.takeWhile fun u => !(u.bind == bind && u.use == use)).filter fun u => u.stream == s).foldl (fun n u => n + u.span) 0

/-- The span a step takes from a stream (R179). -/
def stepSpan (img : Image) (seg : Nat) (s : BitVec 32) : Nat :=
  ((stepUses img seg).filter fun u => u.stream == s).foldl (fun n u => n + u.span) 0

/-- Stream states at the end of a step: every counter advanced by the step's spans, as R179 has it, and committed
(R180). -/
def advanceStreams (img : Image) (seg : Nat) (r : Rng) : Rng :=
  { r with streams := r.streams.map fun s =>
      let c := streamAdvance s.cur (stepSpan img seg s.id)
      { s with cur := c, cmt := c } }

/-! ## The environment of a chain -/

/-- What the units of a slot see: the stage buffers, the lines the slice's stations hold for the slot, the slot, and
the partition. -/
structure Env where
  sb : StageBufs
  lines : List StLine
  slot : Nat
  part : Part
  img : Image

/-- The environment of a slot. -/
def Dev.env (sb : StageBufs) (d : Dev) (p : PartId) (img : Image) (l : Slot) : Env :=
  let x := d.part p
  let s := x.slice l.slice
  let held (i : Nat) : List StLine := (tabGet Station.reset d.stations (2 * s + i)).lines
  { sb := sb, slot := l.key, part := x, img := img,
    lines := (held 0 ++ held 1).filter fun y => y.part == p && y.slot == l.key }

/-- STEP as the generator takes it. -/
def Env.step (e : Env) : BitVec 32 := e.part.sch.step.setWidth 32

/-- A draw for an element: of the declared stream at its base counter plus the index, or of the indexed generator
(R89, R179). `tag` is 0, or 2 for the second draw of Box-Muller. -/
def Env.draw (e : Env) (bind use : Nat) (src : BitSrc) (tag : Nat) (tid : BitVec 24) (idx : Nat) (data : BitVec 16) : Word :=
  if src.declared then
    let c := ((e.part.rng.streams.find? fun s => s.id == src.stream).map (·.cur)).getD (streamStart src.stream)
    let base := spansBefore (stepUses e.img e.part.sch.seg.toNat) bind use src.stream
    let c := streamAdvance c (base + idx)
    if tag = 0 then streamDraw e.part.rng.seed c else mix c (packP1 tag 0 0) (keySchedule e.part.rng.seed)
  else indexedDraw e.part.rng.seed tag src.stream e.step tid idx data

/-- A span of bytes of a region: the place, the operand number under which a station fetches it, offset and length. -/
structure Span where
  place : Place
  opnd : Nat
  off : Nat
  len : Nat

/-- The bytes of a span: from the stage buffer, or from the lines the stations hold; none while one is missing, or has not landed
(R281). -/
def Env.bytes (e : Env) (s : Span) : Option (List Byte) :=
  match s.place with
  | .buf slice line =>
    if (e.part.dynOf slice line).isSome then
      (List.range s.len).mapM fun i => (e.part.lineAt slice line ((s.off + i) / 512)).map fun g => (sbRead e.sb g.1 g.2).getD ((s.off + i) % 512) 0
    else some ((List.range s.len).map fun i =>
      (sbRead e.sb (e.part.slice slice) (line + (s.off + i) / 512)).getD ((s.off + i) % 512) 0)
  | .mem _ =>
    (List.range s.len).mapM fun i =>
      (e.lines.find? fun l => l.opnd == s.opnd && l.kind == .wide && l.index == (s.off + i) / 512).map fun l =>
        l.data.getD ((s.off + i) % 512) 0

/-- The stage-buffer lines a span reads, as slice and line. -/
def Env.linesOf (e : Env) (s : Span) : List (Nat × Nat) :=
  match s.place with
  | .buf slice line => (List.range (ceilDiv (s.off % 512 + s.len) 512)).filterMap fun i => e.part.lineAt slice line (s.off / 512 + i)
  | .mem _ => []

/-- A wide element read as an F32 (R52: negative zero as zero). -/
def wideElem (f : WideFmt) (bs : List Byte) : BitVec 32 :=
  match decodeF (specOf f) (natLE bs) with
  | .fin q => toF32 (.fin q)
  | .inf neg => if neg then negInf else posInf
  | .nan => nan32

/-- Bytes of an element of a wide format written under a mode (R110, R126). -/
def wideOut (f : WideFmt) (mode : Rnd) (r : Word) (v : FVal) : List Byte := bytesLE (wideBytes f) (encodeF (specOf f) mode r v)

/-- Span of entry i of a vector region (Table 5.1). -/
def vecSpan (v : VecRef) (opnd i : Nat) : Span := ⟨v.place, opnd, wideBytes v.fmt * i, wideBytes v.fmt⟩

/-- The wide format of a wide region (other formats are read by the converters only). -/
def wideFmtOf (w : WideRef) : WideFmt := match w.fmt with | .wide f => f | _ => .f32

/-- Span of element (r, c) of a wide region (R53). -/
def wideElemSpan (w : WideRef) (opnd r c : Nat) : Span :=
  ⟨w.place, opnd, w.pitch * r + wideBytes (wideFmtOf w) * c, wideBytes (wideFmtOf w)⟩

end Sys2Proof.Machine
end

