-- ==== Sys2Proof/Machine/Context.lean ====
section
/-! DEFINITION. Context images (R360 to R364, R181), their saving (R365, R366) and the checks and effect of a restore
(R368, R369). -/

namespace Sys2Proof.Machine

/-- Ledger entry i of a partition's range. -/
def Dev.lgr (d : Dev) (p : PartId) (i : Nat) : LedgerEntry :=
  tabGet LedgerEntry.reset d.ledger ((d.part p).cfg.lgrBase + i)
/-- Ledger entry i of a partition's range changed. -/
def Dev.modLgr (d : Dev) (p : PartId) (i : Nat) (f : LedgerEntry → LedgerEntry) : Dev :=
  { d with ledger := tabMod LedgerEntry.reset d.ledger ((d.part p).cfg.lgrBase + i) f }
/-- Policy record n as written. -/
def Part.policy (x : Part) (n : Nat) : Word := tabGet policyReset x.policies n
/-- Policy records, as the attempt latches them (R203). -/
def Part.allPolicies (x : Part) : List Word := (List.range 16).map x.policy
/-- The latched policy record of an entry (R202, R203); as written before the first launch. -/
def Part.latched (x : Part) (e : LedgerEntry) : Word :=
  if x.att.policies.isEmpty then x.policy e.policy.toNat else x.att.policies.getD e.policy.toNat policyReset

/-- Key slot h of a partition's range (R351). -/
def Dev.key (d : Dev) (p : PartId) (h : Nat) : KeySlot :=
  if h < (d.part p).cfg.keyCount then tabGet KeySlot.reset d.keys ((d.part p).cfg.keyBase + h) else KeySlot.reset

/-- N_ENTRIES of a save (R363). -/
def Dev.nEntries (d : Dev) (p : PartId) : Nat :=
  let x := d.part p
  (d.ledger.foldl (fun n e => if x.cfg.lgrBase ≤ e.1 ∧ e.1 < x.cfg.lgrBase + x.cfg.lgrCount ∧ e.2.valid
    then max n (e.1 - x.cfg.lgrBase + 1) else n) 0)

/-- Streams of a save in ascending identifier: the table's and the kept records (R181). -/
def Rng.allEmbers (r : Rng) : List Stream :=
  (r.streams ++ r.embers).foldr (fun s l => (l.filter fun y => decide (y.id.toNat < s.id.toNat)) ++ s :: l.filter fun y => decide (s.id.toNat < y.id.toNat)) []

/-- The entry as a save holds it: counters, AMAX and FAIL_CAUSE zero (R363). -/
def LedgerEntry.saved (e : LedgerEntry) : LedgerEntry :=
  { LedgerEntry.reset with hist := e.hist, ts32 := e.ts32, policy := e.policy, valid := e.valid, silent := e.silent,
                           fbActive := e.fbActive, fbLeft := e.fbLeft, tid := e.tid }

/-- The seed that the next step draws with: a pending one that is due at its anchor, else the one in force (R169, R361). -/
def Rng.nextSeed (r : Rng) : BitVec 128 := if r.ripe then r.pending.getD r.seed else r.seed

/-- The body of a context image (R361, R363, Table 13.9): SEED is that of the step that continues from it, FPRINT the fingerprint with it. -/
def Dev.ctxBody (d : Dev) (p : PartId) (step seg epoch : Nat) : List Byte :=
  let x := d.part p
  let n := d.nEntries p
  let embers := x.rng.allEmbers
  let fprint := match x.ldr.image with
    | some img => if x.rng.ripe then fingerprint d.stk.activeBank.version img x.rng.nextSeed else x.fprint
    | none => x.fprint
  let digest := match x.ldr.image with | some img => img.header.logicalDigest.take 48 | none => []
  digest ++ List.replicate (48 - digest.length) 0 ++ bytesLE 8 step ++ bytesLE 8 epoch ++ bytesLE 16 x.rng.nextSeed.toNat
    ++ bytesLE 8 fprint.toNat ++ bytesLE 4 seg ++ bytesLE 4 n ++ bytesLE 4 embers.length ++ [1]
    ++ List.replicate 27 0
    ++ (x.allPolicies.flatMap fun w => bytesLE 8 w.toNat)
    ++ ((List.range n).flatMap fun i => bytesLE 64 (d.lgr p i).saved.toBits)
    ++ embers.flatMap Stream.ember

/-- The header of a context image (Table 13.8). -/
def ctxHeader (k : KeySlot) (bodyLen : Nat) : List Byte :=
  bytesLE 4 0x58544346 ++ bytesLE 2 1 ++ bytesLE 2 0xF4 ++ bytesLE 4 bodyLen ++ bytesLE 1 k.kind.toNat
    ++ List.replicate 3 0 ++ bytesLE 4 k.keyId.toNat ++ bytesLE 6 k.rand.toNat ++ bytesLE 6 k.count.toNat

/-- The key's 32 bytes. -/
def KeySlot.bytes (k : KeySlot) : List Byte := bytesLE 32 k.key.toNat

/-- A body sealed under a key slot (R362, R364). -/
def sealBody (k : KeySlot) (body : List Byte) : CtxImage :=
  let h := ctxHeader k body.length
  let nonce := h.drop 20
  let c := gcmCrypt k.bytes nonce body
  { header := h, body := c, tag := gcmTag k.bytes nonce h c }

/-- Whether a key slot may seal for a partition: VALID, PURPOSE 1, of the partition's KEY_KIND, counter not at its last
value (R354, R364). -/
def Dev.maySeal (d : Dev) (p : PartId) (h : Nat) : Bool :=
  let k := d.key p h
  k.valid && k.purpose == 1 && k.kind == (d.part p).cfg.keyKind && k.count != BitVec.allOnes 48

/-- The nonce counter of a key slot raised (R364). -/
def Dev.bumpNonce (d : Dev) (p : PartId) (h : Nat) : Dev :=
  { d with keys := tabMod KeySlot.reset d.keys ((d.part p).cfg.keyBase + h) fun k => { k with count := k.count + 1 } }

/-- Context registers changed. -/
def Dev.modCtx (d : Dev) (p : PartId) (f : Ctx → Ctx) : Dev := d.modPart p fun x => { x with ctx := f x.ctx }

/-- The slot a save writes: the invalid one or the one of lower STEP, slot 0 when they are equal (R365). -/
def pickSlot (s : Option Nat × Option Nat) : Nat :=
  match s with
  | (none, _) => 0
  | (some _, none) => 1
  | (some a, some b) => if b < a then 1 else 0

/-- Whether the commit decision of a step saves (R365, R366, R371). -/
def Part.saveDue (x : Part) : Bool :=
  (x.ctx.saveEvery ≠ 0 && x.sch.step.toNat % x.ctx.saveEvery == 0) || x.ctx.request || x.ctx.retry.isSome

/-- Number of registered contexts. -/
def Ctx.regCount (c : Ctx) : Nat := ((List.range 8).filter fun i => c.reg.getLsbD i).length

/-- Whether the commit decision ends the active context's turn (R371), counting the step it commits: with one context registered none does, and
a context that OP 2 takes out runs its turn to the end (R370). -/
def Part.turnEnds (x : Part) : Bool :=
  let q := max 1 ((x.ctx.descs.lookup x.ctx.active).map (·.quantum) |>.getD 1)
  decide (2 ≤ x.ctx.regCount) && decide (q ≤ x.ctx.turn + 1)

/-- A failed save (R366): RESULT 3, DRAUGHT_REJECT, and the same slot at every following commit decision; a switch that waited for it
does not take place. -/
def Dev.saveFailed (d : Dev) (t : Nat) (p : PartId) (slot reason : Nat) : Dev :=
  let d := d.modCtx p fun c => { c with result := 3, retry := some slot, saving := none, switching := false }
  d.report t { code := 0x11, severity := .info, unit := sharedUnit 1, part := some p,
               synd := reason + (0xC0 + slot) * 2 ^ 8 + 2 ^ 16 }

/-! ## Restoring (R368, R369) -/

/-- What a slot's bytes hold once opened. -/
structure CtxRead where
  step : Nat
  nEntries : Nat
  nEmbers : Nat
  body : List Byte
  deriving DecidableEq, Repr

/-- Rows 2 and 6 of Table 13.12 on a body in clear, for a slot length and ledger count: none, or reason and detail. -/
def bodyCheck (bodyLen slotLen lgrCount : Nat) (b : List Byte) : Option (Nat × Nat) :=
  let n := fieldLE b 92 4
  let m := fieldLE b 96 4
  let embers := (List.range m).map fun i => (b.drop (256 + 64 * n + 32 * i)).take 32
  if slotLen < 32 + bodyLen + 16 ∨ bodyLen ≠ 256 + 64 * n + 32 * m ∨ b.length ≠ bodyLen then some (0x05, 0)
  else if lgrCount < n then some (0x0E, n)
  else if fieldLE b 101 27 ≠ 0 ∨ 1 < fieldLE b 100 1 then some (0x05, 0)
  else match (List.range m).find? fun i => (readEmber (embers.getD i [])).isNone with
    | some i => some (0x05, i)
    | none => none

/-- A slot opened and checked in the order of Table 13.12, rows 2 to 6: the reason and detail, or the body in clear. -/
def Dev.openSlot (d : Dev) (p : PartId) (ds : Descriptor) (c : CtxImage) : (Nat × Nat) ⊕ CtxRead :=
  let x := d.part p
  let h := c.header
  let bodyLen := fieldLE h 8 4
  let k := d.key p ds.key
  if fieldLE h 0 4 ≠ 0x58544346 ∨ fieldLE h 4 2 ≠ 1 ∨ fieldLE h 6 2 ≠ 0xF4 ∨ ds.slotLen < 32 + bodyLen + 16
      ∨ c.body.length ≠ bodyLen ∨ bodyLen < 256 then .inl (0x05, 0)
  else
    let b := gcmCrypt k.bytes (h.drop 20) c.body
    let n := fieldLE b 92 4
    let m := fieldLE b 96 4
    if !(k.valid && (k.purpose == 1 || k.purpose == 2) && k.kind.toNat == fieldLE h 12 1 && k.keyId.toNat == fieldLE h 16 4) then
      .inl (0x02, ds.key)
    else if gcmTag k.bytes (h.drop 20) h c.body ≠ c.tag then .inl (0x02, 0)
    else if bodyLen ≠ 256 + 64 * n + 32 * m then .inl (0x05, 0)
    else if (match x.ldr.image with | some img => b.take 48 != img.header.logicalDigest | none => true) then .inl (0x02, 0)
    else if fieldLE h 13 3 ≠ 0 then .inl (0x05, 0)
    else match bodyCheck bodyLen ds.slotLen x.cfg.lgrCount b with
      | some e => .inl e
      | none => .inr ⟨fieldLE b 48 8, n, m, b⟩

/-- What a restore writes (R369, R181). -/
def Dev.restoreBody (d : Dev) (p : PartId) (r : CtxRead) : Dev :=
  let x := d.part p
  let b := r.body
  let pol := (List.range 16).foldl (fun t i => tabSet policyReset t i (BitVec.ofNat 64 (fieldLE b (128 + 8 * i) 8))) []
  let entries := (List.range r.nEntries).foldl (fun t i =>
    tabSet LedgerEntry.reset t (x.cfg.lgrBase + i) (LedgerEntry.ofBits (fieldLE b (256 + 64 * i) 64)))
    (tabClear x.cfg.lgrBase x.cfg.lgrCount d.ledger)
  let embers := (List.range r.nEmbers).filterMap fun i => readEmber ((b.drop (256 + 64 * r.nEntries + 32 * i)).take 32)
  let declared := match x.ldr.image with | some img => img.streams | none => []
  let live := declared.map fun id =>
    match embers.find? fun e => e.id == id with
    | some e => e
    | none => ⟨id, BitVec.ofNat 128 (id.toNat * 2 ^ 64), BitVec.ofNat 128 (id.toNat * 2 ^ 64)⟩
  let d := { d with ledger := entries }
  let d := d.modPart p fun x =>
    { x with
      policies := pol,
      rng := { x.rng with seed := BitVec.ofNat 128 (fieldLE b 64 16), pending := none, ripe := false, streams := live,
                          embers := embers.filter fun e => !declared.contains e.id },
      sch := { x.sch with step := BitVec.ofNat 64 (fieldLE b 48 8), seg := BitVec.ofNat 32 (fieldLE b 88 4),
                          commitFirst := decide (fieldLE b 100 1 = 1) } }
  d.refingerprint p

/-- The newer of two opened slots: its number and content; slot 0 when the steps are equal. -/
def newerSlot (a b : (Nat × Nat) ⊕ CtxRead) : Option (Nat × CtxRead) :=
  match a, b with
  | .inr x, .inr y => if x.step < y.step then some (1, y) else some (0, x)
  | .inr x, .inl _ => some (0, x)
  | .inl _, .inr y => some (1, y)
  | .inl _, .inl _ => none

/-- STEP of an opened slot, for R365. -/
def slotStep (a : (Nat × Nat) ⊕ CtxRead) : Option Nat := match a with | .inr x => some x.step | .inl _ => none

/-- STEP as a slot's bytes claim it once opened, valid or not: the newer slot of a failed restore is judged by it. -/
def Dev.claimedStep (d : Dev) (p : PartId) (ds : Descriptor) (c : CtxImage) : Nat :=
  fieldLE (gcmCrypt (d.key p ds.key).bytes (c.header.drop 20) c.body) 48 8

/-- A hardware save begins at a commit decision (R361, R365): the body is taken as the decision leaves the committed state, with the step
and segment of the next attempt. -/
def Dev.saveStart (d : Dev) (p : PartId) : Dev :=
  let x := d.part p
  let step := x.sch.step.toNat + 1
  let seg := match x.segment with | some s => s.next | none => Config.noKey
  let body := d.ctxBody p step seg x.sch.commitEpoch
  d.modCtx p fun c => { c with saving := some ⟨c.active, BitVec.ofNat 64 step, body⟩, result := 1, request := false }

/-- The three writes of a save in their order: zeros over the header, the body and the tag, the header (R365). -/
def saveWrites (base : Nat) (img : CtxImage) : List CtxWrite :=
  [⟨base, List.replicate 32 0⟩, ⟨base + 32, img.body ++ img.tag⟩, ⟨base, img.header⟩]

/-- Address of a slot (Table 13.11). -/
def slotAddr (ds : Descriptor) (slot : Nat) : Nat := ds.ctxAddr + slot * ds.slotLen

/-- The slot that a save or a seal writes, of two slots as memory holds them: the one of a failed save again (R366), else R365's choice. -/
def Dev.slotFor (d : Dev) (p : PartId) (ds : Descriptor) (slot0 slot1 : CtxImage) : Nat :=
  (d.part p).ctx.retry.getD (pickSlot (slotStep (d.openSlot p ds slot0), slotStep (d.openSlot p ds slot1)))

end Sys2Proof.Machine
end

