-- ==== Sys2Proof/Machine/Recv.lean ====
section
/-! DEFINITION. Receiving packets: the checks of Table 10.6 in their order (R266, R274), verdict words (R278), notices
(R228, R301) and landed tiles (R279). -/

namespace Sys2Proof.Machine

/-- The flue port on which a partition receives control packets (R438), as the unit of records about packets. -/
def Part.port0 (x : Part) : UnitCode := unitOf x.cfg.first 7 0

/-- STREAM_SKEW from the receive check of an order (Table 11.11). -/
def Dev.skew (d : Dev) (t : Nat) (p : PartId) (order extra : Nat) : Dev :=
  d.report t { code := 0x06, severity := .stepReplay, unit := (d.part p).port0, part := some p,
               synd := 0x11 + order * 2 ^ 8 + extra }

/-- Where a packet's (STEP, ATTEMPT) stands to the receiver's: 0 equal, 1 older, 2 newer (check 3). A STARTING receiver has no current
attempt, and takes none of the packets that the check covers. -/
def Part.attemptOf (x : Part) (k : Packet) : Nat :=
  let diff := (k.hdr.step - x.pktStep).toNat
  if x.sch.state = .starting then 1
  else if diff = 0 then
    let a := k.hdr.attempt.toNat
    if a = x.att.number then 0 else if a < x.att.number then 1 else 2
  else if diff < 2 ^ 31 then 2 else 1

/-- Whether check 3 passes a packet over: AGREE START, LEASE, and every AGREE packet while STARTING. -/
def skipsAttempt (x : Part) (k : Packet) : Bool :=
  (k.hdr.type == tyAgree && (k.hdr.aux == 0 || x.sch.state == .starting)) || k.hdr.type == tyLease

/-- Whether the receiver's state lets a packet in (R266): a START word also in READY. -/
def Part.mayReceive (x : Part) (k : Packet) : Bool :=
  x.cfg.state == .assigned
    && (mayFlue x.sch.state || (x.sch.state == .ready && k.hdr.type == tyAgree && k.hdr.aux == 0))

/-- Checks 1 to 4 of Table 10.6: the units after a failure, or the go-ahead. -/
def Dev.recvChecks (d : Dev) (t : Nat) (p : PartId) (k : Packet) : Dev × Bool :=
  let x := d.part p
  if !pktCrcOk k then (d.bump p 3 1, false)
  else if k.hdr.job ≠ x.flu.tag ∨ k.hdr.dst.toNat % 8192 ≠ x.self ∨ !x.mayReceive k then (d.bump p 3 1, false)
  else if !skipsAttempt x k && x.attemptOf k == 1 then (d.bump p 4 1, false)
  else if !skipsAttempt x k && x.attemptOf k == 2 then
    (d.report t { code := 0x14, severity := .partFatal, unit := sharedUnit 5, part := some p,
                  synd := 3 + k.hdr.src.toNat % 8192 * 2 ^ 16 }, false)
  else match d.grp p (k.hdr.group.toNat % 1024) with
    | some g => if gGen g = k.hdr.gen.toNat then (d, true) else (d.skew t p 4 0, false)
    | none => (d.skew t p 4 0, false)

/-- Check 5: the one receiving binding of the current segment for a packet's group, tensor and type; at most one may exist. -/
def Part.receiverOf (x : Part) (k : Packet) (type : Byte) : Option (Nat × Receive) :=
  match x.receivers.filter fun r => r.2.group == k.hdr.group.toNat % 1024 && r.2.tid == k.hdr.tid.setWidth 24 && r.2.type == type with
  | [r] => some r
  | _ => none

/-- The receiving binding for a packet's group and tensor, whatever its type (verdicts, counts, credits). -/
def Part.receiverAny (x : Part) (k : Packet) : Option (Nat × Receive) :=
  x.receivers.find? fun r => r.2.group == k.hdr.group.toNat % 1024 && r.2.tid == k.hdr.tid.setWidth 24

/-- Check 6 on extents: ROW_TILE, COL_TILE and K_PART within the binding's; a switch's sum has K_PART all ones (R290). A dynamic
size has none. -/
def inExtents (r : Receive) (k : Packet) : Bool :=
  r.dynamic || decide (k.hdr.rowTile.toNat < r.rowTiles) && decide (k.hdr.colTile.toNat < r.colTiles)
    && (decide (k.hdr.kPart.toNat < r.parts) || k.hdr.flags.getLsbD 1)

/-- The syndrome of a partial sum whose reference differs (check 6, R55, Table 11.11): operand, expected and found TS32. -/
def refSynd (want got : BitVec 64) : Nat :=
  let a := want.toNat % 2 ^ 32 ≠ got.toNat % 2 ^ 32
  let pick (w : BitVec 64) : Nat := if a then w.toNat % 2 ^ 32 else w.toNat / 2 ^ 32
  (if a then 0 else 2 ^ 16) + pick want * 2 ^ 32 + pick got * 2 ^ 64

/-- Checks 5 and 6 for a tile packet; `ref` says whether REF is compared (partial sums). -/
def Dev.placeChecks (d : Dev) (t : Nat) (p : PartId) (k : Packet) (ref : Bool) : Dev × Option (Nat × Receive) :=
  match (d.part p).receiverOf k k.hdr.type with
  | none => (d.skew t p 5 0, none)
  | some b =>
    if ref && k.hdr.ref != b.2.ref then (d.skew t p 6 (refSynd b.2.ref k.hdr.ref), none)
    else if !inExtents b.2 k then (d.skew t p 6 0, none)
    else (d, some b)

/-- Every check of Table 10.6 for a tile packet, in order. -/
def Dev.tileChecks (d : Dev) (t : Nat) (p : PartId) (k : Packet) (ref : Bool) : Dev × Option (Nat × Receive) :=
  let r := d.recvChecks t p k
  if !r.2 then (r.1, none) else r.1.placeChecks t p k ref

/-- The last coordinate of a packet's place: its part, or for lines of a stream the kind of stream that AUX names (R268, R279). -/
def placePart (k : Packet) : Nat := if k.hdr.type = tyStream then k.hdr.aux.toNat / 2 ^ 30 else k.hdr.kPart.toNat

/-- A tile landed, for the waits of R279. -/
def Dev.landed (d : Dev) (p : PartId) (bind row col part : Nat) : Dev :=
  d.modPart p fun x => { x with flu := { x.flu with landed :=
    (bind, row, col, part) :: (x.flu.landed.filter fun y => y != (bind, row, col, part)) } }

/-- An agreement word, hold notice or replay notice past its deadline (R248). -/
def Dev.broken (d : Dev) (t : Nat) (p : PartId) (member : Nat) : Dev :=
  d.report t { code := 0x14, severity := .partFatal, unit := sharedUnit 5, part := some p, synd := 2 + member * 2 ^ 16 }

/-- A replay notice or what acts as one (R301, R278): it dooms the attempt without a notice of the receiver's own. At or
after the decision beat the agreement is broken (R248). -/
def Dev.noticed (d : Dev) (t : Nat) (p : PartId) (code : Byte) (member : Nat) : Dev :=
  if !(d.part p).undecided t then d.broken t p member
  else
    let d := d.doom t p code 0 false 0
    d.modAtt p fun a => { a with noticeReplay := true }

/-- VERDICT (R278). A positive one stamped at or after the commit point is missing (Table 9.1). -/
def execVerdict (t : Tick) (p : PartId) (k : Packet) (s : State) : Host.Outcome State Fault Refusal :=
  onDev t s fun n d =>
    let r := d.recvChecks n p k
    if !r.2 then r.1
    else match (r.1.part p).receiverAny k with
      | none => r.1.skew n p 5 0
      | some b =>
        if !b.2.dynamic ∧ !inExtents b.2 k then r.1.skew n p 6 0
        else if verdictPos k.hdr.aux then
          if !(r.1.part p).inAttempt n then r.1 else
          let v := (b.1, k.hdr.src.toNat % 8192, k.hdr.rowTile.toNat, k.hdr.colTile.toNat, k.hdr.kPart.toNat)
          r.1.modAtt p fun a => { a with verdicts := v :: (a.verdicts.filter fun y => y != v) }
        else r.1.noticed n p (BitVec.ofNat 8 (k.hdr.aux.toNat / 256)) (k.hdr.src.toNat % 8192)

/-- NOTICE (R301). -/
def execNotice (t : Tick) (p : PartId) (k : Packet) (s : State) : Host.Outcome State Fault Refusal :=
  onDev t s fun n d =>
    let r := d.recvChecks n p k
    if r.2 then r.1.noticed n p (k.hdr.aux.setWidth 8) (k.hdr.src.toNat % 8192) else r.1

/-- UNKNOWN_PACKET (R267): discarded and counted, whatever else it holds. -/
def execUnknownPacket (t : Tick) (p : PartId) (_k : Packet) (s : State) : Host.Outcome State Fault Refusal :=
  onDev t s fun _ d => d.bump p 3 1

end Sys2Proof.Machine
end

