-- ==== Sys2Proof/Machine/Ledger.lean ====
section
/-! DEFINITION. The tensor ledger: update and fall-back state (R212, R213), clear (R206), exchange (R208, R210), repair
and errors (R219 to R221, R285). -/

namespace Sys2Proof.Machine

/-! ## Update -/

/-- A history with octave byte o: shifted in, or merged into HIST0 under the fb mark (R212). -/
def histPush (h : BitVec 128) (o : Nat) (fb : Bool) : BitVec 128 :=
  if fb then BitVec.ofNat 128 (h.toNat / 256 * 256 + max (h.toNat % 256) o) else BitVec.ofNat 128 (h.toNat * 256 + o)

/-- The largest of HIST0 to HIST(W-1) (R201). -/
def histTop (h : BitVec 128) (w1 : Nat) : Nat := (List.range (w1 + 1)).foldl (fun n i => max n (h.toNat / 256 ^ i % 256)) 0

/-- TS32 of an entry from its history under a policy record (R201, R204). -/
def scaleOf (pol : Word) (e : LedgerEntry) : BitVec 32 := ts32OfTop (histTop e.hist (polW1 pol)) (polMargin pol)

/-- The ledger update of one entry (R212). -/
def LedgerEntry.update (e : LedgerEntry) (pol : Word) (fb tsHost : Bool) : LedgerEntry :=
  let h := histPush e.hist (octave e.amax) fb
  let top := histTop h (polW1 pol)
  { e with hist := h, silent := decide (top = 0), ts32 := if tsHost then e.ts32 else ts32OfTop top (polMargin pol) }

/-- The fall-back state of one entry after its update (R213). -/
def LedgerEntry.fallback (e : LedgerEntry) (pol : Word) (commit : Bool) : LedgerEntry :=
  if e.failCause ≠ 0 ∧ polFb pol ≠ 0 then { e with fbActive := true, fbLeft := BitVec.ofNat 6 (polStick pol) }
  else if commit ∧ e.fbActive then
    if e.fbLeft = 0 then { e with fbActive := false } else { e with fbLeft := e.fbLeft - 1 }
  else e

/-- The whole update of one entry from its AMAX and FAIL_CAUSE at the commit point. A clear that came before it (R206) stands. -/
def LedgerEntry.commitUpdate (e : LedgerEntry) (u : LgrUpdate) (tsHost : Bool) (tot : BitVec 32 × BitVec 3) : LedgerEntry :=
  let pol := u.policies.getD e.policy.toNat policyReset
  let f := { e with amax := tot.1, failCause := tot.2 }.update pol u.fb tsHost
  let f := if u.setFb then f.fallback pol u.commit else f
  { f with amax := e.amax, failCause := e.failCause }

/-- The update a commit point left to the stoker, carried out (R212, R213). -/
def Dev.applyUpdate (d : Dev) (p : PartId) : Dev :=
  match (d.part p).lgrUpdate with
  | none => d
  | some u =>
    let tsHost := (d.part p).mode.getLsbD 0
    let d := (u.entries.zip u.totals).foldl (fun d i => d.modLgr p i.1 fun e => e.commitUpdate u tsHost i.2) d
    d.modPart p fun x => { x with lgrUpdate := none }

/-- LEDGER_UPDATE_COMPLETE (R212). -/
def execLedgerUpdateComplete (t : Tick) (p : PartId) (s : State) : Host.Outcome State Fault Refusal :=
  onDev t s fun _ d => d.applyUpdate p

/-- The counters, AMAX and FAIL_CAUSE of an entry cleared (R206). -/
def LedgerEntry.clear (e : LedgerEntry) : LedgerEntry :=
  { e with zeroGroups := 0, flushed := 0, ashSat := 0, ashUsed := 0, clipped := 0, groups := 0, elements := 0,
           amax := 0, failCause := 0 }

/-- LEDGER_CLEAR_COMPLETE (R206): counting slots may launch from now on. -/
def execLedgerClearComplete (t : Tick) (p : PartId) (s : State) : Host.Outcome State Fault Refusal :=
  onDev t s fun _ d => d.modAtt p fun a => if a.launched then { a with clearDone := true } else a

/-- A saturating 40-bit sum, and whether it reached saturation (R218). -/
def satAdd (a : BitVec 40) (n : Nat) : BitVec 40 × Bool :=
  let v := a.toNat + n
  (BitVec.ofNat 40 (min v Config.counterMax), decide (Config.counterMax ≤ v) && decide (a.toNat < Config.counterMax))

/-- What one quantisation adds to an entry (R97, R99, R218), with the number of counters that reached saturation. -/
def LedgerEntry.count (e : LedgerEntry) (q : QStats) : LedgerEntry × Nat :=
  let el := satAdd e.elements q.elements
  let gr := satAdd e.groups q.groups
  let cl := satAdd e.clipped q.clipped
  let au := satAdd e.ashUsed q.ashUsed
  let as := satAdd e.ashSat q.ashSat
  let fl := satAdd e.flushed q.flushed
  let ze := satAdd e.zeroGroups q.zeroGroups
  ({ e with elements := el.1, groups := gr.1, clipped := cl.1, ashUsed := au.1, ashSat := as.1, flushed := fl.1,
            zeroGroups := ze.1, amax := umax e.amax q.amax },
   bit el.2 + bit gr.2 + bit cl.2 + bit au.2 + bit as.2 + bit fl.2 + bit ze.2)

/-- A quantisation counted in a partition's entry, saturations in its telemetry (Table 16.10). -/
def Dev.countInto (d : Dev) (p : PartId) (i : Nat) (q : QStats) : Dev :=
  let r := (d.lgr p i).count q
  (d.modLgr p i fun _ => r.1).bump p 2 r.2

/-! ## The exchange (R208) -/

/-- A member's record of an entry (Table 10.9). -/
def exRecOf (src pos entry : Nat) (e : LedgerEntry) : ExRec :=
  ⟨src, pos, entry, e.tid, [e.elements, e.groups, e.clipped, e.ashUsed, e.ashSat, e.flushed, e.zeroGroups], e.amax⟩

/-- Two members' records of one entry combined (R208), with the counters that saturate. -/
def combineEx (a b : ExRec) : ExRec × Nat :=
  let s := List.zipWith (fun (x y : BitVec 40) => satAdd x y.toNat) a.counts b.counts
  ({ a with counts := s.map (·.1), amax := umax a.amax b.amax }, (s.filter (·.2)).length)

/-- An entry with the combined counts (R208) and its FAIL_CAUSE (R210). -/
def LedgerEntry.totals (e : LedgerEntry) (pol : Word) (r : ExRec) : LedgerEntry :=
  let c (i : Nat) : BitVec 40 := r.counts.getD i 0
  let e := { e with elements := c 0, groups := c 1, clipped := c 2, ashUsed := c 3, ashSat := c 4, flushed := c 5,
                    zeroGroups := c 6, amax := r.amax }
  { e with failCause := failCauseOf pol e }

/-- The exchange finished once every member's record of every listed entry is there: the totals and the calibration
failures of every touched entry (R208, R210). -/
def Dev.tryExchange (d : Dev) (p : PartId) : Dev :=
  let x := d.part p
  let list := x.touched
  let ids := d.memberIds p
  let have_ := ids.all fun m => (List.range list.length).all fun i => x.att.exchange.any fun r => r.src == m && r.pos == i
  if x.att.exchangeDone ∨ !have_ then d
  else
    let d := ((List.range list.length).zip list).foldl (fun d ie =>
      let rs := x.att.exchange.filter fun r => r.pos == ie.1 && ids.contains r.src
      match rs with
      | [] => d
      | r :: more =>
        let tot := more.foldl (fun (acc : ExRec × Nat) y => let c := combineEx acc.1 y; (c.1, acc.2 + c.2)) (r, 0)
        (d.modLgr p ie.2 fun e => e.totals (x.latched e) tot.1).bump p 2 tot.2) d
    d.modAtt p fun a => { a with exchangeDone := true }

/-- The lines of an exchange packet: 8 records each, zero beyond the last. -/
def exLines (rs : List ExRec) : List Byte :=
  let b := rs.flatMap ExRec.bytes
  b ++ List.replicate (roundUp b.length 512 - b.length) 0

/-- Own records sent, 1,024 to a packet, the last one marked (R265, R285). -/
def Dev.sendExchange (d : Dev) (p : PartId) : Nat → List ExRec → Dev
  | 0, _ => d
  | n + 1, rs =>
    match rs with
    | [] => d
    | r :: _ =>
      (d.sendJob p { type := tyLedger, group := 0, aux := r.pos, flags := (if rs.length ≤ 1024 then 1 else 0),
                     payload := exLines (rs.take 1024) }).sendExchange p n (rs.drop 1024)

/-- A DIGEST payload line (Table 11.7). -/
def digestLine (g : DigestRec) (step : BitVec 32) : List Byte :=
  padLine (bytesLE 16 g.digest.toNat ++ List.replicate 8 0 ++ bytesLE 4 g.id ++ bytesLE 4 step.toNat ++ bytesLE 8 g.lines)

/-- Whether digests are exchanged in the current step (R320). -/
def Part.digestsDue (x : Part) : Bool := x.chk.digEnable && x.sch.step.toNat % (x.chk.digInterval.toNat + 1) == 0

/-- LEDGER_POINT (R207, R208, R320): the member sends its own records and, when due, its digests. A suppressed attempt
sends nothing. -/
def execLedgerPoint (t : Tick) (p : PartId) (s : State) : Host.Outcome State Fault Refusal :=
  onDev t s fun n d =>
    let x := d.part p
    match x.ldr.image, x.segment with
    | some img, some g =>
      if x.sch.state = .running ∧ x.att.live ∧ !segIsLast g ∧ !x.att.pointSent ∧ x.att.doom.isNone
          ∧ x.beatTick (x.att.ledgerOff img g) = some n then
        let own := ((List.range x.touched.length).zip x.touched).map fun ie => exRecOf x.self ie.1 ie.2 (d.lgr p ie.2)
        let d := d.sendExchange p (own.length + 1) own
        let d := if x.digestsDue then
            x.chk.own.foldl (fun d g =>
              match d.grp p x.chk.digGroup.toNat with
              | none => d
              | some e => (d.listOf p e).foldl (fun d m =>
                  if mIndex m = x.self then d
                  else d.sendTo p 0 false { type := tyDigest, group := x.chk.digGroup.toNat,
                                            payload := digestLine g (x.sch.step.setWidth 32) } m) d) d
          else d
        (d.modAtt p fun a => { a with pointSent := true, exchange := a.exchange ++ own }).tryExchange p
      else d
    | _, _ => d

/-- Whether a place of an exchange line holds no record: zeros fill a line beyond the last (R285). -/
def ExRec.blank (r : ExRec) : Bool := r.entry == 0 && r.tid == 0 && r.amax == 0 && r.counts.all (· == 0)

/-- LEDGER: exchange records of another member (R208). A record that differs from the receiver's list, or lies past its end, is
STREAM_SKEW; a record stamped at or after the commit point is missing (Table 9.1). -/
def execLedger (t : Tick) (p : PartId) (k : Packet) (s : State) : Host.Outcome State Fault Refusal :=
  onDev t s fun n d =>
    let r := d.recvChecks n p k
    if !r.2 then r.1
    else
      let d := r.1
      let x := d.part p
      let list := x.touched
      let pos := k.hdr.aux.toNat % 2 ^ 31
      let recs := ((List.range (8 * k.hdr.nLines.toNat)).map (readExRec (k.hdr.src.toNat % 8192) pos k.payload)).filter fun e =>
        decide (e.pos < list.length) || !e.blank
      match recs.find? fun e => decide (list.length ≤ e.pos) || e.entry != list.getD e.pos 0 || e.tid != (d.lgr p (list.getD e.pos 0)).tid with
      | some e =>
        d.report n { code := 0x06, severity := .stepReplay, unit := x.port0, part := some p,
                     synd := 0x12 + list.getD e.pos 0 * 2 ^ 32 + e.entry * 2 ^ 64 }
      | none =>
        if !x.inAttempt n then d
        else
          let fresh := recs.filter fun e => !x.att.exchange.any fun y => y.src == e.src && y.pos == e.pos
          let d := d.modAtt p fun a => { a with exchange := a.exchange ++ fresh }
          if x.att.pointSent then d.tryExchange p else d

/-! ## Errors and repair -/

/-- Whether an uncorrectable entry leaves the partition to the runtime (R220). -/
def Dev.repairByHold (d : Dev) (p : PartId) : Bool := (d.part p).mode.getLsbD 9 || (d.peers p).isEmpty

/-- The first entry that an uncorrectable error has left invalid in the step and that nothing has repaired yet, with the syndrome of its
record (R220). -/
def Dev.unrepaired (d : Dev) (p : PartId) : Option (Nat × Nat) :=
  let x := d.part p
  x.att.eccEntries.find? fun e => tabGet false d.ledgerBad (x.cfg.lgrBase + e.1)

/-- The other member with the lowest job member index (R220). -/
def Dev.lowestPeer (d : Dev) (p : PartId) : Option (BitVec 128) :=
  (d.peers p).foldl (fun m x => match m with
    | some y => if mIndex x < mIndex y then some x else m
    | none => some x) none

/-- An uncorrectable word of an entry of a partition (R220): the entry is invalid; a second error in the same entry
within the step is partition-fatal; otherwise the repair begins. -/
def Dev.eccBad (d : Dev) (t : Nat) (p : PartId) (i word : Nat) : Dev :=
  let x := d.part p
  let d := { d with ledgerBad := tabSet false d.ledgerBad (x.cfg.lgrBase + i) true }
  let r : Report := { code := 0x09, severity := if x.att.eccEntries.any (·.1 == i) then .partFatal else .stepReplay,
                      unit := sharedUnit 0, part := some p, synd := i + word * 2 ^ 16 + 0xFF * 2 ^ 24 }
  let d := d.modAtt p fun a => { a with eccEntries := a.eccEntries ++ [(i, r.synd)] }
  let d := (d.modLgr p i fun e => { e with valid := false }).report t r
  if d.repairByHold p then d
  else match d.lowestPeer p with
    | some m => d.sendTo p 0 true { type := tyLedger, group := x.flu.jobGroup.toNat, aux := 2 ^ 31 + i } m
    | none => d

/-- The partition whose range holds a global entry, with its local index. -/
def Dev.lgrOwner (d : Dev) (n : Nat) : Option (PartId × Nat) :=
  (allParts.find? fun p => let c := (d.part p).cfg
    c.state != .free && decide (c.lgrBase ≤ n) && decide (n < c.lgrBase + c.lgrCount)).map fun p => (p, n - (d.part p).cfg.lgrBase)

/-- LEDGER_SWEEP (R219 to R221): single-bit errors are corrected, others start a repair. -/
def execLedgerSweep (t : Tick) (l : List EccFinding) (s : State) : Host.Outcome State Fault Refusal :=
  onDev t s fun n d =>
    let d := l.foldl (fun d f =>
      match d.lgrOwner f.entry with
      | some (p, i) =>
        if f.bad then d.eccBad n p i f.word
        else d.report n { code := 0x09, severity := .correctable, unit := sharedUnit 0, part := some p,
                          synd := i + f.word * 2 ^ 16 + f.bit * 2 ^ 24 }
      | none =>
        let d := if f.bad then
            { d with ledgerBad := tabSet false d.ledgerBad f.entry true,
                     ledger := tabMod LedgerEntry.reset d.ledger f.entry fun e => { e with valid := false } }
          else d
        d.report n { code := 0x09, severity := if f.bad then .stepReplay else .correctable, unit := sharedUnit 0,
                     part := none, synd := f.entry + f.word * 2 ^ 16 + (if f.bad then 0xFF else f.bit) * 2 ^ 24 }) d
    { d with stk := { d.stk with lastSweep := n / Config.startupEpochTicks } }

/-- LEDGER_REPAIR_REQUEST (R285): answered, for an entry of the member's list whose words are correct. -/
def execLedgerRepairRequest (t : Tick) (p : PartId) (k : Packet) (s : State) : Host.Outcome State Fault Refusal :=
  onDev t s fun n d =>
    let r := d.recvChecks n p k
    if !r.2 then r.1
    else
      let d := r.1
      let x := d.part p
      let i := k.hdr.aux.toNat % 2 ^ 15
      if x.touched.contains i ∧ !tabGet false d.ledgerBad (x.cfg.lgrBase + i) then
        match (d.peers p).find? fun m => mIndex m == k.hdr.src.toNat % 8192 with
        | some m => d.sendTo p 0 true { type := tyLedger, group := k.hdr.group.toNat % 1024, aux := k.hdr.aux.toNat,
                                        step := some k.hdr.step, attempt := some k.hdr.attempt.toNat,
                                        payload := padLine (bytesLE 64 (d.lgr p i).toBits) } m
        | none => d
      else d

/-- LEDGER_REPAIR_ANSWER (R220): every field but the counters and AMAX is written. -/
def execLedgerRepairAnswer (t : Tick) (p : PartId) (k : Packet) (s : State) : Host.Outcome State Fault Refusal :=
  onDev t s fun n d =>
    let r := d.recvChecks n p k
    if !r.2 then r.1
    else
      let d := r.1
      let x := d.part p
      let i := k.hdr.aux.toNat % 2 ^ 15
      if i < x.cfg.lgrCount ∧ tabGet false d.ledgerBad (x.cfg.lgrBase + i) then
        let n := LedgerEntry.ofBits (fieldLE k.payload 0 64)
        let d := { d with ledgerBad := tabSet false d.ledgerBad (x.cfg.lgrBase + i) false }
        d.modLgr p i fun e =>
          { n with elements := e.elements, groups := e.groups, clipped := e.clipped, ashUsed := e.ashUsed,
                   ashSat := e.ashSat, flushed := e.flushed, zeroGroups := e.zeroGroups, amax := e.amax }
      else d

end Sys2Proof.Machine
end

