-- ==== Sys2Proof/Machine/Hold.lean ====
section
/-! DEFINITION. Holds and their release (R249, R306, R307), and the job's final decision (R240, R241). -/

namespace Sys2Proof.Machine

/-- An AGREE word to every other member (R245, R286). -/
def Dev.sendAgree (d : Dev) (p : PartId) (word : Nat) (line : List Byte) : Dev :=
  d.sendJob p { type := tyAgree, group := 0, aux := word, payload := line }

/-- Stream states with a commit decision of the member (R179, R180): the counters advanced by the step's spans and copied to the committed
ones, once in the attempt. -/
def Part.streamsForward (x : Part) : Part :=
  match x.ldr.image, x.att.rewind with
  | some img, none => { x with rng := advanceStreams img x.sch.seg.toNat x.rng, att := { x.att with rewind := some x.rng.streams } }
  | _, _ => x

/-- Stream states with the job's replay (R180): a commit of the member's own is undone, and every current counter is the committed one. -/
def Part.streamsBack (x : Part) : Part :=
  { x with rng := { x.rng with streams := (x.att.rewind.getD x.rng.streams).map fun s => { s with cur := s.cmt } },
           att := { x.att with rewind := none } }

/-- Own decision set; a commit takes the stream states forward (R180). -/
def Dev.decided (d : Dev) (p : PartId) (c : Decision) : Dev :=
  d.modPart p fun x =>
    let x := if c = .commit then x.streamsForward else x
    { x with att := { x.att with decision := some c } }

/-- What a commit decision starts in the contexts (R365, R371): a hardware save when one is due or the turn ends; the
switch at the end of a turn follows the save, or the seal in host-assisted mode. -/
def Dev.commitContexts (d : Dev) (p : PartId) : Dev :=
  let x := d.part p
  let ends := x.turnEnds
  let d := if !x.mode.getLsbD 8 && (x.saveDue || ends) then
      let y := (d.applyUpdate p).saveStart p
      -- the entries themselves are the stoker's to update (R212): only the image takes them as they will be
      { y with ledger := d.ledger }.modPart p fun z => { z with lgrUpdate := x.lgrUpdate }
    else d
  d.modCtx p fun c => { c with turn := c.turn + 1, switching := ends }

/-- The job's decision becomes final (R240): counted, and the stream counters with it (R180). -/
def Dev.finalise (d : Dev) (p : PartId) (replay : Bool) : Dev :=
  let d := (d.decided p (if replay then .replay else .commit)).modPart p fun x =>
    let x := if replay then x.streamsBack else x
    { x with att := { x.att with final := true } }
  let d := d.bump p (if replay then 14 else 15) 1
  if replay then d else d.commitContexts p

/-- The end of a program (R241, R371): its context leaves the rotation. Where others are left in it the next one is entered, anchored at beat 0
of the third epoch after this one, and CONTEXT_SAVE_COMPLETE enters it with no save, since nothing has been committed (DESIGN CHOICE, log entry
28: R371 gives the switch at a commit decision only); otherwise the partition is DONE. -/
def Dev.programOver (d : Dev) (p : PartId) : Dev :=
  let x := d.part p
  let c := x.ctx
  let rest := c.reg &&& ~~~(1#8 <<< c.active)
  let d := (d.modAtt p fun a => { a with live := false }).modCtx p fun c => { c with reg := rest }
  let d := if c.reg.getLsbD c.active ∧ rest ≠ 0 then
      (d.modSch p fun h => { h with nextAnchor := some (h.epoch.toNat + 3), outcomeReplay := false }).modCtx p fun c => { c with switching := true }
    else d.modSch p fun h => { h with state := .done, nextAnchor := none }
  d.idleFlue p

/-- The members whose RESUME releases a hold: the job group in force, or under ACTION 0b11 the group as it will stand at
the resumed anchor (R249, R322). -/
def Dev.awaited (d : Dev) (p : PartId) (ep : Nat) : List Nat :=
  let x := d.part p
  let g := d.group p x.flu.jobGroup.toNat
  if x.chk.regroup ∧ g.pending ∧ gEffective g.written ≤ ep ∧ d.grpValid p g.written then (d.listOf p g.written).map mIndex
  else d.memberIds p

/-- The next attempt is anchored once RESUME has arrived from every member, at beat 0 of the latest e_p; the outcome is
replay if any RESUME carries replay (R249). -/
def Dev.tryRelease (d : Dev) (p : PartId) : Dev :=
  let x := d.part p
  let rs := x.agree.resumes
  let own := (rs.find? fun r => r.1 == x.self).map fun r => r.2.1
  match own with
  | none => d
  | some ep =>
    let need := d.awaited p ep
    if x.sch.state = .held ∧ x.sch.nextAnchor.isNone ∧ need.all (fun m => rs.any fun r => r.1 == m) then
      let rs := rs.filter fun r => need.contains r.1
      let replay := rs.any fun r => r.2.2
      let d := if x.sch.first ∨ x.att.final then d else d.finalise p replay
      let e := rs.foldl (fun n r => max n r.2.1) 0
      let e := if (d.part p).ctx.switching then max e (x.sch.epoch.toNat + 3) else e
      d.modSch p fun h => { h with nextAnchor := some e, outcomeReplay := replay }
    else d

/-- RESUME sent with e_p two epochs after the present one and the member's outcome (R249). -/
def Dev.sendResume (d : Dev) (p : PartId) : Dev :=
  let x := d.part p
  let ep := x.sch.epoch.toNat + 2
  let replay := x.att.decision == some .replay || x.att.noticeReplay
  let rs := (x.agree.resumes.filter fun r => r.1 != x.self) ++ [(x.self, ep, replay)]
  let d := d.modPart p fun x => { x with agree := { x.agree with ownResume := true, resumes := rs } }
  (d.sendAgree p 3 (resumeLine ep replay)).tryRelease p

/-- When a held member has no hold cause of its own any more, it sends RESUME (R249). -/
def Dev.resumeIfClear (d : Dev) (p : PartId) : Dev :=
  let x := d.part p
  if x.sch.state = .held ∧ x.sch.holds.all (· == .peer) ∧ !x.agree.ownResume ∧ x.att.decision.isSome then d.sendResume p
  else d

/-- Hold causes that a test names are cleared (R249). -/
def Dev.clearHolds (d : Dev) (p : PartId) (f : HoldCause → Bool) : Dev :=
  (d.modSch p fun h => { h with holds := h.holds.filter fun c => !f c }).resumeIfClear p

/-- CHK_HOLD shows a hold (Table 11.3). -/
def Dev.chkShow (d : Dev) (p : PartId) (code : Byte) (pending limit : Bool) : Dev :=
  d.modPart p fun x => { x with chk := { x.chk with cause := code, pending := x.chk.pending || pending,
                                                    replayLim := x.chk.replayLim || limit } }

/-- Listed tiles that an arbitration attempt re-runs: in hardware mode those that earlier attempts listed, in host-assisted mode the
one whose record is named (R309, R310, R313). -/
def Dev.arbItems (d : Dev) (p : PartId) : List ArbItem :=
  let x := d.part p
  x.chk.list.filter fun i => if x.mode.getLsbD 2 then d.rpt.seqOf i.seq == x.chk.arbSeq else i.att != x.att.number

/-- Report code and syndrome of a doomed attempt's cause (R306). -/
def Part.causeCode (x : Part) : Byte × BitVec 128 :=
  match x.att.doom with
  | some m => (m.code, if m.own then m.syndrome else 0)
  | none => (0x02, 0)

/-- Syndrome of a CALIBRATION_FALLBACK record of an entry (R211). -/
def Dev.calSynd (d : Dev) (p : PartId) (i : Nat) : Nat := i + (d.lgr p i).failCause.toNat * 2 ^ 16

/-- The syndrome of R307's record for a hold cause, as Table 11.11 lays it out for the code: what the record of the cause itself
held, or the cause field that R249 names. -/
def Dev.holdSynd (d : Dev) (p : PartId) (c : HoldCause) : Nat :=
  let x := d.part p
  let own : Nat := if x.causeCode.1 = c.code then x.causeCode.2.toNat else 0
  match c with
  | .fallback => ((x.touched.find? fun i => (d.lgr p i).failCause != 0).map (d.calSynd p)).getD 0
  | .arbitration => (((x.chk.list.find? fun i => !i.done).or x.chk.list[0]?).map fun i => mismatchSynd i.d1 i.c1).getD 0
  | .triage k => if k = 0x09 && x.causeCode.1 != 0x09 then ((d.unrepaired p).map (·.2)).getD 0 else ((x.att.causes.lookup k).map (·.toNat)).getD own
  | .replayLimit _ | .digest => own
  | .stoker => d.stk.synd
  | .firmware | .peer => 3
  | .seal => 7
  | .throttle => d.dmp.throttleAt

/-- HOLD_LIMIT_EXPIRY (R307): a hold that outlasts CHK_HOLD.HOLD_EP epochs is escalated as partition-fatal under the code
of its first cause in the order of R249. -/
def execHoldLimitExpiry (t : Tick) (p : PartId) (s : State) : Host.Outcome State Fault Refusal :=
  onDev t s fun n d =>
    let x := d.part p
    if x.sch.state = .held ∧ x.sch.heldSince + x.chk.holdEp < x.sch.epoch.toNat then
      match firstCause (if x.sch.holds.isEmpty then [.peer] else x.sch.holds) with
      | some c => d.report n { code := c.code, severity := .partFatal, unit := sharedUnit 1, part := some p, synd := d.holdSynd p c }
      | none => d
    else d

/-- A release of a CHK_HOLD (R308, R322): PENDING clears, the outcome is replay, and a release at the replay limit
grants three further replays. A hold for arbitration is CHK_HOLD's only in host-assisted mode; in hardware mode the re-run's end releases it
(R312). An attempt number that would pass 255 is partition-fatal. -/
def Dev.chkRelease (d : Dev) (n : Nat) (p : PartId) (regroup : Bool) : Dev :=
  let x := d.part p
  if !x.chk.pending then d
  else if 255 ≤ x.att.number then
    d.report n { code := x.chk.cause, severity := .partFatal, unit := sharedUnit 1, part := some p, synd := x.causeCode.2.toNat }
  else
    let lim : Bool := x.chk.replayLim
    let d := d.modPart p fun x =>
      { x with chk := { x.chk with pending := false, replayLim := false, cause := 0, regroup := regroup },
               att := { x.att with decision := some .replay, limit := if lim then x.att.limit + 3 else x.att.limit } }
    d.clearHolds p fun c => c.viaChk || (c == .arbitration && (d.part p).mode.getLsbD 2)

/-- CHK_HOLD_REPLAY: ACTION 0b01 (R308). -/
def execChkHoldReplay (t : Tick) (v : Requester) (s : State) : Host.Outcome State Fault Refusal :=
  onDev t s fun n d => serve v 0 d fun d =>
    let p := d.reqPart v
    (d.chkRelease n p false).respond 0 0

/-- CHK_HOLD_REGROUP: ACTION 0b11 (R322). -/
def execChkHoldRegroup (t : Tick) (v : Requester) (s : State) : Host.Outcome State Fault Refusal :=
  onDev t s fun n d => serve v 0 d fun d =>
    let p := d.reqPart v
    (d.chkRelease n p true).respond 0 0

end Sys2Proof.Machine
end

