-- ==== Sys2Proof/Machine/Mem.lean ====
section
/-! DEFINITION. Memory requests (R393 to R396): identifiers, order of writes to a line, acknowledgements. -/

namespace Sys2Proof.Machine

/-- Identifiers in use by writes at a port. -/
def Dev.writeIds (d : Dev) (port : PortId) : List (Fin 1024) :=
  d.memWrites.filterMap fun w => if w.port = port then w.id else none

/-- The lowest free write identifier of a port (log entry 16). -/
def Dev.freeWriteId (d : Dev) (port : PortId) : Option (Fin 1024) :=
  let used := d.writeIds port
  ((List.range 1024).map (Fin.ofNat 1024)).find? fun i => !used.contains i

/-- Whether a write to the line is outstanding at the port (R394). -/
def Dev.lineBusy (d : Dev) (port : PortId) (line : Nat) : Bool :=
  d.memWrites.any fun w => w.port == port && w.id.isSome && w.addr / 512 == line

/-- A write issued at a port, or left waiting (R393, R394). -/
def Dev.issueWrite (d : Dev) (w : MemWrite) : Dev :=
  let id := if d.lineBusy w.port (w.addr / 512) then none else d.freeWriteId w.port
  { d with memWrites := d.memWrites ++ [{ w with id := id }] }

/-- The first waiting write of a port that may go now, issued. -/
def Dev.promote (d : Dev) (port : PortId) : Dev :=
  match d.memWrites.find? fun w => w.port == port && w.id.isNone && !d.lineBusy port (w.addr / 512) with
  | none => d
  | some w =>
    match d.freeWriteId port with
    | none => d
    | some i => { d with memWrites := d.memWrites.map fun y => if y = w then { y with id := some i } else y }

/-- Global memory port of a partition-local slice's port 0 or 1 (R21). -/
def Part.memPort (x : Part) (slice port : Nat) : PortId := Fin.ofNat 32 (2 * x.slice slice + port)

/-! ## The loader's reads (R422) -/

/-- Lines of an image of LDR_LEN bytes. -/
def Ldr.lineCount (l : Ldr) : Nat := ceilDiv l.len.toNat 512
/-- Whether every line of the image has come. -/
def Ldr.wholeRead (l : Ldr) : Bool := (List.range l.lineCount).all fun i => (l.lines.lookup i).isSome
/-- The bytes that the reads have brought. -/
def Ldr.bytes (l : Ldr) : List Byte :=
  ((List.range l.lineCount).flatMap fun i => padLine ((l.lines.lookup i).getD [])).take l.len.toNat
/-- An image whose bytes are those read from memory. -/
def Ldr.loaded (l : Ldr) (img : Image) : Image := { img with raw := l.bytes }

/-- The lowest identifier of a port that no read uses. -/
def Dev.freeReadId (d : Dev) (port : PortId) : Option (Fin 1024) :=
  ((List.range 1024).map (Fin.ofNat 1024)).find? fun i => !d.memReads.any fun r => r.port == port && r.id == i

/-- The loader issues the read of its next line, even lines through port 0 of the partition's lowest slice and odd ones through port 1
(R422, log entry 16), when it is loading and the port has an identifier free and no write to the line outstanding. -/
def Dev.loaderAsks (d : Dev) (p : PartId) : Dev :=
  let x := d.part p
  let i := x.ldr.asked
  let pt := x.memPort 0 (i % 2)
  let addr := x.ldr.addr.toNat + 512 * i
  match d.freeReadId pt with
  | some id =>
    if x.sch.state = .loading ∧ i < x.ldr.lineCount ∧ d.lineBusy pt (addr / 512) = false then
      let read : MemRead := ⟨pt, id, p, 0, Config.noKey, 0, .code, i, addr, false, true⟩
      Dev.modPart { d with memReads := d.memReads ++ [read] } p fun x => { x with ldr := { x.ldr with asked := i + 1 } }
    else d
  | none => d

/-- The loader issues the reads that its ports have identifiers for. -/
def Dev.loaderReads (d : Dev) (p : PartId) : Dev :=
  (List.range (min 2048 ((d.part p).ldr.lineCount - (d.part p).ldr.asked))).foldl (fun d _ => d.loaderAsks p) d

/-- A line, or an error, that answers the loader. -/
def Dev.loaderTakes (d : Dev) (p : PartId) (i : Nat) (data : List Byte) (bad : Bool) : Dev :=
  (d.modPart p fun x => { x with ldr := { x.ldr with lines := tabPut x.ldr.lines i (padLine data), readErr := x.ldr.readErr || bad } }).loaderReads p

/-- Word mask of a span of bytes within a line: the words it touches (R393). -/
def wordMask (off n : Nat) : BitVec 64 :=
  BitVec.ofNat 64 ((List.range 64).foldl (fun m w => if 8 * w < off + n ∧ off < 8 * w + 8 then m + 2 ^ w else m) 0)

/-- A memory error in a slot (R395): its units stop at once, so that what they have not yet issued is not issued. -/
def Dev.slotStops (d : Dev) (p : PartId) (slot : Nat) (port : PortId) : Dev :=
  { d with memWrites := d.memWrites.filter fun (w : MemWrite) => !(w.part == p && w.slot == slot && w.id.isNone) }.modAtt p fun a =>
    a.modRun slot fun r => { r with memErr := true, cause := 1, causePort := port.val }

/-- MEM_WRITE_ACK (R393, R395): the write is acknowledged; an error leaves its slot incomplete, its units stopping at
once, unless the slot was aborted or its partition reset. A loader that waited for the write's line reads it now. -/
def execMemWriteAck (t : Tick) (port : PortId) (id : Fin 1024) (err : Fin 4) (s : State) : Host.Outcome State Fault Refusal :=
  onDev t s fun _ d =>
    match d.memWrites.find? fun w => w.port == port && w.id == some id with
    | none => d
    | some w =>
      let d := { d with memWrites := d.memWrites.filter fun y => !(y.port == port && y.id == some id) }
      let d := if err.val ≠ 0 ∧ !w.dropped ∧ w.slot ≠ Config.noKey then
          d.slotStops w.part w.slot port
        else d
      (d.promote port).loaderReads w.part

end Sys2Proof.Machine
end

