-- ==== Sys2Proof/Machine/Stages.lean ====
section
/-! DEFINITION. The stages of a chain on values: intermediate formats (R123 to R126), prologue and epilogue stages (R127
to R135), normalisation (R133), taps (R139), and the final rounding (R110, R123). -/

namespace Sys2Proof.Machine

/-! ## Intermediate formats -/

/-- The wide format an IF code stands for; the exact code has none of its own and takes F32 (Table 5.3). -/
def ifWide : IFmt → WideFmt
  | .f32 | .exact => .f32
  | .bf16 => .bf16
  | .f16 => .f16

/-- The IF of a row-unit stage that changes values (Table 5.1); quantise-out is dealt with at the egress station. -/
def valueIf : Stage → Option IFmt
  | .rotate _ f | .scale _ f | .bias _ _ f | .residual _ _ f | .activation _ _ f | .norm _ _ _ _ _ f | .clamp _ _ f
  | .dropout _ _ _ _ f => some f
  | _ => none

/-- Value of a chain value rounded into a wide format, as an F32. A product's value, exact or the sum of its PF32 parts, is rounded once,
under PRODUCT_RND (R115, R123). -/
def Env.enter (e : Env) (c : Chain) (out : Output) (bind : Nat) (w : WideFmt) (row col : Nat) (v : Val) : BitVec 32 :=
  match v with
  | .f32 b => throughWide w b
  | v =>
    let r := e.draw bind 14 ⟨c.prodSrc.stream, false⟩ 0 c.prodTid (outIndex c out row col) v.data
    toF32 (decodeF (specOf w) (encodeF (specOf w) c.prodRnd r v.real))

/-- Whether entering a format overflows (R110, R125). -/
def entersOver (w : WideFmt) (v : Val) : Bool := overflows (specOf w) v.real

/-! ## Activations (R131, R132) -/

/-- Coefficient k of segment j of a record. -/
def actCoef (rec_ : List Byte) (j k : Nat) : BitVec 32 := BitVec.ofNat 32 (fieldLE rec_ (32 + 16 * j + 4 * k) 4)

/-- A tail rule of an activation record. -/
def actTail (rule : Nat) (c x : BitVec 32) : BitVec 32 :=
  if rule = 0 then 0 else if rule = 1 then c else if rule = 2 then x else fMul c x

/-- 2^n as an F32, for n in the normal range. -/
def pow32 (n : Int) : BitVec 32 := toF32 (.fin (pow2 n))

/-- The polynomial of segment j at u. -/
def actPoly (rec_ : List Byte) (j : Nat) (u : BitVec 32) : BitVec 32 :=
  fFma (fFma (fFma (actCoef rec_ j 3) u (actCoef rec_ j 2)) u (actCoef rec_ j 1)) u (actCoef rec_ j 0)

/-- Segment and place of z in a domain [lo, lo + 2^w): the procedure of R132. -/
def actAt (rec_ : List Byte) (lo : BitVec 32) (w : Int) (z : BitVec 32) : BitVec 32 :=
  let t := fSub z lo
  match f32Val t with
  | .fin q =>
    let j := min 255 (q / pow2 (w - 8)).floor.toNat
    actPoly rec_ j (fSub t (fMul (f32OfNat j) (pow32 (w - 8))))
  | _ => nan32

/-- TABLE activation of a record (R132). -/
def actTable (rec_ : List Byte) (x : BitVec 32) : BitVec 32 :=
  let mode := fieldLE rec_ 3 1
  let lo := BitVec.ofNat 32 (fieldLE rec_ 8 4)
  let w := signed 8 (fieldLE rec_ 7 1)
  let mulx (p : BitVec 32) : BitVec 32 := if fieldLE rec_ 6 1 = 1 then fMul p x else p
  if isNan x then nan32
  else if mode = 1 then
    let y := fMul x (BitVec.ofNat 32 (fieldLE rec_ 20 4))
    match f32Val y with
    | .nan => nan32
    | .inf neg => if neg then 0 else posInf
    | .fin q =>
      if 128 ≤ q then posInf
      else if q < -151 then 0
      else
        let n := q.floor
        let p := actAt rec_ 0 0 (toF32 (.fin (q - (n : Rat))))
        mulx (toF32 (vMul (f32Val p) (.fin (pow2 n))))
  else if fLt x lo then mulx (actTail (fieldLE rec_ 4 1) (BitVec.ofNat 32 (fieldLE rec_ 12 4)) x)
  else
    let hi := fAdd lo (pow32 w)
    if fLt x hi ∨ isNan hi then mulx (actAt rec_ lo w x)
    else mulx (actTail (fieldLE rec_ 5 1) (BitVec.ofNat 32 (fieldLE rec_ 16 4)) x)

/-- Record of an activation handle. -/
def actRec (img : Image) (h : Nat) : List Byte := ((img.actTables.find? fun r => r.key == h).map (·.bytes)).getD []

/-- An activation without its gate (R131). -/
def actValue (img : Image) (k : ActKind) (x : BitVec 32) : BitVec 32 :=
  if isNan x then nan32
  else
    match k with
    | .relu => if fLt 0 x then x else 0
    | .relu2 => if fLt 0 x then fMul x x else 0
    | .leaky s => if fLt x 0 then fMul s x else x
    | .table h => actTable (actRec img h) x

/-! ## One element through one stage -/

/-- Number under which a station fetches region j of stage i of a chain (log entry 21). -/
def auxOpnd (i j : Nat) : Nat := 16 + 4 * i + j

/-- The spans a stage reads for output element (row, col). -/
def stageSpans (i : Nat) (s : Stage) (row col : Nat) : List Span :=
  let gain (v : Option VecRef) (j : Nat) : List Span := match v with | some v => [vecSpan v (auxOpnd i j) col] | none => []
  match s with
  | .bias v byRow _ => [vecSpan v (auxOpnd i 0) (if byRow then row else col)]
  | .residual w _ _ => [wideElemSpan w (auxOpnd i 0) row col]
  | .activation _ (some w) _ => [wideElemSpan w (auxOpnd i 0) row col]
  | .scale (.vector v byRow) _ => [vecSpan v (auxOpnd i 0) (if byRow then row else col)]
  | .norm _ _ _ g o _ => gain g 0 ++ gain o 1
  | _ => []

/-- One element through one row-unit stage other than normalisation, from its IF value (R129 to R135). -/
def Env.stage (e : Env) (c : Chain) (out : Output) (bind i : Nat) (s : Stage) (row col : Nat) (x : BitVec 32) :
    Option (BitVec 32) :=
  match s with
  | .bias v byRow _ => (e.bytes (vecSpan v (auxOpnd i 0) (if byRow then row else col))).map fun b => fAdd x (wideElem v.fmt b)
  | .residual w alpha _ =>
    (e.bytes (wideElemSpan w (auxOpnd i 0) row col)).map fun b => fFma alpha (wideElem (wideFmtOf w) b) x
  | .activation k gate _ =>
    let y := actValue e.img k x
    (match gate with
    | none => some y
    | some w => (e.bytes (wideElemSpan w (auxOpnd i 0) row col)).map fun b => fMul y (wideElem (wideFmtOf w) b))
  | .clamp lo hi _ => some (if isNan x then nan32 else if fLt x lo then lo else if fLt hi x then hi else x)
  | .dropout keep mask src factor _ =>
    let r := e.draw bind (16 + i) src 0 mask (outIndex c out row col) 0
    some (if topBits r 16 < keep then fMul x factor else 0)
  | _ => some x

/-- The chain's stages with their numbers. -/
def numberedStages (c : Chain) : List (Nat × Stage) := (List.range c.stages.length).zip c.stages

/-- Whether a stage is a row-unit stage of an epilogue (Table 5.1). -/
def isRowStage : Stage → Bool
  | .bias .. | .residual .. | .activation .. | .norm .. | .clamp .. | .dropout .. | .statistics .. => true
  | _ => false

/-- Whether a stage is a normalisation. -/
def isNorm : Stage → Bool | .norm .. => true | _ => false

/-- The row-unit stages before the normalisation, or all of them. -/
def preStages (c : Chain) : List (Nat × Stage) := ((numberedStages c).filter fun x => isRowStage x.2).takeWhile fun x => !isNorm x.2

/-- The normalisation of a chain. -/
def normStage (c : Chain) : Option (Nat × Stage) := (numberedStages c).find? fun x => isNorm x.2

/-- The row-unit stages after the normalisation. -/
def postStages (c : Chain) : List (Nat × Stage) :=
  (((numberedStages c).filter fun x => isRowStage x.2).dropWhile fun x => !isNorm x.2).drop 1

/-! ## Normalisation (R133) -/

/-- One level of the pairwise sum of a block. -/
def pairSum : List (BitVec 32) → List (BitVec 32)
  | a :: b :: l => fAdd a b :: pairSum l
  | l => l

/-- The sum of a block of at most 64 values over six levels. -/
def blockSum (l : List (BitVec 32)) : BitVec 32 := (pairSum (pairSum (pairSum (pairSum (pairSum (pairSum l)))))).headD 0

/-- The block sums of a row. -/
def blockSums : Nat → List (BitVec 32) → List (BitVec 32)
  | 0, _ => []
  | n + 1, l => if l.isEmpty then [] else blockSum (l.take 64) :: blockSums n (l.drop 64)

/-- fsum: the fixed-order sum of R133. -/
def fsum (l : List (BitVec 32)) : BitVec 32 :=
  match blockSums (l.length / 64 + 1) l with
  | [] => 0
  | b :: bs => bs.foldl fAdd b

/-- Normalisation of a row before gain and offset (R133). -/
def normRow (layer : Bool) (eps : BitVec 32) (h : List (BitVec 32)) : List (BitVec 32) :=
  let n := f32OfNat h.length
  let mu := fDiv (fsum h) n
  let d := if layer then h.map fun x => fSub x mu else h
  let v := fDiv (fsum (d.map fun x => fMul x x)) n
  let r := fRsqrt (fAdd v eps)
  d.map fun x => fMul x r

/-- Gain and offset of a column (R133). -/
def Env.normTail (e : Env) (i col : Nat) (gain offset : Option VecRef) (y : BitVec 32) : Option (BitVec 32) :=
  let g := match gain with
    | none => some y
    | some v => (e.bytes (vecSpan v (auxOpnd i 0) col)).map fun b => fMul y (wideElem v.fmt b)
  g.bind fun y => match offset with
    | none => some y
    | some v => (e.bytes (vecSpan v (auxOpnd i 1) col)).map fun b => fAdd y (wideElem v.fmt b)

/-- A whole held row through the normalisation (R133). -/
def Env.normalise (e : Env) (i : Nat) (s : Stage) (h : List (BitVec 32)) : Option (List (BitVec 32)) :=
  match s with
  | .norm layer _ eps gain offset _ =>
    let y := normRow layer eps h
    (List.range y.length).mapM fun c => e.normTail i c gain offset (y.getD c 0)
  | _ => some h

/-! ## Output (R110, R123, R139) -/

/-- The bytes of a value written to a wide output (R110, R111, R126). -/
def Env.wideBytesOf (e : Env) (c : Chain) (out : Output) (bind : Nat) (w : WideRef) (row col : Nat) (v : Val) : List Byte :=
  let r := e.draw bind 13 ⟨w.src.stream, false⟩ 0 w.tid (outIndex c out row col) v.data
  wideOut (wideFmtOf w) w.rnd r v.real

/-- The bytes of a tap (R139): RNE. -/
def tapBytes (w : WideRef) (v : Val) : List Byte := wideOut (wideFmtOf w) .rne 0 v.real

/-! ## Prologue (R127 to R129) -/

/-- An element of a convert-mode input read as an F32 (R16, R70, R72), with the spans it is read from. -/
def srcSpans (w : WideRef) (opnd r c : Nat) : List Span :=
  match w.fmt with
  | .wide f => [⟨w.place, opnd, w.pitch * r + wideBytes f * c, wideBytes f⟩]
  | .fp8 _ _ => [⟨w.place, opnd, w.pitch * r + c, 1⟩]
  | .mx t _ =>
    [⟨w.place, opnd, w.pitch * r + (if t = .fp4 then c / 2 else c), 1⟩, ⟨w.scales, opnd + 8, r * ceilDiv w.cols 32 + c / 32, 1⟩]

/-- The raw code of an OCP element from its byte. -/
def mxRaw (t : MxType) (kk b : Nat) : Nat := if t = .fp4 then (if kk % 2 = 0 then b % 16 else b / 16) else b

/-- An input element as an F32; none while a line is missing. -/
def Env.srcElem (e : Env) (w : WideRef) (opnd r c : Nat) : Option (BitVec 32) :=
  match (srcSpans w opnd r c).mapM e.bytes with
  | none => none
  | some bs =>
    match w.fmt with
    | .wide f => some (wideElem f (bs.headD []))
    | .fp8 e5 s => some (fp8Import e5 s (natLE (bs.headD [])))
    | .mx t _ => some (mxImportValue t (natLE (bs.getD 1 [])) (mxRaw t c (natLE (bs.headD []))))

/-- Where an operand element comes from: source row and column after the prologue's moves, none for an empty row
(R127, R128); the gather list's place and the count of entries out of range. -/
structure Source where
  at_ : Option (Nat × Nat)
  range : Nat

/-- Entry i of a gather list (R128). -/
def Env.gatherEntry (e : Env) (idx : Place) (stage i : Nat) : Option Nat :=
  (e.bytes ⟨idx, auxOpnd stage 0, 4 * i, 4⟩).map natLE

/-- The source of element (r, k) of an operand, following the prologue's gather and transpose backwards from the last
(R122): the prologue is listed last stage first. A gathered row from n_idx on has no entry and is empty (DEDUCED, log entry 21). -/
def Env.source (e : Env) (w : WideRef) : List (Nat × Stage) → Nat → Nat → Option Source
  | [], r, k => some ⟨some (if w.colReduction then (k, r) else (r, k)), 0⟩
  | (i, s) :: l, r, k =>
    match s with
    | .transpose => e.source w l k r
    | .gather idx len =>
      let before := (l.filter fun x => x.2 == .transpose).length
      let rows := if (before % 2 = 0) = (w.colReduction = false) then w.rows else w.cols
      if len ≤ r then some ⟨none, 0⟩
      else (e.gatherEntry idx i r).bind fun n =>
        if n = 0xFFFFFFFF then some ⟨none, 0⟩
        else if rows ≤ n then some ⟨none, 1⟩
        else e.source w l n k
    | _ => e.source w l r k

/-- An operand element before its value stages: +0 beyond the input's extents and in an empty row (R127, R128). -/
def Env.operandElem (e : Env) (w : WideRef) (opnd : Nat) (pro : List (Nat × Stage)) (r k : Nat) :
    Option (BitVec 32 × Nat) :=
  (e.source w pro.reverse r k).bind fun s =>
    match s.at_ with
    | none => some (0, s.range)
    | some (mr, mc) => if mr < w.rows ∧ mc < w.cols then (e.srcElem w opnd mr mc).map fun x => (x, 0) else some (0, 0)

/-- The scale stages of a prologue on an element (R129), rounded into each stage's IF (R123). -/
def Env.scales (e : Env) (r k : Nat) : List (Nat × Stage) → BitVec 32 → Option (BitVec 32)
  | [], x => some x
  | (i, s) :: l, x =>
    match s with
    | .scale arg f =>
      let x := throughWide (ifWide f) x
      (match arg with
        | .scalar c => some (fMul x c)
        | .vector v byRow => (e.bytes (vecSpan v (auxOpnd i 0) (if byRow then r else k))).map fun b => fMul x (wideElem v.fmt b)).bind
        fun y => e.scales r k l y
    | _ => e.scales r k l x

/-- The rotation of a prologue (R90, Table 5.2 rule 3). -/
def prologueRot (pro : List Stage) : Option (Rotation × IFmt) :=
  pro.findSome? fun s => match s with | .rotate r f => some (r, f) | _ => none

end Sys2Proof.Machine
end

