-- ==== Sys2Proof/Machine/Job.lean ====
section
/-! DEFINITION. What a unit works on in a handshake: the running slot that names it, its binding's operands and regions
(R16, R21, R29, R437), and what a handshake reports (R19, R20, R298, Table 16.10). -/

namespace Sys2Proof.Machine

/-! ## Bindings -/

/-- Operand o of a binding (0 a or Q or the copy's input, 1 b or K, 2 V). -/
def operandOf (k : BindKind) (o : Nat) : Option Operand :=
  match k with
  | .product a b _ _ _ _ _ => if o = 0 then some a else if o = 1 then some b else none
  | .chained q k v _ _ _ => if o = 0 then some q else if o = 1 then some k else if o = 2 then some v else none
  | .copy (some t) _ _ _ => if o = 0 then some (.pass t) else none
  | .weightDigest t _ _ => if o = 0 then some (.pass t) else none
  | _ => none

/-- Wide input of operand o. -/
def wideOf (k : BindKind) (o : Nat) : Option WideRef :=
  match k with
  | .copy _ (some w) _ _ => if o = 0 then some w else none
  | k => match operandOf k o with | some (.convert w _ _) => some w | _ => none

/-- Prologue stages of operand o, numbered (log entry 21): a copy's are the prologue stages of its own chain (R120). -/
def prologueOf (img : Image) (k : BindKind) (o : Nat) : List (Nat × Stage) :=
  match k with
  | .copy _ _ ch _ => (numberedStages (chainOf img ch)).filter fun x => match x.2 with
      | .transpose | .gather .. | .rotate .. | .scale .. => true
      | _ => false
  | k => match operandOf k o with
      | some (.convert _ pro _) => (List.range pro.length).map fun i => (100 * (o + 1) + i, pro.getD i .quantise)
      | _ => []

/-- Place of region j of a stage, as a station fetches it (Table 5.1). -/
def stagePlace (s : Stage) (j : Nat) : Option Place :=
  match s, j with
  | .bias v _ _, 0 => some v.place
  | .residual w _ _, 0 => some w.place
  | .activation _ (some w) _, 0 => some w.place
  | .scale (.vector v _) _, 0 => some v.place
  | .gather p _, 0 => some p
  | .norm _ _ _ (some g) _ _, 0 => some g.place
  | .norm _ _ _ _ (some o) _, 1 => some o.place
  | _, _ => none

/-- Numbers under which the regions of a binding that are no operands are fetched (log entry 21): 3 a sampler's scores, 7 its OUT, 4
a key mask or sampler mask, 5 a score bias or row keys, 6 the output's scale
region, whose row-scale table the runtime writes under two-pass. -/
def otherPlace (img : Image) (k : BindKind) (o : Nat) : Option Place :=
  match k with
  | .sampler s => if o = 3 then some s.scores.place else if o = 4 then s.mask else if o = 5 then some s.rowkey else if o = 7 then some s.out else none
  | k => match o, k with
    | 4, .chained _ _ _ c _ _ => c.keymask
    | 5, .chained _ _ _ c _ _ => c.bias.map (·.place)
    | 6, k => (match quantStage (chainOf img (outputOf k).1) with
      | some (_, .quantOut (.code t) _ _ _ _ _) => some t.scale
      | _ => none)
    | _, _ => none

/-- The place and line of a line of operand or region o (R58 to R63). -/
def linePlace (img : Image) (k : BindKind) (o : Nat) (kind : LineKind) (index : Nat) : Option (Place × Nat) :=
  match kind with
  | .wide =>
    if 16 ≤ o then
      let i := (o - 16) / 4
      let stage := if i < 100 then (chainOf img (outputOf k).1).stages[i]?
        else ((prologueOf img k (i / 100 - 1)).find? fun x => x.1 == i).map (·.2)
      (stage.bind fun s => stagePlace s ((o - 16) % 4)).map fun p => (p, index)
    else if 8 ≤ o then (wideOf k (o - 8)).map fun w => (w.scales, index)
    else match wideOf k o with
      | some w => some (w.place, index)
      | none => (otherPlace img k o).map fun p => (p, index)
  | .rowScale =>
    match operandOf k o with
    | some (.pass t) => some (t.scale, 1 + index)
    | _ => none
  | kind =>
    match operandOf k o with
    | some (.pass t) => (match kind with
      | .head => some (t.scale, index)
      | .scale => some (t.scale, scaleHead t + index)
      | .code => some (t.code, index)
      | _ => some (t.ash, index))
    | _ => none

/-! ## The job of a unit -/

/-- A running slot of a partition with its binding. -/
structure Job where
  p : PartId
  img : Image
  l : Slot
  b : Binding
  deriving DecidableEq, Repr

/-- The slot of a partition that runs under a key, with its binding; a slot whose units have stopped runs no more. -/
def Dev.jobOf (d : Dev) (p : PartId) (slot : Nat) : Option Job :=
  let x := d.part p
  match x.ldr.image with
  | none => none
  | some img =>
    match slotOf img slot, x.att.run slot with
    | some l, some r =>
      (bindOf img l.bind).bind fun b =>
        if x.att.isRunning slot ∧ !r.memErr then some ⟨p, img, l, b⟩ else none
    | _, _ => none

/-- The job of a unit of a slice in a slot that names the unit (a row unit goes with its array); a fenced unit has none (R382). -/
def Dev.job (d : Dev) (slice slot : Nat) (unit : UnitCode) : Option Job :=
  (d.ownerOf slice).bind fun p => (d.jobOf p slot).bind fun j =>
    let x := d.part p
    let u := if unitKind unit = 3 then unitOf slice 0 (unitIdx unit) else unit
    if x.slice j.l.slice = slice ∧ (x.unitsOf j.l).contains u ∧ !d.fenced u then some j else none

/-- Chain of a job's binding. -/
def Job.chain (j : Job) : Chain := chainOf j.img (outputOf j.b.kind).1
/-- Output of a job's binding. -/
def Job.out (j : Job) : Output := (outputOf j.b.kind).2
/-- Engine slice of a job. -/
def Dev.jobSlice (d : Dev) (j : Job) : Nat := (d.part j.p).slice j.l.slice
/-- Environment of a job. -/
def Dev.jobEnv (sb : StageBufs) (d : Dev) (j : Job) : Env := d.env sb j.p j.img j.l
/-- The slot run of a job changed. -/
def Dev.modJob (d : Dev) (j : Job) (f : SlotRun → SlotRun) : Dev := d.modAtt j.p fun a => a.modRun j.l.key f
/-- The slot run of a job. -/
def Dev.jobRun (d : Dev) (j : Job) : Option SlotRun := (d.part j.p).att.run j.l.key

/-- A slice counter of Table 16.10 raised in the slice and in its partition. -/
def Dev.bumpBoth (d : Dev) (j : Job) (c n : Nat) : Dev :=
  if n = 0 then d else (d.bump j.p c n).bumpSlice (d.jobSlice j) c n

/-- How far an exchange has been consumed once some lines have been read: global lines are consumed in ascending order (R281). -/
def DynEx.reads (y : DynEx) (x : Part) (r : Receive) (lines : List (Nat × Nat)) : Nat → DynEx
  | 0 => y
  | n + 1 =>
    if y.landed.contains y.consumed ∧ lines.contains (x.slice r.slice, r.line + y.consumed % max 1 r.lines) then
      DynEx.reads { y with consumed := y.consumed + 1 } x r lines n
    else y

/-- Lines of the landing regions of a partition's exchanges consumed by a read of them (R281). -/
def Dev.consumeLines (d : Dev) (p : PartId) (lines : List (Nat × Nat)) : Dev :=
  if lines.isEmpty || (d.part p).flu.dyn.isEmpty then d
  else
    let x := d.part p
    let step (y : DynEx) : DynEx := match (x.segBind y.bind).map fun (b : Binding) => b.kind with
      | some (.exchange r _ _) => y.reads x r lines lines.length
      | _ => y
    d.modPart p fun x => { x with flu := { x.flu with dyn := x.flu.dyn.map step } }

/-- Reads of stage-buffer lines noted: reads of unwritten ones are counted, and the slot's first in the slice, of several in one tick the
lowest line, is kept for its BUFFER_VALIDITY record (R19); lines that an exchange has landed are consumed (R281). -/
def Dev.noteReads (d : Dev) (t : Nat) (sb : StageBufs) (j : Job) (lines : List (Nat × Nat)) : Dev :=
  let d := d.consumeLines j.p lines
  let bad := lines.filter fun x => !sbValid sb x.1 x.2
  bad.foldl (fun d x =>
    let d := (d.bump j.p 12 1).bumpSlice x.1 12 1
    d.modJob j fun r =>
      match r.unwritten.find? fun y => y.1 == x.1 with
      | some y =>
        let line := if y.2.2.1 = t then min y.2.1 x.2 else y.2.1
        { r with unwritten := (r.unwritten.filter fun z => z.1 != x.1) ++ [(y.1, line, y.2.2.1, y.2.2.2 + 1)] }
      | none => { r with unwritten := r.unwritten ++ [(x.1, x.2, t, 0)] }) d

/-- The failures of the lines that hold a word that cannot be corrected (R20). -/
def badLine (sb : StageBufs) (lines : List (Nat × Nat)) : Failure :=
  ((lines.filter fun x => sbBad sb x.1 x.2).map fun x => (2, unitOf x.1 5 0)).eraseDups

/-- The epochs in which a failure of a unit counts (R298): the owner's epoch. -/
def Dev.sliceEpoch (d : Dev) (t slice : Nat) : Nat :=
  match d.ownerOf slice with
  | some p => if (d.part p).sch.timed then (d.part p).sch.epoch.toNat else t / Config.startupEpochTicks
  | none => t / Config.startupEpochTicks

/-- A residue or parity failure of a unit noted (R298): the syndrome bits, with bit 41 on a second failure of the same
unit within 64 epochs. -/
def Dev.residueFail (d : Dev) (t slice : Nat) (u : UnitCode) : Dev × (Nat × UnitCode) :=
  let e := d.sliceEpoch t slice
  let s := tabGet SliceSt.reset d.slices slice
  let again := s.residueUnits.any fun x => x.1 == u && decide (e ≤ x.2 + 64)
  ({ d with slices := tabSet SliceSt.reset d.slices slice { s with residueUnits := (u, e) :: s.residueUnits.filter fun x => x.1 != u } },
   (1 + (if again then 2 ^ 41 else 0), u))

/-- Bit 41 of a failure's syndrome: the second of its unit within 64 epochs, for which the unit is fenced (R298). -/
def askFence (f : Nat) : Bool := f / 2 ^ 41 % 2 == 1

/-- Two failures under the same values: each unit's once, and a second failure of a unit before its first (R298). -/
def orFail (a b : Failure) : Failure := a ++ b.filter fun x => !a.contains x

/-- The failures that a tile's records name: every one that asks for a fence, or else the first (R298, log entry 38). -/
def namedFailures (f : Failure) : Failure :=
  match f.filter fun x => askFence x.1 with
  | [] => f.take 1
  | l => l

/-- What the handshake's check leaves on the units: corrections counted (R20), a residue failure noted (R298); the
failure that touches the values of the handshake. -/
def Dev.checked (d : Dev) (t : Nat) (j : Job) (u : UnitCode) (c : Check) : Dev × Failure :=
  match c with
  | .residue => let r := d.residueFail t (d.jobSlice j) u; (r.1, [r.2])
  | .corrected n => (d.bumpBoth j 5 n, [])
  | _ => (d, [])

/-- A failure of a unit that no tile's verdict will name: a fence that it asks for is asked for at once (R298). -/
def Dev.lostFailure (d : Dev) (t : Nat) (f : Failure) : Dev :=
  (f.filter fun x => askFence x.1).foldl (fun d x => d.requestFence t x.2 none) d

/-- A stage-buffer word of a slice found uncorrectable (R20). -/
def sbSpoil (sb : StageBufs) (slice : Nat) (c : Check) : StageBufs :=
  match c with
  | .uncorrectable line word => { sb with bad := tabSet false sb.bad (lineKey slice line.val * 64 + word.val) true }
  | _ => sb

/-- The tiles of a slot that are not complete are abandoned: their verdicts will be negative (R66). -/
def ArraySt.abandon (x : ArraySt) (p : PartId) (slot : Nat) (code : Byte) : ArraySt :=
  let judges := x.judges.map fun q =>
    if q.tile.part = p ∧ q.tile.slot = slot ∧ q.sums.isNone then { q with cause := q.cause.or (some code) } else q
  match x.tile with
  | some t => if t.part = p ∧ t.slot = slot then { x with tile := none, judges := judges ++ [⟨t, none, [], some code, x.failure⟩] }
              else { x with judges := judges }
  | none => { x with judges := judges }

/-- A station, converter or egress unit stops feeding the slot with a record, at most one in the slot, and the tiles of the product that
are not complete are abandoned (R66, R80). -/
def Dev.stopJob (d : Dev) (t : Nat) (j : Job) (u : UnitCode) (code : Byte) (synd : Nat) (tid : BitVec 24) : Dev :=
  match d.jobRun j with
  | some r =>
    if r.stopped.contains u then d
    else
      let d := d.modJob j fun r => { r with stopped := r.stopped ++ [u] }
      let d := (List.range 4).foldl (fun (d : Dev) i =>
        { d with arrays := tabMod ArraySt.reset d.arrays (4 * d.jobSlice j + i) fun x => x.abandon j.p j.l.key code }) d
      d.report t { code := code, severity := .stepReplay, unit := u, part := some j.p, synd := synd, slot := j.l.key, tid := some tid }
  | none => d

/-- TS32 of an entry in the attempt: as its first launch fixed it (R79). -/
def Dev.ts32At (d : Dev) (p : PartId) (i : Nat) : BitVec 32 := ((d.part p).att.scales.lookup i).getD (d.lgr p i).ts32

/-- Tensor scale of a binding's entry; 1.0 where it names none (log entry 37). -/
def Dev.entryTs (d : Dev) (p : PartId) (entry : Option Nat) : BitVec 32 := match entry with | some i => d.ts32At p i | none => one32

/-- A line of an operand or region: as a station of the slice holds it, or read from the stage buffer it lies in (R29). -/
def Env.lineOf (e : Env) (j : Job) (o : Nat) (kind : LineKind) (index : Nat) : Option StLine :=
  match e.lines.find? fun l => l.opnd == o && l.kind == kind && l.index == index with
  | some l => some l
  | none => match linePlace j.img j.b.kind o kind index with
    | some (.buf slice first, line) => (e.part.lineAt slice first line).map fun (g, at_) =>
      ⟨j.p, j.l.key, o, kind, index, sbRead e.sb g at_, if sbValid e.sb g at_ then tabGet 0 e.sb.tag (lineKey g at_) else 0,
            badLine e.sb [(g, at_)]⟩
    | _ => none

/-- The policy of a quantise-out: the chain's, else the partition's. Two-pass is the partition's only (R162). -/
def Part.policyOf (x : Part) (q : Option RowPolicy) : RowPolicy :=
  match q with
  | some .delayed => .delayed
  | some .rowHold => .rowHold
  | _ => let m := x.mode.toNat / 64 % 4; if m = 1 then .rowHold else if m = 2 then .twoPass else .delayed

/-- Partition-local entries of the single scales of the segment's two-pass quantise-outs (R166, step 3). -/
def Part.twoPassEntries (x : Part) : List Nat :=
  match x.ldr.image with
  | none => []
  | some img => x.segBindings.flatMap fun b => match quantStage (chainOf img (outputOf b.kind).1) with
    | some (_, .quantOut t _ _ pol _ _) =>
      if x.policyOf pol = .twoPass then (match t with
        | .code t => if t.rowTs then [] else t.entry.toList
        | .fp8 _ _ e _ => e.toList
        | .mx .. => [])
      else []
    | _ => []

/-- Whether a slot is of the first of the two passes of a two-pass chain (R166): the binding has a slot on the slice after a host window
that begins no sooner than this one ends. -/
def Dev.firstPass (d : Dev) (j : Job) : Bool :=
  let x := d.part j.p
  let start (l : Slot) : Nat := x.att.startOf j.img l
  x.timeline.any fun w => w.kind == 6 && decide (x.att.endOf j.img j.l ≤ start w)
    && x.timeline.any fun l => l.bind == j.b.key && l.slice == j.l.slice && decide (x.att.endOf j.img w ≤ start l)

/-- Whether the job runs pass 1 of a two-pass quantise-out, in which nothing but the amax region is written (R166). -/
def Dev.isPass1 (d : Dev) (j : Job) : Bool :=
  match quantStage j.chain with
  | some (_, .quantOut _ _ _ pol _ _) => (d.part j.p).policyOf pol == .twoPass && d.firstPass j
  | _ => false

/-- Tensor scale of an operand for a row of it (R63, R79, R113): from the head line or row-scale table, from
the ledger entry under convert mode, or from direct import. None while a line is missing. -/
def Dev.operandTs (d : Dev) (e : Env) (j : Job) (o row : Nat) : Option (BitVec 32) :=
  match operandOf j.b.kind o with
  | none => none
  | some (.pass t) =>
    if t.rowTs then (e.lineOf j o .rowScale (row / 128)).map fun l => BitVec.ofNat 32 (fieldLE l.data (4 * (row % 128)) 4)
    else (e.lineOf j o .head 0).map fun l => BitVec.ofNat 32 (fieldLE l.data 4 4)
  | some (.convert _ _ t) =>
    match (d.jobRun j).bind fun r => r.scales.lookup o with
    | some s => some s
    | none => some (d.entryTs j.p t.entry)

end Sys2Proof.Machine
end

