-- ==== Sys2Proof/Machine/Ingress.lean ====
section
/-! DEFINITION. The ingress stations: fetching lines (R393), the pass-mode checks (R66, Table 2.11), conversion (R16, R75,
R127 to R129), direct MX import (R68), weight digests (R318). -/

namespace Sys2Proof.Machine

/-! ## Lines and groups of a station -/

/-- Number of a slice's station in the station table. -/
def stationKey (slice : Nat) (st : Fin 2) : Nat := 2 * slice + st.val

/-- A station changed. -/
def Dev.modStation (d : Dev) (k : Nat) (f : Station → Station) : Dev :=
  { d with stations := tabMod Station.reset d.stations k f }

/-- A line taken into a station, in place of an earlier reading of it. -/
def Station.addLine (s : Station) (l : StLine) : Station :=
  { s with lines := (s.lines.filter fun x =>
      !(x.part == l.part && x.slot == l.slot && x.opnd == l.opnd && x.kind == l.kind && x.index == l.index)) ++ [l] }

/-- Groups taken into a station. -/
def Station.addGroups (s : Station) (gs : List StGroup) : Station :=
  { s with groups := (s.groups.filter fun x => !(gs.any fun g =>
      x.part == g.part && x.slot == g.slot && x.opnd == g.opnd && x.row == g.row && x.grp == g.grp)) ++ gs }

/-- A line of an operand that the slice's stations hold. -/
def Env.line (e : Env) (o : Nat) (kind : LineKind) (index : Nat) : Option StLine :=
  e.lines.find? fun l => l.opnd == o && l.kind == kind && l.index == index

/-- A group of an operand that the slice's stations hold. -/
def Dev.findGroup (d : Dev) (j : Job) (o row grp : Nat) : Option StGroup :=
  let s := d.jobSlice j
  let gs (i : Nat) : List StGroup := (tabGet Station.reset d.stations (2 * s + i)).groups
  (gs 0 ++ gs 1).find? fun g => g.part == j.p && g.slot == j.l.key && g.opnd == o && g.row == row && g.grp == grp

/-- A station issues the read of one line, or takes it from a stage buffer in the handshake (R16, R393, R394); a fenced stage buffer
sends nothing (R382), and a line of an exchange is waited for (R281). -/
def doFetch (slice : Nat) (st : Fin 2) (j : Job) (o : Nat) (kind : LineKind) (index : Nat) (port : Fin 2) (id : Fin 1024)
    (now : Nat) (fail : Failure) (s : StageBufs × Dev) : StageBufs × Dev :=
  let d := s.2
  match linePlace j.img j.b.kind o kind index with
  | none => s
  | some (.mem base, line) =>
    let pt := (d.part j.p).memPort j.l.slice port.val
    let addr := base + 512 * line
    if d.lineBusy pt (addr / 512) ∨ d.memReads.any (fun r => r.port == pt && r.id == id) then s
    else (s.1, { d.lostFailure now fail with memReads := d.memReads ++ [⟨pt, id, j.p, stationKey slice st, j.l.key, o, kind, index, addr, false, false⟩] })
  | some (.buf sl first, line) =>
    match (d.part j.p).lineAt sl first line with
    | none => s
    | some (g, at_) =>
    if d.fenced (unitOf g 5 0) then s
    else
      let tag := if sbValid s.1 g at_ then tabGet 0 s.1.tag (lineKey g at_) else 0
      let l : StLine := ⟨j.p, j.l.key, o, kind, index, sbRead s.1 g at_, tag, orFail fail (badLine s.1 [(g, at_)])⟩
      (s.1, (d.noteReads now s.1 j [(g, at_)]).modStation (stationKey slice st) fun x => x.addLine l)

/-! ## Pass mode (R66) -/

/-- The checks' outcome: pass; a failure's report code and syndrome; or a line that is not there yet. `ash` is how many ash packets were
read on the way. -/
inductive PassResult where
  | ok (gs : List StGroup) (ash : Nat)
  | bad (code : Byte) (synd ash : Nat)
  | wait

/-- Syndrome of a check: its order, expected, found. -/
def passSynd (order expected found : Nat) : Nat := order + expected % 2 ^ 32 * 2 ^ 32 + found % 2 ^ 32 * 2 ^ 64

/-- Check 1: the head line against the binding (R93 for the rotation fields). -/
def headOk (t : TensorRef) (h : List Byte) : Bool :=
  let w0 := fieldLE h 0 8
  let w5 := fieldLE h 40 8
  fieldLE h 0 3 == t.tid.toNat && w0 / 2 ^ 24 % 16 == fmtCode t.fmt && w0 / 2 ^ 28 % 4 == gszCode t.g
    && fieldLE h 54 2 == 1 && fieldLE h 8 8 == t.rows && fieldLE h 16 8 == t.k
    && (w0 / 2 ^ 31 % 2 == 1) == t.rot.isSome && w5 / 2 ^ 28 % 16 == (t.rot.map (·.log2)).getD 0

/-- Check 2: tensor scales and the codebook's check sum (R42, R48); the row named when one is wrong. -/
def scalesBad (img : Image) (t : TensorRef) (h : List Byte) (rows : Nat → BitVec 32) : Option Nat :=
  let rowTs := fieldLE h 0 8 / 2 ^ 30 % 2 == 1
  let user := t.fmt == .c16 || t.fmt == .c256
  let sum := if user then ((img.codebooks.find? fun r => r.key == t.codebook && r.c256 == (t.fmt == .c256)).map bookSum).getD 0 else 0
  if rowTs then
    match (List.range (rowsPad t.fmt t.rows)).find? fun r => !ts32Ok (rows r) with
    | some r => some r
    | none => if fieldLE h 28 4 = sum then none else some 0
  else if !ts32Ok (BitVec.ofNat 32 (fieldLE h 4 4)) ∨ fieldLE h 28 4 ≠ sum then some 0
  else none

/-- An ash packet: first group, span, entry count, identifier, entries, and a failure of its line (R20). -/
structure AshPacket where
  first : Nat
  span : Nat
  n : Nat
  tid16 : Nat
  entries : List (BitVec 32)
  fail : Failure

/-- Reading an ash packet line (Table 2.9). -/
def readAsh (l : StLine) : AshPacket :=
  let b := l.data
  let n := fieldLE b 12 2
  ⟨fieldLE b 0 8, fieldLE b 8 4, n, fieldLE b 14 2,
   (List.range (min n 124)).map fun i => BitVec.ofNat 32 (fieldLE b (16 + 4 * i) 4), l.fail⟩

/-- The lines of an operand as a unit has them: a station those it has read, an array the stage buffer's (R29). -/
abbrev Look := LineKind → Nat → Option StLine

/-- Walking the ash packets from the first up to those of the groups below `hi`: the packets read, or check 6's failure with how many
were read, or a packet that is not there yet. `fuel` bounds the packets. -/
def ashWalk (look : Look) (t : TensorRef) (hi : Nat) : Nat → Nat → Nat → List AshPacket → (List AshPacket) ⊕ (Option (Nat × Nat))
  | 0, _, _, acc => .inl acc
  | fuel + 1, i, next, acc =>
    if hi ≤ next then .inl acc
    else
      match look .ash i with
      | none => .inr none
      | some l =>
        let p := readAsh l
        if p.first ≠ next ∨ p.tid16 ≠ t.tid.toNat % 65536 ∨ p.span = 0 ∨ groupCount t < p.first + p.span ∨ 124 < p.n then
          .inr (some (passSynd 6 next p.first, i + 1))
        else ashWalk look t hi fuel (i + 1) (next + p.span) (acc ++ [p])

/-- GS8 of group n, from the scale packets. -/
def gs8At (look : Look) (n : Nat) : Option Byte := (look .scale (n / 512)).map fun l => l.data.getD (n % 512) 0

/-- The codes of group n of a block. -/
def groupCodes (t : TensorRef) (data : List Byte) (n : Nat) : List Nat :=
  let (r, c) := groupPlace t n
  (List.range t.g).map fun i =>
    let b := (data.getD (byteInBlock t.fmt r (c + i)) 0).toNat
    if isWide8 t.fmt then b else if i % 2 = 0 then b % 16 else b / 16

/-- R436 on one packet: entries of the groups of its span up to `hi`; the group charged when they run out or are left over. -/
def ashOf (look : Look) (hi : Nat) (p : AshPacket) : Option (List (Nat × List (BitVec 32)) × Option Nat) :=
  let ns := (List.range (min p.span (hi - p.first))).map (p.first + ·)
  (ns.mapM fun n => gs8At look n).map fun gs =>
    let (l, left) := ashAssign gs p.entries
    let per := ns.zip l
    let out := (ns.zip (gs.zip l)).find? fun x => x.2.1.getLsbD 7 && !(x.2.2.getLast?.map ashLast).getD false
    let charged : Option Nat := match out with
      | some x => some x.1
      | none => if !left.isEmpty ∧ p.first + p.span ≤ hi then some (p.first + p.span - 1) else none
    (per, charged)

/-- Positions of a group that hold the escape code. -/
def escapes (b : Codebook) (codes : List Nat) : List Nat :=
  match b.esc with
  | none => []
  | some x => (List.range codes.length).filter fun i => codes.getD i 0 == x

/-- The codes of a group that count: those of a zero group are ignored (R47). -/
def liveCodes (gs8 : Byte) (codes : List Nat) : List Nat := if gs8 = 0 then [] else codes

/-- Check 7 on a group (R51). -/
def ashLimits (b : Codebook) (gs8 : Byte) (codes : List Nat) (es : List (BitVec 32)) : Bool :=
  decide (es.length ≤ 4) && decide ((escapes b (liveCodes gs8 codes)).length ≤ 4) && es.all fun w => w.toNat % 2 ^ 24 != 0x800000

/-- Check 8 on a group (R51). -/
def ashMatches (b : Codebook) (gs8 : Byte) (codes : List Nat) (es : List (BitVec 32)) : Bool :=
  let esc := escapes b (liveCodes gs8 codes)
  if gs8.getLsbD 7 then !es.isEmpty && esc.all (fun i => (es.filter fun w => ashPos w == i).length == 1) && es.length == esc.length
  else es.isEmpty && esc.isEmpty

/-- The block index a tag spells under a tensor identifier (R64). -/
def tagBlock (tag : BitVec 16) (tid : BitVec 24) (scale : Bool) : Nat :=
  (tag ^^^ tid.setWidth 16 ^^^ (if scale then 0x8000#16 else 0)).toNat

/-- Table 2.11 on one block, in its order. -/
def passBlock (look : Look) (j : Job) (o : Nat) (t : TensorRef) (block : Nat) : PassResult :=
  let gpb := groupsPerBlock t.fmt t.g
  let lo := block * gpb
  let hi := lo + gpb
  let rowLines := if t.rowTs then ceilDiv (4 * rowsPad t.fmt t.rows) 512 else 0
  match look .head 0, look .code block, look .scale (lo / 512), (List.range rowLines).mapM (fun i => look .rowScale i) with
  | some h, some cl, some sl, some rl =>
    let rowTs (r : Nat) : BitVec 32 := BitVec.ofNat 32 (fieldLE ((rl.map (·.data)).getD (r / 128) []) (4 * (r % 128)) 4)
    let ns := (List.range gpb).map (lo + ·)
    let gs8 (n : Nat) : Byte := sl.data.getD (n % 512) 0
    if !headOk t h.data then .bad 0x06 (passSynd 1 0 0) 0
    else match scalesBad j.img t h.data rowTs with
    | some r => .bad 0x07 (passSynd 2 r 0) 0
    | none =>
    if cl.tag ≠ codeTag t.tid block then .bad 0x06 (passSynd 3 block (tagBlock cl.tag t.tid false)) 0
    else if sl.tag ≠ scaleTag t.tid (lo / 512) then .bad 0x06 (passSynd 3 (lo / 512) (tagBlock sl.tag t.tid true)) 0
    else match ns.find? fun n => gs8 n == 0x80#8 with
    | some n => .bad 0x07 (passSynd 4 n 0) 0
    | none =>
    let codes (n : Nat) : List Nat := groupCodes t cl.data n
    match ns.find? fun n => t.fmt == .e4m3 && gs8 n != 0 && (codes n).any fun c => c == 0x7F || c == 0xFF with
    | some n => .bad 0x07 (passSynd 5 n 0) 0
    | none =>
    match ashWalk look t hi (t.ashCap + groupCount t) 0 0 [] with
    | .inr none => .wait
    | .inr (some (synd, ash)) => .bad 0x06 synd ash
    | .inl packets =>
    match (packets.filter fun p => decide (lo < p.first + p.span)).mapM (ashOf look hi) with
    | none => .wait
    | some parts =>
      let book := bookOf j.img.codebooks t.fmt t.codebook
      let ash (n : Nat) : List (BitVec 32) := (parts.flatMap (·.1)).lookup n |>.getD []
      let charged := (parts.filterMap (·.2)).find? fun n => decide (lo ≤ n) && decide (n < hi)
      match ns.find? fun n => !ashLimits book (gs8 n) (codes n) (ash n) with
      | some n => .bad 0x08 (passSynd 7 n 0) packets.length
      | none =>
      match ns.find? fun n => charged == some n || !ashMatches book (gs8 n) (codes n) (ash n) with
      | some n => .bad 0x06 (passSynd 8 n 0) packets.length
      | none =>
        let fail := ([h.fail, cl.fail, sl.fail] ++ packets.map (·.fail)).foldl orFail []
        .ok (ns.map fun n =>
          let (r, c) := groupPlace t n
          ⟨j.p, j.l.key, o, r, c / t.g, opGroup book (isWide8 t.fmt) (codes n) (gs8 n) (ash n), orFail fail (((rl[r / 128]?).map (·.fail)).getD [])⟩) packets.length
  | _, _, _, _ => .wait

/-- A station in pass mode checks one block and moves its groups on (R16, R66). -/
def doPass (slice : Nat) (st : Fin 2) (j : Job) (o block n : Nat) (fail : Failure) (s : StageBufs × Dev) :
    StageBufs × Dev :=
  let d := s.2
  match operandOf j.b.kind o with
  | some (.pass t) =>
    if blockCount t ≤ block then s
    else match passBlock ((d.jobEnv s.1 j).line o) j o t block with
      | .wait => s
      | .bad code synd _ => (s.1, d.stopJob n j (unitOf slice 1 st.val) code synd t.tid)
      | .ok gs _ =>
        let gs := gs.map fun (g : StGroup) => { g with fail := orFail fail g.fail }
        (s.1, d.modStation (stationKey slice st) fun x =>
          { x.addGroups gs with lines := x.lines.filter fun l =>
              !(l.part == j.p && l.slot == j.l.key && l.opnd == o && l.kind == .code && l.index == block) })
  | _ => s

/-! ## Convert mode -/

/-- Overflows of the scale stages' roundings into narrower formats (Table 16.10, counter 6). -/
def Env.scalesOver (e : Env) (r k : Nat) : List (Nat × Stage) → BitVec 32 → Nat
  | [], _ => 0
  | (i, s) :: l, x =>
    match s with
    | .scale _ f =>
      bit (entersOver (ifWide f) (.f32 x)) + (match e.scales r k [(i, s)] x with | some y => e.scalesOver r k l y | none => 0)
    | _ => e.scalesOver r k l x

/-- One operand element through transpose, gather and scales: its F32, the gather-range count, the overflows. -/
def Env.scaledElem (e : Env) (w : WideRef) (o : Nat) (pro : List (Nat × Stage)) (r k : Nat) : Option (BitVec 32 × Nat × Nat) :=
  (e.operandElem w o pro r k).bind fun x =>
    (e.scales r k pro x.1).map fun y => (y, x.2, e.scalesOver r k pro x.1)

/-- Overflows at the IF of a prologue's rotation (R123, R125). -/
def rotOver (pro : List (Nat × Stage)) (x : BitVec 32) : Nat :=
  match prologueRot (pro.map (·.2)) with | some (_, f) => bit (entersOver (ifWide f) (.f32 x)) | none => 0

/-- Elements [lo, hi) of row r of an operand after the whole prologue, rotation included (R90, R129): `lo` and `hi` are
multiples of the rotation block. Element, gather-range count, overflows. -/
def Env.prologued (e : Env) (w : WideRef) (o : Nat) (pro : List (Nat × Stage)) (tid : BitVec 24) (r lo hi : Nat) :
    Option (List (BitVec 32 × Nat × Nat)) :=
  ((List.range (hi - lo)).mapM fun i => e.scaledElem w o pro r (lo + i)).map fun xs =>
    match prologueRot (pro.map (·.2)) with
    | none => xs
    | some (rot, f) =>
      let b := 2 ^ rot.log2
      let ys := (List.range (xs.length / b)).flatMap fun q =>
        rotateBlock e.part.rng.seed rot (tid == rot.key) (lo / b + q)
          (((xs.drop (b * q)).take b).map fun x => throughWide (ifWide f) x.1)
      (xs.zip ys).map fun x => (x.2, x.1.2.1, x.1.2.2 + rotOver pro x.1.1)

/-- Whether a gather's out-of-range entry is met for the first time at this element: the entry belongs to the row, or to
the column after an odd number of transposes that follow it. -/
def gatherFirst (pro : List (Nat × Stage)) (r k : Nat) : Bool :=
  let after := (pro.map (·.2)).reverse.takeWhile fun s => match s with | .gather .. => false | _ => true
  if (after.filter fun s => s == .transpose).length % 2 = 0 then k == 0 else r == 0

/-- The spans of the gather entries that lead to operand element (r, k), the prologue listed last stage first (R128). -/
def Env.gatherSpans (e : Env) (w : WideRef) : List (Nat × Stage) → Nat → Nat → List Span
  | [], _, _ => []
  | (i, s) :: l, r, k =>
    match s with
    | .transpose => e.gatherSpans w l k r
    | .gather idx n =>
      if n ≤ r then []
      else ⟨idx, auxOpnd i 0, 4 * r, 4⟩ :: (match e.gatherEntry idx i r with | some m => e.gatherSpans w l m k | none => [])
    | _ => e.gatherSpans w l r k

/-- The spans the prologue of an element reads, for R19 and R20: the gather entries on its way, the element it comes from where there is
one within the extents, and the scale factors. -/
def Env.proSpans (e : Env) (w : WideRef) (o : Nat) (pro : List (Nat × Stage)) (r k : Nat) : List Span :=
  e.gatherSpans w pro.reverse r k
    ++ (match (e.source w pro.reverse r k).bind (·.at_) with
      | some (mr, mc) => if mr < w.rows ∧ mc < w.cols then srcSpans w o mr mc else []
      | none => [])
    ++ pro.filterMap fun x => match x.2 with
      | .scale (.vector v byRow) _ => some (vecSpan v (auxOpnd x.1 0) (if byRow then r else k))
      | _ => none

/-- The spans of a range of elements, each line once. -/
def Env.spanLines (e : Env) (l : List Span) : List (Nat × Nat) := (l.flatMap e.linesOf).eraseDups

/-- The failures of the lines held that spans in memory are read from. -/
def Env.heldFail (e : Env) (l : List Span) : Failure :=
  (e.lines.filter fun y => l.any fun s => s.opnd == y.opnd && y.kind == .wide
    && decide (s.off / 512 ≤ y.index) && decide (y.index * 512 < s.off + s.len)).foldl (fun f y => orFail f y.fail) []

/-- A scale that is not valid at its use: SCALE_CODE_FAULT 0x20 with the ledger entry (R80). -/
def scaleFaultSynd (entry : Option Nat) : Nat := 0x20 + entry.getD 0 * 2 ^ 32

/-- Margin and escape policy of an entry under the attempt's latched records (R203, R83). An output without an entry has no policy record:
margin 0, k = 0 (DESIGN CHOICE, log entry 37). -/
def Dev.entryPolicy (d : Dev) (p : PartId) (entry : Option Nat) : Word :=
  match entry with | some i => (d.part p).latched (d.lgr p i) | none => 0

/-- Whether an operand is under direct MX import (R68, Table 2.12): the target format is the type's direct target, with its group
of 32. DESIGN CHOICE (log entry 22): R68 names the target format alone; the model imports by value (R70) where a prologue stage changes
values, or where a transpose or the reduction axis takes the elements of one group from different blocks. -/
def directMx (t : MxType) (w : WideRef) (out : TensorRef) (pro : List (Nat × Stage)) : Bool :=
  let fmt : Option ElemFmt := match t with | .fp8e4m3 => some .e4m3 | .fp4 => some .e2m1 | .int8 => some .i8 | _ => none
  fmt == some out.fmt && out.g == 32 && !w.colReduction && pro.all fun x => match x.2 with
    | .scale .. | .rotate .. | .transpose => false
    | _ => true

/-- A quantisation counted in its tensor's entry, if its binding counts (R97, R99). -/
def Dev.countTensor (d : Dev) (p : PartId) (t : TensorRef) (q : QStats) : Dev :=
  match t.counting, t.entry with | true, some i => d.countInto p i q | _, _ => d

/-- An operand's quantisation counted, but for pass 1 of a two-pass output, in which nothing else is written (R166). -/
def Dev.countOperand (d : Dev) (j : Job) (t : TensorRef) (q : QStats) : Dev := if d.isPass1 j then d else d.countTensor j.p t q

/-- An operand group from a quantised group. -/
def groupOfQ (b : Codebook) (f : ElemFmt) (q : QGroup) : OpGroup := opGroup b (isWide8 f) q.codes q.gs8 (ashWords q.ash)

/-- A station in convert mode quantises one group of an operand (R16, R75). Under separate-equivalent rounding the quantise reads what the
last value stage of the prologue wrote in S (R145, R146). -/
def doConvert (slice : Nat) (st : Fin 2) (j : Job) (o row grp n : Nat) (fail : Failure)
    (s : StageBufs × Dev) : StageBufs × Dev :=
  let d := s.2
  match operandOf j.b.kind o with
  | some (.convert w _ t) =>
    let e := d.jobEnv s.1 j
    let pro := prologueOf j.img j.b.kind o
    let u := unitOf slice 1 st.val
    let blk := match prologueRot (pro.map (·.2)) with | some (r, _) => max t.g (2 ^ r.log2) | none => t.g
    let lo := grp * t.g / blk * blk
    let ts := d.entryTs j.p t.entry
    if (match w.fmt with | .mx ty _ => directMx ty w t pro | _ => false) || decide (rowsPad t.fmt t.rows ≤ row) || decide (kPad t.k ≤ grp * t.g) then s
    else if !ts32Ok ts then (s.1, d.stopJob n j u 0x07 (scaleFaultSynd t.entry) t.tid)
    else
      let inside := row < t.rows ∧ grp * t.g < t.k
      match if inside then e.prologued w o pro t.tid row lo (lo + blk) else some [] with
      | none => s
      | some xs =>
        let xs := if j.chain.sepEq && (pro.any fun s => (valueIf s.2).isSome) then
            xs.map fun x => (throughWide j.chain.s x.1, x.2.1, x.2.2 + bit (entersOver j.chain.s (.f32 x.1)))
          else xs
        let spans := if inside then (List.range blk).flatMap fun i => e.proSpans w o pro row (lo + i) else []
        let lines := e.spanLines spans
        let elems := (List.range t.g).map fun i =>
          let k := grp * t.g + i
          if inside ∧ k < t.k then
            let x := (xs.getD (k - lo) (0, 0, 0)).1
            some (f32Val x, e.draw j.b.key o t.src 0 t.tid (elemIndex t.k row k) (x.setWidth 16))
          else none
        let book := bookOf j.img.codebooks t.fmt t.codebook
        let q := quantGroup book (polEsc (d.entryPolicy j.p t.entry)) t.rnd (ts32Val ts) elems
        let mine := (List.range t.g).filterMap fun i => let k := grp * t.g + i
                                                        if k < t.k then (xs[k - lo]?).map fun x => (k, x) else none
        let d := (d.noteReads n s.1 j lines).countOperand j t q.stats
        let d := d.bumpBoth j 7 ((mine.filter fun x => x.2.2.1 == 1 && gatherFirst pro row x.1).length)
        let d := d.bumpBoth j 6 (mine.foldl (fun m x => m + x.2.2.2) 0)
        let g : StGroup := ⟨j.p, j.l.key, o, row, grp, groupOfQ book t.fmt q, orFail fail (orFail (badLine s.1 lines) (e.heldFail spans))⟩
        (s.1, d.modStation (stationKey slice st) fun x => x.addGroups [g])
  | _ => s

/-- AMAX of a block under direct import: its largest finite magnitude (Table 3.5, log entry 22). -/
def mxAmax (t : MxType) (e : Nat) (raw : List Nat) : BitVec 32 :=
  if e = 255 then 0
  else roundUpF32 (raw.foldl (fun m x => match mxValue t x with | .fin q => rmax m (rabs q * pow2 ((e : Int) - 127)) | _ => m) 0)

/-- A station imports one group of an MX tensor directly (R68, R69). The largest scale byte is read off the whole scale array: its lines
count as read with the slot's first group (R19), and a word of it that cannot be corrected touches every group (R20). -/
def doImport (slice : Nat) (st : Fin 2) (j : Job) (o row grp now : Nat) (fail : Failure) (s : StageBufs × Dev) :
    StageBufs × Dev :=
  let d := s.2
  match operandOf j.b.kind o with
  | some (.convert w _ t) =>
    (match w.fmt with
    | .mx ty _ =>
      let e := d.jobEnv s.1 j
      let pro := prologueOf j.img j.b.kind o
      let per := ceilDiv w.cols 32
      if !directMx ty w t pro ∨ rowsPad t.fmt t.rows ≤ row ∨ kPad t.k ≤ 32 * grp then s
      else match e.bytes ⟨w.scales, o + 8, 0, w.rows * per⟩ with
      | none => s
      | some sc =>
        let eMax := (sc.filter fun b => b != 0xFF#8).foldl (fun (m : Option Nat) b => some (max (m.getD 0) b.toNat)) none
        let (ts, c) := mxTs32 ty eMax
        let spans := (List.range 32).filterMap fun i => if row < t.rows ∧ 32 * grp + i < t.k then some (32 * grp + i) else none
        match e.source w pro.reverse row (32 * grp) with
        | none => s
        | some src =>
          let raw : Option (List Nat × Nat) := match src.at_ with
            | none => some (spans.map fun _ => 0, 255)
            | some (mr, mc) =>
              if w.rows ≤ mr ∨ w.cols ≤ mc then some (spans.map fun _ => 0, 255)
              else (spans.mapM fun k => if w.cols ≤ mc + (k - 32 * grp) then some 0 else (e.bytes ((srcSpans w o mr (mc + (k - 32 * grp))).headD ⟨w.place, o, 0, 1⟩)).map fun b =>
                mxRaw ty (mc + (k - 32 * grp)) (natLE b)).map fun l => (l, (sc.getD (mr * per + mc / 32) 0).toNat)
          match raw with
          | none => s
          | some (l, b) =>
            let empty : Bool := match src.at_ with | some (mr, mc) => decide (w.rows ≤ mr) || decide (w.cols ≤ mc) | none => true
            let q := mxImport ty c b l
            let stats := if l.isEmpty then ⟨0, 0, 0, 0, 0, 0, 0, 0⟩
              else if empty then ⟨l.length, 1, 0, 0, 0, 0, 1, 0⟩
              else { q.stats with amax := mxAmax ty b l }
            let q : QGroup := { q with codes := q.codes ++ List.replicate (32 - q.codes.length) 0,
                                       gs8 := if l.isEmpty then 0 else q.gs8, stats := stats }
            let book := bookOf j.img.codebooks t.fmt t.codebook
            let all : Span := ⟨w.scales, o + 8, 0, w.rows * per⟩
            let own := spans.flatMap fun k => e.proSpans w o pro row k
            let known := ((d.jobRun j).bind fun r => r.scales.lookup o).isSome
            let lines := e.spanLines (if known then own else all :: own)
            let d := (d.noteReads now s.1 j lines).countOperand j t stats
            let d := d.bumpBoth j 7 (if grp = 0 then src.range else 0)
            let d := d.modJob j fun r => { r with scales := (r.scales.filter fun x => x.1 != o) ++ [(o, ts)] }
            let g : StGroup := ⟨j.p, j.l.key, o, row, grp, groupOfQ book t.fmt q,
              orFail fail (orFail (badLine s.1 (e.spanLines (all :: own))) (e.heldFail (all :: own)))⟩
            (s.1, d.modStation (stationKey slice st) fun x => x.addGroups [g])
    | _ => s)
  | _ => s

/-! ## Weight digests (R318, R319) -/

/-- Kind byte of a line in its digest header. -/
def digestKind : LineKind → Byte
  | .head | .rowScale => 0 | .code => 1 | .scale => 2 | .ash => 3 | .wide => 4

/-- The 16-byte header of a digest message. -/
def digestHeader (kind : Byte) (index : Nat) (tid : BitVec 24) : List Byte :=
  bytesLE 8 index ++ [kind] ++ bytesLE 3 tid.toNat ++ List.replicate 4 0

/-- Whether a partition may take digests with a key slot: a valid one of PURPOSE 0 and of the partition's own KEY_KIND (R354). -/
def Dev.mayDigest (d : Dev) (p : PartId) (key : Nat) : Bool :=
  let k := d.key p key
  k.valid && k.purpose == 0 && k.kind == (d.part p).cfg.keyKind

/-- Digest identifiers and key handles that a binding and its chain name (R319, R354). -/
def bindDigests (img : Image) (b : Binding) : List (Nat × Nat) :=
  (match b.kind with | .weightDigest _ key id => [(key, id)] | _ => [])
    ++ (chainOf img (outputOf b.kind).1).stages.filterMap fun s => match s with | .digest key id => some (key, id) | _ => none

/-- Whether a binding reads a tensor as operand o, converted or not. -/
def readsAs (b : Binding) (o : Nat) (tid : BitVec 24) : Bool :=
  (match operandOf b.kind o with | some x => (operandTensor x).tid == tid | none => false)
    || (match wideOf b.kind o with | some w => w.tid == tid | none => false)

/-- Whether a weight shard's binding takes its digest in a segment: a slot of the segment names it, or, where no slot names it, some
attempt reads its tensor (R319, log entry 54). -/
def shardOf (img : Image) (seg : Nat) (b : Binding) : Bool :=
  match b.kind with
  | .weightDigest t _ _ =>
    if img.slots.any fun l => l.bind == b.key then (bindsOfSeg img seg).any fun x => x.key == b.key
    else (bindsOfSeg img seg).any fun x => [0, 1, 2].any fun o => readsAs x o t.tid
  | _ => false

/-- Digest identifiers of a segment, each of its bindings taken once (R319). -/
def segDigests (img : Image) (seg : Nat) : List Nat :=
  (img.bindings.filter fun b => shardOf img seg b || (bindsOfSeg img seg).any fun x => x.key == b.key).flatMap fun b => (bindDigests img b).map (·.2)

/-- The digests of an attempt of a segment before any line is hashed: one for each identifier in use (R320). -/
def Part.freshDigests (x : Part) (img : Image) (seg : Nat) : List DigestRec := (segDigests img seg).eraseDups.map fun id => ⟨x.self, id, 0, 0⟩

/-- A line hashed into digest `id` under the key of a handle (R318); a key that is not the partition's to digest with takes none (R354). -/
def Dev.hashLine (d : Dev) (p : PartId) (key id : Nat) (kind : Byte) (index : Nat) (tid : BitVec 24) (data : List Byte) : Dev :=
  if !d.mayDigest p key then d
  else
  let h := natLE (aesCmac (d.key p key).bytes (digestHeader kind index tid ++ data))
  d.modPart p fun x =>
    let own := if x.chk.own.any fun g => g.id == id then x.chk.own else x.chk.own ++ [⟨x.self, id, 0, 0⟩]
    { x with chk := { x.chk with own := own.map fun g =>
        if g.id = id then { g with digest := g.digest + BitVec.ofNat 128 h, lines := g.lines + 1 } else g } }

/-- Bindings of weight shards hashed in the current segment: those its slots name, and those no slot names (R319). -/
def Part.hashBindings (x : Part) : List Binding :=
  x.segBindings ++ match x.ldr.image with
    | some img => img.bindings.filter fun b => !(img.slots.any fun l => l.bind == b.key)
    | none => []

/-- A station hashes one line of a weight shard as it streams past (R16, R318): once per attempt (R319). A wide line carries the wide
tensor's identifier. A residue failure in the handshake touches no tile, but counts for its station (R298). -/
def doHash (slice : Nat) (st : Fin 2) (bind : Nat) (kind : LineKind) (index now : Nat) (c : Check) (s : StageBufs × Dev) : StageBufs × Dev :=
  let d := s.2
  let u := unitOf slice 1 st.val
  match d.ownerOf slice with
  | none => s
  | some p =>
    match ((d.part p).hashBindings.find? fun b => b.key == bind).map fun (b : Binding) => b.kind with
    | some (.weightDigest t key id) =>
      let no := if kind = .rowScale then 1 + index else index
      let mark := (id, (digestKind kind).toNat, no)
      let held := (tabGet Station.reset d.stations (stationKey slice st)).lines.find? fun l =>
        l.part == p && l.kind == kind && l.index == index
          && (match d.jobOf p l.slot with
            | some j => if kind = .wide then (wideOf j.b.kind l.opnd).map (·.tid) == some t.tid
                        else (operandOf j.b.kind l.opnd).map (fun o => (operandTensor o).tid) == some t.tid
            | none => false)
      (match held with
      | some l =>
        if d.fenced u || (d.part p).att.hashed.contains mark then s
        else
          let f : Dev × Failure := match c with
            | .residue => let r := d.residueFail now slice u; (r.1, [r.2])
            | _ => (d, [])
          (s.1, ((f.1.lostFailure now f.2).modAtt p fun a => { a with hashed := mark :: a.hashed }).hashLine p key id (digestKind kind) no t.tid l.data)
      | none => s)
    | _ => s

end Sys2Proof.Machine
end

