-- ==== Sys2Proof/Machine/Arrays.lean ====
section
/-! DEFINITION. The arrays: tiles in turn (R14, R32, R437), operand registers (R29), dot-unit handshakes (R104, R105), the
checker's taps (R18, R297), and TILE_COMPLETE (R14, R15). -/

namespace Sys2Proof.Machine

/-! ## Units of work (R437, R150) -/

/-- Whether a unit lies in a slot's share of the work. -/
def inWork (l : Slot) (u : Nat) : Bool := decide (l.workFirst ≤ u) && decide (u < l.workFirst + l.workN)

/-- Array of the slice that holds a stationary block: the (β mod m)-th of those the slot names. -/
def arrayFor (l : Slot) (block : Nat) : Option Nat := (slotArrays l)[block % max 1 (slotArrays l).length]?

/-- Key tiles of a row (R150). -/
def keyTiles (c : Chained) : Nat := kPad c.nk / 128
/-- Spans of a row (R150). -/
def spanCount (c : Chained) : Nat := ceilDiv (keyTiles c) (2 ^ c.spanLog2)
/-- First and end key tile of a span. -/
def spanTiles (c : Chained) (j : Nat) : Nat × Nat := (j * 2 ^ c.spanLog2, min (keyTiles c) ((j + 1) * 2 ^ c.spanLog2))

/-- Stationary block of a unit. -/
def blockOfUnit (k : BindKind) (u : Nat) : Nat :=
  match k with
  | .product _ _ rt ct _ _ _ => u / max 1 ct % max 1 rt
  | .chained _ _ _ c _ _ => u / max 1 (spanCount c)
  | _ => u

/-- Array tiles that a unit takes: one for a product; two score tiles and D/64 output tiles per key tile of a span. -/
def tilesOfUnit (k : BindKind) (u : Nat) : Nat :=
  match k with
  | .chained _ _ _ c _ _ =>
    let s := spanTiles c (u % max 1 (spanCount c))
    (s.2 - s.1) * (2 + c.d / 64)
  | _ => 1

/-- The n-th array tile of a unit: row and column tile, reduction part or key tile, and phase. -/
def tileOfUnit (k : BindKind) (u n : Nat) : Nat × Nat × Nat × Nat :=
  match k with
  | .product _ _ rt ct _ _ _ => (u / max 1 ct % max 1 rt, u % max 1 ct, u / max 1 (rt * ct), 0)
  | .chained _ _ _ c _ _ =>
    let ns := max 1 (spanCount c)
    let per := 2 + c.d / 64
    let t := (spanTiles c (u % ns)).1 + n / per
    let s := n % per
    if s < 2 then (u / ns, 2 * t + s, t, 1) else (u / ns, s - 2, t, 2)
  | _ => (u, 0, 0, 0)

/-- Groups [lo, hi) that a tile of a binding runs over (R101, R114, R153). -/
def tileRange (k : BindKind) (t : Tile) : Nat × Nat :=
  match k with
  | .product a _ _ _ parts _ _ =>
    let n := ceilDiv (operandTensor a).k (max 1 (operandTensor a).g)
    let q := ceilDiv n (max 1 parts)
    (min n (t.k * q), min n ((t.k + 1) * q))
  | .chained q _ _ _ _ _ =>
    if t.phase = 1 then (0, ceilDiv (operandTensor q).k (max 1 (operandTensor q).g)) else (4 * t.k, 4 * t.k + 4)
  | _ => (0, 0)

/-- Operand of a tile's row or column side: its number and group size; whether its elements have three limbs. -/
def tileSide (k : BindKind) (t : Tile) (rowSide : Bool) : Nat × Nat × Bool :=
  let o (i : Nat) : Nat × Nat × Bool := match operandOf k i with
    | some x => (i, (operandTensor x).g, isWide8 (operandTensor x).fmt)
    | none => (i, 32, false)
  match k with
  | .chained _ _ _ c _ _ =>
    if t.phase = 1 then o (if rowSide then 0 else 1) else if rowSide then (0, 32, isWide8 c.pFmt) else o 2
  | _ => o (if rowSide then 0 else 1)

/-- Rows of the operand on a side. -/
def sideRows (k : BindKind) (t : Tile) (rowSide : Bool) : Nat :=
  match operandOf k (tileSide k t rowSide).1 with
  | some x => (operandTensor x).rows
  | none => 0

/-! ## Beginning a tile -/

/-- Array a of the engine. -/
def Dev.array (d : Dev) (a : Nat) : ArraySt := tabGet ArraySt.reset d.arrays a
/-- Array a replaced. -/
def Dev.setArray (d : Dev) (a : Nat) (x : ArraySt) : Dev := { d with arrays := tabSet ArraySt.reset d.arrays a x }

/-- Tags of the tiles that an array holds, changed. -/
def ArraySt.retag (x : ArraySt) (f : Nat → Nat) : ArraySt :=
  let g (t : Tile) : Tile := { t with tag := f t.tag }
  { x with tile := x.tile.map g, drained := x.drained.map g, judges := x.judges.map fun q => { q with tile := g q.tile } }

/-- The tag of the next tile that a unit of a slice begins (R32), and the count moved on: tiles begun in one handshake count in ascending
unit code, so those of later units that have begun theirs in it move on by one. R32 orders the tiles of one handshake, and a tick can hold
more than one (R_G3 is 23.2 a beat of 16 ticks); the model takes all the tiles that a slice begins at one tick as begun in one handshake
(DESIGN CHOICE, log entry 67). -/
def Dev.nextTag (d : Dev) (p : PartId) (slice t : Nat) (u : UnitCode) : Dev × Nat :=
  let a := (d.part p).att
  let n := tabGet 0 a.tilesBegun slice
  let now : List Nat := match a.begunNow.find? fun y => y.1 == slice with | some (_, t', us) => if t' = t then us else [] | none => []
  let base := n - now.length
  let place := (now.filter fun v => decide (v ≤ u.toNat)).length
  let later (tag : Nat) : Bool :=
    let i := (tag + 1024 - base % 1024) % 1024
    tag / 1024 == slice && decide (place ≤ i) && decide (i < now.length)
  let f (tag : Nat) : Nat := if later tag then slice * 1024 + (tag + 1) % 1024 else tag
  let d := if place = now.length then d
    else (List.range 4).foldl (fun (d : Dev) i => { d with arrays := tabMod ArraySt.reset d.arrays (4 * slice + i) fun x => x.retag f }) d
  let us := now.filter (fun v => decide (v ≤ u.toNat)) ++ u.toNat :: now.filter fun v => !decide (v ≤ u.toNat)
  (d.modAtt p fun a => { a with tilesBegun := tabSet 0 a.tilesBegun slice (n + 1), openTiles := a.openTiles + 1,
                                begunNow := (a.begunNow.filter fun y => y.1 != slice) ++ [(slice, t, us)] },
   slice * 1024 + (base + place) % 1024)

/-- Tiles of a unit begun so far. -/
def SlotRun.subOf (r : SlotRun) (u : Nat) : Nat := tabGet 0 r.sub u

/-- Whether P is there for the rows of a block of a key tile (R152). -/
def Dev.pReady (d : Dev) (j : Job) (t : Nat × Nat × Nat × Nat) : Bool :=
  (List.range 64).all fun i =>
    let row := 64 * t.1 + i
    decide ((outShape j.img j.b.kind).1 ≤ row)
      || (d.part j.p).held.scores.any fun s => s.bind == j.b.key && s.row == row && s.tile == t.2.2.1 && !s.pGroups.isEmpty

/-- An array begins its next tile of a slot: the first in ascending order of the units whose stationary block it holds. -/
def doBegin (slice : Nat) (a : Fin 4) (j : Job) (u n : Nat) (s : StageBufs × Dev) : StageBufs × Dev :=
  let d := s.2
  let x := d.array (4 * slice + a.val)
  match j.b.kind, d.jobRun j with
  | .product .., some r | .chained .., some r =>
    let mine := ((List.range j.l.workN).map (j.l.workFirst + ·)).filter fun v => arrayFor j.l (blockOfUnit j.b.kind v) == some a.val
    let next := mine.find? fun v => decide (r.subOf v < tilesOfUnit j.b.kind v)
    let m := r.subOf u
    let t := tileOfUnit j.b.kind u m
    if next = some u ∧ x.tile.isNone ∧ r.stopped.isEmpty ∧ (t.2.2.2 ≠ 2 ∨ d.pReady j t) then
      let (d, tag) := d.nextTag j.p slice n (unitOf slice 0 a.val)
      let d := d.modJob j fun r => { r with begun := if m = 0 then r.begun ++ [u] else r.begun, sub := tabSet 0 r.sub u (m + 1) }
      let tile : Tile := ⟨j.p, j.l.key, j.b.key, u, t.1, t.2.1, t.2.2.1, tag, t.2.2.2⟩
      (s.1, d.setArray (4 * slice + a.val) { d.array (4 * slice + a.val) with
        acc := [], gsum := [], rowOp := [], colOp := [], tapRow := [], tapCol := [], pureRow := [], pureCol := [], grp := (tileRange j.b.kind tile).1,
        limbI := 0, limbJ := 0, part := 0, tile := some tile, overflow := false, failure := [] })
    else s
  | _, _ => s

/-! ## Operand registers -/

/-- A group of zeros of a given size. -/
def zeroGroup (g : Nat) (wide : Bool) : OpGroup := ⟨List.replicate g 0, List.replicate g false, wide, 0⟩

/-- What an array reads of a pass-mode operand that lies in the stage buffer: nothing yet, its group, or a failed check. -/
inductive Feed where
  | group (g : OpGroup) (fail : Failure) (lines : List (Nat × Nat))
  | bad (unit : UnitCode) (code : Byte) (synd : Nat) (tid : BitVec 24) (lines : List (Nat × Nat))
  | wait

/-- An operand's group straight from the stage buffer (R29), with the lines read, the ash packets as far as the walk goes (R19). Its
block is checked as a station in pass mode checks it, before any arithmetic uses it (R66); the unit of a failure is the stage buffer
(DEDUCED, log entry 24). A fenced stage buffer gives nothing (R382). -/
def Dev.directGroup (d : Dev) (e : Env) (j : Job) (o row grp : Nat) : Feed :=
  match operandOf j.b.kind o with
  | some (.pass t) =>
    (match t.code with
    | .mem _ => .wait
    | .buf sl _ =>
      let block := groupOf t.fmt t.g t.k row (grp * t.g) / groupsPerBlock t.fmt t.g
      let slice := e.part.slice sl
      let at_ (kind : LineKind) (i : Nat) : List (Nat × Nat) := match linePlace j.img j.b.kind o kind i with
        | some (.buf s first, line) => (e.part.lineAt s first line).toList
        | _ => []
      let rows := if t.rowTs then ceilDiv (4 * rowsPad t.fmt t.rows) 512 else 0
      let lines (ash : Nat) : List (Nat × Nat) := at_ .head 0 ++ (List.range rows).flatMap (at_ .rowScale) ++ at_ .code block
        ++ at_ .scale (block * groupsPerBlock t.fmt t.g / 512) ++ (List.range ash).flatMap (at_ .ash)
      if d.fenced (unitOf slice 5 0) || ((d.jobRun j).map fun r => r.stopped.contains (unitOf slice 5 0)).getD true then .wait
      else match passBlock (e.lineOf j o) j o t block with
      | .wait => .wait
      | .bad code synd ash => .bad (unitOf slice 5 0) code synd t.tid (lines ash)
      | .ok gs ash => match gs.find? fun g => g.row == row && g.grp == grp with
        | some g => .group g.g g.fail (lines ash)
        | none => .wait)
  | _ => .wait

/-- The group that a register of a tile takes in turn; none while it is not there. -/
def Dev.groupFor (d : Dev) (j : Job) (t : Tile) (rowSide : Bool) (i grp : Nat) : Option (OpGroup × Failure) :=
  let (o, g, wide) := tileSide j.b.kind t rowSide
  let row := 64 * (if rowSide then t.row else t.col) + i
  if t.phase = 2 ∧ rowSide then
    if (outShape j.img j.b.kind).1 ≤ row then some (zeroGroup g wide, [])
    else ((d.part j.p).held.scores.find? fun s => s.bind == j.b.key && s.row == row && s.tile == t.k).bind fun s =>
      (s.pGroups[grp - 4 * t.k]?).map fun q => (q, [])
  else if sideRows j.b.kind t rowSide ≤ row then some (zeroGroup g wide, [])
  else (d.findGroup j o row grp).map fun x => (x.g, x.fail)

/-- An operand register of an array takes its group (R29, R104): from the slice's ingress stations, or from the stage buffer. -/
def doLoad (slice : Nat) (a : Fin 4) (rowSide : Bool) (i : Fin 64) (j : Job) (n : Nat) (fail : Failure)
    (s : StageBufs × Dev) : StageBufs × Dev :=
  let d := s.2
  let x := d.array (4 * slice + a.val)
  match x.tile with
  | none => s
  | some t =>
    if x.limbI = 0 ∧ x.limbJ = 0 ∧ x.part = 0 ∧ x.grp < (tileRange j.b.kind t).2 then
      let take (d : Dev) (g : OpGroup) (f : Failure) : StageBufs × Dev :=
        let put (m : Tab OpGroup) : Tab OpGroup := tabSet OpGroup.reset m i.val g
        let x := { x with failure := orFail x.failure (orFail f fail) }
        (s.1, d.setArray (4 * slice + a.val) (if rowSide then { x with rowOp := put x.rowOp } else { x with colOp := put x.colOp }))
      match d.groupFor j t rowSide i.val x.grp with
      | some (g, f) => take d g f
      | none =>
        if t.phase = 2 ∧ rowSide then s
        else match d.directGroup (d.jobEnv s.1 j) j (tileSide j.b.kind t rowSide).1 (64 * (if rowSide then t.row else t.col) + i.val) x.grp with
        | .wait => s
        | .group g f lines => take (d.noteReads n s.1 j lines) g f
        | .bad u code synd tid lines => (s.1, (d.noteReads n s.1 j lines).stopJob n j u code synd tid)
    else s

/-! ## Dot units -/

/-- A table from a function over [0, n), zero entries left out. -/
def tabOf {w : Nat} (n : Nat) (f : Nat → BitVec w) : Tab (BitVec w) :=
  (List.range n).filterMap fun i => let v := f i; if v = 0 then none else some (i, v)

/-- The registers of a side in order. -/
def regs (m : Tab OpGroup) : List OpGroup := (List.range 64).map fun i => tabGet OpGroup.reset m i

/-- Whether all 64 registers of a side are loaded. -/
def regsFull (m : Tab OpGroup) : Bool := (List.range 64).all fun i => !(tabGet OpGroup.reset m i).q.isEmpty

/-- What the checker's taps add for one group: Σ_p â_i[p] × Σ_j b̂_j[p] for each i (R297). -/
def tapSums (a b : List OpGroup) : List Int :=
  let n := (b.headD OpGroup.reset).q.length
  let tot := sumLists n (b.map scaled)
  a.map fun g => dotInts (scaled g) tot

/-- Tap sums added to a checker's vector. -/
def addTaps (m : Tab (BitVec 128)) (l : List Int) : Tab (BitVec 128) :=
  tabOf 64 fun i => tabGet 0 m i + BitVec.ofInt 128 (l.getD i 0)

/-- One handshake of an array's dot units: the pass sums; after the group's last handshake the scaled sums enter the
accumulators and the checker's sums, and the group-sum registers clear (R104, R105). -/
def ArraySt.dots (x : ArraySt) : ArraySt :=
  let ra := regs x.rowOp
  let rb := regs x.colOp
  let g := ra.headD OpGroup.reset
  let h := rb.headD OpGroup.reset
  let parts := max 1 (g.q.length / 32)
  let sum (k : Nat) : BitVec 54 :=
    tabGet 0 x.gsum k + BitVec.ofInt 54 (passSum (ra.getD (k / 64) OpGroup.reset) (rb.getD (k % 64) OpGroup.reset) x.limbI x.limbJ x.part)
  let gsum := tabOf 4096 sum
  if x.part + 1 < parts then { x with gsum := gsum, part := x.part + 1 }
  else if x.limbJ + 1 < limbCount h.wide then { x with gsum := gsum, part := 0, limbJ := x.limbJ + 1 }
  else if x.limbI + 1 < limbCount g.wide then { x with gsum := gsum, part := 0, limbJ := 0, limbI := x.limbI + 1 }
  else
    let add (k : Nat) : BitVec 128 × Bool :=
      let c := (tabGet 0 gsum k).toInt * gs8Scale (ra.getD (k / 64) OpGroup.reset).gs8 * gs8Scale (rb.getD (k % 64) OpGroup.reset).gs8
      add128 (tabGet 0 x.acc k) (BitVec.ofInt 128 c)
    let rows := tapSums ra rb
    let cols := tapSums rb ra
    { x with acc := tabOf 4096 fun k => (add k).1, overflow := x.overflow || (List.range 4096).any fun k => (add k).2,
             gsum := [], rowOp := [], colOp := [], tapRow := addTaps x.tapRow rows, tapCol := addTaps x.tapCol cols,
             pureRow := addTaps x.pureRow rows, pureCol := addTaps x.pureCol cols, grp := x.grp + 1, limbI := 0, limbJ := 0, part := 0 }

/-- A fault in an array or a checker (R295): flipped bits of an accumulator or of a reference sum. -/
def ArraySt.upset (x : ArraySt) (c : Check) : ArraySt :=
  match c with
  | .upset k f => { x with acc := tabMod 0 x.acc k.val (· ^^^ f) }
  | .tapUpset true i f => { x with tapRow := tabMod 0 x.tapRow i.val (· ^^^ f) }
  | .tapUpset false i f => { x with tapCol := tabMod 0 x.tapCol i.val (· ^^^ f) }
  | _ => x

/-- ACCUM_LIMIT from an array or its de-quantiser (R107). -/
def Dev.accumLimit (d : Dev) (t : Nat) (unit : UnitCode) (tile : Tile) (tid : BitVec 24) (cause : Nat) : Dev :=
  d.report t { code := 0x10, severity := .stepReplay, unit := unit, part := some tile.part, synd := cause, slot := tile.slot,
               tid := some tid, tag := some tile.tag }

/-- One handshake of an array (R104), with its overflow record (R107). -/
def doDots (slice : Nat) (a : Fin 4) (j : Job) (n : Nat) (fail : Failure) (c : Check) (s : StageBufs × Dev) :
    StageBufs × Dev :=
  let d := s.2
  let x := d.array (4 * slice + a.val)
  match x.tile with
  | none => s
  | some t =>
    if regsFull x.rowOp ∧ regsFull x.colOp ∧ x.grp < (tileRange j.b.kind t).2 then
      let y := x.dots.upset c
      let d := d.setArray (4 * slice + a.val) { y with failure := orFail y.failure fail }
      (s.1, if y.overflow && !x.overflow then d.accumLimit n (unitOf slice 0 a.val) t (outTid j.img j.b.kind) 0 else d)
    else s

/-- TILE_COMPLETE (R14, R15): every accumulator moves to its drain latch and is cleared, once the last group is in and the
latches are free; the verdict then waits for the checker (R299). -/
def execTileComplete (t : Tick) (a : ArrayId) (s : State) : Host.Outcome State Fault Refusal :=
  onDev t s fun _ d =>
    let x := d.array a.val
    match x.tile with
    | none => d
    | some tile =>
      match d.job (a.val / 4) tile.slot (arrayUnit a.val) with
      | none => d
      | some j =>
        if x.drained.isNone ∧ (tileRange j.b.kind tile).2 ≤ x.grp then
          let all (r c : Tab (BitVec 128)) : List (BitVec 128) := (List.range 64).map (tabGet 0 r) ++ (List.range 64).map (tabGet 0 c)
          d.setArray a.val { x with
            latch := x.acc, acc := [], drained := some tile, tile := none, tapRow := [], tapCol := [], pureRow := [], pureCol := [],
            overflow := false, failure := [],
            judges := x.judges ++ [⟨tile, some (tileSums x.acc, all x.tapRow x.tapCol), all x.pureRow x.pureCol,
              if x.overflow then some 0x10 else none, x.failure⟩] }
        else d

end Sys2Proof.Machine
end

