-- ==== Sys2Proof/Machine/Asm.lean ====
section
/-! DEFINITION. Writing results: bytes to stage buffers and memory (R393), and the assembly of a narrow tensor's code,
scale and ash streams with its head (R59 to R64, R77). -/

namespace Sys2Proof.Machine

/-- Where results of a binding go: partition, local slice whose ports carry them, slot, binding, digest stage (key, id),
and the tensor identifier. -/
structure Sink where
  p : PartId
  slice : Nat
  slot : Nat
  bind : Nat
  digest : Option (Nat × Nat)
  tid : BitVec 24

/-! ## Bytes -/

/-- A part of one memory line written through the slice's port 0 (log entry 23). -/
def Dev.writeMem (d : Dev) (k : Sink) (addr off : Nat) (bs : List Byte) (mask : BitVec 64) (tag : BitVec 16) : Dev :=
  d.issueWrite ⟨(d.part k.p).memPort k.slice 0, none, k.p, k.slot, addr,
    List.replicate off 0 ++ bs ++ List.replicate (512 - off - bs.length) 0, mask, tag, false⟩

/-- A span of bytes written to memory, line by line. -/
def Dev.writeSpan : Nat → Dev → Sink → Nat → List Byte → Dev
  | 0, d, _, _, _ => d
  | n + 1, d, k, addr, bs =>
    if bs.isEmpty then d
    else
      let off := addr % 512
      let here := bs.take (512 - off)
      (d.writeMem k (addr - off) off here (wordMask off here.length) 0).writeSpan n k (addr + here.length) (bs.drop (512 - off))

/-- Bytes written at an offset of a place, tag zero (R64, R393). -/
def emitBytes (k : Sink) (pl : Place) (off : Nat) (bs : List Byte) (s : StageBufs × Dev) : StageBufs × Dev :=
  match pl with
  | .buf slice line => (sbWriteSpan (bs.length / 512 + 2) s.1 ((s.2.part k.p).slice slice) (512 * line + off) bs, s.2)
  | .mem a => (s.1, s.2.writeSpan (bs.length / 512 + 2) k (a + off) bs)

/-- A whole line written with its tag, and hashed when the chain has a digest stage (R140, R318). -/
def emitLine (k : Sink) (pl : Place) (line : Nat) (bs : List Byte) (tag : BitVec 16) (kind : Byte) (index : Nat)
    (s : StageBufs × Dev) : StageBufs × Dev :=
  let d := match k.digest with | some (key, id) => s.2.hashLine k.p key id kind index k.tid bs | none => s.2
  match pl with
  | .buf slice first => (sbWrite s.1 ((d.part k.p).slice slice) (first + line) 0 bs (some tag), d)
  | .mem a => (s.1, d.writeMem k (a + 512 * line) 0 bs (BitVec.allOnes 64) tag)

/-! ## The streams of one tensor -/

/-- Whether a group holds a real element. -/
def groupReal (t : TensorRef) (n : Nat) : Bool := let x := groupPlace t n; decide (x.1 < t.rows) && decide (x.2 < t.k)

/-- The groups of one binding's output that are quantised. -/
def Part.outGroups (x : Part) (bind : Nat) : List OutGroup := x.held.groups.filter fun g => g.bind == bind

/-- Whether the groups [lo, hi) of a tensor are all there; groups of padding always are. -/
def wholeRange (t : TensorRef) (gs : List OutGroup) (lo hi : Nat) : Bool :=
  (List.range (hi - lo)).all fun i => !groupReal t (lo + i) || gs.any fun g => g.g == lo + i

/-- The assembly of a binding's output. -/
def Part.asm (x : Part) (bind : Nat) : OutAsm :=
  (x.held.asms.find? fun a => a.bind == bind).getD ⟨bind, 0, 0, 0, [], false, false⟩

/-- The assembly of a binding's output replaced. -/
def Dev.setAsm (d : Dev) (p : PartId) (a : OutAsm) : Dev :=
  d.modHeld p fun h => { h with asms := (h.asms.filter fun b => b.bind != a.bind) ++ [a] }

/-- A code block from its groups (R58); padding holds the zero code (R60). -/
def codeLine (t : TensorRef) (zc : Nat) (gs : List OutGroup) (block : Nat) : List Byte :=
  let gpb := groupsPerBlock t.fmt t.g
  let code (r c : Nat) : Nat :=
    match gs.find? fun g => g.g == block * gpb + (r * (128 / t.g) + c / t.g) with
    | some g => g.codes.getD (c % t.g) zc
    | none => zc
  (List.range 512).map fun i =>
    if isWide8 t.fmt then BitVec.ofNat 8 (code (i / 128) (i % 128))
    else BitVec.ofNat 8 (code (i / 64) (i % 64 * 2) + 16 * code (i / 64) (i % 64 * 2 + 1))

/-- A scale packet from its groups (R59). -/
def scaleLine (gs : List OutGroup) (packet : Nat) : List Byte :=
  (List.range 512).map fun i => ((gs.find? fun g => g.g == 512 * packet + i).map (·.gs8)).getD 0

/-- The bytes of a group's codes and their place in its code block (R58, Table 2.8). -/
def groupBytes (t : TensorRef) (g : OutGroup) : Nat × List Byte :=
  let (r, c) := groupPlace t g.g
  (byteInBlock t.fmt r c,
   if isWide8 t.fmt then (List.range t.g).map fun i => BitVec.ofNat 8 (g.codes.getD i 0)
   else (List.range (t.g / 2)).map fun i => BitVec.ofNat 8 (g.codes.getD (2 * i) 0 + 16 * g.codes.getD (2 * i + 1) 0))

/-- A quantised group written at once where its streams lie in a stage buffer (R61, R77); memory takes whole lines (R393). -/
def emitGroup (k : Sink) (t : TensorRef) (g : OutGroup) (s : StageBufs × Dev) : StageBufs × Dev :=
  let x := s.2.part k.p
  let put (sb : StageBufs) (pl : Place) (line off : Nat) (bs : List Byte) (tag : BitVec 16) : StageBufs := match pl with
    | .buf slice first => sbWrite sb (x.slice slice) (first + line) off bs (some tag)
    | .mem _ => sb
  let block := g.g / groupsPerBlock t.fmt t.g
  let b := groupBytes t g
  let sb := put s.1 t.code block b.1 b.2 (codeTag t.tid block)
  (put sb t.scale (scaleHead t + g.g / 512) (g.g % 512) [g.gs8] (scaleTag t.tid (g.g / 512)), s.2)

/-- The head line and row-scale table of a finished tensor (R63). -/
def emitHead (k : Sink) (img : Image) (t : TensorRef) (ts : BitVec 32) (nAsh : Nat) (rowTs : Tab (BitVec 32))
    (s : StageBufs × Dev) : StageBufs × Dev :=
  let sum := ((img.codebooks.find? fun r => r.key == t.codebook && r.c256 == (t.fmt == .c256)).map bookSum).getD 0
  let ts := if t.rowTs then Config.headTs32 t.tid else ts
  let s := emitLine k t.scale 0 (headLine t ts sum nAsh (s.2.part k.p).sch.step.toNat) 0 0 0 s
  (List.range (scaleHead t - 1)).foldl (fun s i =>
    let bs := padLine ((List.range 128).flatMap fun n =>
      let r := 128 * i + n
      if r < rowsPad t.fmt t.rows then bytesLE 4 (tabGet one32 rowTs r).toNat else [])
    emitLine k t.scale (1 + i) bs 0 0 (1 + i) s) s

/-- Groups of an output tensor quantised: each group's bytes go to a stage buffer at once, code blocks, scale packets and the head as
each becomes whole (R59, R61, R77, log entry 24). `codes` is false for a landed tensor, whose code and scale lines landed with the packets. -/
def addGroups (k : Sink) (img : Image) (t : TensorRef) (ts : BitVec 32) (codes : Bool) (new : List OutGroup)
    (s : StageBufs × Dev) : StageBufs × Dev :=
  let d := s.2.modHeld k.p fun h => { h with groups := h.groups ++ new }
  let gs := (d.part k.p).outGroups k.bind
  let gpb := groupsPerBlock t.fmt t.g
  let zc := (bookOf img.codebooks t.fmt t.codebook).zeroCode
  let s : StageBufs × Dev := if codes then new.foldl (fun s g => emitGroup k t g s) (s.1, d) else (s.1, d)
  let blocks := (new.map fun g => g.g / gpb).eraseDups.filter fun b => codes && wholeRange t gs (b * gpb) ((b + 1) * gpb)
  let s := blocks.foldl (fun s b => emitLine k t.code b (codeLine t zc gs b) (codeTag t.tid b) 1 b s) s
  let packets := (new.map fun g => g.g / 512).eraseDups.filter fun b =>
    codes && wholeRange t gs (512 * b) (min (groupCount t) (512 * (b + 1)))
  let s := packets.foldl (fun s b => emitLine k t.scale (scaleHead t + b) (scaleLine gs b) (scaleTag t.tid b) 2 b s) s
  let a := (s.2.part k.p).asm k.bind
  let n := a.nAsh + new.foldl (fun m g => m + g.ash.length) 0
  let done := wholeRange t gs 0 (groupCount t)
  let s := (s.1, s.2.setAsm k.p { a with nAsh := n, finished := done })
  if done then emitHead k img t ts n a.rowTs s else s

/-- Span of a binding's next ash packet, once its closing group is known (R61); none before, and when the stream has ended. -/
def Part.ashDue (x : Part) (bind : Nat) (t : TensorRef) : Option Nat :=
  let a := x.asm bind
  let gs := x.outGroups bind
  let total := groupCount t
  let count (n : Nat) : Option Nat :=
    if !groupReal t n then some 0 else (gs.find? fun g => g.g == n).map fun g => g.ash.length
  let known := ((List.range (total - a.nextAsh)).map fun i => count (a.nextAsh + i)).takeWhile Option.isSome
  if total ≤ a.nextAsh ∨ a.overflow then none
  else ashSpan (known.map fun c => c.getD 0) (a.nextAsh + known.length == total) 0 0

/-- The next ash packet of an output tensor written when it is due; beyond the region's capacity ASH_OVERFLOW is raised instead (R62). -/
def emitAsh (k : Sink) (t : TensorRef) (unit : UnitCode) (now : Nat) (s : StageBufs × Dev) : StageBufs × Dev :=
  let x := s.2.part k.p
  let a := x.asm k.bind
  match x.ashDue k.bind t with
  | none => s
  | some span =>
    if t.ashCap ≤ a.ashPackets then
      (s.1, (s.2.setAsm k.p { a with overflow := true }).report now
        { code := 0x08, severity := .stepReplay, unit := unit, part := some k.p, synd := 0x30 + a.nextAsh * 2 ^ 32, slot := k.slot,
          tid := some t.tid })
    else
      let gs := x.outGroups k.bind
      let es := (List.range span).flatMap fun i => ((gs.find? fun g => g.g == a.nextAsh + i).map (·.ash)).getD []
      let s := emitLine k t.ash a.ashPackets (ashLine t.tid a.nextAsh span es) 0 3 a.ashPackets s
      (s.1, s.2.setAsm k.p { (s.2.part k.p).asm k.bind with nextAsh := a.nextAsh + span, ashPackets := a.ashPackets + 1 })

/-- The digest stage of a chain. -/
def digestOf (c : Chain) : Option (Nat × Nat) :=
  c.stages.findSome? fun s => match s with | .digest k i => some (k, i) | _ => none

/-- The sink of a job. -/
def Job.sink (j : Job) : Sink := ⟨j.p, j.l.slice, j.l.key, j.b.key, digestOf j.chain, outTid j.img j.b.kind⟩

end Sys2Proof.Machine
end

