-- ==== Sys2Proof/Machine/Land.lean ====
section
/-! DEFINITION. Landing packets in the stage buffers (R268, R279, R281), and sending tiles (R275 to R277): a tile whose
destination is its own member lands without crossing a port. -/

namespace Sys2Proof.Machine

/-! ## Landing -/

/-- The sink of landed tensors of a receiving binding. -/
def landSink (p : PartId) (bind : Nat) (r : Receive) : Sink := ⟨p, r.slice, Config.noKey, bind, none, r.tid⟩

/-- Code blocks of the 64 x 128 rectangle (ρ, κ), ascending (R268). -/
def rectBlocks (t : TensorRef) (row col : Nat) : List Nat :=
  (List.range (64 / blockRows t.fmt)).map fun i => (64 * row / blockRows t.fmt + i) * (kPad t.k / 128) + col

/-- Groups of the rectangle, block by block (R59). -/
def rectGroups (t : TensorRef) (row col : Nat) : List Nat :=
  (rectBlocks t row col).flatMap fun b => (List.range (groupsPerBlock t.fmt t.g)).map fun i => b * groupsPerBlock t.fmt t.g + i

/-- Ash packets of a landed tensor written once all its groups are there. -/
def landAsh (k : Sink) (t : TensorRef) (unit : UnitCode) (now : Nat) : Nat → StageBufs × Dev → StageBufs × Dev
  | 0, s => s
  | n + 1, s => landAsh k t unit now n (emitAsh k t unit now s)

/-- A TILE_CODE payload landed in its tensor's streams (R64, R268). -/
def landCode (p : PartId) (bind : Nat) (r : Receive) (img : Image) (t : TensorRef) (k : Packet) (now : Nat)
    (s : StageBufs × Dev) : StageBufs × Dev :=
  let sink := landSink p bind r
  let row := k.hdr.rowTile.toNat
  let col := k.hdr.colTile.toNat
  let blocks := rectBlocks t row col
  let nb := blocks.length
  let line := pktLine k nb
  let tag (i : Nat) : BitVec 16 := BitVec.ofNat 16 (fieldLE line (480 + 2 * i) 2)
  let s := ((List.range nb).zip blocks).foldl (fun s ib =>
    if blockCount t ≤ ib.2 then s else emitLine sink t.code ib.2 (pktLine k ib.1) (tag ib.1) 1 ib.2 s) s
  let groups := rectGroups t row col
  let gs8 (i : Nat) : Byte := line.getD i 0
  let real := ((List.range groups.length).zip groups).filter fun x => decide (x.2 < groupCount t)
  let s := real.foldl (fun s x =>
    let pk := x.2 / 512
    let keep := match t.scale with
      | .buf slice first =>
        let sl := (s.2.part p).slice slice
        let old := sbRead s.1 sl (first + scaleHead t + pk)
        old.set (x.2 % 512) (gs8 x.1)
      | .mem _ => []
    match t.scale with
    | .buf _ _ => emitLine sink t.scale (scaleHead t + pk) keep (scaleTag t.tid pk) 2 pk s
    | .mem _ => s) s
  let entries := (List.range k.hdr.aux.toNat).map fun i => BitVec.ofNat 32 (fieldLE k.payload (512 * (nb + 1) + 4 * i) 4)
  let per := (ashAssign ((List.range groups.length).map gs8) entries).1
  let new : List OutGroup := (real.filter fun x => groupReal t x.2).map fun x => ⟨bind, x.2, [], gs8 x.1, per.getD x.1 []⟩
  let fresh := new.filter fun g => !((s.2.part p).outGroups bind).any fun h => h.g == g.g
  let s := addGroups sink img t (k.hdr.ref.setWidth 32) false fresh s
  if ((s.2.part p).asm bind).finished then landAsh sink t (unitOf ((s.2.part p).slice r.slice) 7 0) now (t.ashCap + 1) s else s

/-- A TILE_WIDE payload landed in a wide region: rows and columns beyond its extents are left out. The region of part K_PART follows
that of the part before it (DEDUCED, log entry 59: R279 places a tile by all three coordinates). -/
def landWide (p : PartId) (bind : Nat) (r : Receive) (w : WideRef) (k : Packet) (s : StageBufs × Dev) : StageBufs × Dev :=
  let n := wideBytes (wideFmtOf w)
  let row := 64 * k.hdr.rowTile.toNat
  let col := 64 * k.hdr.colTile.toNat
  (List.range 64).foldl (fun s i =>
    if w.rows ≤ row + i then s
    else emitBytes (landSink p bind r) w.place (w.pitch * (k.hdr.kPart.toNat * w.rows + row + i) + n * col)
      ((k.payload.drop (64 * n * i)).take (n * min 64 (w.cols - col))) s) s

/-- First line of a P128 tile from its landing region's, by row tile, column tile and part, as the binding places it (R108). -/
def Part.p128Line (x : Part) (bind : Nat) (r : Receive) (row col part : Nat) : Nat :=
  tileAt (((x.segBind bind).map (·.tiles)).getD []) ((part * r.rowTiles + row) * r.colTiles + col)

/-- A TILE_P128 payload landed (R54, R108). -/
def landP128 (p : PartId) (bind : Nat) (r : Receive) (k : Packet) (s : StageBufs × Dev) : StageBufs × Dev :=
  let part := if k.hdr.flags.getLsbD 1 then 0 else k.hdr.kPart.toNat
  emitBytes (landSink p bind r) (.buf r.slice r.line) (512 * (s.2.part p).p128Line bind r k.hdr.rowTile.toNat k.hdr.colTile.toNat part) k.payload s

/-! ## PF32 parts (R115) -/

/-- The product whose running sums take PF32 parts of a tensor (R115). -/
def Part.sumBinding (x : Part) (img : Image) (tid : BitVec 24) : Option Binding :=
  x.segBindings.find? fun b => match b.kind, (outputOf b.kind).2 with
    | .product .., .pf32 _ | .product .., .p128 _ => false
    | .product .., _ => sumTid img b.kind == tid
    | _, _ => false

/-- A part added to the running sum of a tile in the order of arrival (R115): the first starts it. -/
def Dev.addRun (d : Dev) (p : PartId) (bind row col : Nat) (vals : List (BitVec 32)) (own : Option Tile) : Dev :=
  d.modPart p fun x =>
    let at_ (s : RunSum) : Bool := s.bind == bind && s.row == row && s.col == col
    let n := if own.isNone then 1 else 0
    let new : RunSum := match x.flu.sums.find? at_ with
      | some s => { s with vals := List.zipWith fAdd s.vals vals, count := s.count + n, own := match own with | some t => some t | none => s.own }
      | none => ⟨bind, row, col, vals, n, own⟩
    { x with flu := { x.flu with sums := (x.flu.sums.filter fun s => !at_ s) ++ [new] } }

/-- A part added to the running sum of the product that owns a tensor's sum. -/
def Dev.addPart (d : Dev) (p : PartId) (img : Image) (tid : BitVec 24) (row col : Nat) (vals : List (BitVec 32)) : Dev :=
  match (d.part p).sumBinding img tid with
  | some b => d.addRun p b.key row col vals none
  | none => d

/-- A TILE_PF32 payload added to its sum (R56, R115). -/
def landPf32 (p : PartId) (r : Receive) (img : Image) (k : Packet) (d : Dev) : Dev :=
  d.addPart p img r.tid k.hdr.rowTile.toNat k.hdr.colTile.toNat
    ((List.range 4096).map fun i => BitVec.ofNat 32 (fieldLE k.payload (4 * i) 4))

/-- Lines of a STREAM packet landed in a tensor's streams, by the kind in AUX (Table 10.2, R268). -/
def landStream (p : PartId) (bind : Nat) (r : Receive) (k : Packet) (s : StageBufs × Dev) : StageBufs × Dev :=
  let n := k.hdr.nLines.toNat - 1
  let first := k.hdr.rowTile.toNat * 2 ^ 32 + k.hdr.colTile.toNat
  let tags := pktLine k n
  let kind := k.hdr.aux.toNat / 2 ^ 30
  (List.range n).foldl (fun s i =>
    let tag := BitVec.ofNat 16 (fieldLE tags (2 * i) 2)
    let go (pl : Place) (off : Nat) : StageBufs × Dev := emitLine (landSink p bind r) pl (off + first + i) (pktLine k i) tag 0 0 s
    match r.tensor with
    | some t => if kind = 0 then go t.code 0 else if kind = 1 then go t.scale (scaleHead t) else if kind = 2 then go t.ash 0 else go t.scale 0
    | none => go (.buf r.slice r.line) 0) s

/-- The lines a packet lands in lie within the slice (R19, R144). -/
def Part.landFits (x : Part) (bind : Nat) (r : Receive) (k : Packet) : Bool :=
  let span (pl : Place) (hi : Nat) : Bool := match pl with | .buf _ line => decide (line + hi ≤ Config.linesPerSlice) | .mem _ => true
  let first := k.hdr.rowTile.toNat * 2 ^ 32 + k.hdr.colTile.toNat
  if k.hdr.type = tyTileCode then
    match r.tensor with
    | some t => span t.code (blockCount t) && span t.scale (scaleHead t + scalePackets t) && span t.ash t.ashCap
    | none => true
  else if k.hdr.type = tyTileWide then
    match r.wide with | some w => span w.place (ceilDiv (w.pitch * w.rows * r.parts) 512) | none => true
  else if k.hdr.type = tyTileP128 then
    decide (r.line + x.p128Line bind r k.hdr.rowTile.toNat k.hdr.colTile.toNat k.hdr.kPart.toNat + 128 ≤ Config.linesPerSlice) || k.hdr.flags.getLsbD 1
  else if k.hdr.type = tyTilePf32 then true
  else if r.dynamic then decide (r.line + r.lines ≤ Config.linesPerSlice)
  else match r.tensor with
    | some t => span (if k.hdr.aux.toNat / 2 ^ 30 = 0 then t.code else if k.hdr.aux.toNat / 2 ^ 30 = 2 then t.ash else t.scale)
        (first + scaleHead t + k.hdr.nLines.toNat)
    | none => decide (r.line + first + k.hdr.nLines.toNat ≤ Config.linesPerSlice + 1)

/-- A tile of a fixed-size binding landed, whatever its type. -/
def landTile (p : PartId) (bind : Nat) (r : Receive) (img : Image) (k : Packet) (now : Nat) (s : StageBufs × Dev) :
    StageBufs × Dev :=
  let s :=
    if k.hdr.type = tyTileCode then (match r.tensor with | some t => landCode p bind r img t k now s | none => s)
    else if k.hdr.type = tyTileWide then (match r.wide with | some w => landWide p bind r w k s | none => s)
    else if k.hdr.type = tyTileP128 then landP128 p bind r k s
    else if k.hdr.type = tyTilePf32 then (s.1, landPf32 p r img k s.2)
    else landStream p bind r k s
  (s.1, s.2.landed p bind k.hdr.rowTile.toNat k.hdr.colTile.toNat (placePart k))

/-! ## Sending (R275 to R277) -/

/-- Destination ranks of a tile, each once, and the ranks skipped (R275, R276). -/
def sendRanks (e : Env) (g : BitVec 128) (sel : SendSel) (entry : Nat) : List Nat × Nat :=
  match sel with
  | .shift k => ([(((gRank g : Int) + k) % (max 1 (gN g) : Nat)).toNat], 0)
  | .perm pl =>
    let bs := (e.bytes ⟨pl, 7, 16 * entry, 16⟩).getD []
    let slots := (List.range 8).map fun i => fieldLE bs (2 * i) 2
    let ranks := slots.flatMap fun x =>
      if x = 0xFFFF then [] else if x = 0xFFFE then (List.range (gN g)).filter (· != gRank g) else if gN g ≤ x then [] else [x]
    (ranks.eraseDups, (slots.filter fun x => decide (gN g ≤ x) && decide (x < 0xFFFE)).length)

/-- Checks 5 and 6 for a tile packet, and that the place they give it lies within the slice: one that does not has no address in the
binding's extents (check 6). -/
def landChecks (now : Nat) (p : PartId) (k : Packet) (r : Dev × Option (Nat × Receive)) : Dev × Option (Nat × Receive) :=
  match r.2 with
  | some b => if (r.1.part p).landFits b.1 b.2 k then r else (r.1.skew now p 6 0, none)
  | none => r

/-- A tile of the job given to its own member's receiving binding, under checks 5 and 6 as if it had crossed the flue (R275). -/
def deliverOwn (j : Job) (k : Packet) (now : Nat) (s : StageBufs × Dev) : StageBufs × Dev :=
  let r := landChecks now j.p k (s.2.placeChecks now j.p k (k.hdr.type == tyTileP128 || k.hdr.type == tyTilePf32))
  match r.2 with
  | some (b, rc) => landTile j.p b rc j.img k now (s.1, r.1)
  | none => (s.1, r.1)

/-- The port of the egress station's slice through which a job's packets leave (R438). -/
def Job.port (j : Job) : Nat := sendPort j.b j.l.slice

/-- The lines of a permutation list that a tile's entry is read from. -/
def sendLines (e : Env) (sel : SendSel) (entry : Nat) : List (Nat × Nat) :=
  match sel with | .perm pl => e.linesOf ⟨pl, 7, 16 * entry, 16⟩ | _ => []

/-- A tile sent to each of its destinations (R277): to members, the own receiving binding among them (R275), or, for a P128 part under
a lease, to the switch (R290). -/
def sendTile (j : Job) (a : PktArgs) (cols : Nat) (now : Nat) (s : StageBufs × Dev) : StageBufs × Dev :=
  match sendOf j.chain with
  | none => s
  | some (h, sel) =>
    match s.2.grp j.p h with
    | none => s
    | some g =>
      let e := s.2.jobEnv s.1 j
      let r := sendRanks e g sel (a.row * cols + a.col)
      let s : StageBufs × Dev := (s.1, s.2.noteReads now s.1 j (sendLines e sel (a.row * cols + a.col)))
      let a := { a with group := h }
      let lease := if a.type = tyTileP128 then (s.2.part j.p).leaseFor j.img j.l h else none
      let s := r.1.foldl (fun s n =>
        match (s.2.listOf j.p g)[n]?, lease with
        | none, _ => s
        | some m, some r => (s.1, s.2.sendPart j.p j.port a m r.switch)
        | some m, none => if n = gRank g then deliverOwn j (s.2.mkPkt j.p a (mIndex m)) now s else (s.1, s.2.sendTo j.p j.port false a m)) s
      (s.1, (s.2.bumpBoth j 9 r.2).modAtt j.p fun x => { x with sent := ⟨j.b.key, a.row, a.col, a.kPart, r.1⟩ :: x.sent })

/-- A verdict to the ranks that a tile went to, behind its last packet (R277). It takes the control context of the tile's port (R269). -/
def sendVerdict (j : Job) (y : SentTile) (unit : UnitCode) (cause : Byte) (pos : Bool) (d : Dev) : Dev :=
  match sendOf j.chain with
  | none => d
  | some (h, _) =>
    match d.grp j.p h with
    | none => d
    | some g =>
      let a : PktArgs := { type := tyVerdict, group := h, aux := (verdictWord unit cause pos).toNat, row := y.row, col := y.col, kPart := y.part,
                           tid := (outTid j.img j.b.kind).toNat }
      y.ranks.foldl (fun d n =>
        match (d.listOf j.p g)[n]? with
        | none => d
        | some m =>
          if n = gRank g then
            match (d.part j.p).receiverAny (d.mkPkt j.p a (mIndex m)) with
            | some b => if pos then d.modAtt j.p fun x => { x with verdicts := (b.1, (d.part j.p).self, y.row, y.col, y.part) :: x.verdicts } else d
            | none => d
          else d.sendTo j.p j.port true a m) d

end Sys2Proof.Machine
end

