-- ==== Sys2Proof/Machine/Egress.lean ====
section
/-! DEFINITION. The row units' and egress stations' work on values: chains with taps and statistics (R121 to R139), held
rows (R133, R164), quantise-out and exports (R77, R137, R162 to R166), wide writes (R110, R126), sends of finished tiles (R140). -/

namespace Sys2Proof.Machine

/-! ## Small writes -/

/-- Bytes of a digested tensor written at an offset: lines that become whole are hashed (R140, R318). `full` is the bytes a line holds. -/
def hashSpan (k : Sink) (kind : Byte) (full : Nat → Nat) (off : Nat) (bs : List Byte) (d : Dev) : Dev :=
  match k.digest with
  | none => d
  | some (key, id) =>
    let lines := (List.range (ceilDiv (off % 512 + bs.length) 512)).map (off / 512 + ·)
    lines.foldl (fun d l =>
      let mine (y : WideLine) : Bool := y.bind == k.bind && y.kind == kind && y.line == l
      let old := ((d.part k.p).held.lines.find? mine).getD ⟨k.bind, kind, l, 0, List.replicate 512 0⟩
      let lo := max off (512 * l)
      let hi := min (off + bs.length) (512 * (l + 1))
      let data := old.data.take (lo - 512 * l) ++ (bs.drop (lo - off)).take (hi - lo) ++ old.data.drop (hi - 512 * l)
      let new : WideLine := ⟨k.bind, kind, l, old.count + (hi - lo), data⟩
      let rest (h : Held) : List WideLine := h.lines.filter fun y => !mine y
      if new.count = full l then (d.modHeld k.p fun h => { h with lines := rest h }).hashLine k.p key id kind l k.tid data
      else d.modHeld k.p fun h => { h with lines := rest h ++ [new] }) d

/-- Items of `size` bytes whose 8-byte words go out whole: an item is held until its word's other items are there. -/
def emitItem (k : Sink) (pl : Place) (stage size total i : Nat) (v : BitVec 32) (s : StageBufs × Dev) : StageBufs × Dev :=
  let d := s.2.modHeld k.p fun h => { h with vals := h.vals ++ [⟨k.bind, stage, 0, i, .f32 v⟩] }
  let per := 8 / size
  let w := i / per
  let ids := (List.range per).filterMap fun q => if w * per + q < total then some (w * per + q) else none
  let get (q : Nat) : Option (BitVec 32) :=
    ((d.part k.p).held.vals.find? fun y => y.bind == k.bind && y.stage == stage && y.col == q).bind fun y =>
      match y.val with | .f32 b => some b | _ => none
  match ids.mapM get with
  | none => (s.1, d)
  | some l =>
    let bs := l.flatMap fun b => bytesLE size b.toNat
    let d := d.modHeld k.p fun h => { h with vals := h.vals.filter fun y => !(y.bind == k.bind && y.stage == stage && ids.contains y.col) }
    let d := if stage = 5 then hashSpan k 2 (fun l => min 512 (size * total - 512 * l)) (8 * w) bs d else d
    emitBytes k pl (8 * w) (bs ++ List.replicate (8 - bs.length) 0) (s.1, d)

/-- Part of a row of a wide output written: the rest of the last 8-byte word of the row is zero (R393), and lines that
become whole are hashed under a digest stage (R140, R318). -/
def emitRow (k : Sink) (pl : Place) (pitch rowBytes off : Nat) (bs : List Byte) (s : StageBufs × Dev) : StageBufs × Dev :=
  let pad := if off % max 1 pitch + bs.length = rowBytes then roundUp bs.length 8 - bs.length else 0
  let s := emitBytes k pl off (bs ++ List.replicate pad 0) s
  (s.1, hashSpan k 4 (fun l => min 512 (rowBytes - 512 * l % max 1 pitch)) off bs s.2)

/-- Whole lines of a P128 or PF32 tile written, and hashed as wide lines of their region (R54, R56, R140). -/
def emitTile (k : Sink) (pl : Place) (line : Nat) (bs : List Byte) (s : StageBufs × Dev) : StageBufs × Dev :=
  (List.range (bs.length / 512)).foldl (fun s i => emitLine k pl (line + i) ((bs.drop (512 * i)).take 512) 0 4 (line + i) s) s

/-- Runs of consecutive columns of one row, with their bytes. -/
def runsOf : List (Nat × Nat × List Byte) → List (Nat × Nat × Nat × List Byte)
  | [] => []
  | (r, c, b) :: l =>
    match runsOf l with
    | (r', c', n, bs) :: rest => if r = r' ∧ c + 1 = c' then (r, c, n + 1, b ++ bs) :: rest else (r, c, 1, b) :: (r', c', n, bs) :: rest
    | [] => [(r, c, 1, b)]

/-- Elements written to a wide region. -/
def emitElems (k : Sink) (w : WideRef) (size : Nat) (l : List (Nat × Nat × List Byte)) (s : StageBufs × Dev) : StageBufs × Dev :=
  (runsOf l).foldl (fun s x => emitRow k w.place w.pitch (size * w.cols) (w.pitch * x.1 + size * x.2.1) x.2.2.2 s) s

/-! ## A chain on one element -/

/-- A value on its way, with the taps, statistics and overflows met so far. -/
structure Walked where
  v : Val
  taps : List (WideRef × Nat × Nat × List Byte)
  stats : List (Nat × QStats)
  overs : Nat

/-- What a statistics stage counts of a value (R136). -/
def statOf (v : Val) : QStats :=
  match v.real with
  | .fin q => ⟨1, 0, 0, 0, 0, 0, 0, roundUpF32 (rabs q)⟩
  | _ => ⟨1, 0, 1, 0, 0, 0, 0, 0⟩

/-- Whether the separate sequence has written the value before stage i in S (R145, R146): always after a product, and in a copy or
fill once a value stage has run. -/
def Env.inS (e : Env) (c : Chain) (bind i : Nat) : Bool :=
  let computed : Bool := match bindOf e.img bind with
    | some b => (match b.kind with | .copy .. | .fill .. => false | _ => true)
    | none => true
  c.sepEq && (computed || (c.stages.take i).any fun s => (valueIf s).isSome)

/-- The value a tap or a statistics stage reads, or the final write: in S under separate-equivalent rounding (R146), else as it
stands. -/
def Env.seen (e : Env) (c : Chain) (out : Output) (bind i row col : Nat) (v : Val) : Val :=
  if e.inS c bind i then .f32 (e.enter c out bind c.s row col v) else v

/-- The IF of the next stage that takes a value in one. -/
def nextIf (c : Chain) (i : Nat) : Option IFmt :=
  (c.stages.drop (i + 1)).findSome? fun s => match s with | .quantOut _ _ _ _ _ f => some f | s => valueIf s

/-- The value a statistics stage reads (R136, R147): in S under separate-equivalent rounding; else in the IF of the stage its value goes
on to, or as it stands where that takes the exact path (R112), or where no stage follows (DEDUCED, log entry 37). -/
def Env.counted (e : Env) (c : Chain) (out : Output) (bind i row col : Nat) (v : Val) : Val :=
  if e.inS c bind i then .f32 (e.enter c out bind c.s row col v)
  else match nextIf c i with
    | none | some .exact => v
    | some f => .f32 (e.enter c out bind (ifWide f) row col v)

/-- One element through a run of numbered stages (R122, R123, R125, R136, R139); none while a line is missing. -/
def Env.walk (e : Env) (c : Chain) (out : Output) (bind row col : Nat) : List (Nat × Stage) → Walked → Option Walked
  | [], w => some w
  | (i, s) :: l, w =>
    match valueIf s with
    | none =>
      let w := match s with
        | .statistics entry _ => { w with stats := w.stats ++ [(entry, statOf (e.counted c out bind i row col w.v))] }
        | _ => w
      e.walk c out bind row col l w
    | some f =>
      match e.stage c out bind i s row col (e.enter c out bind (ifWide f) row col w.v) with
      | none => none
      | some y =>
        let tap := (c.taps.lookup i).map fun t => (t, row, col, tapBytes t (e.seen c out bind (i + 1) row col (.f32 y)))
        e.walk c out bind row col l
          { w with v := .f32 y, taps := w.taps ++ tap.toList, overs := w.overs + bit (entersOver (ifWide f) w.v) }

/-! ## Quantise-out -/

/-- Held values of a tensor row of a quantise-out, by reduction position. -/
def Part.heldRow (x : Part) (bind : Nat) (byRows : Bool) (r : Nat) : List HeldVal :=
  x.held.vals.filter fun v => v.bind == bind && v.stage == 1 && (if byRows then v.col else v.row) == r

/-- Reduction position of a held value. -/
def HeldVal.pos (v : HeldVal) (byRows : Bool) : Nat := if byRows then v.row else v.col

/-- Values [lo, hi) of a tensor row, none while one is missing. -/
def spanVals (l : List HeldVal) (byRows : Bool) (lo hi : Nat) : Option (List Val) :=
  (List.range (hi - lo)).mapM fun i => (l.find? fun v => v.pos byRows == lo + i).map (·.val)

/-- Values of whole rotation blocks rotated (R138). -/
def rotateVals (seed : BitVec 128) (rot : Option Rotation) (tid : BitVec 24) (lo : Nat) (vs : List Val) : List Val :=
  match rot with
  | none => vs
  | some r =>
    let b := 2 ^ r.log2
    let bits (v : Val) : BitVec 32 := match v with | .sum x | .f32 x => x | v => toF32 v.real
    (List.range (vs.length / b)).flatMap fun q =>
      (rotateBlock seed r (tid == r.key) (lo / b + q) (((vs.drop (b * q)).take b).map bits)).map Val.f32

/-- Largest finite magnitude of a list, exactly (R81). -/
def amaxRat (vs : List Val) : Rat := vs.foldl (fun m v => match v.real with | .fin q => rmax m (rabs q) | _ => m) 0

/-- Largest finite magnitude of a list, rounded upward to F32 (R98). -/
def amaxOf (vs : List Val) : BitVec 32 := roundUpF32 (amaxRat vs)

/-- The array tiles whose values a sent tile is made of (R277): rows, columns. -/
def tilesOfRect (img : Image) (k : BindKind) (row col : Nat) : List (Nat × Nat) :=
  match quantStage (chainOf img (outputOf k).1) with
  | some (_, .quantOut (.code _) byRows _ _ _ _) =>
    let e := outShape img k
    if byRows then [(2 * col, row), (2 * col + 1, row)].filter fun x => decide (64 * x.1 < e.1)
    else [(row, 2 * col), (row, 2 * col + 1)].filter fun x => decide (64 * x.2 < e.2)
  | _ => [(row, col)]

/-- The array tiles that a sent tile's verdict answers for, as they are judged: binding, row, column, part (R114, R277). -/
def verdictTiles (j : Job) (y : SentTile) : List (Nat × Nat × Nat × Nat) :=
  let parts : List Nat := match j.b.kind, j.out with
    | _, .p128 _ | _, .pf32 _ => [y.part]
    | .product _ _ _ _ parts _ _, _ => List.range (max 1 parts)
    | _, _ => [0]
  (tilesOfRect j.img j.b.kind y.row y.col).flatMap fun t => parts.map fun p => (y.bind, t.1, t.2, p)

/-- The verdict of a sent tile follows it once every array tile it is made of has a positive verdict (R277). -/
def tryVerdict (j : Job) (row col part : Nat) (unit : UnitCode) (d : Dev) : Dev :=
  let a := (d.part j.p).att
  match a.sent.find? fun y => y.bind == j.b.key && y.row == row && y.col == col && y.part == part with
  | none => d
  | some y =>
    if (verdictTiles j y).all fun t => a.judged.any fun q => q.1 == t then
      (sendVerdict j y unit 0 true d).modAtt j.p fun x => { x with sent := x.sent.filter fun z => z != y }
    else d

/-- The checker of a job's slice. -/
def Dev.checkerOf (d : Dev) (j : Job) : UnitCode := unitOf (d.jobSlice j) 4 0

/-- Finished rectangles of a code output sent as TILE_CODE packets (R140, R268). -/
def sendRects (j : Job) (t : TensorRef) (ts : BitVec 32) (tag now : Nat) (new : List OutGroup) (s : StageBufs × Dev) :
    StageBufs × Dev :=
  if (sendOf j.chain).isNone then s
  else
    let gs := (s.2.part j.p).outGroups j.b.key
    let rects := (new.map fun g => let x := groupPlace t g.g; (x.1 / 64, x.2 / 128)).eraseDups.filter fun x =>
      (rectGroups t x.1 x.2).all fun n => decide (groupCount t ≤ n) || !groupReal t n || gs.any fun g => g.g == n
    let zc := (bookOf j.img.codebooks t.fmt t.codebook).zeroCode
    rects.foldl (fun s x =>
      let ns := rectGroups t x.1 x.2
      let blocks := rectBlocks t x.1 x.2
      let find (n : Nat) : Option OutGroup := if groupCount t ≤ n then none else gs.find? fun g => g.g == n
      let gs8 := ns.map fun n => ((find n).map (·.gs8)).getD 0
      let ash := ns.flatMap fun n => ((find n).map (·.ash)).getD []
      let tags := blocks.flatMap fun b => bytesLE 2 (codeTag t.tid b).toNat
      let line := gs8 ++ List.replicate (480 - gs8.length) 0 ++ tags ++ List.replicate (32 - tags.length) 0
      let ab := ash.flatMap fun e => bytesLE 4 e.toNat
      let payload := (blocks.flatMap fun b => codeLine t zc (if b < blockCount t then gs else []) b) ++ line
        ++ ab ++ List.replicate (roundUp ab.length 512 - ab.length) 0
      let s := sendTile j { type := tyTileCode, group := 0, fmt := BitVec.ofNat 8 (fmtCode t.fmt), aux := ash.length, ref := ts.toNat, row := x.1,
                            col := x.2, tid := t.tid.toNat, tag := tag, flags := 1, payload := payload } (kPad t.k / 128) now s
      (s.1, tryVerdict j x.1 x.2 0 (s.2.checkerOf j) s.2)) s

/-- Groups of a row range quantised into codes under a scale, counted, and written (R77, R163). -/
def quantSpan (j : Job) (i : Nat) (t : TensorRef) (ts : BitVec 32) (r lo tag now : Nat) (vs : List Val) (s : StageBufs × Dev) :
    StageBufs × Dev :=
  let d := s.2
  let e := d.jobEnv s.1 j
  let book := bookOf j.img.codebooks t.fmt t.codebook
  let esc := polEsc (d.entryPolicy j.p t.entry)
  let n := ceilDiv vs.length t.g
  let qs := (List.range n).map fun q =>
    let mine := (vs.drop (t.g * q)).take t.g
    let elems := (List.range t.g).map fun p => (mine[p]?).map fun v =>
      (v.real, e.draw j.b.key (16 + i) t.src 0 t.tid (elemIndex t.k r (lo + t.g * q + p)) v.data)
    (groupOf t.fmt t.g t.k r (lo + t.g * q), quantGroup book esc t.rnd (ts32Val ts) elems)
  let d := qs.foldl (fun d q => d.countTensor j.p t q.2.stats) d
  let new : List OutGroup := qs.map fun q => ⟨j.b.key, q.1, q.2.codes, q.2.gs8, ashWords q.2.ash⟩
  let s := addGroups j.sink j.img t ts true new (s.1, d)
  sendRects j t ts tag now new s

/-- Held values of a range given up. -/
def Dev.dropVals (d : Dev) (j : Job) (byRows : Bool) (r lo hi : Nat) : Dev :=
  d.modHeld j.p fun h => { h with vals := h.vals.filter fun v =>
    !(v.bind == j.b.key && v.stage == 1 && (if byRows then v.col else v.row) == r && decide (lo ≤ v.pos byRows) && decide (v.pos byRows < hi)) }

/-- A failure on the way of a tile's values makes its verdict negative (R20, R298): noted with the tile's judge, by tag. -/
def Dev.failTag (d : Dev) (slice tag : Nat) (f : Failure) : Dev :=
  match f with
  | [] => d
  | _ => (List.range 4).foldl (fun d i =>
      let x := d.array (4 * slice + i)
      if x.judges.any fun q => q.tile.tag == tag then
        d.setArray (4 * slice + i) { x with judges := x.judges.map fun q => if q.tile.tag = tag then { q with failure := orFail q.failure f } else q }
      else d) d

/-- VERDICT_MISMATCH records of failures of a slot's work that no array's sums show: one for each that is named, with the fence that it
asks for (R20, R298, Table 11.11). -/
def Dev.failRecords (d : Dev) (n : Nat) (j : Job) (tag : Option Nat) (f : Failure) : Dev :=
  (namedFailures f).foldl (fun d x =>
    let r : Report := { code := 0x02, severity := .stepReplay, unit := d.checkerOf j, part := some j.p, synd := x.1 + x.2.toNat * 2 ^ 48,
                        slot := j.l.key, tid := some (outTid j.img j.b.kind), tag := tag }
    let d := d.report n r
    if askFence x.1 then d.requestFence n x.2 (some r) else d) d

/-- The row-scale table of a two-pass output as the runtime wrote it (R166). -/
def Env.rowScale (e : Env) (t : TensorRef) (r : Nat) : Option (BitVec 32) :=
  (e.bytes ⟨t.scale, 6, 512 + 4 * r, 4⟩).map fun b => BitVec.ofNat 32 (natLE b)

/-- One range of a tensor row, complete, goes through a code target under its policy (R162 to R166). The amax of row r stands at byte
4r of the amax region (DESIGN CHOICE, log entry 60: R166 gives no place). Every quantisation takes the TS32 that the attempt has fixed
(R79), a two-pass one that the runtime may write in its host window (log entry 44). A row-scale word that cannot be corrected touches the
tile that reads it (R20). -/
def quantRange (j : Job) (i : Nat) (t : TensorRef) (byRows : Bool) (rot : Option Rotation) (pol : RowPolicy) (amax : Option Place)
    (unit : UnitCode) (r lo hi tag now : Nat) (s : StageBufs × Dev) : StageBufs × Dev :=
  let d := s.2
  let x := d.part j.p
  match spanVals (x.heldRow j.b.key byRows r) byRows lo hi with
  | none => s
  | some vs =>
    let vs := rotateVals x.rng.seed rot t.tid lo vs
    let drop (s : StageBufs × Dev) : StageBufs × Dev := (s.1, s.2.dropVals j byRows r lo hi)
    match pol with
    | .rowHold =>
      let ts := rowTs32 (amaxRat vs) (polMargin (d.entryPolicy j.p t.entry))
      let a := x.asm j.b.key
      let d := d.setAsm j.p { a with rowTs := tabSet one32 a.rowTs r ts }
      drop (quantSpan j i t ts r lo tag now vs (s.1, d))
    | .twoPass =>
      if d.firstPass j then
        match amax with
        | some pl => drop (emitItem { j.sink with digest := none } pl 6 4 t.rows r (amaxOf vs) s)
        | none => drop s
      else
        let ts : Option (BitVec 32) := if t.rowTs then (d.jobEnv s.1 j).rowScale t r else some (d.entryTs j.p t.entry)
        match ts with
        | none => s
        | some ts =>
          let span : Span := ⟨t.scale, 6, 512 + 4 * r, 4⟩
          let e := d.jobEnv s.1 j
          let d := if t.rowTs then (d.noteReads now s.1 j (e.linesOf span)).failTag (d.jobSlice j) tag (orFail (badLine s.1 (e.linesOf span)) (e.heldFail [span])) else d
          if !ts32Ok ts then (s.1, d.stopJob now j unit 0x07 (scaleFaultSynd t.entry) t.tid)
          else
            let a := x.asm j.b.key
            let d := if t.rowTs then d.setAsm j.p { a with rowTs := tabSet one32 a.rowTs r ts } else d
            drop (quantSpan j i t ts r lo tag now vs (s.1, d))
    | .delayed =>
      let ts := d.entryTs j.p t.entry
      if !ts32Ok ts then (s.1, d.stopJob now j unit 0x07 (scaleFaultSynd t.entry) t.tid)
      else drop (quantSpan j i t ts r lo tag now vs s)

/-- In pass 1 of a two-pass output of any target, a whole row gives its amax and nothing else (R166). -/
def amaxRange (j : Job) (byRows : Bool) (amax : Option Place) (rows r lo hi : Nat) (s : StageBufs × Dev) : StageBufs × Dev :=
  match spanVals ((s.2.part j.p).heldRow j.b.key byRows r) byRows lo hi with
  | none => s
  | some vs =>
    let s := match amax with | some pl => emitItem { j.sink with digest := none } pl 6 4 rows r (amaxOf vs) s | none => s
    (s.1, s.2.dropVals j byRows r lo hi)

/-- One range of 32 positions of a tensor row exported (R71, R73). An MX export names no ledger entry, so its non-finite elements count
nowhere (DEDUCED, log entry 60). An FP8 export carries neither head nor row-scale table, so under row hold too it takes the TS32 of its
ledger entry (DESIGN CHOICE, log entry 60: R164 speaks of outputs with a row-scale table). -/
def exportRange (j : Job) (target : OutTarget) (byRows : Bool) (unit : UnitCode) (r lo hi now : Nat) (s : StageBufs × Dev) :
    StageBufs × Dev :=
  let d := s.2
  match spanVals ((d.part j.p).heldRow j.b.key byRows r) byRows lo hi with
  | none => s
  | some vs =>
    let drop (s : StageBufs × Dev) : StageBufs × Dev := (s.1, s.2.dropVals j byRows r lo hi)
    match target with
    | .code _ => s
    | .mx t w =>
      let x := mxExport t (vs.map Val.real)
      let k := (targetExtents (.mx t w)).2
      let bs := if t = .fp4 then (List.range (ceilDiv x.2.length 2)).map fun q => BitVec.ofNat 8 (x.2.getD (2 * q) 0 + 16 * x.2.getD (2 * q + 1) 0)
        else x.2.map fun c => BitVec.ofNat 8 c
      let f (n : Nat) : Nat := if t = .fp4 then ceilDiv n 2 else n
      let s := emitRow j.sink w.place w.pitch (f k) (w.pitch * r + f lo) bs s
      drop (emitItem j.sink w.scales 5 1 (w.rows * ceilDiv k 32) (r * ceilDiv k 32 + lo / 32) (BitVec.ofNat 32 x.1) s)
    | .fp8 e5 w entry counts =>
      let ts := d.entryTs j.p entry
      if !ts32Ok ts then (s.1, d.stopJob now j unit 0x07 (scaleFaultSynd entry) w.tid)
      else
        let x := vs.map fun v => fp8Export e5 (ts32Val ts) v.real
        let q : QStats := ⟨vs.length, 0, (x.filter (·.2)).length, 0, 0, 0, 0, amaxOf vs⟩
        let d := match counts, entry with | true, some i => d.countInto j.p i q | _, _ => d
        drop (emitRow j.sink w.place w.pitch (targetExtents target).2 (w.pitch * r + lo) (x.map fun c => BitVec.ofNat 8 c.1) (s.1, d))

/-- Values that reach a quantise-out, exact or in its IF (R112, R124); an MX export takes an exact value in F32 (R71), rounded to nearest
(DEDUCED, log entry 60: R123 gives PRODUCT_RND to a rounding into an IF alone). They are held until their group, rotation block or row is
complete (R77, R137, R164). -/
def toQuant (j : Job) (i : Nat) (q : Stage) (unit : UnitCode) (tag now : Nat) (vals : List (Nat × Nat × Val)) (s : StageBufs × Dev) :
    StageBufs × Dev :=
  match q with
  | .quantOut target byRows rot pol amax ifm =>
    let c := j.chain
    let e := s.2.jobEnv s.1 j
    let exact (v : Val) : Bool := ifm == .exact && (match v with | .exact .. => true | _ => false)
    let mx : Bool := match target with | .mx .. => true | _ => false
    let overs := vals.foldl (fun n x => if exact x.2.2 && !mx then n else n + bit (entersOver (ifWide ifm) x.2.2)) 0
    let taken (row col : Nat) (v : Val) : Val :=
      if !exact v then .f32 (e.enter c j.out j.b.key (ifWide ifm) row col v) else if mx then .f32 (toF32 v.real) else v
    let held : List HeldVal := vals.map fun x => ⟨j.b.key, 1, x.1, x.2.1, taken x.1 x.2.1 x.2.2⟩
    let d := (s.2.bumpBoth j 6 overs).modHeld j.p fun h => { h with vals := h.vals ++ held }
    let k := (targetExtents target).2
    let policy := (s.2.part j.p).policyOf pol
    let pass1 := s.2.isPass1 j
    let width : Nat := if pass1 then max 1 k else match target with
      | .code t => if policy == .rowHold then max 1 k
          else max t.g (match rot with | some r => 2 ^ r.log2 | none => 0)
      | _ => 32
    let ranges := (held.map fun v => ((if byRows then v.col else v.row), v.pos byRows / width)).eraseDups
    ranges.foldl (fun s x =>
      let lo := x.2 * width
      let hi := min k (lo + width)
      match target, pass1 with
      | .code t, _ => quantRange j i t byRows rot policy amax unit x.1 lo hi tag now s
      | t, true => amaxRange j byRows amax (targetExtents t).1 x.1 lo hi s
      | t, false => exportRange j t byRows unit x.1 lo hi now s) (s.1, d)
  | _ => s

/-! ## Final values -/

/-- Finished 64 x 64 tiles of a wide output sent as TILE_WIDE packets (R140). -/
def sendWide (j : Job) (w : WideRef) (tag now : Nat) (l : List (Nat × Nat × List Byte)) (s : StageBufs × Dev) : StageBufs × Dev :=
  if (sendOf j.chain).isNone then s
  else
    let n := wideBytes (wideFmtOf w)
    let new : List HeldVal := l.map fun x => ⟨j.b.key, 4, x.1, x.2.1, .f32 (BitVec.ofNat 32 (natLE x.2.2))⟩
    let d := s.2.modHeld j.p fun h => { h with vals := h.vals ++ new }
    let mine := (d.part j.p).held.vals.filter fun v => v.bind == j.b.key && v.stage == 4
    let elem (r c : Nat) : Option (BitVec 32) := (mine.find? fun v => v.row == r && v.col == c).bind fun v => match v.val with | .f32 b => some b | _ => none
    let tiles := (new.map fun v => (v.row / 64, v.col / 64)).eraseDups.filter fun t =>
      (List.range 4096).all fun q => decide (w.rows ≤ 64 * t.1 + q / 64) || decide (w.cols ≤ 64 * t.2 + q % 64)
        || (elem (64 * t.1 + q / 64) (64 * t.2 + q % 64)).isSome
    let fmt : Byte := match wideFmtOf w with | .f32 => 8 | .f16 => 9 | .bf16 => 10
    tiles.foldl (fun s t =>
      let payload := (List.range 4096).flatMap fun q => bytesLE n ((elem (64 * t.1 + q / 64) (64 * t.2 + q % 64)).getD 0).toNat
      let s := (s.1, s.2.modHeld j.p fun h => { h with vals := h.vals.filter fun v =>
        !(v.bind == j.b.key && v.stage == 4 && v.row / 64 == t.1 && v.col / 64 == t.2) })
      let s := sendTile j { type := tyTileWide, group := 0, fmt := fmt, row := t.1, col := t.2, tid := w.tid.toNat, tag := tag, flags := 1,
                            payload := payload } (ceilDiv w.cols 64) now s
      (s.1, tryVerdict j t.1 t.2 0 (s.2.checkerOf j) s.2)) (s.1, d)

/-- Values at the end of the row-unit stages: to the quantise-out, or written in the output's format (R110, R122 rule 8). -/
def emitValues (j : Job) (unit : UnitCode) (tag now : Nat) (vals : List (Nat × Nat × Val)) (s : StageBufs × Dev) : StageBufs × Dev :=
  match quantStage j.chain, j.out with
  | some (i, q), _ => toQuant j i q unit tag now vals s
  | none, .wide w =>
    let e := s.2.jobEnv s.1 j
    let inS := e.inS j.chain j.b.key j.chain.stages.length
    let overS := if inS then vals.foldl (fun n x => n + bit (entersOver j.chain.s x.2.2)) 0 else 0
    let vals := vals.map fun x => (x.1, x.2.1, e.seen j.chain j.out j.b.key j.chain.stages.length x.1 x.2.1 x.2.2)
    let l := vals.map fun x => (x.1, x.2.1, e.wideBytesOf j.chain j.out j.b.key w x.1 x.2.1 x.2.2)
    let d := s.2.bumpBoth j 6 (vals.foldl (fun n x => n + bit (entersOver (wideFmtOf w) x.2.2)) overS)
    sendWide j w tag now l (emitElems j.sink w (wideBytes (wideFmtOf w)) l (s.1, d))
  | _, _ => s

/-- The aux regions' stage-buffer lines that a run of stages reads for a set of elements. -/
def auxSpans (stages : List (Nat × Stage)) (vals : List (Nat × Nat)) : List Span :=
  vals.flatMap fun x => stages.flatMap fun s => stageSpans s.1 s.2 x.1 x.2

/-- What the taps, statistics and overflows of walked elements leave (R136, R139). -/
def settle (j : Job) (ws : List Walked) (s : StageBufs × Dev) : StageBufs × Dev :=
  if s.2.isPass1 j then s
  else
    let taps : List (WideRef × Nat × Nat × List Byte) := ws.flatMap fun (w : Walked) => w.taps
    let stats : List (Nat × QStats) := ws.flatMap fun (w : Walked) => w.stats
    let k : Sink := { j.sink with digest := none }
    let s : StageBufs × Dev := match taps with
      | [] => s
      | (w, _) :: _ => emitElems k w (wideBytes (wideFmtOf w)) (taps.map fun x => x.2) s
    let d : Dev := stats.foldl (fun d x => d.countInto j.p x.1 x.2) s.2
    (s.1, d.bumpBoth j 6 (ws.foldl (fun n (w : Walked) => n + w.overs) 0))

/-- A normalisation's held rows that are complete: each row's values in column order (R133). -/
def Part.normRow (x : Part) (bind row cols : Nat) : Option (List (BitVec 32)) :=
  let l := x.held.vals.filter fun v => v.bind == bind && v.stage == 0 && v.row == row
  (List.range cols).mapM fun c => (l.find? fun v => v.col == c).bind fun v => match v.val with | .f32 b => some b | _ => none

/-- A row through the normalisation and the stages after it once it is complete (R133, R142); none while a line that it needs is
missing. -/
def finishRow (j : Job) (i : Nat) (st : Stage) (unit : UnitCode) (tag now row : Nat) (s : StageBufs × Dev) :
    Option (StageBufs × Dev) :=
  let cols := (outShape j.img j.b.kind).2
  match (s.2.part j.p).normRow j.b.key row cols with
  | none => some s
  | some h =>
    let e := s.2.jobEnv s.1 j
    let post := postStages j.chain
    let ys := e.normalise i st h
    let ws : Option (List Walked) := ys.bind fun ys => (List.range cols).mapM fun c =>
      let y := ys.getD c 0
      let tap := (j.chain.taps.lookup i).map fun t => (t, row, c, tapBytes t (e.seen j.chain j.out j.b.key (i + 1) row c (.f32 y)))
      e.walk j.chain j.out j.b.key row c post ⟨.f32 y, tap.toList, [], 0⟩
    ws.map fun ws =>
      let spans := auxSpans ((i, st) :: post) ((List.range cols).map fun c => (row, c))
      let lines := e.spanLines spans
      let d := (s.2.noteReads now s.1 j lines).failTag (s.2.jobSlice j) tag (orFail (badLine s.1 lines) (e.heldFail spans))
      let d := d.modHeld j.p fun x => { x with vals := x.vals.filter fun v => !(v.bind == j.b.key && v.stage == 0 && v.row == row) }
      let s := settle j ws (s.1, d)
      emitValues j unit tag now ((List.range cols).map fun c => (row, c, (ws[c]?).elim (.f32 0) (·.v))) s

/-- Values that enter the epilogue (R121, R133): none while a region's line is missing; a chain with normalisation holds them until
their row is complete. A row that waits for a line keeps its last values out, so that they come again. -/
def runChain (j : Job) (unit : UnitCode) (tag now : Nat) (vals : List (Nat × Nat × Val)) (s : StageBufs × Dev) : Option (StageBufs × Dev) :=
  let e := s.2.jobEnv s.1 j
  let c := j.chain
  let pre := preStages c
  (vals.mapM fun x => (e.walk c j.out j.b.key x.1 x.2.1 pre ⟨x.2.2, [], [], 0⟩).map fun w => (x.1, x.2.1, w)).bind fun ws =>
    let spans := auxSpans pre (vals.map fun x => (x.1, x.2.1))
    let lines := e.spanLines spans
    let d := (s.2.noteReads now s.1 j lines).failTag (s.2.jobSlice j) tag (orFail (badLine s.1 lines) (e.heldFail spans))
    let s := settle j (ws.map (·.2.2)) (s.1, d)
    match normStage c with
    | some (i, .norm a b eps g o f) =>
      let overs := ws.foldl (fun n x => n + bit (entersOver (ifWide f) x.2.2.v)) 0
      let held : List HeldVal := ws.map fun x => ⟨j.b.key, 0, x.1, x.2.1, .f32 (e.enter c j.out j.b.key (ifWide f) x.1 x.2.1 x.2.2.v)⟩
      let d := (s.2.bumpBoth j 6 overs).modHeld j.p fun h => { h with vals := h.vals ++ held }
      (held.map (·.row)).eraseDups.foldl (fun s row => s.bind (finishRow j i (.norm a b eps g o f) unit tag now row)) (some (s.1, d))
    | _ => some (emitValues j unit tag now (ws.map fun x => (x.1, x.2.1, x.2.2.v)) s)

end Sys2Proof.Machine
end

