-- ==== Sys2Proof/Machine/Drain.lean ====
section
/-! DEFINITION. What a drained tile becomes: the de-quantiser's partial-sum addition (R55, R107, R108, R114, R115), P128 and PF32 outputs
(R54, R56), and the chained product's row function, folds and states (R151 to R156). -/

namespace Sys2Proof.Machine

/-- The egress station of a slot that its records name: the first that the slot names and that is not fenced. -/
def Dev.egressOf (d : Dev) (j : Job) : UnitCode :=
  let u (i : Nat) : UnitCode := unitOf (d.jobSlice j) 2 i
  u (if j.l.units.getLsbD 6 ∧ (!d.fenced (u 0) ∨ !j.l.units.getLsbD 7) then 0 else 1)

/-- Whether every egress station that a slot names is fenced: none takes its values any more (R382). -/
def Dev.egressFenced (d : Dev) (j : Job) : Bool :=
  (j.l.units.getLsbD 6 || j.l.units.getLsbD 7) && d.fenced (d.egressOf j)

/-! ## Partial sums (R108, R114) -/

/-- A P128 tile in a stage buffer: engine slice, first line, scale reference. -/
structure Partial where
  slice : Nat
  line : Nat
  ref : BitVec 64
  deriving DecidableEq, Repr

/-- Whether a tile is an earlier part of a split product that is not itself written as P128 or PF32: it leaves as P128, and the tile of
the last part owns the sum (R114; that it is the last is a DESIGN CHOICE, log entry 59). -/
def partOnly (j : Job) (t : Tile) : Bool :=
  match j.out with
  | .p128 _ | .pf32 _ => false
  | _ => decide (t.k + 1 < partsOf j.b.kind)

/-- The P128 tiles in a stage buffer that some units of a binding have left there, none while one is missing: first line, units, and
which of its list of lines (R108). -/
def Part.leftTiles (x : Part) (b : Binding) (slice line : Nat) (us : List Nat) : Option (List Partial) :=
  (us.filter (x.covers b.key)).mapM fun u =>
    (x.held.refs.find? fun (r : Nat × Nat × BitVec 64) => r.1 == b.key && r.2.1 == u).map fun (r : Nat × Nat × BitVec 64) =>
      (⟨x.slice slice, line + tileAt b.tiles u, r.2.2⟩ : Partial)

/-- Partial sums that a tile takes, none while one is missing: those landed for its product, those that other bindings on the
timeline, which send nothing, leave in stage buffers (log entry 36), and the earlier parts of its own binding. Of the parts of a split
product the last alone takes any, so that each enters the sum once (R114, log entry 59). -/
def Dev.partials (d : Dev) (j : Job) (t : Tile) : Option (List Partial) :=
  let x := d.part j.p
  let tid := sumTid j.img j.b.kind
  let owns : Bool := match j.out with | .p128 _ | .pf32 _ => false | _ => true
  let recv : Option (List Partial) := ((x.receivers.filter fun r => r.2.type == tyTileP128 && r.2.tid == tid).mapM fun r =>
    let at_ (p : Nat) : Partial := ⟨x.slice r.2.slice, r.2.line + x.p128Line r.1 r.2 t.row t.col p, r.2.ref⟩
    if x.flu.landed.contains (r.1, t.row, t.col, 0xFFFFFFFF) then some [at_ 0]
    else if (List.range r.2.parts).all fun p => x.flu.landed.contains (r.1, t.row, t.col, p) then some ((List.range r.2.parts).map at_)
    else none).map List.flatten
  let place (b : Binding) (parts : Nat) : List Nat := match b.kind with
    | .product _ _ rt ct _ _ _ => (List.range parts).map fun p => (p * rt + t.row) * ct + t.col
    | _ => []
  let others : Option (List Partial) := ((x.segBindings.filter fun (b : Binding) => b.key != j.b.key).mapM fun (b : Binding) =>
    match b.kind with
    | .product _ _ _ _ parts c (.p128 w) =>
      if w.tid ≠ tid ∨ (sendOf (chainOf j.img c)).isSome then some []
      else match w.place with
        | .mem _ => some []
        | .buf slice line => x.leftTiles b slice line (place b parts)
    | _ => some []).map List.flatten
  let mine : Option (List Partial) := match j.b.psum with
    | some (slice, line) => x.leftTiles j.b slice line (place j.b (partsOf j.b.kind - 1))
    | none => some []
  if t.k + 1 < partsOf j.b.kind then some []
  else recv.bind fun a => if !owns then some a else others.bind fun b => mine.map fun c => a ++ b ++ c

/-- Value k of a P128 tile held in a stage buffer (R54). -/
def p128At (lines : List (List Byte)) (k : Nat) : BitVec 128 := BitVec.ofNat 128 (fieldLE (lines.getD (k / 32) []) (16 * (k % 32)) 16)

/-- Drained values with partial sums added, and whether an addition overflowed. -/
def addPartials (sb : StageBufs) (vals : List (BitVec 128)) (ps : List Partial) : List (BitVec 128) × Bool :=
  ps.foldl (fun acc p =>
    let lines := (List.range 128).map fun i => sbRead sb p.slice (p.line + i)
    let r := ((List.range 4096).zip acc.1).map fun x => add128 x.2 (p128At lines x.1)
    (r.map (·.1), acc.2 || r.any (·.2))) (vals, false)

/-- A tile's overflow noted with its judge: the verdict is negative (R107). -/
def Dev.overTag (d : Dev) (a tag : Nat) : Dev :=
  let x := d.array a
  d.setArray a { x with judges := x.judges.map fun q => if q.tile.tag = tag then { q with cause := q.cause.or (some 0x10) } else q }

/-- Values of a tile at its place in the output: elements beyond the extents are left out. -/
def placed (j : Job) (t : Tile) (f : Nat → Val) : List (Nat × Nat × Val) :=
  let e := outShape j.img j.b.kind
  (List.range 4096).filterMap fun k =>
    let r := 64 * t.row + k / 64
    let c := 64 * t.col + k % 64
    if r < e.1 ∧ c < e.2 then some (r, c, f k) else none

/-- A unit of work finished. -/
def Dev.finishUnit (d : Dev) (j : Job) (u : Nat) : Dev :=
  d.modJob j fun r => { r with finished := if r.finished.contains u then r.finished else r.finished ++ [u] }

/-! ## PF32 (R56, R115) -/

/-- PF32 parts that a product's sum takes beside its own, 0 where it takes none (R115): those that its receiving bindings
name, and those of the partition's own contributing bindings that send nothing (log entry 36). -/
def Part.pfParts (x : Part) (j : Job) (row col : Nat) : Nat :=
  match j.out with
  | .p128 _ | .pf32 _ => 0
  | _ =>
    let tid := sumTid j.img j.b.kind
    let recv := (x.receivers.filter fun r => r.2.type == tyTilePf32 && r.2.tid == tid).map fun r => r.2.parts
    let own := x.segBindings.map fun b => match b.kind with
      | .product _ _ rt ct parts c (.pf32 w) =>
        if w.tid = tid ∧ (sendOf (chainOf j.img c)).isNone then
          ((List.range parts).filter fun p => x.covers b.key ((p * rt + row) * ct + col)).length
        else 0
      | _ => 0
    (recv ++ own).foldl (· + ·) 0

/-- A running sum with every part in goes on into the chain as the product's value (R115, R123). -/
def finishRun (j : Job) (row col now : Nat) (s : StageBufs × Dev) : Option (StageBufs × Dev) :=
  let x := s.2.part j.p
  match (x.flu.sums.find? fun r => r.bind == j.b.key && r.row == row && r.col == col).bind fun m => m.own.map fun t => (m, t) with
  | some (m, t) =>
    if x.pfParts j row col ≤ m.count then
      (runChain j (s.2.egressOf j) t.tag now (placed j t fun k => .sum (m.vals.getD k 0)) s).map fun s => (s.1, s.2.finishUnit j t.unit)
    else some s
  | none => some s

/-- After a part has come in from elsewhere, the tile of the sum's owner goes on if it is whole (R115). -/
def ownerGo (p : PartId) (img : Image) (tid : BitVec 24) (row col now : Nat) (s : StageBufs × Dev) : StageBufs × Dev :=
  let x := s.2.part p
  let own := (x.sumBinding img tid).bind fun b =>
    (x.flu.sums.find? fun y => y.bind == b.key && y.row == row && y.col == col).bind fun (y : RunSum) => y.own
  match own.bind fun (t : Tile) => s.2.jobOf p t.slot with
  | some j => (finishRun j row col now s).getD s
  | none => s

/-! ## A product's drain -/

/-- Bytes of a tile of P128 or PF32 values, element order (R54, R56). -/
def tileBytes (n : Nat) (l : List Nat) : List Byte := l.flatMap (bytesLE n)

/-- A drained product tile: partial sums are added, and the result leaves as P128, as PF32, or through the chain. None while
something it needs is missing. Value stages named beside a P128 or PF32 output stand idle (DESIGN CHOICE, log entry 61). -/
def drainProduct (j : Job) (t : Tile) (a now : Nat) (s : StageBufs × Dev) : Option (StageBufs × Dev) :=
  let d := s.2
  let e := d.jobEnv s.1 j
  let rows := sideRows j.b.kind t true
  let cols := sideRows j.b.kind t false
  let tsA := (List.range (min 64 (rows - 64 * t.row))).mapM fun i => d.operandTs e j 0 (64 * t.row + i)
  let tsB := (List.range (min 64 (cols - 64 * t.col))).mapM fun i => d.operandTs e j 1 (64 * t.col + i)
  match tsA, tsB, d.partials j t with
  | some la, some lb, some ps =>
    let ta (i : Nat) : BitVec 32 := la.getD i one32
    let tb (i : Nat) : BitVec 32 := lb.getD i one32
    let ref : BitVec 64 := BitVec.ofNat 64 ((ta 0).toNat + (tb 0).toNat * 2 ^ 32)
    let unit := arrayUnit a
    let x := d.array a
    match ps.find? fun p => p.ref != ref with
    | some p =>
      let d := d.report now { code := 0x06, severity := .stepReplay, unit := unit, part := some j.p,
                              synd := 0x10 + refSynd ref p.ref, slot := j.l.key, tid := some (outTid j.img j.b.kind), tag := some t.tag }
      some (s.1, d.finishUnit j t.unit)
    | none =>
      let lines := ps.flatMap fun p => (List.range 128).map fun i => (p.slice, p.line + i)
      let d := (d.noteReads now s.1 j lines).failTag (d.jobSlice j) t.tag (badLine s.1 lines)
      let latch := (List.range 4096).map fun k => tabGet 0 x.latch k
      let (vals, overs) := addPartials s.1 latch ps
      let bad := x.judges.any fun q => q.tile.tag == t.tag && q.cause == some 0x10
      if overs then
        some (s.1, ((d.overTag a t.tag).accumLimit now unit t (outTid j.img j.b.kind) 1).finishUnit j t.unit)
      else if bad then some (s.1, d.finishUnit j t.unit)
      else
        let f32 (k : Nat) : BitVec 32 := toF32 (.fin (dequant (vals.getD k 0) (ta (k / 64)) (tb (k % 64))))
        let cols := match j.b.kind with | .product _ _ _ ct _ _ _ => ct | _ => 1
        let keepRef (d : Dev) : Dev := d.modHeld j.p fun h =>
          { h with refs := (h.refs.filter fun r => !(r.1 == j.b.key && r.2.1 == t.unit)) ++ [(j.b.key, t.unit, ref)] }
        if partOnly j t then
          match j.b.psum with
          | some (slice, line) =>
            let s := emitTile { j.sink with digest := none } (.buf slice line) (tileAt j.b.tiles t.unit) (tileBytes 16 (vals.map BitVec.toNat)) (s.1, d)
            some (s.1, (keepRef s.2).finishUnit j t.unit)
          | none => some (s.1, d.finishUnit j t.unit)
        else match j.out with
        | .p128 w =>
          let bs := tileBytes 16 (vals.map BitVec.toNat)
          let s := emitTile j.sink w.place (tileAt j.b.tiles t.unit) bs (s.1, d)
          let d := keepRef s.2
          let s := sendTile j { type := tyTileP128, group := 0, fmt := 0xC, ref := ref.toNat, row := t.row, col := t.col, kPart := t.k,
                                tid := w.tid.toNat, tag := t.tag, flags := 1, payload := bs } cols now (s.1, d)
          some (s.1, s.2.finishUnit j t.unit)
        | .pf32 w =>
          let vs := (List.range 4096).map f32
          let bs := tileBytes 4 (vs.map BitVec.toNat)
          let d := if (sendOf j.chain).isNone then d.addPart j.p j.img w.tid t.row t.col vs else d
          let s := emitTile j.sink w.place (32 * t.unit) bs (s.1, d)
          let s := sendTile j { type := tyTilePf32, group := 0, fmt := 0xD, ref := ref.toNat, row := t.row, col := t.col, kPart := t.k,
                                tid := w.tid.toNat, tag := t.tag, flags := 1, payload := bs } cols now s
          let s := ownerGo j.p j.img w.tid t.row t.col now s
          some (s.1, s.2.finishUnit j t.unit)
        | _ =>
          if 0 < (d.part j.p).pfParts j t.row t.col then
            finishRun j t.row t.col now (s.1, d.addRun j.p j.b.key t.row t.col ((List.range 4096).map f32) (some t))
          else
            (runChain j (d.egressOf j) t.tag now
              (placed j t fun k => .exact (vals.getD k 0) (ta (k / 64)) (tb (k % 64))) (s.1, d)).map fun s => (s.1, s.2.finishUnit j t.unit)
  | _, _, _ => none

/-! ## Chained products: scores and P (R151, R152) -/

/-- Level under which the running fold of a span is held; the nodes of the merge tree have the levels below. -/
def runLevel : Nat := 64

/-- A row's state at a node. -/
def Part.chState (x : Part) (bind row level node : Nat) : Option ChState :=
  x.flu.states.find? fun s => s.bind == bind && s.row == row && s.level == level && s.node == node

/-- A row's state put at its node. -/
def Dev.putState (d : Dev) (p : PartId) (st : ChState) : Dev :=
  d.modPart p fun x => { x with flu := { x.flu with states := (x.flu.states.filter fun s =>
    !(s.bind == st.bind && s.row == st.row && s.level == st.level && s.node == st.node)) ++ [st] } }

/-- A row's state at a node removed. -/
def Dev.dropState (d : Dev) (p : PartId) (bind row level node : Nat) : Dev :=
  d.modPart p fun x => { x with flu := { x.flu with states := x.flu.states.filter fun s =>
    !(s.bind == bind && s.row == row && s.level == level && s.node == node) } }

/-- corr of R154. -/
def chCorr (rec_ : List Byte) (mo mn : BitVec 32) : BitVec 32 :=
  if f32Val mo = f32Val mn then one32 else if mo = negInf then 0 else actTable rec_ (fSub mo mn)

/-- merge of R154: `a` covers the lower tile indices; the node is that of the result. -/
def chMerge (rec_ : List Byte) (a b : ChState) (level node : Nat) : ChState :=
  let m := fMax a.m b.m
  let ca := chCorr rec_ a.m m
  let cb := chCorr rec_ b.m m
  ⟨a.bind, a.row, level, node, m, fFma a.l ca (fMul b.l cb),
   (List.range (max a.o.length b.o.length)).map (fun c => fFma (a.o.getD c 0) ca (fMul (b.o.getD c 0) cb)), a.f || b.f, orFail a.fail b.fail⟩

/-- The empty state (R154). -/
def chEmpty (bind row level node d : Nat) : ChState := ⟨bind, row, level, node, negInf, 0, List.replicate d 0, false, []⟩

/-- The score of a query row and a key, and whether it is a fault (R151); none while a line is missing. -/
def Env.score (e : Env) (c : Chained) (row key : Nat) (v : BitVec 32) : Option (BitVec 32 × Bool) :=
  let bit : Option Bool := match c.keymask with
    | none => some true
    | some pl => (e.bytes ⟨pl, 4, key / 8, 1⟩).map fun b => (b.headD 0).getLsbD (key % 8)
  bit.bind fun open_ =>
    let causal : Bool := match c.causal with | some off => decide ((key : Int) > (row : Int) + off) | none => false
    if c.nk ≤ key ∨ causal ∨ !open_ then some (negInf, false)
    else
      let s := fMul v c.sigma
      let s : Option (BitVec 32) := match c.bias with
        | none => some s
        | some w => (e.bytes (wideElemSpan w 5 row key)).map fun b => fAdd s (wideElem (wideFmtOf w) b)
      s.map fun s => if isNan s || f32Val s == .inf false then (negInf, true) else (s, false)

/-- The spans that a row's scores of 64 keys read. -/
def scoreSpans (c : Chained) (row key : Nat) : List Span :=
  (match c.keymask with | some pl => [⟨pl, 4, key / 8, 8⟩] | none => [])
    ++ match c.bias with | some w => [⟨w.place, 5, w.pitch * row + wideBytes (wideFmtOf w) * key, 64 * wideBytes (wideFmtOf w)⟩] | none => []

/-- P of a complete key tile of a row (R152, R153): the running maximum, l_t, the groups, and P's clipped and flushed counts. -/
def Env.formP (e : Env) (j : Job) (c : Chained) (span : Nat) (r : ScoreRow) : ScoreRow × Nat × Nat :=
  let rec_ := actRec e.img c.expHandle
  let mo := ((e.part.chState j.b.key r.row runLevel span).map (·.m)).getD negInf
  let s (i : Nat) : BitVec 32 := (r.scores.lookup (128 * r.tile + i)).getD negInf
  let mt := (List.range 128).foldl (fun m i => fMax m (s i)) negInf
  let m := fMax mo mt
  let p (i : Nat) : BitVec 32 := if s i = negInf then 0 else actTable rec_ (fSub (s i) m)
  let kp := kPad c.nk
  let book := bookOf [] c.pFmt 0
  let qs := (List.range 4).map fun g => quantGroup book 0 c.pRnd (pow2 (-10)) ((List.range 32).map fun i =>
    let v := p (32 * g + i)
    some (f32Val v, e.draw j.b.key 3 ⟨c.pStream, false⟩ 0 c.pTid (r.row * kp + 128 * r.tile + 32 * g + i) (v.setWidth 16)))
  let gs := qs.map fun q => groupOfQ book c.pFmt q
  let l := gs.foldl (fun n g => n + ((g.q.foldl (· + ·) 0 : Int) : Rat) * pow2 (-22) * (if g.gs8.toNat % 128 = 0 then 0 else gs8Value (g.gs8.toNat % 128))) (0 : Rat)
  ({ r with mNew := m, lT := toF32 (.fin l), pGroups := gs },
   qs.foldl (fun n q => n + q.stats.clipped) 0, qs.foldl (fun n q => n + q.stats.flushed) 0)

/-- A score row replaced. -/
def Dev.putScores (d : Dev) (p : PartId) (r : ScoreRow) : Dev :=
  d.modHeld p fun h => { h with scores := (h.scores.filter fun s => !(s.bind == r.bind && s.row == r.row && s.tile == r.tile)) ++ [r] }

/-- A drained score tile (R151): 64 keys of 64 rows; the second of a key tile forms P (R152). -/
def drainScores (j : Job) (c : Chained) (t : Tile) (a : Nat) (now : Nat) (s : StageBufs × Dev) : Option (StageBufs × Dev) :=
  let d := s.2
  let e := d.jobEnv s.1 j
  let x := d.array a
  let rows := (List.range 64).map (64 * t.row + ·) |>.filter fun r => decide (r < (outShape j.img j.b.kind).1)
  let span := t.k / 2 ^ c.spanLog2
  let one (r : Nat) : Option (Nat × List (Nat × BitVec 32) × Bool) :=
    (d.operandTs e j 0 r).bind fun ta =>
      ((List.range 64).mapM fun i =>
        let key := 64 * t.col + i
        (if key < sideRows j.b.kind t false then d.operandTs e j 1 key else some one32).bind fun tb =>
          (e.score c r key (toF32 (.fin (dequant (tabGet 0 x.latch (64 * (r % 64) + i)) ta tb)))).map fun s => (key, s)).map fun l =>
        (r, l.map (fun y => (y.1, y.2.1)), l.any fun y => y.2.2)
  (rows.mapM one).map fun l =>
    let spans := rows.flatMap fun r => scoreSpans c r (64 * t.col)
    let lines := e.spanLines spans
    let d := (d.noteReads now s.1 j lines).failTag (d.jobSlice j) t.tag (orFail (badLine s.1 lines) (e.heldFail spans))
    let d := l.foldl (fun d y =>
      let old := ((d.part j.p).held.scores.find? fun q => q.bind == j.b.key && q.row == y.1 && q.tile == t.k).getD
        ⟨j.b.key, y.1, t.k, [], false, 0, 0, [], []⟩
      let new : ScoreRow := { old with scores := old.scores ++ y.2.1, fault := old.fault || y.2.2 }
      if new.scores.length < 128 then d.putScores j.p new
      else
        let r := e.formP j c span new
        (((d.putScores j.p r.1).bumpBoth j 10 r.2.1).bumpBoth j 11 r.2.2)) d
    (s.1, d)

/-! ## Folds, states, merges (R153 to R156) -/

/-- Payload of the state of 64 query rows (R268). -/
def stateBytes (d : Nat) (l : List (Option ChState)) : List Byte :=
  let q := ceilDiv (4 * (d + 2)) 512
  l.flatMap fun s =>
    let b := match s with
      | some s => bytesLE 4 s.m.toNat ++ bytesLE 4 s.l.toNat ++ s.o.flatMap fun v => bytesLE 4 v.toNat
      | none => []
    b ++ List.replicate (512 * q - b.length) 0

/-- Packets of at most 128 lines. -/
def chunks : Nat → List Byte → List (List Byte)
  | 0, _ => []
  | n + 1, bs => if bs.isEmpty then [] else bs.take 65536 :: chunks n (bs.drop 65536)

/-- Identifier that packets and verdicts about a binding's states, records or shares carry. -/
def shareTid : BindKind → BitVec 24
  | .chained _ _ _ c _ _ => c.pTid
  | .sampler s => s.tid
  | .exchange r _ _ => r.tid
  | _ => 0

/-- One owed verdict paid: binding, row, part, group, rank. A member's own share takes its verdict at once. -/
def Dev.payOne (d : Dev) (p : PartId) (img : Image) (o : Nat × Nat × Nat × Nat × Nat) : Dev :=
  match bindOf img o.1, (d.grp p o.2.2.2.1).bind fun g => (d.listOf p g)[o.2.2.2.2]? with
  | some b, some m =>
    if mIndex m = (d.part p).self then
      d.modAtt p fun a => { a with verdicts := (b.key, mIndex m, o.2.1, 0, o.2.2.1) :: a.verdicts }
    else
      let slice := ((img.slots.find? fun l => l.bind == b.key).map (·.slice)).getD 0
      d.sendTo p (sendPort b slice) true
        { type := tyVerdict, group := o.2.2.2.1, aux := (verdictWord (unitOf ((d.part p).slice slice) 4 0) 0 true).toNat,
          row := o.2.1, kPart := o.2.2.1, tid := (shareTid b.kind).toNat } m
  | _, _ => d

/-- Owed verdicts go out once no tile of the member waits for its own (R277, R278). -/
def Dev.payOwed (d : Dev) (p : PartId) : Dev :=
  let a := (d.part p).att
  match (d.part p).ldr.image with
  | none => d
  | some img =>
    if a.openTiles ≠ 0 ∨ a.doom.isSome then d
    else (a.owed.foldl (fun d o => d.payOne p img o) d).modAtt p fun x => { x with owed := [] }

/-- Number under which a slot's run notes that the states of a node of a row tile have been sent. -/
def stateUnit (row level node : Nat) : Nat := 2 ^ 40 + (row * 2 ^ 8 + level) * 2 ^ 24 + node

/-- The finished states of a node's 64 rows sent to the member that merges them, when the image names one (R155, R156, R268). A failure
in a merge under them has no tile here to name it: its record comes with the sending, and the states get no positive verdict (R298). -/
def Dev.sendState (d : Dev) (j : Job) (c : Chained) (row level node n : Nat) : Dev :=
  let x := d.part j.p
  let rows := (List.range 64).map (64 * row + ·) |>.filter fun r => decide (r < (outShape j.img j.b.kind).1)
  let sts := (List.range 64).map fun i => x.chState j.b.key (64 * row + i) level node
  if rows.all (fun r => (x.chState j.b.key r level node).isSome) then
    match c.sends.find? fun s => s.1 == level && s.2.1 == node with
    | none => d
    | some (_, _, h, rank) =>
      match d.isOwn j.p h rank, (d.grp j.p h).bind fun g => (d.listOf j.p g)[rank]? with
      | true, _ | _, none => d
      | false, some m =>
        let f := (List.range 64).foldl (fun n i => n + bit ((sts.getD i none).elim false (·.f)) * 2 ^ i) 0
        let parts := chunks 65 (stateBytes c.d sts)
        let d := ((List.range parts.length).zip parts).foldl (fun d ip =>
          d.sendTo j.p j.port false { type := tyState, group := h, fmt := 8, aux := ip.1, ref := f, row := row,
                                        kPart := level * 2 ^ 24 + node, tid := c.pTid.toNat, flags := if ip.1 + 1 = parts.length then 1 else 0,
                                        payload := ip.2 } m) d
        let d := (rows.foldl (fun d r => d.dropState j.p j.b.key r level node) d).finishUnit j (stateUnit row level node)
        let d := d.failRecords n j none (sts.foldl (fun f s => orFail f (s.elim [] (·.fail))) [])
        (d.modAtt j.p fun a => { a with owed := a.owed ++ [(j.b.key, row, level * 2 ^ 24 + node, h, rank)] }).payOwed j.p
  else d

/-- A drained P·V tile (R153): its columns of O_t; the last of a key tile folds the tile into the span's state (R154). -/
def drainPv (j : Job) (c : Chained) (t : Tile) (a n : Nat) (s : StageBufs × Dev) : Option (StageBufs × Dev) :=
  let d := s.2
  let e := d.jobEnv s.1 j
  let x := d.array a
  let rows := (List.range 64).map (64 * t.row + ·) |>.filter fun r => decide (r < (outShape j.img j.b.kind).1)
  let span := t.k / 2 ^ c.spanLog2
  let last := t.k + 1 = (spanTiles c span).2
  ((List.range 64).mapM fun i => if 64 * t.col + i < c.d then d.operandTs e j 2 (64 * t.col + i) else some one32).map fun tv =>
    let d := rows.foldl (fun d r =>
      match (d.part j.p).held.scores.find? fun q => q.bind == j.b.key && q.row == r && q.tile == t.k with
      | none => d
      | some q =>
        let o := (List.range 64).map fun i =>
          (64 * t.col + i, toF32 (.fin (dequant (tabGet 0 x.latch (64 * (r % 64) + i)) (ts32Pow2 (-10)) (tv.getD i one32))))
        let q := { q with oT := q.oT ++ o }
        if q.oT.length < c.d then d.putScores j.p q
        else
          let old := ((d.part j.p).chState j.b.key r runLevel span).getD (chEmpty j.b.key r runLevel span c.d)
          let tile : ChState := ⟨j.b.key, r, runLevel, span, q.mNew, q.lT, (List.range c.d).map fun i => (q.oT.lookup i).getD 0, q.fault, []⟩
          let new := chMerge (actRec j.img c.expHandle) old tile (if last then 0 else runLevel) span
          let d := d.modHeld j.p fun h => { h with scores := h.scores.filter fun y => !(y.bind == j.b.key && y.row == r && y.tile == t.k) }
          (d.dropState j.p j.b.key r runLevel span).putState j.p new) d
    let done := last && t.col + 1 == c.d / 64
    (s.1, if done then (d.finishUnit j t.unit).sendState j c t.row 0 span n else d)

/-- Node count of a level of the merge tree (R155). -/
def levelNodes (c : Chained) (level : Nat) : Nat := ceilDiv (spanCount c) (2 ^ level)

/-- STATE_MERGE (R154 to R156): a node of the merge tree from its two children, for the 64 rows of a row tile; a node whose
right child lies beyond the last span equals its left child. A row unit whose check fails in the merge leaves its failure with the states:
it touches the tile of the rows that come of them (R298). -/
def execStateMerge (t : Tick) (p : PartId) (bind rowTile level : Nat) (at_ : MergeNode) (s : State) :
    Host.Outcome State Fault Refusal :=
  onDev t s fun n d =>
    let x := d.part p
    let node := at_.index
    let run := x.att.slots.find? fun r => match d.jobOf p r.key with | some j => j.b.key == bind | none => false
    match run.bind fun r => d.jobOf p r.key with
    | none => d
    | some j =>
      match j.b.kind with
      | .chained _ _ _ c _ _ =>
        let rows := (List.range 64).map (64 * rowTile + ·) |>.filter fun r => decide (r < (outShape j.img j.b.kind).1)
        let lone := decide (levelNodes c (level - 1) ≤ 2 * node + 1)
        let left (r : Nat) : Option ChState := x.chState bind r (level - 1) (2 * node)
        let right (r : Nat) : Option ChState := x.chState bind r (level - 1) (2 * node + 1)
        if level = 0 ∨ runLevel ≤ level ∨ levelNodes c level ≤ node ∨ !rows.all (fun r => (left r).isSome && (lone || (right r).isSome)) then d
        else
          let f : Dev × Failure := match at_.fault with
            | some u => let r := d.residueFail n (d.jobSlice j) (unitOf (d.jobSlice j) 3 u.val); (r.1, [r.2])
            | none => (d, [])
          let d := rows.foldl (fun d r =>
            match left r with
            | none => d
            | some a =>
              let new : ChState := match lone, right r with
                | false, some b => chMerge (actRec j.img c.expHandle) a b level node
                | _, _ => { a with level := level, node := node }
              let new : ChState := { new with fail := orFail new.fail f.2 }
              ((d.dropState p bind r (level - 1) (2 * node)).dropState p bind r (level - 1) (2 * node + 1)).putState p new) f.1
          d.sendState j c rowTile level node n
      | _ => d

end Sys2Proof.Machine
end

