-- ==== Sys2Proof/Machine/Exch.lean ====
section
/-! DEFINITION. Exchanges of dynamic size: counts, offsets, credits, lines sent and landed, consumption (R279 to R282). -/

namespace Sys2Proof.Machine

/-- A dynamic exchange replaced. -/
def Dev.setDyn (d : Dev) (p : PartId) (y : DynEx) : Dev :=
  d.modPart p fun x => { x with flu := { x.flu with dyn := (x.flu.dyn.filter fun z => z.bind != y.bind) ++ [y] } }

/-- Count of a member. -/
def DynEx.count (y : DynEx) (m : Nat) : Nat := (y.counts.lookup m).getD 0

/-- Offset of a member's share among the members in rank order (R280). -/
def DynEx.offset (y : DynEx) (ids : List Nat) (m : Nat) : Nat := (ids.takeWhile (· != m)).foldl (fun n i => n + y.count i) 0

/-- Lines in all (R280). -/
def DynEx.total (y : DynEx) (ids : List Nat) : Nat := ids.foldl (fun n i => n + y.count i) 0

/-- Lines a source may have sent: those below c + C_land (R281). -/
def DynEx.grant (y : DynEx) (ids : List Nat) (land m : Nat) : Nat := min (y.count m) (y.consumed + land - y.offset ids m)

/-- Members of a binding's group in rank order. -/
def Dev.groupIds (d : Dev) (p : PartId) (h : Nat) : List Nat :=
  match d.grp p h with | some g => (d.listOf p g).map mIndex | none => []

/-- The exchange binding of a key. -/
def Part.exchange (x : Part) (key : Nat) : Option (Binding × Receive × (Nat × Nat) × (Nat × Nat)) :=
  (x.segBindings.find? fun b => b.key == key).bind fun b => match b.kind with
    | .exchange r c s => some (b, r, c, s)
    | _ => none

/-- The job of the exchange slot that names a binding: one that has been launched (R280). -/
def Dev.exchJob (d : Dev) (p : PartId) (b : Binding) : Option Job :=
  let x := d.part p
  x.ldr.image.bind fun img => (x.timeline.find? fun l => l.bind == b.key && (x.att.run l.key).isSome).map fun l => ⟨p, img, l, b⟩

/-- Reads of an exchange's counts and source lines noted with its slot (R19, R20): a word that cannot be corrected is recorded at once,
since no tile's verdict names it, and the attempt's doom keeps the share's verdict from being positive (R278). -/
def Dev.noteShare (d : Dev) (now : Nat) (sb : StageBufs) (p : PartId) (b : Binding) (lines : List (Nat × Nat)) : Dev :=
  match d.exchJob p b with
  | some j => (d.noteReads now sb j lines).failRecords now j none (badLine sb lines)
  | none => d

/-- Lines of the counts region that ranks [0, n) stand in. -/
def Part.countLines (x : Part) (c : Nat × Nat) (n : Nat) : List (Nat × Nat) :=
  (List.range (ceilDiv n 128)).map fun i => (x.slice c.1, c.2 + i)

/-- Lines the member sends to rank i, as its counts region holds them (R280). -/
def Part.shareOf (x : Part) (sb : StageBufs) (c : Nat × Nat) (i : Nat) : Nat :=
  fieldLE (sbRead sb (x.slice c.1) (c.2 + i / 128)) (4 * (i % 128)) 4

/-- Line n of the member's share for rank i, with its tag. -/
def Part.shareLine (x : Part) (sb : StageBufs) (c s : Nat × Nat) (i n : Nat) : List Byte × BitVec 16 :=
  let at_ := s.2 + ((List.range i).foldl (fun m k => m + x.shareOf sb c k) 0) + n
  (sbRead sb (x.slice s.1) at_, if sbValid sb (x.slice s.1) at_ then tabGet 0 sb.tag (lineKey (x.slice s.1) at_) else 0)

/-- A line of a source landed (R281): global line offset + n at line x mod C_land. -/
def landLine (p : PartId) (b : Binding) (r : Receive) (src n : Nat) (data : List Byte) (tag : BitVec 16) (s : StageBufs × Dev) :
    StageBufs × Dev :=
  let x := s.2.part p
  let y := x.dyn b.key
  let g := y.offset (s.2.groupIds p r.group) src + n
  (sbWrite s.1 (x.slice r.slice) (r.line + g % max 1 r.lines) 0 data (some tag),
   s.2.setDyn p { y with landed := g :: y.landed.filter (· != g) })

/-- Lines [lo, hi) of the share for rank i sent in packets of up to 15 data lines and their tag line (R268, R280, R281), or
landed when the rank is the member's own. The number of a packet's first line stands in AUX (R280) and, as the index of a stream's
first line, in ROW_TILE and COL_TILE (R268). The counts up to that rank and the lines sent are read (R19). A share sent whole owes its
verdict (R278). -/
def sendShare (p : PartId) (b : Binding) (r : Receive) (c src : Nat × Nat) (i lo hi now : Nat) (s : StageBufs × Dev) : StageBufs × Dev :=
  let x := s.2.part p
  let all := x.shareOf s.1 c i
  let hi := min hi all
  let line (n : Nat) : List Byte × BitVec 16 := x.shareLine s.1 c src i n
  match (s.2.grp p r.group).bind fun g => (s.2.listOf p g)[i]? with
  | none => s
  | some m =>
    let before := (List.range i).foldl (fun n k => n + x.shareOf s.1 c k) 0
    let s : StageBufs × Dev := if hi ≤ lo then s else (s.1, s.2.noteShare now s.1 p b
      (x.countLines c (i + 1) ++ (List.range (hi - lo)).map fun n => (x.slice src.1, src.2 + before + lo + n)))
    let s : StageBufs × Dev :=
      if mIndex m = x.self then
        (List.range (hi - lo)).foldl (fun s n => landLine p b r x.self (lo + n) (line (lo + n)).1 (line (lo + n)).2 s) s
      else
        (s.1, (List.range (ceilDiv (hi - lo) 15)).foldl (fun d q =>
          let first := lo + 15 * q
          let ns := (List.range (min 15 (hi - first))).map (first + ·)
          let tags := padLine (ns.flatMap fun n => bytesLE 2 (line n).2.toNat)
          let fmt : Byte := (r.tensor.map fun t => BitVec.ofNat 8 (fmtCode t.fmt)).getD 0xFF
          let a : PktArgs :=
            { type := r.type, group := r.group, fmt := fmt, aux := first, row := first / 2 ^ 32, col := first % 2 ^ 32,
              tid := r.tid.toNat, flags := (if first + ns.length = all then 1 else 0),
              payload := (ns.flatMap fun n => (line n).1) ++ tags }
          d.sendTo p (sendPort b (x.sliceOf b.key)) false a m) s.2)
    if lo < hi ∧ hi = all then (s.1, (s.2.modAtt p fun a => { a with owed := a.owed ++ [(b.key, 0, 0, r.group, i)] }).payOwed p) else s

/-- Credits due after a change of the window (R281): each source's first grant unless it is zero, and every rise by 16
lines or to its full count. The member's own share lands as its grant rises. -/
def grantCredits (p : PartId) (b : Binding) (r : Receive) (c src : Nat × Nat) (now : Nat) (s : StageBufs × Dev) : StageBufs × Dev :=
  let ids := s.2.groupIds p r.group
  (List.range ids.length).foldl (fun s i =>
    let x := s.2.part p
    let y := x.dyn b.key
    let m := ids.getD i 0
    let new := y.grant ids r.lines m
    let old := y.grants.lookup m
    let due := match old with | none => true | some o => decide (o + 16 ≤ new) || (decide (o < new) && new == y.count m)
    if !due then s
    else
      let d := s.2.setDyn p { y with grants := (m, new) :: y.grants.filter fun z => z.1 != m }
      if m = x.self then sendShare p b r c src i (old.getD 0) new now (s.1, d)
      else if new = 0 then (s.1, d)
      else match (d.grp p r.group).bind fun g => (d.listOf p g)[i]? with
        | some e => (s.1, d.sendTo p 0 true { type := tyCredit, group := r.group, aux := new, tid := r.tid.toNat } e)
        | none => (s.1, d)) s

/-- Counts of every member in (R280): T above T_max raises FLUE_TIMEOUT and nothing moves (R282); else credits go out. -/
def startExchange (p : PartId) (b : Binding) (r : Receive) (c src : Nat × Nat) (now : Nat) (s : StageBufs × Dev) : StageBufs × Dev :=
  let ids := s.2.groupIds p r.group
  let y := (s.2.part p).dyn b.key
  if !y.grants.isEmpty ∨ !ids.all (fun m => (y.counts.lookup m).isSome) then s
  else if r.tMax < y.total ids then
    (s.1, s.2.report now { code := 0x0D, severity := .stepReplay, unit := (s.2.part p).port0, part := some p, synd := 2 })
  else grantCredits p b r c src now s

/-- The first beat of an exchange slot (R280): counts go to every other member of the group, the own one is kept. -/
def beginExchange (p : PartId) (b : Binding) (now : Nat) (s : StageBufs × Dev) : StageBufs × Dev :=
  match b.kind with
  | .exchange r c src =>
    (match s.2.grp p r.group with
    | none => s
    | some g =>
      let x := s.2.part p
      let ms := s.2.listOf p g
      let d := (List.range ms.length).foldl (fun d i =>
        let m := ms.getD i 0
        let n := x.shareOf s.1 c i
        if mIndex m = x.self then
          let y := (d.part p).dyn b.key
          d.setDyn p { y with counts := (x.self, n) :: y.counts.filter fun z => z.1 != x.self }
        else d.sendTo p 0 true { type := tyCount, group := r.group, aux := n, tid := r.tid.toNat } m)
        (s.2.noteShare now s.1 p b (x.countLines c ms.length))
      startExchange p b r c src now (s.1, d))
  | _ => s

/-- A station consumes the next global line of an exchange (R281). -/
def doConsume (slice : Nat) (st : Fin 2) (j : Job) (now : Nat) (fail : Failure) (s : StageBufs × Dev) : StageBufs × Dev :=
  match j.b.kind with
  | .exchange r c src =>
    let x := s.2.part j.p
    let y := x.dyn j.b.key
    if y.landed.contains y.consumed then
      let g := x.slice r.slice
      let at_ := r.line + y.consumed % max 1 r.lines
      let tag := if sbValid s.1 g at_ then tabGet 0 s.1.tag (lineKey g at_) else 0
      let l : StLine := ⟨j.p, j.l.key, 0, .wide, y.consumed, sbRead s.1 g at_, tag, orFail fail (badLine s.1 [(g, at_)])⟩
      let d := (s.2.noteReads now s.1 j [(g, at_)]).modStation (2 * slice + st.val) fun q =>
        { q with lines := (q.lines.filter fun z => !(z.part == j.p && z.slot == j.l.key && z.opnd == 0 && z.index == y.consumed)) ++ [l] }
      grantCredits j.p j.b r c src now (s.1, d.setDyn j.p { y with consumed := y.consumed + 1 })
    else s
  | _ => s

/-- Credits that a handshake's reads have made due (R281): of the partition's exchanges, those of which it has consumed lines. -/
def settleCredits (p : PartId) (now : Nat) (before : List DynEx) (s : StageBufs × Dev) : StageBufs × Dev :=
  let x := s.2.part p
  if x.flu.dyn.map (·.consumed) = before.map (·.consumed) then s
  else x.flu.dyn.foldl (fun s y =>
    match (s.2.part p).exchange y.bind with
    | some (b, r, c, src) => if y.grants.isEmpty then s else grantCredits p b r c src now s
    | none => s) s

end Sys2Proof.Machine
end

