-- ==== Sys2Proof/Machine/Regions.lean ====
section
/-! DEFINITION. The stage-buffer lines a binding reads, writes and receives (Table 5.6, R144, R233, R279), and what a slot that reads a
landing region waits for (R279). -/

namespace Sys2Proof.Machine

/-- A run of lines: partition-local slice, first line, lines. -/
abbrev Lines := Nat × Nat × Nat

/-- Whether two runs of lines share a line. -/
def linesMeet (a b : Lines) : Bool := a.1 == b.1 && decide (a.2.1 < b.2.1 + b.2.2) && decide (b.2.1 < a.2.1 + a.2.2)

/-- Lines of a place that lies in a stage buffer. -/
def placeLines (pl : Place) (n : Nat) : List Lines := match pl with | .buf s l => [(s, l, n)] | .mem _ => []

/-- Lines of a code tensor's streams. -/
def tensorLines (t : TensorRef) : List Lines :=
  placeLines t.code (blockCount t) ++ placeLines t.scale (scaleHead t + scalePackets t) ++ (if t.ashCap = 0 then [] else placeLines t.ash t.ashCap)

/-- Lines of a wide region, with its MX scales. -/
def wideLines (w : WideRef) : List Lines :=
  placeLines w.place (ceilDiv (w.pitch * w.rows) 512)
    ++ match w.fmt with | .mx _ b => placeLines w.scales (ceilDiv (w.rows * ceilDiv w.cols (max 1 b)) 512) | _ => []

/-- Lines of n P128 tiles of a binding in its region, 128 for each, where the binding places them (R54, R108). -/
def p128Runs (pl : Place) (tiles : List Nat) (n : Nat) : List Lines :=
  match pl with
  | .mem _ => []
  | .buf s l => if tiles.isEmpty then [(s, l, 128 * n)] else (List.range n).map fun i => (s, l + tileAt tiles i, 128)

/-- Lines of some P128 tiles in a region (R54, R108). -/
def tileRuns (pl : Place) (tiles : List Nat) (us : List Nat) : List Lines :=
  match pl with
  | .mem _ => []
  | .buf s l => us.map fun u => (s, l + tileAt tiles u, 128)

/-- Units of a split product whose tile is an earlier part, which waits in the region of partial sums (R114). -/
def isEarlier : BindKind → Nat → Bool
  | .product _ _ rt ct parts _ _, u => decide (u < (parts - 1) * rt * ct)
  | _, _ => false

/-- Lines in which the units of a slot of a product leave P128 tiles: its output's, or its region of partial sums (R54, R108, R114). -/
def sumWrites (b : Binding) (us : List Nat) : List Lines :=
  match (outputOf b.kind).2, b.psum with
  | .p128 w, _ => tileRuns w.place b.tiles us
  | _, some (s, l) => tileRuns (.buf s l) b.tiles (us.filter (isEarlier b.kind))
  | _, none => []

/-- Lines of a vector. -/
def vecLines (v : VecRef) : List Lines := placeLines v.place (ceilDiv (v.len * wideBytes v.fmt) 512)

/-- Lines a stage reads. -/
def stageReads (s : Stage) : List Lines :=
  match s with
  | .bias v _ _ => vecLines v
  | .residual w _ _ => wideLines w
  | .activation _ (some w) _ => wideLines w
  | .scale (.vector v _) _ => vecLines v
  | .gather p n => placeLines p (ceilDiv (4 * n) 512)
  | .norm _ _ _ g o _ => g.toList.flatMap vecLines ++ o.toList.flatMap vecLines
  | .send _ (.perm p) => placeLines p 1
  | _ => []

/-- Lines an operand is read from. -/
def operandReads (o : Operand) : List Lines :=
  match o with
  | .pass t => tensorLines t
  | .convert w pro _ => wideLines w ++ pro.flatMap stageReads

/-- The lines from one of a stage buffer to the end of the declared region that it lies in: what an exchange may read of its counts and its
source, whose lengths the image does not hold (R280, R281; DEDUCED, log entry 36). -/
def regionRun (img : Image) (at_ : Nat × Nat) : Lines :=
  match img.regions.find? fun q => q.slice == at_.1 && decide (q.line ≤ at_.2) && decide (at_.2 < q.line + q.lines) with
  | some q => (at_.1, at_.2, q.line + q.lines - at_.2)
  | none => (at_.1, at_.2, 1)

/-- Stage-buffer lines that every slot of a binding may read; the partial sums that a product adds are its slots' own (`sumReads`). -/
def bindReads (img : Image) (b : Binding) : List Lines :=
  (match b.kind with
  | .product x y .. => operandReads x ++ operandReads y
  | .chained q k v c _ _ =>
    operandReads q ++ operandReads k ++ operandReads v
      ++ (c.keymask.toList.flatMap fun p => placeLines p (ceilDiv (ceilDiv c.nk 8) 512)) ++ c.bias.toList.flatMap wideLines
  | .copy t w _ _ => t.toList.flatMap tensorLines ++ w.toList.flatMap wideLines
  | .sampler s => wideLines s.scores ++ (s.mask.toList.flatMap fun p => placeLines p (ceilDiv (ceilDiv s.v 8 * s.rows) 512))
      ++ placeLines s.rowkey (ceilDiv (8 * s.rows) 512)
  | .exchange _ c s => [regionRun img c, regionRun img s]
  | .weightDigest t _ _ => tensorLines t
  | _ => []) ++ (chainOf img (outputOf b.kind).1).stages.flatMap stageReads

/-- Lines a quantise-out writes. -/
def targetLines (t : OutTarget) : List Lines :=
  match t with
  | .code t => tensorLines t
  | .mx _ w => placeLines w.place (ceilDiv (w.pitch * w.rows) 512) ++ placeLines w.scales (ceilDiv (ceilDiv (w.rows * w.cols) 32) 512)
  | .fp8 _ w _ _ => placeLines w.place (ceilDiv (w.pitch * w.rows) 512)

/-- Lines an output without a quantise-out takes, P128 tiles apart (`sumWrites`). -/
def outLines (o : Output) : List Lines :=
  match o with
  | .wide w | .pf32 w => wideLines w
  | .p128 _ | .viaQuant => []

/-- Stage-buffer lines that every slot of a binding may write, P128 tiles apart. -/
def bindWrites (img : Image) (b : Binding) : List Lines :=
  let c := chainOf img (outputOf b.kind).1
  let quant := match quantStage c with
    | some (_, .quantOut t _ _ _ amax _) => targetLines t ++ amax.toList.flatMap fun p => placeLines p (ceilDiv (4 * (targetExtents t).1) 512)
    | _ => []
  quant ++ outLines (outputOf b.kind).2 ++ (c.taps.flatMap fun t => wideLines t.2) ++
  match b.kind with
  | .chained q _ _ c _ _ => c.stateOut.toList.flatMap fun p => placeLines p (ceilDiv (8 * (operandTensor q).rows) 512)
  | .sampler s => placeLines s.out (ceilDiv (4 * s.rows) 512) ++ (s.outScore.toList.flatMap fun p => placeLines p (ceilDiv (4 * s.rows) 512))
      ++ (s.exportTo.toList.flatMap fun p => placeLines p (ceilDiv (s.scores.pitch * s.rows) 512))
      ++ s.index.toList.flatMap fun p => placeLines p (ceilDiv (4 * s.rows) 512)
  | .exchange r _ _ => [(r.slice, r.line, r.lines)]
  | _ => []

/-- Lines in which a receiving binding's packets land. -/
def landLines (r : Receive) : List Lines :=
  match r.tensor, r.wide with
  | some t, _ => if r.dynamic then [(r.slice, r.line, r.lines)] else tensorLines t
  | none, some w => placeLines w.place (ceilDiv (w.pitch * w.rows * max 1 r.parts) 512)
  | none, none => [(r.slice, r.line, r.lines)]

/-- Lines in which a binding's packets land, its P128 tiles where it places them (R108, R279). -/
def bindLands (b : Binding) : List Lines :=
  match recvOf b.kind with
  | none => []
  | some r => if r.type = tyTileP128 then p128Runs (.buf r.slice r.line) b.tiles (r.parts * r.rowTiles * r.colTiles) else landLines r

/-- Whether every expected packet of a fixed-size receiving binding has landed; a switch's sum stands for all parts. -/
def Part.landedAll (x : Part) (img : Image) (bind : Nat) (r : Receive) : Bool :=
  let l := x.flu.landed.filter fun y => y.1 == bind
  if r.type = tyStream then decide (expectedPackets r ≤ l.length)
  else (routedTiles r img x.sch.seg.toNat).all fun t => l.contains (bind, t.1, t.2.1, 0xFFFFFFFF) || l.contains (bind, t.1, t.2.1, t.2.2)

/-- The receiving bindings whose landing regions a binding reads and which still miss a packet (R279). Partial sums, states, records and
dynamic exchanges are waited for where they are used. -/
def Part.waitsFor (x : Part) (img : Image) (b : Binding) : List Nat :=
  let reads := bindReads img b
  (x.receivers.filter fun r =>
    !r.2.dynamic && (r.2.type == tyTileCode || r.2.type == tyTileWide || r.2.type == tyStream)
      && (landLines r.2).any (fun l => reads.any (linesMeet l)) && !x.landedAll img r.1 r.2).map (·.1)

/-- The lowest local flue port on which a packet of one of some receiving bindings should have arrived (R438). -/
def Part.lowestPort (x : Part) (keys : List Nat) : Option Nat := (keys.map x.portOf).min?

end Sys2Proof.Machine
end

