-- ==== Sys2Proof/Machine/Rows.lean ====
section
/-! DEFINITION. The row units' own bindings: copies (R120), fills (R182), samplers (R190 to R196), and the output rows of chained
products (R157); HANDSHAKE dispatches the work of every unit. -/

namespace Sys2Proof.Machine

/-! ## Tiles no array computes (R32, R299) -/

/-- The tile of a row block that a slot's row units have begun, with the array it is paired with. -/
def Dev.blockTile (d : Dev) (j : Job) (row : Nat) : Option (Nat × Tile) :=
  (List.range 4).findSome? fun i =>
    let a := 4 * d.jobSlice j + i
    (((d.array a).judges).find? fun q => q.sums.isNone && q.tile.slot == j.l.key && q.tile.bind == j.b.key && q.tile.row == row).map
      fun q => (a, q.tile)

/-- A row block begun on a row unit, unless it has been: it takes a tag and will wait for its verdict. -/
def Dev.beginBlock (d : Dev) (j : Job) (t : Nat) (u : Fin 4) (row : Nat) : Dev × Nat :=
  match d.blockTile j row with
  | some t => (d, t.2.tag)
  | none =>
    let slice := d.jobSlice j
    let (d, tag) := d.nextTag j.p slice t (unitOf slice 3 u.val)
    let x := d.array (4 * slice + u.val)
    let tile : Tile := ⟨j.p, j.l.key, j.b.key, row, row, 0, 0, tag, 3⟩
    (d.setArray (4 * slice + u.val) { x with judges := x.judges ++ [⟨tile, none, [], none, []⟩] }, tag)

/-- Progress of a unit of work noted. -/
def Dev.advance (d : Dev) (j : Job) (u n : Nat) (whole : Bool) : Dev :=
  let d := d.modJob j fun r =>
    { r with begun := if r.begun.contains u then r.begun else r.begun ++ [u], sub := tabSet 0 r.sub u n }
  if whole then d.finishUnit j u else d

/-! ## Copies and fills -/

/-- The first value stage's IF of a chain (R120, R183). -/
def firstIf (c : Chain) : Option IFmt :=
  c.stages.findSome? fun s => match s with
    | .quantOut _ _ _ _ _ f => some f
    | .rotate .. | .scale .. => none
    | s => valueIf s

/-- A copied code element: exact, then rounded once by RNE to the first value stage's IF, or to F32 where no stage has one (R50, R89,
R120, log entry 37). -/
def copiedCode (c : Chain) (t : TensorRef) (ts : BitVec 32) (g : OpGroup) (col : Nat) : Val :=
  let a := BitVec.ofInt 128 (g.q.getD (col % t.g) 0 * gs8Scale g.gs8 * 2 ^ 23)
  let f := specOf ((firstIf c).elim .f32 ifWide)
  .f32 (toF32 (decodeF f (encodeF f .rne 0 (.fin (dequant a ts one32)))))

/-- Whether a copied code element overflows the format it is rounded to (R125). -/
def copiedOver (c : Chain) (t : TensorRef) (ts : BitVec 32) (g : OpGroup) (col : Nat) : Bool :=
  let a := BitVec.ofInt 128 (g.q.getD (col % t.g) 0 * gs8Scale g.gs8 * 2 ^ 23)
  overflows (specOf ((firstIf c).elim .f32 ifWide)) (.fin (dequant a ts one32))

/-- Elements [col, col + n) of a row of a copy's input or a fill; none while a line or group is missing. With them the lines
read, gather counts, overflows and the failure met. -/
structure RowInput where
  vals : List Val
  lines : List (Nat × Nat)
  range : Nat
  overs : Nat
  fail : Failure

/-- Input of a copy from a wide region, through the prologue stages of its chain (R120, R127 to R129). -/
def Env.copyWide (e : Env) (j : Job) (w : WideRef) (row col n : Nat) : Option RowInput :=
  let pro := prologueOf j.img j.b.kind 0
  let blk := match prologueRot (pro.map (·.2)) with | some (r, _) => 2 ^ r.log2 | none => 1
  let lo := col / blk * blk
  let hi := roundUp (col + n) blk
  (e.prologued w 0 pro (outTid j.img j.b.kind) row lo hi).map fun xs =>
    let mine := (List.range n).map fun i => (col + i, xs.getD (col + i - lo) (0, 0, 0))
    let spans := (List.range (hi - lo)).flatMap fun i => e.proSpans w 0 pro row (lo + i)
    let lines := e.spanLines spans
    ⟨mine.map fun x => .f32 x.2.1, lines, (mine.filter fun x => x.2.2.1 == 1 && gatherFirst pro row x.1).length,
     mine.foldl (fun m x => m + x.2.2.2) 0, orFail (badLine e.sb lines) (e.heldFail spans)⟩

/-- Input of a copy from a code tensor, from the groups its station has checked. Prologue stages in the chain act on a wide input alone:
with a code input they stand idle (DESIGN CHOICE, log entry 61: R120 decodes a code input and says no more). -/
def Dev.copyCode (d : Dev) (e : Env) (j : Job) (t : TensorRef) (row col n : Nat) : Option RowInput :=
  (d.operandTs e j 0 row).bind fun ts =>
    ((List.range n).mapM fun i => d.findGroup j 0 row ((col + i) / t.g)).map fun (gs : List StGroup) =>
      ⟨(gs.zip (List.range n)).map fun x => copiedCode j.chain t ts x.1.g (col + x.2), [], 0,
       ((gs.zip (List.range n)).filter fun x => copiedOver j.chain t ts x.1.g (col + x.2)).length,
       gs.foldl (fun f (g : StGroup) => orFail f g.fail) []⟩

/-- Elements of a fill (R182 to R188). -/
def Env.fillRow (e : Env) (j : Job) (dist : Dist) (src : BitSrc) (tid : BitVec 24) (row col n : Nat) : RowInput :=
  let draw (tag i : Nat) : Word := e.draw j.b.key 15 src tag tid (outIndex j.chain j.out row (col + i)) 0
  ⟨(List.range n).map fun i => .f32 (fillValue dist (draw 0 i) (draw 2 i)), [], 0, 0, []⟩

/-- The input of a row range. -/
def Dev.rowInput (d : Dev) (e : Env) (j : Job) (row col n : Nat) : Option RowInput :=
  match j.b.kind with
  | .copy _ (some w) _ _ => e.copyWide j w row col n
  | .copy (some t) none _ _ => d.copyCode e j t row col n
  | .fill dist src tid _ _ => some (e.fillRow j dist src tid row col n)
  | _ => none

/-- A row unit runs up to 512 elements of a row of a copy or fill through the chain, the rows of a 64-row block in order
(R120, R182, R437). -/
def doRows (u : Fin 4) (j : Job) (row col n now : Nat) (fail : Failure) (s : StageBufs × Dev) : StageBufs × Dev :=
  let d := s.2
  let size := outShape j.img j.b.kind
  let blk := row / 64
  let total := min 64 (size.1 - 64 * blk) * size.2
  let pos := row % 64 * size.2 + col
  let at_ := ((d.jobRun j).map fun r => r.subOf blk).getD 0
  if n = 0 ∨ 512 < n ∨ size.1 ≤ row ∨ size.2 < col + n ∨ !inWork j.l blk ∨ pos ≠ at_ then s
  else
    match d.rowInput (d.jobEnv s.1 j) j row col n with
    | none => s
    | some x =>
      let (d, tag) := d.beginBlock j now u blk
      let d := (d.noteReads now s.1 j x.lines).failTag (d.jobSlice j) tag (orFail fail x.fail)
      let d := (d.bumpBoth j 7 x.range).bumpBoth j 6 x.overs
      match runChain j (d.egressOf j) tag now ((List.range n).map fun i => (row, col + i, x.vals.getD i (.f32 0))) (s.1, d) with
      | none => s
      | some s => (s.1, s.2.advance j blk (pos + n) (pos + n == total))

/-! ## Sampling (R190 to R196) -/

/-- Whether the partition samples by the runtime (Table 1.5). -/
def Part.sampleHost (x : Part) : Bool := x.mode.getLsbD 5

/-- Best candidate so far of a score row. -/
def Part.bestOf (x : Part) (bind row : Nat) : Best := (x.flu.best.find? fun b => b.bind == bind && b.row == row).getD ⟨bind, row, negInf, noCandidate, []⟩

/-- Best candidate of a score row replaced. -/
def Dev.setBest (d : Dev) (p : PartId) (b : Best) : Dev :=
  d.modPart p fun x => { x with flu := { x.flu with best := (x.flu.best.filter fun c => !(c.bind == b.bind && c.row == b.row)) ++ [b] } }

/-- A partial record merged into a row's best (R193). -/
def Dev.mergeInto (d : Dev) (p : PartId) (bind row : Nat) (z : BitVec 32) (v : Nat) (part : Option Nat) : Dev :=
  let b := (d.part p).bestOf bind row
  let m := mergeBest (b.z, b.v) (z, v)
  d.setBest p { b with z := m.1, v := m.2, parts := b.parts ++ part.toList }

/-- Entries of a score row as a row unit reads them (R52): index, score, unmasked (R190, R191). -/
def Env.scoreEntries (e : Env) (s : Sampler) (row v n : Nat) : Option (List (Nat × BitVec 32 × Bool)) :=
  (e.bytes ⟨s.scores.place, 3, s.scores.pitch * row + 4 * v, 4 * n⟩).bind fun bs =>
    (match s.mask with
    | none => some (List.replicate n true)
    | some m =>
      let at_ := ceilDiv s.v 8 * row
      (e.bytes ⟨m, 4, at_ + v / 8, (v % 8 + n + 7) / 8⟩).map fun (mb : List Byte) =>
        (List.range n).map fun i => (mb.getD ((v % 8 + i) / 8) 0).getLsbD ((v + i) % 8)).map fun (ok : List Bool) =>
      (List.range n).map fun i => (v + i, wideElem .f32 ((bs.drop (4 * i)).take 4), ok.getD i true)

/-- Whether a sampler's slot is the one after a host window, which takes the indices out of OUT (R196, step 4): a host window lies between
a slot that has named the binding, on any slice, and this one. -/
def Dev.indexSlot (d : Dev) (j : Job) (q : Sampler) : Bool :=
  let x := d.part j.p
  let start (l : Slot) : Nat := x.att.startOf j.img l
  q.index.isSome && x.timeline.any fun w => w.kind == 6 && decide (x.att.endOf j.img w ≤ start j.l)
    && x.timeline.any fun l => l.bind == j.b.key && decide (start l < start w)

/-- A row unit samples up to 512 entries of a score row, in order (R191, R192); in host-assisted mode it writes y (R196). Of the entries
whose score is NaN those that MASK leaves open are counted, and an entry both masked and NaN is exported as NaN (DESIGN CHOICE, log entry
61: R196 gives each case and no order). -/
def doSample (u : Fin 4) (j : Job) (row v n now : Nat) (fail : Failure) (s : StageBufs × Dev) : StageBufs × Dev :=
  match j.b.kind with
  | .sampler q =>
    let d := s.2
    let e := d.jobEnv s.1 j
    let x := d.part j.p
    let done := ((d.jobRun j).map fun r => r.subOf row).getD 0
    if d.indexSlot j q ∨ n = 0 ∨ 512 < n ∨ !inWork j.l row ∨ q.rows ≤ row ∨ v ≠ q.first + done ∨ q.first + q.count < v + n then s
    else
      match e.scoreEntries q row v n, e.bytes ⟨q.rowkey, 5, 8 * row, 8⟩ with
      | some es, some kb =>
        let (d, tag) := d.beginBlock j now u (row / 64)
        let spans : List Span := [⟨q.scores.place, 3, q.scores.pitch * row + 4 * v, 4 * n⟩, ⟨q.rowkey, 5, 8 * row, 8⟩]
          ++ match q.mask with | some m => [⟨m, 4, ceilDiv q.v 8 * row + v / 8, (v % 8 + n + 7) / 8⟩] | none => []
        let lines := e.spanLines spans
        let d := (d.noteReads now s.1 j lines).failTag (d.jobSlice j) tag (orFail fail (orFail (badLine s.1 lines) (e.heldFail spans)))
        if x.sampleHost then
          match q.exportTo with
          | none => (s.1, d.advance j row (done + n) (done + n == q.count))
          | some pl =>
            let bs := es.flatMap fun y =>
              let z := if isNan y.2.1 then nan32 else if !y.2.2 then negInf else if q.greedy then y.2.1 else fMul y.2.1 q.invT
              bytesLE 4 z.toNat
            let s := emitRow j.sink pl q.scores.pitch (4 * q.v) (q.scores.pitch * row + 4 * v) bs (s.1, d)
            (s.1, s.2.advance j row (done + n) (done + n == q.count))
        else
          let key := BitVec.ofNat 64 (natLE kb)
          let nans := (es.filter fun y => y.2.2 && isNan y.2.1).length
          let cand := es.filter fun y => y.2.2 && !isNan y.2.1
          let best := cand.foldl (fun b y =>
            mergeBest b (sampleZ q.greedy q.invT y.2.1 (sampleDraw x.rng.seed key q.tid y.1), y.1)) (negInf, noCandidate)
          let d := (d.mergeInto j.p j.b.key row best.1 best.2 none).bumpBoth j 8 nans
          (s.1, d.advance j row (done + n) false)
      | _, _ => s
  | _ => s

/-- Entry-range part that a member's own records of a sampler are (R268). -/
def samplePart (q : Sampler) : Nat := q.first / max 1 q.count

/-- Entry-range parts of a sampler's rows that the samplers of some bindings work on. -/
def partsHere (bs : List Binding) (q : Sampler) : List Nat :=
  bs.filterMap fun b => match b.kind with | .sampler r => if r.tid = q.tid then some (samplePart r) else none | _ => none

/-- Parts of a sampler's rows that other members send: those of its receiving binding that no slice of the partition works on. -/
def Part.sampleParts (x : Part) (q : Sampler) : List Nat :=
  match x.receivers.find? fun r => r.2.type == tySample && r.2.tid == q.tid with
  | some r => (List.range r.2.parts).filter fun k => !(partsHere x.segBindings q).contains k
  | none => []

/-- The sampler that takes other members' records of a tensor: the one that merges them, which names no merger (R193). -/
def Part.sampleBind (x : Part) (tid : BitVec 24) : Option Binding :=
  (x.segBindings.find? fun b => match b.kind with | .sampler q => q.tid == tid && q.dest.isNone | _ => false).or
    (x.segBindings.find? fun b => match b.kind with | .sampler q => q.tid == tid | _ => false)

/-- The sampler of the partition that merges the records of a sampler's rows, when another slice works on them too (R193): the one of
the same tensor that names no merger. -/
def Part.mergerOf (x : Part) (bind : Nat) (q : Sampler) : Option Nat :=
  (x.segBindings.find? fun b => b.key != bind && match b.kind with | .sampler r => r.tid == q.tid && r.dest.isNone | _ => false).map (·.key)

/-- The records that the slices of the partition hand a merging sampler for a row, as part numbers of their own. -/
def Part.siblings (x : Part) (bind : Nat) (q : Sampler) (row : Nat) : List Nat :=
  (x.segBindings.filter fun b => b.key != bind && x.covers b.key row && match b.kind with
    | .sampler r => r.tid == q.tid && r.dest.isSome
    | _ => false).map fun b => 2 ^ 32 + b.key

/-- Whether every record that a merging sampler waits for is in for a row: those of other slices and of other members (R193). -/
def Dev.recordsIn (d : Dev) (p : PartId) (bind : Nat) (q : Sampler) (row : Nat) : Bool :=
  let x := d.part p
  let here (k : Nat) : Bool := match (x.segBind k).map (fun (b : Binding) => b.kind) with
    | some (.sampler r) => (match r.dest with | some y => d.isOwn p y.1 y.2 | none => false)
    | _ => false
  (x.sampleParts q ++ (x.siblings bind q row).filter fun k => here (k - 2 ^ 32)).all ((x.bestOf bind row).parts.contains ·)

/-- The slot after a host window: a row's index goes from OUT into the index region (R196, step 4). -/
def takeIndex (j : Job) (q : Sampler) (pl : Place) (row now : Nat) (fail : Failure) (u : Fin 4) (s : StageBufs × Dev) :
    StageBufs × Dev :=
  let e := s.2.jobEnv s.1 j
  let span : Span := ⟨q.out, 7, 4 * row, 4⟩
  match e.bytes span with
  | none => s
  | some b =>
    let (d, tag) := s.2.beginBlock j now u (row / 64)
    let lines := e.spanLines [span]
    let d := (d.noteReads now s.1 j lines).failTag (d.jobSlice j) tag (orFail fail (orFail (badLine s.1 lines) (e.heldFail [span])))
    let s := emitItem j.sink pl 7 4 q.rows row (BitVec.ofNat 32 (natLE b)) (s.1, d)
    (s.1, s.2.finishUnit j row)

/-- A row unit writes the choice of a row once every partial record is merged (R191, R193, R195); where another slice of the partition
merges, the record goes to it, and where another member does, the records of a 64-row block go to it together (R268). -/
def doChoose (j : Job) (u : Fin 4) (row now : Nat) (fail : Failure) (s : StageBufs × Dev) : StageBufs × Dev :=
  match j.b.kind with
  | .sampler q =>
    let d := match s.2.blockTile j (row / 64) with | some t => s.2.failTag (s.2.jobSlice j) t.2.tag fail | none => s.2
    let s : StageBufs × Dev := (s.1, d)
    let x := d.part j.p
    let done := ((d.jobRun j).map fun r => r.subOf row).getD 0
    let fin := ((d.jobRun j).map fun r => r.finished.contains row).getD true
    match d.indexSlot j q, q.index with
    | true, some pl => if fin ∨ !inWork j.l row ∨ q.rows ≤ row then s else takeIndex j q pl row now fail u s
    | _, _ =>
    if x.sampleHost ∨ fin ∨ done ≠ q.count ∨ !inWork j.l row then s
    else
      match q.dest.filter fun y => !d.isOwn j.p y.1 y.2 with
      | none =>
        let b := x.bestOf j.b.key row
        match q.dest.isSome, x.mergerOf j.b.key q with
        | true, some k => (s.1, (d.mergeInto j.p k row b.z b.v (some (2 ^ 32 + j.b.key))).finishUnit j row)
        | _, _ =>
        if !d.recordsIn j.p j.b.key q row then s
        else
          let s := emitItem j.sink q.out 7 4 q.rows row (BitVec.ofNat 32 b.v) s
          let s := match q.outScore with
            | some pl => emitItem j.sink pl 8 4 q.rows row (if b.v = noCandidate then negInf else b.z) s
            | none => s
          (s.1, s.2.finishUnit j row)
      | some (h, rank) =>
        let d := d.finishUnit j row
        let rows := (List.range 64).map (64 * (row / 64) + ·) |>.filter fun r => decide (r < q.rows)
        let ready := match d.jobRun j with | some r => rows.all fun y => r.finished.contains y | none => false
        let dest := (d.grp j.p h).bind fun g => (d.listOf j.p g)[rank]?
        (match ready, dest with
        | true, some m =>
          let bs := (List.range 64).flatMap fun i =>
            let b := (d.part j.p).bestOf j.b.key (64 * (row / 64) + i)
            bytesLE 4 b.z.toNat ++ bytesLE 4 b.v
          let d := d.sendTo j.p j.port false { type := tySample, group := h, row := row / 64, kPart := samplePart q, tid := q.tid.toNat,
                                                 flags := 1, payload := bs } m
          (s.1, (d.modAtt j.p fun a => { a with owed := a.owed ++ [(j.b.key, row / 64, samplePart q, h, rank)] }).payOwed j.p)
        | _, _ => (s.1, d))
  | _ => s

/-! ## Output rows of a chained product (R157) -/

/-- The level of the merge tree's root (R155). -/
def rootLevel (c : Chained) : Nat := ((List.range 64).find? fun l => levelNodes c l == 1).getD 0

/-- y of a row from its root state. -/
def outputRow (st : ChState) : List (BitVec 32) :=
  st.o.map fun o => if st.f then nan32 else if f32Val st.l = .fin 0 then 0 else fDiv o st.l

/-- A row unit forms an output row from its root state, which goes through the epilogue; m and l are written to STATE_OUT, but for
pass 1 of a two-pass output (R166). -/
def doOutput (u : Fin 4) (j : Job) (row now : Nat) (fail : Failure) (s : StageBufs × Dev) : StageBufs × Dev :=
  match j.b.kind with
  | .chained _ _ _ c _ _ =>
    let root := rootLevel c
    (match (s.2.part j.p).chState j.b.key row root 0, c.sends.find? fun x => x.1 == root && x.2.1 == 0 && !s.2.isOwn j.p x.2.2.1 x.2.2.2 with
    | some st, none =>
      let (d, tag) := s.2.beginBlock j now u (row / 64)
      let d := d.failTag (d.jobSlice j) tag (orFail fail st.fail)
      let ys := outputRow st
      (match runChain j (d.egressOf j) tag now ((List.range ys.length).map fun i => (row, i, .f32 (ys.getD i 0))) (s.1, d) with
      | none => s
      | some s =>
        let s := match if s.2.isPass1 j then none else c.stateOut with
          | some pl => emitBytes { j.sink with digest := none } pl (8 * row) (bytesLE 4 st.m.toNat ++ bytesLE 4 st.l.toNat) s
          | none => s
        (s.1, (s.2.dropState j.p j.b.key row root 0).finishUnit j (2 ^ 32 + row)))
    | _, _ => s)
  | _ => s

/-! ## HANDSHAKE -/

/-- Unit of a slice that does a piece of work, and the slot it belongs to (none for a weight digest). -/
def workUnit (slice : Nat) (w : Work) : UnitCode × Option Nat :=
  match w with
  | .fetch st slot .. | .pass st slot .. | .convert st slot .. | .importMx st slot .. | .consume st slot => (unitOf slice 1 st.val, some slot)
  | .hash st .. => (unitOf slice 1 st.val, none)
  | .beginTile a slot _ => (unitOf slice 0 a.val, some slot)
  | .load a .. | .dots a => (unitOf slice 0 a.val, none)
  | .rows u slot .. | .sample u slot .. | .choose u slot _ | .output u slot _ => (unitOf slice 3 u.val, some slot)

/-- Slot of a piece of work: the one it names, or that of the array's tile. -/
def Dev.workSlot (d : Dev) (slice : Nat) (w : Work) : Option Nat :=
  match w with
  | .load a .. | .dots a => (d.array (4 * slice + a.val)).tile.map (·.slot)
  | w => (workUnit slice w).2

/-- What a unit does in a handshake for its job. -/
def doWork (slice : Nat) (w : Work) (j : Job) (now : Nat) (fail : Failure) (c : Check) (s : StageBufs × Dev) :
    StageBufs × Dev :=
  match w with
  | .fetch st _ o kind index port id => doFetch slice st j o kind index port id now fail s
  | .pass st _ o block => doPass slice st j o block now fail s
  | .convert st _ o row grp => doConvert slice st j o row grp now fail s
  | .importMx st _ o row grp => doImport slice st j o row grp now fail s
  | .beginTile a _ u => doBegin slice a j u now (s.1, s.2.lostFailure now fail)
  | .load a rowSide i => doLoad slice a rowSide i j now fail s
  | .dots a => doDots slice a j now fail c s
  | .rows u _ row col n => doRows u j row col n now fail s
  | .sample u _ row v n => doSample u j row v n now fail s
  | .choose u _ row => doChoose j u row now fail s
  | .output u _ row => doOutput u j row now fail s
  | .consume st _ => doConsume slice st j now fail s
  | .hash .. => s

/-- HANDSHAKE (R13 to R18, R104): one handshake of a unit of a slice, with what the hardware's checks find in it (R20, R298).
A slot's unit works only while its slot runs and names it, and once every packet has landed in the regions it reads (R279); a
station stopped by a failed check feeds no more (R66), and a fenced unit works no more (R382). -/
def execHandshake (t : Tick) (sl : SliceId) (w : Work) (c : Check) (s : State) : Host.Outcome State Fault Refusal :=
  onAll t s fun n s =>
    let slice := sl.val
    let s : StageBufs × Dev := (sbSpoil s.1 slice c, s.2)
    match w with
    | .hash st bind kind index => doHash slice st bind kind index n c s
    | w =>
      let u := (workUnit slice w).1
      match (s.2.workSlot slice w).bind fun slot => s.2.job slice slot u with
      | none => s
      | some j =>
        let r := s.2.checked n j u c
        let halted : Bool := match w with
          | .pass .. | .convert .. | .importMx .. => ((s.2.jobRun j).map fun r => r.stopped.contains u).getD true
          | .rows .. | .sample .. | .choose .. | .output .. => s.2.egressFenced j
          | _ => false
        if halted || !((s.2.part j.p).waitsFor j.img j.b).isEmpty then (s.1, r.1.lostFailure n r.2)
        else settleCredits j.p n (s.2.part j.p).flu.dyn (doWork slice w j n r.2 c (s.1, r.1))

end Sys2Proof.Machine
end

