-- ==== Sys2Proof/Machine/Startup.lean ====
section
/-! DEFINITION. Power-good, engine reset and the start-up sequence (R373 to R380, R386, R389, R409), and the loss of the
time base (R229). -/

namespace Sys2Proof.Machine

/-- The units after engine reset (R389, R408, R419): everything takes its reset value but the input pins and what has
left the engine. -/
def Dev.engineReset (d : Dev) (await : Bool) : Dev :=
  { Dev.reset with
    eng := { Dev.reset.eng with awaitCycle := await },
    straps := d.straps,
    pwr := { Dev.reset.pwr with good := d.pwr.good, wasOff := d.pwr.wasOff },
    dmp := { Dev.reset.dmp with throttle := d.dmp.throttle, throttleAt := d.dmp.throttleAt, releasedAt := d.dmp.releasedAt },
    rpt := { Dev.reset.rpt with out := d.rpt.out },
    secOut := d.secOut,
    ports := (List.range 32).filterMap fun i =>
      let q := tabGet FluePort.reset d.ports i
      let r : FluePort := { FluePort.reset with up := q.up, cut := q.cut }
      if r = FluePort.reset then none else some (i, r),
    flueOut := d.flueOut }

/-- Every send on its way is cut off: the ports are held idle (R389). -/
def Dev.cutAll (d : Dev) (t : Nat) : Dev := allParts.foldl (fun d p => d.cutFlue t p) d

/-- A slot of a partition that has been launched and has not ended names a unit. -/
def Part.uses (x : Part) (u : UnitCode) : Bool :=
  match x.ldr.image with
  | none => false
  | some img => x.att.slots.any fun r => r.done.isNone && !r.aborted && (match img.slots.find? fun l => l.key == r.key with
      | some l => unitKind u == 0 && decide (x.slice l.slice = unitSlice u) && l.units.getLsbD (unitIdx u)
      | none => false)

/-- An array domain falls below 0.65 V, or out of regulation (R329, R409): under a slot that names the array, the verdict of every tile the
array computes in the attempt is negative, those already positive included. The record is raised once in the attempt. -/
def Dev.belowFloor (d : Dev) (t : Nat) (a : Nat) : Dev :=
  match d.ownerOf (a / 4) with
  | none => d
  | some p =>
    if (d.part p).uses (arrayUnit a) ∧ !(d.part p).att.low.contains a then
      let d := d.modAtt p fun x => { x with low := x.low ++ [a], judged := x.judged.filter fun q => q.2 != a }
      d.report t { code := 0x02, severity := .stepReplay, unit := arrayUnit a, part := some p,
                   synd := 1 + (arrayUnit a).toNat * 2 ^ 48 }
    else d

/-- POWER_GOOD_RISE (R375 step 1). -/
def execPowerGoodRise (t : Tick) (s : State) : Host.Outcome State Fault Refusal :=
  onDev t s fun _ d => { d with pwr := { d.pwr with good := BitVec.allOnes 65 } }

/-- POWER_GOOD_FALL (R409). -/
def execPowerGoodFall (t : Tick) (dom : Fin 65) (s : State) : Host.Outcome State Fault Refusal :=
  onDev t s fun n d =>
    let d := { d with pwr := { d.pwr with good := d.pwr.good &&& ~~~(BitVec.ofNat 65 (2 ^ dom.val)) } }
    if dom.val = 64 then (d.cutAll n).engineReset true
    else if d.pwr.en.getLsbD dom.val ∧ d.eng.phase ≠ .reset then
      (d.belowFloor n dom.val).requestFence n (arrayUnit dom.val) none
    else d

/-- ENGINE_RESET (R389): the flue is held idle, the queued records are delivered, then every unit is reset. A reset asserted while power-good
is back ends the wait that a loss of the control domain began (R409). -/
def execEngineReset (t : Tick) (s : State) : Host.Outcome State Fault Refusal :=
  onDev t s fun n d =>
    let d := d.cutAll n
    let d := { d with rpt := { d.rpt with out := d.rpt.out ++ d.rpt.queue } }
    d.engineReset (d.eng.awaitCycle && d.pwr.good != BitVec.allOnes 65)

/-- RESET_RELEASE (R375 step 2): the engine takes no action while any domain lacks power-good, nor in test (R411). -/
def execResetRelease (t : Tick) (s : State) : Host.Outcome State Fault Refusal :=
  onDev t s fun n d =>
    if d.eng.phase = .reset ∧ d.pwr.good = BitVec.allOnes 65 ∧ !d.eng.awaitCycle ∧ !d.eng.testMode then
      { d with eng := { d.eng with phase := .init, releasedAt := n, tbLocked := false } }
    else d

/-- Ticks within which the time base must lock (R375 step 3). -/
def lockLimit : Nat := 10000000

/-- TIME_BASE_LOCK (R375 step 3). -/
def execTimeBaseLock (t : Tick) (s : State) : Host.Outcome State Fault Refusal :=
  onDev t s fun n d =>
    if d.eng.phase = .init ∧ d.eng.releasedAt + 4096 ≤ n ∧ n < d.eng.releasedAt + lockLimit then
      { d with eng := { d.eng with tbLocked := true } }
    else d

/-- TIME_BASE_LOCK_TIMEOUT (R375 step 3). -/
def execTimeBaseLockTimeout (t : Tick) (s : State) : Host.Outcome State Fault Refusal :=
  onDev t s fun n d =>
    if d.eng.phase = .init ∧ !d.eng.tbLocked ∧ d.eng.releasedAt + lockLimit ≤ n then d.setPhase .noService 1 else d

/-- What initialisation leaves in the units (R376): tables, keys, partitions and the record queue cleared. -/
def Dev.initialise (d : Dev) : Dev :=
  { d with ledger := [], ledgerBad := [], members := [], groups := [], keys := [], parts := [], views := [],
           arrays := [], stations := [], rpt := { d.rpt with queue := [], seq := 0, moved := [] } }

/-- INITIALISATION (R376). -/
def execInitialisation (t : Tick) (f : InitFindings) (s : State) : Host.Outcome State Fault Refusal :=
  onAll t s fun n w =>
    let (sb, d) := w
    if d.eng.phase = .init ∧ d.eng.tbLocked then
      let d := d.initialise
      let d := f.corrected.foldl (fun d u =>
        let d := if unitKind u = 5 then d.bumpSlice (unitSlice u) 5 1 else d
        d.report n { code := 0x09, severity := .correctable, unit := u, part := none }) d
      let d := f.sbBad.foldl (fun d x => d.requestFence n (unitOf x.val 5 0) none) d
      (StageBufs.reset, if f.tableBad then d.setPhase .noService 2 else d.setPhase .firmware 0)
    else (sb, d)

/-- STOKER_FIRST_INSTRUCTIONS (R375 step 6). -/
def execStokerFirstInstructions (t : Tick) (s : State) : Host.Outcome State Fault Refusal :=
  onDev t s fun _ d => if d.eng.phase = .firmware ∧ d.stk.running then d.setPhase .budget 0 else d

/-! ## Start-up epochs (R377) -/

/-- Leakage of an array domain in 0.01 A (Table 12.2). -/
def leakOf (grade : Nat) : Nat := if grade ≤ 1 then 100 else if grade = 2 then 115 else 130
/-- Charge per array handshake in 0.01 nC (Table 12.2). -/
def chargeOf (grade : Nat) : Nat := if grade ≤ 1 then 843 else if grade = 2 then 917 else 994

/-- Request of an array domain in 0.25 A, rounded up (R330, R331), for `h` handshakes (a rational count h / hd) in an
epoch of `len` ticks. -/
def arrayAmps (grade len h hd : Nat) : Nat :=
  ceilDiv (4 * (leakOf grade * len * hd + chargeOf grade * h)) (100 * len * hd)

/-- The current requested for the start-up burn in domain n (R375 step 7): 400 handshakes at G1 on every array that is
not fenced, the control domain's idle current, nothing for a fenced array (R328). -/
def burnAmps (d : Dev) (n : Nat) : Nat :=
  if n = 64 then 120
  else if d.fenceSet (arrayUnit n) then 0 else arrayAmps 1 Config.startupEpochTicks 400 1

/-- A request sent: its values become those last requested (R403). -/
def Dev.sendRequest (d : Dev) (r : DmpReq) : Dev :=
  { d with dmp := { d.dmp with reqs := d.dmp.reqs ++ [r], lastReq := r.amps } }

/-- The 65 domains' values as a table. -/
def ampTable (f : Nat → Nat) : Tab Nat := ((List.range 65).map fun n => (n, f n)).filter fun x => x.2 ≠ 0

/-- Per-domain figures of an epoch that ends (R429). -/
def Dev.closeDomains (d : Dev) (ms : List Measure) : Dev :=
  ms.foldl (fun d m => { d with dmp := { d.dmp with tel := tabMod DomTel.reset d.dmp.tel m.dom.val fun x =>
    { x with minMv := (x.cur.map (·.1)).getD x.mv, maxTemp := (x.cur.map (·.2)).getD x.temp, cur := none, current := m.ma } } }) d

/-- Whether the minimum service set is present (R386): the stoker pair runs in lockstep, no shared unit has failed, and a slice serves. The
table stores have been read back before (R376). -/
def Dev.minService (d : Dev) : Bool := d.stk.running && d.eng.sharedBad.isEmpty && anyService d.eng.fences

/-- The engine enters READY, or NO_SERVICE with cause 5 (R375 step 10, R386). ARRAYS shows what the burn has left in both (Table 14.1). -/
def Dev.enterReady (d : Dev) (t : Nat) : Dev :=
  let up := arraysUp d.eng.fences
  let d := { d with eng := { d.eng with arraysOk := up } }
  if d.minService then
    let r : Report := { code := 0, severity := .info, unit := sharedUnit 0, part := none,
                        synd := sliceMap d.eng.fences + up * 2 ^ 32 }
    let rec_ := d.mkRec t r
    let d := { d with eng := { d.eng with phase := .ready, cause := 0, burn := ⟨none, none, false⟩ },
                      secOut := d.secOut ++ [SecEvent.ready rec_] }
    d.raise t r
  else d.setPhase .noService 5

/-- STARTUP_EPOCH (R375 steps 7 to 10, R377). -/
def execStartupEpoch (t : Tick) (m : List Measure) (s : State) : Host.Outcome State Fault Refusal :=
  onDev t s fun n d =>
    if n % Config.startupEpochTicks ≠ 0 then d
    else
      let e := n / Config.startupEpochTicks
      let d := d.closeDomains m
      let d := { d with dmp := { d.dmp with wait := min 65535 (d.dmp.wait + 1) } }
      match d.eng.phase with
      | .budget =>
        let b := d.eng.burn
        if d.dmp.throttle then d
        else if b.granted = some e then { d with eng := { d.eng with phase := .burn, burn := { b with judged := false } } }
        else if (match b.firstReq with | some f => decide (f + 64 ≤ e) | none => false) && b.granted.isNone then
          d.setPhase .noService 4
        else if b.granted.isSome then d
        else
          let r : DmpReq := { start := (e + 2) * Config.startupEpochTicks, len := Config.startupEpochTicks, src := 0xFF,
                              amps := ampTable (burnAmps d), ceil := d.dmp.ceil, sentEpoch := e }
          let d := d.sendRequest r
          { d with eng := { d.eng with burn := { b with firstReq := some (b.firstReq.getD e) } } }
      | .burn => if d.eng.burn.judged ∧ d.eng.fenceReqs.isEmpty then d.enterReady n else d
      | _ => d

/-! ## The start-up burn (R380) -/

/-- Whether an array's burn gives the known answer. -/
def burnMatches (f : BurnFindings) (a : Nat) : Bool :=
  match f.arrays.find? fun x => x.array.val == a with
  | some x => burnSums x.accs == burnKnown 0 0
  | none => false

/-- An array's accumulators in the burn. -/
def burnOf (f : BurnFindings) (a : Nat) : Option (List (BitVec 128)) :=
  (f.arrays.find? fun x => x.array.val == a).map (·.accs)

/-- The other array of a pair. -/
def partner (a : Nat) : Nat := if a % 2 = 0 then a + 1 else a - 1

/-- Whether the pair of an array agreed and matched the known answer. -/
def pairGood (f : BurnFindings) (a : Nat) : Bool :=
  burnMatches f a && burnMatches f (partner a) && burnOf f a == burnOf f (partner a)

/-- The third array of R380 for a pair of slice s. -/
def thirdArray (f : BurnFindings) (a : Nat) : Option Nat :=
  let s := a / 4
  let inSlice (k : Nat) : Option Nat := ((List.range 4).map (4 * k + ·)).find? fun b => pairGood f b
  match (List.range 15).findSome? fun i => inSlice ((s + 1 + i) % 16) with
  | some b => some b
  | none => ((List.range 4).map (4 * s + ·)).find? fun b => b / 2 ≠ a / 2 && pairGood f b

/-- The findings against one array: cause, third array (R380), or none when it passes. -/
def judgeArray (f : BurnFindings) (a : Nat) : Option (Nat × Nat) :=
  match burnOf f a with
  | none => none
  | some accs =>
    if !burnMatches f a then some (2, noUnit)
    else if burnMatches f (partner a) ∧ burnOf f (partner a) ≠ some accs then
      match thirdArray f a with
      | none => some (0, noUnit)
      | some q =>
        let first := a / 2 * 2
        let run := match f.thirds.find? fun x => x.1.val == first && x.2.array.val == q with
          | some x => some x.2.accs
          | none => burnOf f q
        if run = some accs then none else some (0, (arrayUnit q).toNat)
    else none

/-- A PROVING_FAIL record of the start-up burn and the fence it requests (R380, R383). -/
def Dev.startupFail (d : Dev) (t : Nat) (unit fence : UnitCode) (judged partner third cause : Nat) : Dev :=
  let r : Report := { code := 0x0B, severity := .info, unit := unit, part := none,
                      synd := judged + partner * 2 ^ 16 + third * 2 ^ 32 + fence.toNat * 2 ^ 48 + cause * 2 ^ 64 }
  (d.report t r).requestFence t fence (some r)

/-- Whether a checker fails its start-up test (Table 14.4): a verdict that is not the one the known answer gives for a tile of an array that
took part, or a flipped sum missed. -/
def checkerFails (f : BurnFindings) (c : CheckerBurn) : Bool :=
  c.missed || (List.range 8).any fun i =>
    match burnOf f (4 * c.slice.val + i / 2) with
    | none => false
    | some accs =>
      let half (l : List (BitVec 128)) : List (BitVec 128) := (l.drop (128 * (i % 2))).take 128
      (half (burnSums accs) != half (burnKnown 0 0)) != c.negative.contains (Fin.ofNat 4 (i / 2), i % 2 == 1)

/-- Whether a station or a row unit fails its start-up test: the CRC-32C of what it delivered is not that of the known answer. -/
def UnitBurn.fails (u : UnitBurn) : Bool :=
  u.flips.any (·.2 != 0) &&
    let known := unitAnswer (unitKind u.unit)
    crc32c (flipBytes known u.flips) != crc32c known

/-- The unit to fence for a failed one: for a row unit the array of the same index, whose domain it shares (R380). -/
def burnFence (u : UnitCode) : UnitCode := if unitKind u = 3 then unitOf (unitSlice u) 0 (unitIdx u) else u
/-- The array that a record of a failed unit names: that of the same index for a row unit, none for another unit. -/
def burnJudged (u : UnitCode) : Nat := if unitKind u = 3 then (burnFence u).toNat else noUnit

/-- A unit with an uncorrectable word, a residue or parity failure or a launch that overran in the burn (Table 14.4): a shared unit has no
fence, and the minimum service set lacks it (R386). -/
def Dev.brokenUnit (d : Dev) (t : Nat) (u : UnitCode) : Dev :=
  if unitKind u = 0xF then
    { d with eng := { d.eng with sharedBad := d.eng.sharedBad ++ [u] } }.report t
      { code := 0x0B, severity := .info, unit := u, part := none, synd := noUnit * (1 + 2 ^ 16 + 2 ^ 32 + 2 ^ 48) + 2 * 2 ^ 64 }
  else d.startupFail t u (burnFence u) (burnJudged u) noUnit noUnit 2

/-- STARTUP_BURN_COMPLETE (R380). An array whose domain had been off is no longer fenced for it (R338). -/
def execStartupBurnComplete (t : Tick) (f : BurnFindings) (s : State) : Host.Outcome State Fault Refusal :=
  onDev t s fun n d =>
    if d.eng.phase = .burn ∧ !d.eng.burn.judged then
      let d := (List.range 64).foldl (fun d a =>
        if d.fenceSet (arrayUnit a) then d
        else
          match judgeArray f a with
          | none => d
          | some (c, q) =>
            let pu := if d.fenceSet (arrayUnit (partner a)) then noUnit else (arrayUnit (partner a)).toNat
            d.startupFail n (arrayUnit a) (arrayUnit a) (arrayUnit a).toNat pu q c) d
      let d := (f.checkers.filter (checkerFails f)).foldl (fun d x =>
        d.startupFail n (unitOf x.slice.val 4 0) (unitOf x.slice.val 4 0) (unitOf x.slice.val 0 0).toNat noUnit noUnit 1) d
      let d := (f.units.filter UnitBurn.fails).foldl (fun d x => d.startupFail n x.unit (burnFence x.unit) (burnJudged x.unit) noUnit noUnit 2) d
      let d := f.broken.foldl (fun d u => d.brokenUnit n u) d
      { d with eng := { d.eng with burn := { d.eng.burn with judged := true } }, pwr := { d.pwr with wasOff := d.pwr.wasOff.filter fun a => d.fenceSet (arrayUnit a) } }
    else d

/-- TIMEBASE_LOSS (R229): engine-fatal; every partition enters HALTED. The receiver watches the count once it has locked to it (R375). -/
def execTimebaseLoss (t : Tick) (strobe : Bool) (s : State) : Host.Outcome State Fault Refusal :=
  onDev t s fun n d =>
    let watched : Bool := match d.eng.phase with
      | .reset => false
      | .init => d.eng.tbLocked
      | _ => true
    if watched then d.report n { code := 0x14, severity := .engFatal, unit := sharedUnit 5, part := none, synd := bit strobe } else d

end Sys2Proof.Machine
end

