-- ==== Sys2Proof/Machine/Image.lean ====
section
/-! DEFINITION. Engine-side work of a slot in handshakes (R13, R15, R108, R141, R142, R160, R189, R194), and the current its
arrays draw (R330, R331). -/

namespace Sys2Proof.Machine

/-! ## Cost of stages (Table 5.5) -/

/-- Row-unit handshakes per 512 elements of a stage that is no normalisation. -/
def stageCost (img : Image) (s : Stage) : Nat :=
  match s with
  | .bias .. | .residual .. | .clamp .. | .dropout .. => 1
  | .activation k gate _ =>
    (match k with | .table h => if fieldLE (actRec img h) 6 1 = 1 then 3 else 2 | _ => 1) + bit gate.isSome
  | _ => 0

/-- C of R141: the stages that act as a tile drains. -/
def drainCost (img : Image) (c : Chain) : Nat := (preStages c).foldl (fun n s => n + stageCost img s.2) 0

/-- D of R142: the normalisation's completion cost and the stages after it. -/
def tailCost (img : Image) (c : Chain) : Nat :=
  match normStage c with
  | some (_, .norm layer _ _ gain offset _) =>
    (if layer then 3 else 2) + bit gain.isSome + bit offset.isSome + (postStages c).foldl (fun n s => n + stageCost img s.2) 0
  | _ => 0

/-- Row length of a chain's normalisation. -/
def normLen (c : Chain) : Nat := match normStage c with | some (_, .norm _ n ..) => n | _ => 0

/-- The completion tail of R142 for R_out rows over n units. -/
def normTailCost (img : Image) (c : Chain) (rOut n : Nat) : Nat := ceilDiv (ceilDiv rOut (max 1 n) * normLen c) 512 * tailCost img c

/-! ## Bindings of a segment -/

/-- Partial sums that a product's tiles take at drain (R108). -/
def partialCount (img : Image) (seg : Nat) (b : Binding) : Nat :=
  let tid := sumTid img b.kind
  (bindsOfSeg img seg).foldl (fun n x =>
    n + match recvOf x.kind, x.kind, (outputOf b.kind).2 with
      | some r, _, _ => if r.type = tyTileP128 ∧ r.tid = tid then r.parts else 0
      | none, .product _ _ _ _ parts c (.p128 w), .wide _ | none, .product _ _ _ _ parts c (.p128 w), .viaQuant
      | none, .product _ _ _ _ parts c (.p128 w), .pf32 _ =>
        if x.key ≠ b.key ∧ w.tid = tid ∧ !((chainOf img c).stages.any fun s => match s with | .send .. => true | _ => false) then parts
        else 0
      | _, _, _ => 0) (if b.psum.isSome then partsOf b.kind - 1 else 0)

/-- Passes of an operand combination (R13). -/
def passes (a b : ElemFmt) : Nat := limbCount (isWide8 a) * limbCount (isWide8 b)

/-- Units of work of a slot. -/
def workUnits (l : Slot) : List Nat := (List.range l.workN).map (l.workFirst + ·)

/-- Rows of an output of `rows` rows that lie in some 64-row blocks. -/
def rowsOf (rows : Nat) (blocks : List Nat) : Nat := blocks.foldl (fun n b => n + min 64 (rows - 64 * b)) 0

/-! ## Work by kind -/

/-- A product slot (R15, R108, R141, R142). -/
def productWork (img : Image) (l : Slot) (b : Binding) (x y : Operand) : Nat :=
  let c := chainOf img (outputOf b.kind).1
  let drain := max (64 * max 1 (partialCount img (baseSeg img l) b)) (8 * drainCost img c)
  let us := workUnits l
  let tile (u : Nat) : Nat :=
    let t := tileOfUnit b.kind u 0
    let r := tileRange b.kind ⟨0, l.key, b.key, u, t.1, t.2.1, t.2.2.1, 0, 0⟩
    max (passes (operandTensor x).fmt (operandTensor y).fmt * ceilDiv ((r.2 - r.1) * (operandTensor x).g) 32) drain
  let perArray (a : Nat) : Nat := (us.filter fun u => arrayFor l (blockOfUnit b.kind u) == some a).foldl (fun n u => n + tile u) 0
  let most := (slotArrays l).foldl (fun n a => max n (perArray a)) 0
  let blocks := (us.map (blockOfUnit b.kind)).eraseDups
  most + drain + normTailCost img c (rowsOf (operandTensor x).rows blocks) (slotArrays l).length

/-- A copy or fill slot (R141, R142, R189). -/
def copyWork (img : Image) (l : Slot) (b : Binding) : Nat :=
  let c := chainOf img (outputOf b.kind).1
  let size := outShape img b.kind
  let n := max 1 (slotArrays l).length
  let input := match b.kind with
    | .fill (.normalTable _ _) .. => 2
    | .fill (.normalBm _ _) .. => 6
    | _ => 1
  let rows := rowsOf size.1 (workUnits l)
  ceilDiv (rows * size.2) (512 * n) * (input + drainCost img c) + 64 + normTailCost img c rows n

/-- Occupancy of an array per key tile, O_t (R160). -/
def keyTileWork (q k v : Operand) (c : Chained) : Nat :=
  2 * max (passes (operandTensor q).fmt (operandTensor k).fmt * c.d / 32) 64
    + c.d / 64 * max (passes c.pFmt (operandTensor v).fmt * 4) 64

/-- Whether every span of a node of the merge tree is among some spans. -/
def nodeWhole (c : Chained) (spans : List Nat) (level node : Nat) : Bool :=
  (List.range (min (2 ^ level) (spanCount c - node * 2 ^ level))).all fun i => spans.contains (node * 2 ^ level + i)

/-- States in which some spans of a row leave a slice: the largest nodes of the merge tree whose spans they are (R155). -/
def topNodes (c : Chained) (spans : List Nat) : Nat :=
  (List.range (rootLevel c + 1)).foldl (fun n level => n + ((List.range (levelNodes c level)).filter fun i =>
    nodeWhole c spans level i && !(decide (level < rootLevel c) && nodeWhole c spans (level + 1) (i / 2))).length) 0

/-- Spans of a query block that a slot folds. -/
def slotSpans (c : Chained) (l : Slot) (block : Nat) : List Nat :=
  ((workUnits l).filter fun u => u / max 1 (spanCount c) == block).map (· % max 1 (spanCount c))

/-- States of a chained product that arrive from other members for each query block. -/
def statesIn (img : Image) (seg : Nat) (c : Chained) : Nat :=
  (bindsOfSeg img seg).foldl (fun n x => match recvOf x.kind with
    | some r => if r.type = tyState ∧ r.tid = c.pTid then n + r.parts else n
    | none => n) 0

/-- The other slots of an attempt that fold spans of a query block. -/
def blockPeers (ls : List Slot) (l : Slot) (c : Chained) (block : Nat) : List Slot :=
  ls.filter fun y => y.bind == l.bind && y.key != l.key && !(slotSpans c y block).isEmpty

/-- Whether a slot is the last to end of those that fold spans of a query block. Which unit merges is open (R155); the model counts the
merges of what comes from elsewhere with that one (DESIGN CHOICE, log entry 62). -/
def mergesBlock (img : Image) (a : Attempt) (ls : List Slot) (l : Slot) (c : Chained) (block : Nat) : Bool :=
  (blockPeers ls l c block).all fun y =>
    decide (a.endOf img y < a.endOf img l) || (decide (a.endOf img y = a.endOf img l) && decide (y.key < l.key))

/-- States in which some slots' spans of a query block leave them. -/
def statesOf (c : Chained) (block : Nat) (ls : List Slot) : Nat := ls.foldl (fun n y => n + topNodes c (slotSpans c y block)) 0

/-- States of a query block that a slot merges beside its own: those of the other slots and those of other members (R160). -/
def statesBeside (img : Image) (a : Attempt) (ls : List Slot) (l : Slot) (c : Chained) (block : Nat) : Nat :=
  if mergesBlock img a ls l c block then statesOf c block (blockPeers ls l c block) + statesIn img (baseSeg img l) c else 0

/-- States of a query block that a slot holds from other slices (R161). -/
def slicesBeside (img : Image) (a : Attempt) (ls : List Slot) (l : Slot) (c : Chained) (block : Nat) : Nat :=
  if mergesBlock img a ls l c block then statesOf c block ((blockPeers ls l c block).filter fun y => y.slice != l.slice) else 0

/-- A chained-product slot (R160); `beside` gives the states of a block that come from other slots and other members. -/
def chainedWork (img : Image) (l : Slot) (b : Binding) (q k v : Operand) (c : Chained) (beside : Nat → Nat) : Nat :=
  let ch := chainOf img (outputOf b.kind).1
  let us := workUnits l
  let ot := keyTileWork q k v c
  let merge := 2 * ceilDiv (64 * (c.d + 2)) 512
  let perArray (a : Nat) : Nat :=
    let mine := us.filter fun u => arrayFor l (blockOfUnit b.kind u) == some a
    let tiles := mine.foldl (fun n u => let s := spanTiles c (u % max 1 (spanCount c)); n + (s.2 - s.1)) 0
    let blocks := (mine.map (blockOfUnit b.kind)).eraseDups
    let merges := (mine.length - blocks.length) + (blocks.map beside).sum
    (tiles + 1) * ot + merges * merge + blocks.length * (c.d / 64) * max 64 (8 * drainCost img ch)
  let blocks := (us.map (blockOfUnit b.kind)).eraseDups
  (slotArrays l).foldl (fun n a => max n (perArray a)) 0
    + normTailCost img ch (rowsOf (operandTensor q).rows blocks) (slotArrays l).length

/-- A sampler slot (R194). The units of 512 entries are rounded up once over all rows of the slot (DESIGN CHOICE, log entry 65): R194 gives
the cost by 512 entries and no rounding by row. A merge is charged to the slot of the sampler that merges: one for each record of another
member and of another slice of the partition. -/
def samplerWork (img : Image) (l : Slot) (s : Sampler) : Nat :=
  let n := max 1 (slotArrays l).length
  let seg := baseSeg img l
  let recv := (bindsOfSeg img seg).foldl (fun n x => match recvOf x.kind with
    | some r => if r.type = tySample ∧ r.tid = s.tid then n + ((List.range r.parts).filter fun k => !(partsHere (bindsOfSeg img seg) s).contains k).length else n
    | none => n) 0
  let besides (row : Nat) : Nat := ((bindsOfSeg img seg).filter fun x => x.key != l.bind && (match x.kind with
    | .sampler r => r.tid == s.tid && r.dest.isSome
    | _ => false) && img.slots.any fun y => y.bind == x.key && baseSeg img y == seg && inWork y row).length
  let merges := if s.dest.isSome then 0 else (workUnits l).foldl (fun n row => n + recv + besides row) 0
  ceilDiv (l.workN * s.count) (512 * n) * (if s.greedy then 1 else 4) + ceilDiv merges n

/-- All selections of a list of variants. -/
def subsets : List Nat → List (List Nat)
  | [] => [[]]
  | v :: l => let r := subsets l; r ++ r.map (v :: ·)

/-- States of a query block that a slot takes from other slots and other members, at most, in any attempt of its segment (R160). -/
def mostBeside (img : Image) (l : Slot) (c : Chained) (block : Nat) : Nat :=
  let seg := baseSeg img l
  if img.slots.all fun y => y.bind != l.bind || y.key == l.key then statesIn img seg c
  else ((subsets ((variantsOf img seg).map (·.key))).flatMap fun sel => [1, 2, 3].map fun g =>
    let a : Attempt := { Attempt.none_ with grade := g, variants := sel.map fun v => (v, true) }
    let ls := img.slots.filter fun y => a.onTimeline img seg y
    if ls.any fun y => y.key == l.key then statesBeside img a ls l c block else 0).foldl max 0

/-- H of a slot: its engine-side work (R230, R231). -/
def slotWork (img : Image) (l : Slot) : Nat :=
  match bindOf img l.bind with
  | none => 0
  | some b =>
    match b.kind with
    | .product x y .. => productWork img l b x y
    | .copy .. | .fill .. => copyWork img l b
    | .chained q k v c _ _ => chainedWork img l b q k v c (mostBeside img l c)
    | .sampler s => samplerWork img l s
    | _ => 0

/-- Beats that R231 asks of a slot under a grade, ports apart. -/
def leastBeats (img : Image) (l : Slot) (grade : Nat) : Nat := ceilDiv (100 * slotWork img l) (Config.ratePer100 grade) + 2

/-! ## Handshakes of an epoch (R330, R331) -/

/-- Beats of [a, a + n) in the k-th epoch of an attempt. -/
def beatsIn (a n k : Nat) : Nat := min (a + n) (65536 * (k + 1)) - max a (65536 * k)

/-- H_d of an array of partition-local slice `s` in the k-th epoch of an attempt of a segment, under a grade and a selection. -/
def handshakesIn (img : Image) (seg grade s arr k : Nat) (sel : List Nat) : Rat :=
  let a : Attempt := { Attempt.none_ with grade := grade, variants := sel.map fun v => (v, true) }
  (img.slots.filter fun l => l.slice == s && l.units.getLsbD arr && a.onTimeline img seg l).foldl (fun h l =>
    h + (slotWork img l * beatsIn (a.startOf img l) (gradeAt l.len grade) k : Nat) / ((max 1 (gradeAt l.len grade) : Nat) : Rat)) 0

/-- The most that attempts of a segment schedule on an array in their k-th epoch, over every selection of variants. -/
def mostInEpoch (img : Image) (grade s arr seg k : Nat) : Rat :=
  (subsets ((variantsOf img seg).map (·.key))).foldl (fun m sel => rmax m (handshakesIn img seg grade s arr k sel)) 0

/-- Epochs that an attempt of a segment takes at least. -/
def leastEpochs (g : Segment) : Nat := min (gradeAt g.commitOff 1) (min (gradeAt g.commitOff 2) (gradeAt g.commitOff 3)) / 65536

/-- The most that attempts could schedule in epoch e from one of a segment that is anchored at epoch c or later on: it, and those of the
segments after it, under a staged patch too from the epoch on in which that may take effect (R263, R331). -/
def mostFrom (grade s arr e : Nat) : Nat → Option (Image × Nat) → Image → Nat → Nat → Rat
  | 0, _, _, _, _ => 0
  | n + 1, patch, img, c, seg =>
    let here := (List.range (e + 1 - c)).foldl (fun m k => rmax m (mostInEpoch img grade s arr seg k)) 0
    match segOf img seg with
    | none => here
    | some g =>
      let c' := c + max 1 (leastEpochs g)
      if segIsLast g ∨ e < c' then here
      else
        let after := rmax here (mostFrom grade s arr e n patch img c' g.next)
        match patch with
        | some (k, from_) => rmax after (mostFrom grade s arr e n none k (max c' from_) g.next)
        | none => after

/-- The image that a staged patch makes, with the epoch from which it may take effect: the agreed one, or the latest that a member has
named (R263). -/
def Part.patchAhead (x : Part) : Option (Image × Nat) :=
  match x.ldr.image, x.ldr.staged, x.ldr.patchFrom.or ((x.agree.replaces.map fun r => r.2.1).max?) with
  | some base, some k, some from_ => some (patchImage base k, from_)
  | _, _, _ => none

/-- The most that any attempt able to run in epoch e could schedule on an array (R331): the current one, and those anchored at its commit
point or at any later epoch up to e, of the same segment and of those after it, over every selection of variants. -/
def Part.mostHandshakes (x : Part) (grade s arr e : Nat) : Rat :=
  match x.ldr.image, x.sch.state == .running || x.sch.state == .held with
  | none, _ | _, false => 0
  | some img, true =>
    let seg := x.sch.seg.toNat
    let next := match x.segment with | some g => g.next | none => Config.noKey
    let now := if x.att.live ∧ x.att.anchorEpoch ≤ e then mostInEpoch img grade s arr seg (e - x.att.anchorEpoch) else 0
    let from_ := if x.att.live ∧ !(x.sch.state == .held) then x.sch.commitEpoch else x.sch.epoch.toNat
    let run (patch : Option (Image × Nat)) (img : Image) (c sg : Nat) : Rat := mostFrom grade s arr e (e + 1 - x.sch.epoch.toNat) patch img c sg
    let own := rmax now (rmax (run x.patchAhead img from_ seg) (run x.patchAhead img from_ next))
    match x.patchAhead with
    | some (k, at_) => rmax own (run none k (max from_ at_) next)
    | none => own

/-- Request of an array domain (R330, R331), in 0.25 A: 400 burn handshakes beside the scheduled ones. -/
def Dev.arrayRequest (d : Dev) (x : Part) (grade stretch s arr e : Nat) : Nat :=
  if d.fenced (unitOf (x.slice s) 0 arr) then 0
  else
    let h := x.mostHandshakes grade s arr e + 400
    arrayAmps grade (epochLen stretch) h.num.toNat h.den

/-- Peak current of the control domain in 0.1 A (Table 12.2). -/
def controlPeak (grade : Nat) : Nat := if grade ≤ 1 then 1460 else if grade = 2 then 1625 else 1765

/-- Request of the control domain (R330), in 0.25 A, with a grade and stretch for each partition. -/
def controlRequest (parts : List (Nat × Nat × Nat)) : Nat :=
  let amps : Rat := parts.foldl (fun n p => n + (p.1 : Rat) / 16 * ((controlPeak p.2.1 : Rat) / 10 - 30) * 64 / (p.2.2 : Rat)) 30
  (4 * amps).ceil.toNat

end Sys2Proof.Machine
end

