-- ==== Sys2Proof/Machine/Power.lean ====
section
/-! DEFINITION. Power and the damper: requests, ceilings, grants, fitting (R331 to R335), the emergency throttle (R251, R336), sensors
(R329, R337), leases (R288 to R291), and EPOCH_BOUNDARY (R223 to R225). -/

namespace Sys2Proof.Machine

/-! ## Fitting (R334) -/

/-- Last ceiling of a domain (R332, log entry 17). -/
def Dev.ceiling (d : Dev) (n : Nat) : Nat := tabGet 0xFFFF d.dmp.ceil n

/-- Whether a grade and stretch fit the ceilings for epoch e. -/
def Dev.fits (d : Dev) (p : PartId) (e grade stretch : Nat) : Bool :=
  let x := d.part p
  ((List.range x.cfg.size).all fun s => (List.range 4).all fun a =>
    decide (d.arrayRequest x grade stretch s a e ≤ d.ceiling (4 * x.slice s + a)))
    && decide (((controlPeak grade : Rat) / 10 - 30) * 64 / (stretch : Rat) ≤ (d.ceiling 64 : Rat) / 4 - 30)

/-- The lowest stretch that fits under a grade. -/
def Dev.fitStretch (d : Dev) (p : PartId) (e grade : Nat) : Option Nat :=
  ((List.range 65).map (64 + ·)).find? fun s => d.fits p e grade s

/-- The fitting pair with the highest rate; the lower grade between equal rates (R334). -/
def Dev.fitPair (d : Dev) (p : PartId) (e : Nat) : Option (Nat × Nat) :=
  ((List.range d.dmp.gradeMax).map (1 + ·)).foldl (fun best g =>
    match d.fitStretch p e g, best with
    | some s, some b => if Config.ratePer100 b.1 * s < Config.ratePer100 g * b.2 then some (g, s) else best
    | some s, none => some (g, s)
    | none, _ => best) none

/-- Highest junction temperature of a partition's array domains. -/
def Dev.hottest (d : Dev) (x : Part) : Int :=
  (List.range (4 * x.cfg.size)).foldl (fun m i => max m (d.domTel (4 * x.cfg.first + i)).temp) (d.domTel (4 * x.cfg.first)).temp

/-- Stretch added for temperature at beat 0 (R335). -/
def Dev.heatNext (d : Dev) (x : Part) : Nat :=
  let h := d.hottest x
  if 8 * (d.dmp.tempWarn : Int) ≤ h then min 64 (x.sch.heat + d.dmp.stretchStep)
  else if h ≤ 8 * ((d.dmp.tempWarn : Int) - 5) then x.sch.heat - d.dmp.stretchStep
  else x.sch.heat

/-- The grade that an epoch runs under, from an attempt of grade `g` that ends where one of segment `seg` is anchored at epoch `c`, and so
on: none for the epoch of an anchor itself, where a want may still change it (R225, R334). -/
def Part.gradeFrom (x : Part) (img : Image) (ids : List Nat) (target : Nat) : Nat → Nat → Nat → Nat → Option Nat
  | 0, _, _, _ => none
  | n + 1, g, c, seg =>
    if target < c then some g
    else if target = c then none
    else match segOf img seg with
      | none => none
      | some s =>
        let g := x.gradeFor ids c
        if segIsLast s then some g
        else x.gradeFrom img ids target n g (c + Attempt.commitOff { Attempt.none_ with grade := g } img s / 65536) s.next

/-- The grade in force in an epoch to come (R334): the running attempt's up to its commit point, and from there the agreed grade of the
attempt anchored there, taken as the next segment's unless a replay is certain (log entry 64); none where an anchor may still change it. -/
def Part.gradeIn (x : Part) (ids : List Nat) (target : Nat) : Option Nat :=
  match x.ldr.image, x.segment with
  | some img, some g =>
    match x.sch.nextAnchor with
    | some a => x.gradeFrom img ids target 4 x.att.grade a (if x.sch.outcomeReplay || x.sch.first then g.key else g.next)
    | none =>
      if !x.att.live || x.sch.state == .held then none
      else if segIsLast g then some x.att.grade
      else x.gradeFrom img ids target 4 x.att.grade x.sch.commitEpoch (if x.att.doom.isSome || x.att.noticeReplay then g.key else g.next)
  | _, _ => none

/-- Grade and stretch wanted for epoch e + 2 before heat, and whether no pair fits (R333, R334, R339). Where the grade of that epoch is
fixed the stretch is fitted under it; a grade is wanted for the epoch of an anchor. Where no stretch fits under it while a pair of another
grade does, that grade is wanted and the stretch is 128 until its anchor (DEDUCED, log entry 64). -/
def Dev.wantFit (d : Dev) (p : PartId) (e : Nat) : Nat × Nat × Bool :=
  let x := d.part p
  if d.dmp.loss then (1, 128, false)
  else if !d.dmp.fitEn then (d.dmp.gradeMax, 64, false)
  else match x.gradeIn (d.memberIds p) (e + 2) with
    | some g => match d.fitStretch p (e + 2) g with
      | some s => (g, s, false)
      | none => match d.fitPair p (e + 2) with
        | some b => (b.1, 128, false)
        | none => (1, 128, true)
    | none => match d.fitPair p (e + 2) with
      | some b => (b.1, b.2, false)
      | none => (1, 128, true)

/-- A partition's want for epoch e + 2 made at beat 0 of e; a changed want is sent (R246, R334, R335). -/
def Dev.makeWant (d : Dev) (p : PartId) (e : Nat) : Dev :=
  let w := d.wantFit p e
  let heat := min (d.heatNext (d.part p)) (128 - w.2.1)
  let s := w.2.1 + heat
  let changed := (d.part p).sch.wantGrade != w.1 || (d.part p).sch.wantStretch != s
  let unfit := d.dmp.unfit.filter (· != p)
  let d := { d with dmp := { d.dmp with unfit := if w.2.2 then unfit ++ [p] else unfit } }
  let d := d.modPart p fun x =>
    { x with sch := { x.sch with heat := heat, wantGrade := w.1, wantStretch := s },
             agree := if changed then { x.agree with wants := insertWant x.agree.wants ⟨x.self, e + 2, w.1, s⟩ } else x.agree }
  if changed then d.sendAgree p 1 (wantLine (e + 2) w.1 s) else d

/-- The grade a partition requests current for in an epoch (R331): the higher of the grade in force then and its own want. At an anchor no
grade above its own want can be agreed (R246, Table 12.5); a partition that no anchor awaits keeps its grade. -/
def Dev.requestGrade (d : Dev) (p : PartId) (target : Nat) : Nat :=
  let x := d.part p
  max 1 (match x.gradeIn (d.memberIds p) target with
    | some g => max g x.sch.wantGrade
    | none => if (x.sch.state == .running && x.att.live) || x.sch.nextAnchor.isSome then x.sch.wantGrade else max x.att.grade x.sch.wantGrade)

/-- Current of the control domain (R330, R331), with every partition that runs at its own bound for the epoch after its next. -/
def Dev.controlAmps (d : Dev) (p : PartId) : Nat :=
  controlRequest (allParts.filterMap fun q =>
    let x := d.part q
    if q = p ∨ x.running then some (x.cfg.size, d.requestGrade q (x.sch.epoch.toNat + 2), max 64 x.sch.wantStretch) else none)

/-- The request for epoch e + 2 (R331, R403), sent at the start tick of epoch e. A fenced array requests nothing, whatever slice it is of
(R328). -/
def Dev.requestFor (d : Dev) (p : PartId) (e t : Nat) : Dev :=
  let x := d.part p
  let grade := d.requestGrade p (e + 2)
  let amps (n : Nat) : Nat :=
    if n = 64 then d.controlAmps p
    else if d.fenced (arrayUnit n) then 0
    else if x.cfg.covers (n / 4) then d.arrayRequest x grade (max 64 x.sch.wantStretch) (n / 4 - x.cfg.first) (n % 4) (e + 2)
    else tabGet 0 d.dmp.lastReq n
  let old := d.dmp.reqs.filter fun r => r.src != BitVec.ofNat 8 p.val || decide (e ≤ r.sentEpoch + 4)
  let d := { d with dmp := { d.dmp with reqs := old } }
  d.sendRequest { start := t + epochLen x.sch.stretch + epochLen (x.stretchFor (d.memberIds p) (e + 1)), len := epochLen x.sch.wantStretch,
                  src := BitVec.ofNat 8 p.val, amps := ampTable amps, ceil := d.dmp.ceil, sentEpoch := e }

/-! ## Leases at beat 0 (R288, R291) -/

/-- First and last epoch of a variant's window on the attempt's timeline. -/
def Part.windowEpochs (x : Part) (img : Image) (v : Variant) : Nat × Nat :=
  let w := x.att.window img v
  (x.epochAt w.1, x.epochAt (max w.1 (w.2 - 1)))

/-- A request of a lease, kind 0, from the member at rank 0 of its group (R288). -/
def Dev.requestLease (d : Dev) (p : PartId) (l : LeaseRec) (first last : Nat) : Dev :=
  if (d.grp p l.group).map gRank = some 0 then
    (d.sendSwitch p l.switch { type := tyLease, group := l.group, aux := l.key, ref := l.lines + (last - first + 1) * 2 ^ 32,
                               epoch := some first }).modAtt p fun a => { a with requested := a.requested ++ [(l.key, first)] }
  else d

/-- In host-assisted reduction the lease is requested once every choice is there and none is ring (R291). -/
def Dev.tryLease (d : Dev) (p : PartId) (l : LeaseRec) (use first last : Nat) : Dev :=
  let x := d.part p
  let ids : List Nat := match d.grp p l.group with | some g => (d.listOf p g).map mIndex | none => []
  let got := x.att.choices.filter fun c => c.1 == use
  if ids.all (fun m => got.any fun c => c.2.1 == m) ∧ !got.any (fun c => c.2.2) ∧ !x.att.requested.contains (l.key, first) then
    d.requestLease p l first last
  else d

/-- The choice of a lease that a use decided at a tick takes, and the register after it (R426): the bit clears, but a write stamped in that
same tick counts for the next use. -/
def Flu.takeChoice (x : Flu) (t key : Nat) : Bool × Flu :=
  let cleared : Bool × Flu := (x.redChoice.getLsbD key, { x with redChoice := x.redChoice &&& ~~~(BitVec.ofNat 256 (2 ^ key)) })
  match x.choiceMark with
  | some m => if m.tick = t ∧ m.wrote.getLsbD key then (m.old.getLsbD key, x) else cleared
  | none => cleared

/-- The member's own choice for a lease use sent and recorded (R291, R426). -/
def Dev.sendChoice (d : Dev) (t : Nat) (p : PartId) (l : LeaseRec) (use first last : Nat) : Dev :=
  let x := d.part p
  let c := x.flu.takeChoice t l.key
  let lease := c.1
  let others := match d.grp p l.group with | some g => (d.listOf p g).filter fun m => mIndex m != x.self | none => []
  let d := others.foldl (fun d m =>
    d.sendTo p 0 true { type := tyLease, group := l.group, aux := (if lease then 3 else 4) * 2 ^ 28 + l.key } m) d
  let d := d.modPart p fun y =>
    { y with flu := { y.flu with redChoice := c.2.redChoice },
             att := { y.att with choices := y.att.choices ++ [(use, x.self, !lease)] } }
  d.tryLease p l use first last

/-- Lease requests and choices of beat 0 of epoch e: those whose window begins in e + 1. A member whose attempt is doomed sends none: its
leases are released (R289), and no rule says that it asks again (DESIGN CHOICE, log entry 56). -/
def Dev.leasesAt (d : Dev) (t : Nat) (p : PartId) (e : Nat) : Dev :=
  let x := d.part p
  match x.ldr.image with
  | none => d
  | some img =>
    if x.sch.state ≠ .running ∨ !x.att.live ∨ x.att.doom.isSome then d
    else
      ((variantsOf img x.sch.seg.toNat).filter fun v => v.kind == 1 && (x.windowEpochs img v).1 == e + 1).foldl (fun d v =>
        match img.leases.find? fun l => some l.key == v.cond[0]? with
        | none => d
        | some l =>
          let w := x.windowEpochs img v
          if x.mode.getLsbD 4 then d.sendChoice t p l v.key w.1 w.2 else d.requestLease p l w.1 w.2) d

/-! ## Replacement (R263) -/

/-- A DRAUGHT_REJECT record (R259): reason, detail byte, key. -/
def Dev.reject (d : Dev) (t : Nat) (p : PartId) (reason detail key : Nat) : Dev :=
  d.raise t { code := 0x11, severity := .info, unit := sharedUnit 3, part := some p, synd := reason + detail * 2 ^ 8 + key * 2 ^ 16 }

/-- The replacement agreement: once REPLACE has arrived from every member, the digests are compared. -/
def Dev.tryReplace (d : Dev) (t : Nat) (p : PartId) : Dev :=
  let x := d.part p
  let ids := d.memberIds p
  let rs := x.agree.replaces.filter fun r => ids.contains r.1
  if x.ldr.staged.isNone ∨ ids.isEmpty ∨ !ids.all (fun m => rs.any fun r => r.1 == m) then d
  else
    let same := match rs with | [] => true | a :: l => l.all fun r => r.2.2 == a.2.2
    if same then
      let e := rs.foldl (fun n r => max n r.2.1) 0
      d.modPart p fun x => { x with ldr := { x.ldr with patchFrom := some e }, agree := { x.agree with replaces := [] } }
    else
      (d.reject t p 0x14 0 0).modPart p fun x =>
        { x with ldr := { x.ldr with staged := none, patchFrom := none }, agree := { x.agree with replaces := [] } }

/-- REPLACE sent for a staged patch, with e_p two epochs ahead, by a member whose job runs or is held (R263, R266): for a patch staged in
READY, in the job's first epoch. -/
def Dev.sendReplace (d : Dev) (t : Nat) (p : PartId) : Dev :=
  let x := d.part p
  match x.ldr.staged, x.running with
  | none, _ | _, false => d
  | some k, true =>
    let ep := x.sch.epoch.toNat + 2
    let logical := BitVec.ofNat 64 (natLE (k.header.logicalDigest.take 8))
    let d := d.modPart p fun x => { x with agree := { x.agree with replaces :=
      (x.agree.replaces.filter fun y => y.1 != x.self) ++ [(x.self, ep, logical, k.header.timeline)] } }
    (d.sendAgree p 4 (replaceLine ep logical k.header.timeline)).tryReplace t p

/-! ## EPOCH_BOUNDARY -/

/-- A partition's power in the epoch that ends, and the average of the last block of 16 epochs that was measured whole (R348,
Table 16.11). -/
def Part.closePower (x : Part) (m : List Measure) : Tel :=
  let e := x.sch.epoch.toNat
  let mw := (m.filter fun y => decide (y.dom.val < 64) && x.cfg.covers (y.dom.val / 4)).foldl (fun n y => n + y.mw) 0
    + ((m.find? fun y => y.dom.val == 64).map fun y => y.mw * x.cfg.size / 16).getD 0
  let sum := (if e % 16 = 0 then 0 else x.tel.blockSum) + mw
  let n := (if e % 16 = 0 then 0 else x.tel.blockN) + 1
  let whole := n = 16
  { x.tel with
    powerEpoch := x.sch.epoch.setWidth 32, power := BitVec.ofNat 32 mw, blockSum := sum, blockN := n,
    blockEpoch := if whole then BitVec.ofNat 32 (e - 15) else x.tel.blockEpoch,
    blockPower := if whole then BitVec.ofNat 32 (sum / 16) else x.tel.blockPower }

/-- Whether a partition's next epoch begins at a tick: its first, or the one after the running one (R223). The count never stops once it has
begun (R224): it goes on through holds, after the program's end and in HALTED, until the partition starts again or is reset. -/
def Part.boundaryAt (x : Part) (t : Nat) : Bool :=
  (x.sch.timed || x.sch.state == .running || x.sch.state == .held)
    && (if x.sch.timed then t == x.sch.epochTick + epochLen x.sch.stretch else t == x.sch.epochTick)

/-- EPOCH_BOUNDARY (R223 to R225, R331 to R335, R288, R291): beat 0 of a partition epoch. The stoker pair, which fits and requests,
does so while it runs; a partition whose program has ended wants nothing more, and its request holds no work but a burn's. A joining member whose first epoch begins sends RESUME (R250). -/
def execEpochBoundary (t : Tick) (p : PartId) (m : List Measure) (s : State) : Host.Outcome State Fault Refusal :=
  onDev t s fun n d =>
    let x := d.part p
    if !x.boundaryAt n then d
    else
      let first := !x.sch.timed
      let e := if first then x.sch.epoch.toNat else x.sch.epoch.toNat + 1
      let own := m.filter fun y => y.dom.val == 64 || x.cfg.covers (y.dom.val / 4)
      let d := if first then d else (d.closeDomains own).modPart p fun y => { y with tel := y.closePower m }
      let ids := d.memberIds p
      let d := d.modSch p fun h =>
        { h with epoch := BitVec.ofNat 64 e, epochTick := n, timed := true, stretch := x.stretchFor ids e }
      let d := if first then d.modPart p fun y => { y with tel := { y.tel with blockSum := 0, blockN := 0 } } else d
      let d := if d.stk.running then
          (if x.sch.state = .running ∨ x.sch.state = .held then d.makeWant p e else d).requestFor p e n
        else d
      let d := d.leasesAt n p e
      let d := if first then d.sendReplace n p else d
      if first ∧ x.agree.joining ∧ x.sch.state = .held then d.sendResume p else d

/-! ## Grants (R332, R333, R403) -/

/-- Telemetry of a domain changed. -/
def Dev.modTel (d : Dev) (n : Nat) (f : DomTel → DomTel) : Dev := { d with dmp := { d.dmp with tel := tabMod DomTel.reset d.dmp.tel n f } }

/-- Epoch by which the age of a request is judged: its partition's, or the start-up epoch. -/
def Dev.reqEpoch (d : Dev) (r : DmpReq) (t : Nat) : Nat :=
  if r.src.toNat < 16 then (d.part (Fin.ofNat 16 r.src.toNat)).sch.epoch.toNat else t / Config.startupEpochTicks

/-- GRANT_MESSAGE (R333, R375 step 7, R403). -/
def execGrantMessage (t : Tick) (m : GrantMsg) (s : State) : Host.Outcome State Fault Refusal :=
  onDev t s fun n d =>
    let vals (i : Nat) : Nat × Nat := match m.domains[i]? with | some v => (v.1.toNat, v.2.toNat) | none => (0, 0)
    let late (d : Dev) : Dev := (List.range 65).foldl (fun d i => d.modTel i fun x => { x with late := x.late + 1 }) d
    match d.dmp.reqs.find? fun (r : DmpReq) => r.start == m.start && decide (d.reqEpoch r n ≤ r.sentEpoch + 4) with
    | none => late d
    | some r =>
      let ceils := (List.range 65).foldl (fun c i => tabSet 0xFFFF c i (vals i).2) d.dmp.ceil
      let d := { d with dmp := { d.dmp with ceil := ceils, told := true } }
      if m.start ≤ n then late d
      else
        let d : Dev := (List.range 65).foldl (fun (d : Dev) i =>
          if (vals i).1 < min (tabGet 0 r.amps i) (tabGet 0xFFFF r.ceil i) then d.modTel i fun x => { x with short := x.short + 1 } else d) d
        let grants := (List.range 65).foldl (fun c i => tabSet 0 c i (vals i).1) d.dmp.grant
        let d : Dev := { d with dmp := { d.dmp with grant := grants, wait := 0, loss := false } }
        if d.eng.phase == .budget && r.src == 0xFF && d.eng.burn.granted.isNone then
          { d with eng := { d.eng with burn := { d.eng.burn with granted := some (m.start / Config.startupEpochTicks) } } }
        else d

/-- GRANT_LOSS (R333): no grant for 16 consecutive epochs. The wants follow at the partitions' next epoch boundaries. -/
def execGrantLoss (t : Tick) (s : State) : Host.Outcome State Fault Refusal :=
  onDev t s fun _ d => if 16 ≤ d.dmp.wait then { d with dmp := { d.dmp with loss := true } } else d

/-! ## The emergency throttle (R251, R336) -/

/-- Whether launches at a beat's start tick are paused (R228, R404). -/
def Dev.paused (d : Dev) (t : Nat) : Bool := decide (d.dmp.throttleAt < t) && (d.dmp.throttle || decide (t ≤ d.dmp.releasedAt))

/-- EMERGENCY_THROTTLE (R336, R377). -/
def execEmergencyThrottle (t : Tick) (s : State) : Host.Outcome State Fault Refusal :=
  onDev t s fun n d =>
    let r : Report := { code := 0x12, severity := .info, unit := sharedUnit 6, part := none, synd := n }
    let d := { d with dmp := { d.dmp with throttle := true, throttleAt := n } }
    if d.eng.phase = .budget ∨ d.eng.phase = .burn then
      { d.raise n r with eng := { d.eng with phase := .budget, burn := ⟨none, none, false⟩ } }
    else
      d.eachPart (fun _ x => x.cfg.state == .assigned
          && (x.sch.state == .ready || x.sch.state == .starting || x.sch.state == .running || x.sch.state == .held || x.sch.state == .done))
        fun p d =>
          let x := d.part p
          let live := x.sch.state == .running && x.att.live && x.att.doom.isNone
          d.report n { r with part := some p, severity := if live then .stepReplay else .info }

/-- THROTTLE_RELEASE (R336): launches are allowed again from the next beat; holds for the throttle end (R249). -/
def execThrottleRelease (t : Tick) (s : State) : Host.Outcome State Fault Refusal :=
  onDev t s fun n d =>
    if d.dmp.throttle then
      let d := { d with dmp := { d.dmp with throttle := false, releasedAt := n } }
      d.eachPart (fun _ x => x.sch.holds.contains .throttle) fun p d => d.clearHolds p (· == .throttle)
    else d

/-! ## Sensors (R329, R337) -/

/-- Floor in force for an array domain, in mV: that of its partition's grade, or of G1. -/
def Dev.floorOf (d : Dev) (n : Nat) : Nat := Config.floorMv (d.gradeOn n)

/-- One domain's sample taken. -/
def Dev.sampled (d : Dev) (s : Sample) : Dev :=
  let n := s.dom.val
  let under := decide (n < 64) && d.pwr.en.getLsbD n && decide (s.mv < d.floorOf n)
  d.modTel n fun x =>
    { x with mv := s.mv, temp := s.temp, below := x.below + bit under,
             cur := some (match x.cur with | some c => (min c.1 s.mv, max c.2 s.temp) | none => (s.mv, s.temp)) }

/-- SENSOR_SAMPLE (R337): every sensor's sample is taken; the control domain shows the hottest array sensor. An array domain
below 0.65 V makes its tiles negative (R329). -/
def execSensorSample (t : Tick) (l : List Sample) (s : State) : Host.Outcome State Fault Refusal :=
  onDev t s fun n d =>
    let d := l.foldl Dev.sampled d
    let hot := (List.range 64).foldl (fun m i => max m (d.domTel i).temp) (d.domTel 0).temp
    let d := d.modTel 64 fun x => { x with temp := hot, cur := x.cur.map fun c => (c.1, max c.2 hot) }
    l.foldl (fun d s => if s.dom.val < 64 ∧ s.mv < 650 ∧ d.pwr.en.getLsbD s.dom.val then d.belowFloor n s.dom.val else d) d

end Sys2Proof.Machine
end

