-- ==== Sys2Proof/Machine/Verdict.lean ====
section
/-! DEFINITION. DRAIN_COMPLETE (R14, R108), TILE_VERDICT (R297 to R299, R309), ASH_PACKET_WRITE (R61, R62) and MEM_READ_RESPONSE (R393 to R395). -/

namespace Sys2Proof.Machine

/-- DRAIN_COMPLETE (R14, R108): the latches of an array are empty; the tile's values have gone on. Nothing happens while a
partial sum, scale or region line the tile needs is missing, or the egress stations that the slot names are fenced (R382). What the
checks of the de-quantiser, or of the egress station, find on the way touches the tile (R20, R298). -/
def execDrainComplete (t : Tick) (e : DrainEnd) (s : State) : Host.Outcome State Fault Refusal :=
  onAll t s fun n s =>
    let a := e.array
    let s : StageBufs × Dev := (sbSpoil s.1 (a.val / 4) e.check, s.2)
    let x := s.2.array a.val
    match x.drained with
    | none => s
    | some tile =>
      match s.2.job (a.val / 4) tile.slot (arrayUnit a.val) with
      | none => s
      | some j =>
        let dyn := (s.2.part j.p).flu.dyn
        let overs := x.judges.any fun q => q.tile.tag == tile.tag && q.cause == some 0x10
        let r : Option (StageBufs × Dev) := match j.b.kind with
          | .chained _ _ _ c _ _ => if overs then some s else if tile.phase = 1 then drainScores j c tile a.val n s else drainPv j c tile a.val n s
          | _ => if s.2.egressFenced j then none else drainProduct j tile a.val n s
        match r with
        | none => s
        | some s =>
          let r := s.2.checked n j (if e.egress then s.2.egressOf j else arrayUnit a.val) e.check
          let d := r.1.failTag (a.val / 4) tile.tag r.2
          settleCredits j.p n dyn (s.1, d.setArray a.val { d.array a.val with drained := none, latch := [] })

/-- The job of a tile, its slot running or ended. -/
def Dev.tileJob (d : Dev) (t : Tile) : Option Job :=
  match (d.part t.part).ldr.image with
  | none => none
  | some img => match slotOf img t.slot, bindOf img t.bind with
    | some l, some b => some ⟨t.part, img, l, b⟩
    | _, _ => none

/-- Whether a row block that no array computed is finished: every row of it that the slot works on. -/
def Dev.blockDone (d : Dev) (j : Job) (t : Tile) : Bool :=
  match d.jobRun j with
  | none => false
  | some r =>
    match j.b.kind with
    | .sampler q => (List.range 64).all fun i =>
        let row := 64 * t.row + i
        decide (q.rows ≤ row) || !inWork j.l row || r.finished.contains row
    | .chained _ _ _ _ _ _ => (List.range 64).all fun i =>
        decide ((outShape j.img j.b.kind).1 ≤ 64 * t.row + i) || r.finished.contains (2 ^ 32 + 64 * t.row + i)
    | _ => r.finished.contains t.row

/-- The array tiles that a tile's verdict covers, for the verdicts of sent tiles (R277): binding, row, column, part. -/
def judgedTiles (j : Job) (t : Tile) : List (Nat × Nat × Nat × Nat) :=
  if t.phase = 0 then [(j.b.key, t.row, t.col, t.k)]
  else if t.phase = 3 then (List.range (ceilDiv (outShape j.img j.b.kind).2 64)).map fun c => (j.b.key, t.row, c, 0)
  else []

/-- Sent tiles of a binding that one of some array tiles is part of. -/
def Dev.sentOf (d : Dev) (j : Job) (l : List (Nat × Nat × Nat × Nat)) : List SentTile :=
  (d.part j.p).att.sent.filter fun y => y.bind == j.b.key && (verdictTiles j y).any l.contains

/-- A positive verdict: the tile counts, and the verdicts of sent tiles that are now complete follow them (R277, R299). -/
def passTile (j : Job) (t : Tile) (array : Nat) (d : Dev) : Dev :=
  let l := judgedTiles j t
  let d := d.modAtt j.p fun a => { a with judged := a.judged ++ l.map (·, array), openTiles := a.openTiles - 1 }
  ((d.sentOf j l).foldl (fun d y => tryVerdict j y.row y.col y.part (d.checkerOf j) d) d).payOwed j.p

/-- A negative verdict (R299): it goes to the destinations of the tiles already sent (R277, R278). -/
def failTile (j : Job) (t : Tile) (cause : Byte) (d : Dev) : Dev :=
  let sent := d.sentOf j (judgedTiles j t)
  let d := d.modAtt j.p fun a => { a with openTiles := a.openTiles - 1, sent := a.sent.filter fun x => !sent.contains x }
  sent.foldl (fun d y => sendVerdict j y (d.checkerOf j) cause false d) d

/-- Whether the 64 rows of a row tile, of one column tile or of all, hold a group of their output whose ash the region had no room for (R62). -/
def Part.ashLacks (x : Part) (j : Job) (row : Nat) (col : Option Nat) : Bool :=
  match quantStage j.chain with
  | some (_, .quantOut (.code o) byRows _ _ _ _) =>
    let a := x.asm j.b.key
    let size := outShape j.img j.b.kind
    let rows := (List.range 64).map (64 * row + ·) |>.filter fun r => decide (r < size.1)
    let cols := match col with
      | none => List.range size.2
      | some q => (List.range 64).map (64 * q + ·) |>.filter fun c => decide (c < size.2)
    a.overflow && rows.any fun r => cols.any fun c =>
      decide (a.nextAsh ≤ if byRows then groupOf o.fmt o.g o.k c r else groupOf o.fmt o.g o.k r c)
  | _ => false

/-- Whether a tile holds such a group: a row block that no array computed takes in every column. -/
def Part.ashLost (x : Part) (j : Job) (t : Tile) : Bool := x.ashLacks j t.row (if t.phase = 3 then none else some t.col)

/-- Tiles judged before their ash region proved too small: they are positive no more, and the destinations that still wait for a verdict
get a negative one (R62, R277). -/
def loseAsh (j : Job) (d : Dev) : Dev :=
  let lost := ((d.part j.p).att.judged.map (·.1)).filter fun y => y.1 == j.b.key && (d.part j.p).ashLacks j y.2.1 (some y.2.2.1)
  let sent := d.sentOf j lost
  let d := d.modAtt j.p fun a =>
    { a with judged := a.judged.filter fun q => !lost.contains q.1, sent := a.sent.filter fun y => !sent.contains y }
  sent.foldl (fun d y => sendVerdict j y (d.checkerOf j) 0x08 false d) d

/-- ASH_PACKET_WRITE (R61, R62): an egress station of the running slot that names the binding writes its next ash packet. -/
def execAshPacketWrite (t : Tick) (p : PartId) (bind : Nat) (s : State) : Host.Outcome State Fault Refusal :=
  onAll t s fun n s =>
    let run := (s.2.part p).att.slots.find? fun r =>
      match s.2.jobOf p r.key with | some j => j.b.key == bind | none => false
    match run.bind fun r => s.2.jobOf p r.key with
    | none => s
    | some j =>
      match quantStage j.chain with
      | some (_, .quantOut (.code t) _ _ _ _ _) =>
        if s.2.egressFenced j then s else
        let s := emitAsh j.sink t (s.2.egressOf j) n s
        if ((s.2.part p).asm bind).overflow then (s.1, loseAsh j s.2) else s
      | _ => s

/-- A VERDICT_MISMATCH record from a slice's checker. -/
def mismatchRec (j : Job) (t : Tile) (unit : UnitCode) (synd : Nat) : Report :=
  { code := 0x02, severity := .stepReplay, unit := unit, part := some t.part, synd := synd, slot := t.slot,
    tid := some (outTid j.img j.b.kind), tag := some t.tag }

/-- Whether two tiles are the same place of a slot's work. -/
def sameTile (a b : Tile) : Bool := a.slot == b.slot && a.row == b.row && a.col == b.col && a.k == b.k && a.phase == b.phase && a.unit == b.unit

/-- A tile that fails the exact check, listed for arbitration while the attempt's list has room (R309). One that an earlier attempt
listed, and that this attempt arbitrates, stays listed as it is. -/
def Dev.mismatch (d : Dev) (n : Nat) (j : Job) (q : Judge) (array : ArrayId) (d1 c1 : List (BitVec 128)) : Dev :=
  let x := d.part j.p
  let listed := x.chk.list.any fun i => sameTile i.tile q.tile && !i.done
  let room := decide ((x.chk.list.filter fun i => i.att == x.att.number).length < 4)
  let seq := d.rpt.seq
  let d := d.report n (mismatchRec j q.tile (d.checkerOf j) (mismatchSynd d1 c1 + (if listed || room then 0 else 2 ^ 40)))
  if room && !listed then
    d.modPart j.p fun x => { x with chk := { x.chk with list := x.chk.list ++ [⟨q.tile, array, x.att.number, seq, d1, c1, q.truth, none, 0, false⟩] } }
  else d

/-- TILE_VERDICT (R297 to R299): the checker issues the verdict of the first tile that waits for it. A tile in drain waits until
its values have gone on; a row block no array computed, until its last element has. A tile whose record stands already (an overflow, R107;
a stopped station, R66; an ash region that is full, R62; an array that lost its voltage, R329) has none of its own here. A positive verdict stamped at or after the commit point is missing
(Table 9.1). A fenced checker issues none (R382). -/
def execTileVerdict (t : Tick) (a : ArrayId) (s : State) : Host.Outcome State Fault Refusal :=
  onAll t s fun n s =>
    let x := s.2.array a.val
    let ready (q : Judge) : Bool :=
      match s.2.tileJob q.tile with
      | none => true
      | some j => if q.sums.isSome then x.drained != some q.tile else q.cause.isSome || s.2.blockDone j q.tile
    match (if s.2.fenced (unitOf (a.val / 4) 4 0) then none else x.judges.find? ready) with
    | none => s
    | some q =>
      let d := s.2.setArray a.val { x with judges := x.judges.filter fun y => y != q }
      match d.tileJob q.tile with
      | none => (s.1, d)
      | some j =>
        let bad := match q.sums with | some (d1, c1) => d1 != c1 | none => false
        match q.failure with
        | f :: l => (s.1, failTile j q.tile 0x02 (d.failRecords n j (some q.tile.tag) (f :: l)))
        | [] =>
          if bad then
            let d1 := (q.sums.map (·.1)).getD []
            let c1 := (q.sums.map (·.2)).getD []
            (s.1, failTile j q.tile 0x02 (d.mismatch n j q a d1 c1))
          else match q.cause with
            | some c => (s.1, failTile j q.tile c d)
            | none => (s.1, if (d.part j.p).ashLost j q.tile then failTile j q.tile 0x08 d
              else if !(d.part j.p).inAttempt n then d
              else if (d.part j.p).att.low.contains a.val then failTile j q.tile 0x02 d
              else passTile j q.tile a.val d)

/-- MEM_READ_RESPONSE (R393, R395): the line goes to the station that asked for it; an error leaves its slot incomplete and
its units stop. A response to an aborted slot or a reset partition is discarded, as is one to a fenced station (R382), and the loader takes
those to its own reads (R422). -/
def execMemReadResponse (t : Tick) (port : PortId) (id : Fin 1024) (data : List Byte) (tag : BitVec 16) (err : Fin 4) (s : State) :
    Host.Outcome State Fault Refusal :=
  onDev t s fun _ d =>
    match d.memReads.find? fun r => r.port == port && r.id == id with
    | none => d
    | some r =>
      let d := { d with memReads := d.memReads.filter fun y => !(y.port == port && y.id == id) }
      if r.dropped then d.loaderReads r.part
      else if r.loader then d.loaderTakes r.part r.index data (decide (err.val ≠ 0))
      else if d.fenced (unitOf (r.station / 2) 1 (r.station % 2)) then d
      else if err.val ≠ 0 then d.slotStops r.part r.slot port
      else
        let line : StLine := ⟨r.part, r.slot, r.opnd, r.kind, r.index, padLine data, tag, []⟩
        d.modStation r.station fun x => x.addLine line

end Sys2Proof.Machine
end

