-- ==== Sys2Proof/Machine/Slots.lean ====
section
/-! DEFINITION. Slots: launch (R203 to R206, R228, R237), variant selection (R244), completion (R19, R232), the end check
(R234 to R236, R241), the hang check (R235), and host windows (R166, R167). -/

namespace Sys2Proof.Machine

/-! ## Entries that bindings name (R199, R204, R205) -/

/-- Ledger entries a tensor names, with its identifier. -/
def tensorEntry (t : TensorRef) : List (Nat × BitVec 24) := t.entry.toList.map fun i => (i, t.tid)

/-- Ledger entries a stage names. -/
def stageEntries (s : Stage) : List (Nat × BitVec 24) :=
  match s with
  | .statistics i tid => [(i, tid)]
  | .quantOut (.code t) .. => tensorEntry t
  | .quantOut (.fp8 _ w (some i) _) .. => [(i, w.tid)]
  | _ => []

/-- Ledger entries a binding names, with the tensor identifier each must hold. -/
def bindEntries (img : Image) (b : Binding) : List (Nat × BitVec 24) :=
  (match b.kind with
  | .product x y .. => tensorEntry (operandTensor x) ++ tensorEntry (operandTensor y)
  | .chained q k v _ _ _ => tensorEntry (operandTensor q) ++ tensorEntry (operandTensor k) ++ tensorEntry (operandTensor v)
  | .copy t _ _ _ => t.toList.flatMap tensorEntry
  | .exchange r _ _ | .receive r => r.tensor.toList.flatMap tensorEntry
  | .weightDigest t _ _ => tensorEntry t
  | .fill .. | .sampler _ => []) ++ (chainOf img (outputOf b.kind).1).stages.flatMap stageEntries

/-- The first named entry that is not valid or holds another tensor (R205). -/
def Dev.badEntry (d : Dev) (p : PartId) (l : List (Nat × BitVec 24)) : Option Nat :=
  (l.find? fun x => let e := d.lgr p x.1; !e.valid || e.tid != x.2).map (·.1)

/-! ## Overrun -/

/-- The unit code of a slice's slot launcher. -/
def Part.launcher (x : Part) (l : Slot) : UnitCode := unitOf (x.slice l.slice) 8 0

/-- SLOT_OVERRUN from the launcher, with launches suppressed from this beat on (R234, R236). -/
def Dev.overrun (d : Dev) (t : Nat) (p : PartId) (unit : UnitCode) (key cause port : Nat) : Dev :=
  let d := d.report t { code := 0x01, severity := (d.part p).overrunSeverity, unit := unit, part := some p,
                        synd := cause + port * 2 ^ 8, slot := key }
  d.modAtt p fun a => { a with suppressFrom := some (min (a.suppressFrom.getD t) t) }

/-! ## SLOT_LAUNCH -/

/-- An attempt's scale of an entry in hardware mode of scale selection (R204), silent where its window is all zero (R95). -/
def LedgerEntry.setScale (e : LedgerEntry) (pol : Word) : LedgerEntry :=
  { e with ts32 := scaleOf pol e, silent := decide (histTop e.hist (polW1 pol) = 0) }

/-- A launch that the beat suppresses with every later one of the attempt (R228). -/
def Dev.suppressNow (d : Dev) (n : Nat) (p : PartId) : Dev :=
  d.modAtt p fun a => { a with suppressFrom := some (min (a.suppressFrom.getD n) n) }

/-- Whether a counting slot launches before the stoker's ledger update or the clear is complete (R206, R212). The launcher goes by the slot's
COUNTING flag alone, where the loader goes by the flag or the binding (DESIGN CHOICE, log entry 44: R206 does not say which makes a counting
slot where they differ). -/
def Dev.ledgerLate (d : Dev) (p : PartId) (l : Slot) : Bool :=
  l.counting && ((d.part p).lgrUpdate.isSome || !(d.part p).att.clearDone)

/-- Whether the first slot of an attempt is due while the answer to a repair request has not arrived (R220). -/
def Dev.repairDue (d : Dev) (p : PartId) : Bool :=
  !(d.part p).att.launched && (d.unrepaired p).isSome && !d.repairByHold p

/-- What the first launch of an attempt does (R79, R203, R204, R206): the policies are latched, hardware mode sets every scale, the scales
that the attempt quantises under are fixed, the touched entries are cleared. -/
def Dev.firstLaunch (d : Dev) (p : PartId) : Dev :=
  let x := d.part p
  if x.att.launched then d
  else
    let d := (d.modAtt p fun a => { a with launched := true, policies := x.allPolicies, clearDone := x.touched.isEmpty }).dropStaged p
    let named : List Nat := match x.ldr.image with | some img => (x.segBindings.flatMap (bindEntries img)).map fun (e : Nat × BitVec 24) => e.1 | none => []
    let d := if x.mode.getLsbD 0 then d
      else named.eraseDups.foldl (fun d i => d.modLgr p i fun e => if e.valid then e.setScale (x.policy e.policy.toNat) else e) d
    let d := d.modAtt p fun a => { a with scales := named.eraseDups.map fun i => (i, (d.lgr p i).ts32) }
    x.touched.foldl (fun d i => d.modLgr p i LedgerEntry.clear) d

/-- Whether launches of the attempt go ahead at a tick (R228, R234, R242, R249). -/
def Dev.launches (d : Dev) (p : PartId) (n : Nat) (l : Slot) : Bool :=
  let x := d.part p
  d.eng.phase == .ready && x.sch.state == .running && x.att.live && !d.paused n
    && (match x.att.suppressFrom with | some u => decide (n < u) | none => true) && (!l.commit || x.att.runsCommit)

/-- SLOT_LAUNCH (R22, R204 to R206, R237, R280): at the start tick of its start beat a slot of the timeline is launched. -/
def execSlotLaunch (t : Tick) (p : PartId) (slot : Nat) (s : State) : Host.Outcome State Fault Refusal :=
  onAll t s fun n s =>
    let d := s.2
    let x := d.part p
    match x.ldr.image with
    | none => s
    | some img =>
      match slotOf img slot with
      | none => s
      | some l =>
        if d.launches p n l ∧ l.kind ≠ 6 ∧ x.att.onTimeline img x.sch.seg.toNat l ∧ x.beatTick (x.att.startOf img l) = some n
            ∧ (x.att.run slot).isNone then
          if d.repairDue p then
            (s.1, (d.report n { code := 0x0D, severity := .stepReplay, unit := x.port0, part := some p, synd := 0 }).suppressNow n p)
          else if (x.unitsOf l).any d.fenced then (s.1, d.overrun n p (x.launcher l) slot 4 0)
          else
            let d := d.firstLaunch p
            if d.ledgerLate p l then (s.1, d.overrun n p (x.launcher l) slot 6 0)
            else match bindOf img l.bind with
            | none => (s.1, d)
            | some b =>
              match d.badEntry p (bindEntries img b) with
              | some i =>
                let d := d.report n { code := 0x07, severity := .stepReplay, unit := x.launcher l, part := some p,
                                      synd := 0x21 + i * 2 ^ 32, slot := slot }
                (s.1, d.suppressNow n p)
              | none =>
                let run : SlotRun := { key := slot, launched := n, done := none, aborted := false, cause := 0, causePort := 0,
                                       memErr := false, unwritten := [], stopped := [], begun := [], finished := [],
                                       sub := [], scales := [] }
                let d := d.modAtt p fun a => { a with slots := a.slots ++ [run] }
                if l.kind = 5 then beginExchange p b n (s.1, d) else (s.1, d)
        else s

/-! ## VARIANT_SELECT (R244) -/

/-- Whether a variant is selected, from the ledger, the refusals and the choices as they stand. -/
def Dev.selects (d : Dev) (p : PartId) (v : Variant) : Bool :=
  let x := d.part p
  let active (i : Nat) : Bool := (d.lgr p i).fbActive
  let fmt (i : Nat) : Nat := polFb (x.latched (d.lgr p i))
  if v.kind = 0 then v.cond.any fun i => active i && fmt i != 0
  else if v.kind = 2 then v.cond.any fun i => active i && fmt i == 0
  else match v.cond[0]? with
    | none => false
    | some lease =>
      let ring : Bool := match x.ldr.image.bind fun img => img.leases.find? fun l => l.key == lease with
        | some l =>
          let ids := d.groupIds p l.group
          let got := x.att.choices.filter fun c => c.1 == v.key
          got.any (fun c => c.2.2) || !ids.all fun m => got.any fun c => c.2.1 == m
        | none => true
      x.att.refused.contains v.key || (x.mode.getLsbD 4 && ring)

/-- VARIANT_SELECT (R243, R244): once per attempt, at the start tick of the window's first beat. -/
def execVariantSelect (t : Tick) (p : PartId) (variant : Nat) (s : State) : Host.Outcome State Fault Refusal :=
  onDev t s fun n d =>
    let x := d.part p
    match x.ldr.image, x.segment with
    | some img, some g =>
      match variantOf img variant with
      | none => d
      | some v =>
        if x.sch.state = .running ∧ x.att.live ∧ v.seg = g.key ∧ !(x.att.variants.any fun y => y.1 == variant)
            ∧ x.beatTick (x.att.window img v).1 = some n then
          let late := x.lgrUpdate.isSome
          let d := if late then d.report n { code := 0x01, severity := x.overrunSeverity, unit := unitOf (x.slice 0) 8 0, part := some p, synd := 6,
                                             slot := variant + variantBit } else d
          let sel := d.selects p v
          let d := d.modAtt p fun a => { a with variants := a.variants ++ [(variant, sel)] }
          let y := d.part p
          if segIsLast g then d
          else d.modSch p fun h => { h with commitEpoch := y.att.anchorEpoch + y.att.commitOff img g / 65536 }
        else d
    | _, _ => d

/-! ## Completion (R232) and its causes (Table 11.11) -/

/-- Query rows of a block of a chained product. -/
def blockRowList (k : BindKind) (b : Nat) : List Nat :=
  ((List.range 64).map (64 * b + ·)).filter fun r => decide (r < (match k with
    | .chained q _ _ _ _ _ => (operandTensor q).rows
    | .sampler s => s.rows
    | _ => 0))

/-- Whether a unit of a binding's work is finished in some slot of the attempt. -/
def Part.unitDone (x : Part) (img : Image) (bind u : Nat) : Bool :=
  x.att.slots.any fun r => r.finished.contains u && ((slotOf img r.key).map (·.bind)) == some bind

/-- Whether the member holds a node of a chained product's merge tree: it folds the span, or a child that it holds stays with it (R155,
R156). -/
def Dev.holdsNode (d : Dev) (p : PartId) (c : Chained) (local_ : Nat → Bool) : Nat → Nat → Bool
  | 0, j => local_ j
  | l + 1, n =>
    let stays (i : Nat) : Bool := decide (i < levelNodes c l) && d.holdsNode p c local_ l i
      && !c.sends.any fun y => y.1 == l && y.2.1 == i && !d.isOwn p y.2.2.1 y.2.2.2
    stays (2 * n) || stays (2 * n + 1)

/-- Whether a chained product's block of query rows has all its local spans folded but not gone on (R155 to R157): a member that sends
states away has sent each of them, once their children are merged (R156); one that holds the tree's root, or sends nothing, forms the
output rows. -/
def Dev.owesOutput (d : Dev) (p : PartId) (img : Image) (b : Binding) (block : Nat) : Bool :=
  let x := d.part p
  match b.kind with
  | .chained _ _ _ c _ _ =>
    let spans := (List.range (spanCount c)).map (block * spanCount c + ·)
    let local_ := spans.filter fun u => x.timeline.any fun l => l.bind == b.key && inWork l u
    let away := c.sends.filter fun y => !d.isOwn p y.2.2.1 y.2.2.2
    let root := d.holdsNode p c (fun j => local_.contains (block * spanCount c + j)) (rootLevel c) 0
      && !away.any fun y => y.1 == rootLevel c && y.2.1 == 0
    local_.all (x.unitDone img b.key)
      && ((away.isEmpty || root) && !(blockRowList b.kind block).all (fun r => x.unitDone img b.key (2 ^ 32 + r))
          || away.any fun y => !x.unitDone img b.key (stateUnit block y.1 y.2.1))
  | _ => false

/-- Whether an exchange slot has done its work (R280, R281): every count is in, the landing region holds every line of the window that it
has granted, and every own line that a credit allows has been sent, as it is when the credit comes. The rest moves as the slots that read
the region consume it (DEDUCED, log entry 38). -/
def exchangeOver (d : Dev) (p : PartId) (b : Binding) : Bool :=
  match b.kind with
  | .exchange r _ _ =>
    let ids := d.groupIds p r.group
    let y := (d.part p).dyn b.key
    ids.all (fun m => (y.counts.lookup m).isSome) && (List.range (min (y.total ids) (y.consumed + r.lines))).all y.landed.contains
  | _ => true

/-- Whether each unit of a slot has finished its last handshake. -/
def workOver (d : Dev) (p : PartId) (img : Image) (l : Slot) (b : Binding) : Bool :=
  let x := d.part p
  match x.att.run l.key with
  | none => false
  | some r =>
    let all := (workUnits l).all fun u => r.finished.contains u
    match b.kind with
    | .exchange .. => exchangeOver d p b
    | .chained .. => all && !((workUnits l).map (blockOfUnit b.kind)).eraseDups.any (d.owesOutput p img b)
    | _ => all

/-- Local flue port of a waiting packet of the binding, none when all have gone (R232). -/
def Dev.waitingPort (d : Dev) (p : PartId) (img : Image) (b : Binding) : Option Nat :=
  let x := d.part p
  let tids := [(outTid img b.kind).toNat, (shareTid b.kind).toNat, (sumTid img b.kind).toNat]
  ((d.ports.find? fun q => q.2.waiting.any fun w => w.part == p && !w.control && tids.contains w.pkt.hdr.tid.toNat)).map fun q => q.1 - 2 * x.cfg.first

/-- A memory request of the slot that is outstanding: its port (R21). -/
def Dev.memPending (d : Dev) (p : PartId) (slot : Nat) : Option Nat :=
  match d.memReads.find? fun r => r.part == p && r.slot == slot && !r.dropped with
  | some r => some r.port.val
  | none => (d.memWrites.find? fun w => w.part == p && w.slot == slot && !w.dropped).map fun w => w.port.val

/-- Local flue ports of what an exchange misses: COUNT comes on port 0 (R270, R438), lines on the binding's own. -/
def Dev.exchangeMisses (d : Dev) (p : PartId) (key : Nat) : List Nat :=
  let x := d.part p
  match x.exchange key with
  | some (_, r, _, _) =>
    let ids := d.groupIds p r.group
    let y := x.dyn key
    if !ids.all (fun m => (y.counts.lookup m).isSome) then [0]
    else if (List.range (y.total ids)).all y.landed.contains then [] else [x.portOf key]
  | none => []

/-- Lowest flue port of what a slot still misses from the flue (R438): landed packets (R279), partial sums (R108), counts and lines
(R280, R281), those of a region that it reads line by line with them. -/
def Dev.flueMissing (d : Dev) (p : PartId) (img : Image) (b : Binding) : Option Nat :=
  let x := d.part p
  let regions := (x.receivers.filter fun r => r.2.dynamic && r.1 != b.key && (landLines r.2).any fun l => (bindReads img b).any (linesMeet l)).map (·.1)
  let exch := (regions ++ match b.kind with | .exchange .. => [b.key] | _ => []).flatMap (d.exchangeMisses p)
  (exch ++ (x.lowestPort (x.waitsFor img b ++ match b.kind with
    | .product .. => (x.receivers.filter fun r => (r.2.type == tyTileP128 || r.2.type == tyTilePf32) && r.2.tid == sumTid img b.kind
        && !x.landedAll img r.1 r.2).map (·.1)
    | _ => [])).toList).min?

/-- Whether a slot misses a child state or a partial record of another member (cause 3). -/
def Dev.childMissing (d : Dev) (p : PartId) (img : Image) (b : Binding) (l : Slot) : Bool :=
  match b.kind with
  | .chained .. => ((workUnits l).map (blockOfUnit b.kind)).any (d.owesOutput p img b)
  | .sampler q => q.dest.isNone && (workUnits l).any fun row => !d.recordsIn p b.key q row
  | _ => false

/-- Why a slot is incomplete: SLOT_OVERRUN's cause and port (Table 11.11). -/
def Dev.overrunCause (d : Dev) (p : PartId) (img : Image) (l : Slot) (b : Binding) (r : SlotRun) (overs : Bool) : Nat × Nat :=
  if r.memErr then (1, r.causePort)
  else match d.memPending p l.key with
    | some q => (1, q)
    | none =>
      match d.waitingPort p img b with
      | some q => (2, q)
      | none =>
        if overs then (0, 0)
        else match d.flueMissing p img b with
          | some q => (2, q)
          | none => if d.childMissing p img b l then (3, 0) else (0, 0)

/-- BUFFER_VALIDITY records of a slot that ends, one per slice (R19). -/
def Dev.validityRecords (d : Dev) (t : Nat) (p : PartId) (r : SlotRun) : Dev :=
  r.unwritten.foldl (fun d u => d.raise t { code := 0x13, severity := .info, unit := unitOf u.1 5 0, part := some p,
                                            synd := u.2.1 + min 65535 u.2.2.2 * 2 ^ 32, slot := r.key }) d

/-- SLOT_COMPLETE (R226, R232): the completion is stamped. -/
def execSlotComplete (t : Tick) (p : PartId) (slot : Nat) (s : State) : Host.Outcome State Fault Refusal :=
  onAll t s fun n s =>
    let d := s.2
    let x := d.part p
    match x.ldr.image with
    | none => s
    | some img =>
      match slotOf img slot, x.att.run slot with
      | some l, some r =>
        match bindOf img l.bind with
        | none => s
        | some b =>
          if x.att.isRunning slot ∧ !r.memErr ∧ workOver d p img l b ∧ (d.memPending p slot).isNone ∧ (d.waitingPort p img b).isNone then
            (s.1, (d.modAtt p fun a => a.modRun slot fun r => { r with done := some n, unwritten := [] }).validityRecords n p r)
          else s
      | _, _ => s

/-! ## SLOT_END_CHECK (R234) -/

/-- An abort (R234): the slot's units issue nothing more and drop what they hold; a write already issued completes under R395. -/
def Dev.abortSlot (d : Dev) (p : PartId) (img : Image) (l : Slot) (b : Binding) (cause : Nat × Nat) : Dev :=
  let x := d.part p
  let key := l.key
  let tids := [(outTid img b.kind).toNat, (shareTid b.kind).toNat, (sumTid img b.kind).toNat]
  let d := d.modAtt p fun a => a.modRun key fun r => { r with aborted := true, cause := cause.1, causePort := cause.2, unwritten := [] }
  let mine (t : Option Tile) : Bool := match t with | some t => t.part == p && t.slot == key | none => false
  let arr (i : Nat) (d : Dev) : Dev :=
    let y := d.array i
    d.setArray i { y with tile := if mine y.tile then none else y.tile, drained := if mine y.drained then none else y.drained,
                          judges := y.judges.filter fun q => !(q.tile.part == p && q.tile.slot == key) }
  let d := (List.range 4).foldl (fun d i => arr (4 * x.slice l.slice + i) d) d
  let d := (List.range 2).foldl (fun d i => d.modStation (2 * x.slice l.slice + i) fun (q : Station) =>
    { lines := q.lines.filter fun (z : StLine) => !(z.part == p && z.slot == key),
      groups := q.groups.filter fun (z : StGroup) => !(z.part == p && z.slot == key) }) d
  let ports := d.ports.map fun (q : Nat × FluePort) =>
    (q.1, { q.2 with waiting := q.2.waiting.filter fun (w : Waiting) => !(w.part == p && !w.control && tids.contains w.pkt.hdr.tid.toNat) })
  { d with
    ports := ports.filter fun q => decide (q.2 ≠ FluePort.reset),
    memReads := d.memReads.map fun (r : MemRead) => if r.part == p && r.slot == key then { r with dropped := true } else r,
    memWrites := (d.memWrites.filter fun (w : MemWrite) => !(w.part == p && w.slot == key && w.id.isNone)).map fun (w : MemWrite) =>
      if w.part == p && w.slot == key then { w with dropped := true } else w }

/-- What TEL_SLACK reads before a slot has completed (Table 16.11). -/
def noSlack : Nat := 2 ^ 64 - 1

/-- Slack of a completed slot kept if it is the least (R232, Table 16.11). -/
def Dev.noteSlack (d : Dev) (p : PartId) (slot n : Nat) : Dev :=
  d.modPart p fun x => { x with tel := { x.tel with slack := tabSet noSlack x.tel.slack slot (min n (tabGet noSlack x.tel.slack slot)) } }

/-- The end of a slot of a program's last segment (R241): when its last end beat passes the program is over. -/
def Dev.endProgram (d : Dev) (p : PartId) (img : Image) (g : Segment) (l : Slot) : Dev :=
  let x := d.part p
  let last := (x.timeline.map (x.att.endOf img)).foldl max 0
  if segIsLast g ∧ x.att.endOf img l = last ∧ x.sch.state = .running then d.programOver p else d

/-- An earlier check of the same beat has ended the program: the other slots that end then are checked as the partition was. -/
def Dev.endsToo (d : Dev) (p : PartId) : Dev :=
  let x := d.part p
  if !x.att.live ∧ x.att.slots ≠ [] ∧ (x.sch.state = .done ∨ x.sch.state = .running ∧ x.ctx.switching) then
    (d.modSch p fun h => { h with state := .running }).modAtt p fun a => { a with live := true }
  else d

/-- SLOT_END_CHECK (R228, R234, R236, R241): at the start tick of the slot's end beat. -/
def execSlotEndCheck (t : Tick) (p : PartId) (slot : Nat) (s : State) : Host.Outcome State Fault Refusal :=
  onAll t s fun n s =>
    let s0 := s
    let s : StageBufs × Dev := (s.1, s.2.endsToo p)
    let x := s.2.part p
    match x.ldr.image, x.segment with
    | some img, some g =>
      match slotOf img slot with
      | none => s0
      | some l =>
        if x.running ∧ x.att.live ∧ l.kind ≠ 6 ∧ x.att.onTimeline img g.key l ∧ x.beatTick (x.att.endOf img l) = some n then
          let d := match x.att.run slot, bindOf img l.bind with
            | some r, some b =>
              if r.aborted then s.2
              else match r.done with
                | some c => if c < n then s.2.noteSlack p slot (n - c)
                            else s.2.overrun n p (x.launcher l) slot 0 0
                | none =>
                  let c := s.2.overrunCause p img l b r (workOver s.2 p img l b)
                  ((s.2.overrun n p (x.launcher l) slot c.1 c.2).abortSlot p img l b c).validityRecords n p r
            | _, _ => s.2
          (s.1, d.endProgram p img g l)
        else s0
    | _, _ => s0

/-- UNIT_HANG_CHECK (R235): a unit, a row unit with its array, that is not idle 64 beats after an abort is hung, its partition HALTED and a
fence requested. -/
def execUnitHangCheck (t : Tick) (p : PartId) (slot : Nat) (unit : UnitCode) (idle : Bool) (s : State) : Host.Outcome State Fault Refusal :=
  onDev t s fun n d =>
    let x := d.part p
    match x.ldr.image.bind fun img => slotOf img slot, x.ldr.image, x.att.run slot with
    | some l, some img, some r =>
      let named := if unitKind unit = 3 then unitOf (unitSlice unit) 0 (unitIdx unit) else unit
      if (x.running ∨ x.sch.state = .done) ∧ r.aborted ∧ !idle ∧ x.beatTick (x.att.endOf img l + 64) = some n ∧ (x.unitsOf l).contains named then
        let rec_ : Report := { code := 0x01, severity := .partFatal, unit := unit, part := some p, synd := r.cause + r.causePort * 2 ^ 8, slot := slot }
        (d.report n rec_).requestFence n unit (some rec_)
      else d
    | _, _, _ => d

/-! ## Host windows (R166, R167) -/

/-- HOST_WINDOW_START (R166): the pending bit is set at the window's first beat. The start of a host window is no launch: it latches, scales
and clears nothing (DESIGN CHOICE, log entry 44: R203 and R204 do not say). -/
def execHostWindowStart (t : Tick) (p : PartId) (slot : Nat) (s : State) : Host.Outcome State Fault Refusal :=
  onDev t s fun n d =>
    let x := d.part p
    match x.ldr.image.bind fun img => (slotOf img slot).map fun l => (img, l) with
    | some (img, l) =>
      if l.kind = 6 ∧ d.launches p n l ∧ x.att.onTimeline img x.sch.seg.toNat l ∧ x.beatTick (x.att.startOf img l) = some n then
        d.modSch p fun h => { h with hostPending := true, hostGo := false, hostSlot := BitVec.ofNat 32 slot }
      else d
    | none => d

/-- HOST_WINDOW_END (R166, R167): with GO set, pass 2 may launch; without it, an overrun. Both bits clear. A window that never began only
ends: as the last slot of a program's last segment it leaves the partition DONE (R241). -/
def execHostWindowEnd (t : Tick) (p : PartId) (slot : Nat) (s : State) : Host.Outcome State Fault Refusal :=
  onDev t s fun n d0 =>
    let d := d0.endsToo p
    let x := d.part p
    match x.ldr.image.bind fun img => (slotOf img slot).map fun l => (img, l) with
    | some (img, l) =>
      if (d.part p).running ∧ x.att.live ∧ l.kind = 6 ∧ x.att.onTimeline img x.sch.seg.toNat l ∧ x.beatTick (x.att.endOf img l) = some n then
        let d := if x.sch.hostPending ∧ x.sch.hostSlot.toNat = slot then
            let d := if x.sch.hostGo then d else d.overrun n p (x.launcher l) slot 5 0
            d.modSch p fun h => { h with hostPending := false, hostGo := false, hostSlot := 0xFFFFFFFF#32 }
          else d
        match x.segment with | some g => d.endProgram p img g l | none => d
      else d0
    | none => d0

/-- HOST_GO: 1 written to SCH_HOST_GO.GO (R166, R167, Table 9.1). A GO while the pending bit is clear is ignored; one stamped at or
after the window's end beat is late. -/
def execHostGo (t : Tick) (v : Requester) (s : State) : Host.Outcome State Fault Refusal :=
  onDev t s fun n d => serve v 0 d fun d =>
    let p := d.reqPart v
    let x := d.part p
    let d := d.respond 0 0
    match x.ldr.image.bind fun img => (slotOf img x.sch.hostSlot.toNat).map fun l => x.beatTick (x.att.endOf img l) with
    | some e => if x.sch.hostPending && (match e with | some e => decide (n < e) | none => true) then d.modSch p fun h => { h with hostGo := true } else d
    | none => d

end Sys2Proof.Machine
end

