-- ==== Sys2Proof/Machine/Arb.lean ====
section
/-! DEFINITION. Verdict arbitration (R309 to R313) and proving burns in service (R315 to R317). -/

namespace Sys2Proof.Machine

/-! ## Arbitration -/

/-- Healthy arrays of a slice, ascending. -/
def Dev.healthyArrays (d : Dev) (slice : Nat) : List Nat := (List.range 4).filter fun i => !d.fenced (unitOf slice 0 i)

/-- Candidates for the arbiter of a tile of an array, in order (R310): the slices after the tile's own, or in a one-slice partition the
other arrays of the slice from the next one on. -/
def Dev.arbiters (d : Dev) (p : PartId) (array : ArrayId) : List UnitCode :=
  let x := d.part p
  let n := x.cfg.size
  let s := array.val / 4 - x.cfg.first
  if n ≤ 1 then
    ((List.range 3).map fun i => (array.val + 1 + i) % 4).filterMap fun i =>
      if (d.healthyArrays (array.val / 4)).contains i then some (unitOf (array.val / 4) 0 i) else none
  else (List.range (n - 1)).flatMap fun i =>
    let t := x.slice ((s + 1 + i) % n)
    (d.healthyArrays t).map (unitOf t 0)

/-- End beat of the latest slot that holds a listed tile. -/
def Dev.arbBeat (d : Dev) (p : PartId) (img : Image) : Option Nat :=
  ((d.arbItems p).filterMap fun i => (slotOf img i.tile.slot).map ((d.part p).att.endOf img)).max?

/-- One listed item changed. -/
def Dev.modItem (d : Dev) (p : PartId) (seq : BitVec 32) (f : ArbItem → ArbItem) : Dev :=
  d.modPart p fun x => { x with chk := { x.chk with list := x.chk.list.map fun i => if i.seq = seq then f i else i } }

/-- Every re-run has ended: their tiles leave the list in hardware mode, and a hold for arbitration ends (R312, R313). -/
def Dev.arbOver (d : Dev) (p : PartId) : Dev :=
  let x := d.part p
  if !(d.arbItems p).all (·.done) then d
  else if x.mode.getLsbD 2 then d.modPart p fun x => { x with chk := { x.chk with arbGo := false } }
  else (d.modPart p fun x => { x with chk := { x.chk with list := x.chk.list.filter fun i => !i.done } }).clearHolds p fun c => c == .arbitration

/-- An item's end (R311, Table 11.4): 1 checker at fault, 2 array at fault, 3 unresolved. Hardware mode raises the record and requests the
fences; host-assisted mode writes RESULT and DONE. -/
def Dev.arbFinding (d : Dev) (t : Nat) (p : PartId) (i : ArbItem) (finding : Nat) : Dev :=
  let arb := (i.arbiter.map (·.toNat)).getD noUnit
  let array := arrayUnit i.array.val
  let checker := unitOf (i.array.val / 4) 4 0
  let d := d.modItem p i.seq fun y => { y with done := true }
  let d :=
    if (d.part p).mode.getLsbD 2 then d.modPart p fun x => { x with chk := { x.chk with arbResult := finding, arbDone := true } }
    else
      let base (u : UnitCode) : Nat := u.toNat + arb * 2 ^ 16 + (d.rpt.seqOf i.seq).toNat * 2 ^ 32
      let rec_ (code : Byte) (u : UnitCode) (synd : Nat) : Report :=
        { code := code, severity := .stepReplay, unit := u, part := some p, synd := synd, slot := i.tile.slot, tag := some i.tile.tag }
      if finding = 1 then
        let r := rec_ 0x04 checker (base checker)
        (d.report t r).requestFence t checker (some r)
      else if finding = 2 then
        let r := rec_ 0x03 array (base array)
        (d.report t r).requestFence t array (some r)
      else
        let r := rec_ 0x05 array (base array + checker.toNat * 2 ^ 64)
        ((d.report t r).requestFence t array (some r)).requestFence t checker (some r)
  d.arbOver p

/-- ARBITRATION_RERUN (R310): at the end beat of the latest slot that holds a listed tile the stoker dooms the attempt and chooses the
arbiters; a tile without a candidate stays unresolved. -/
def execArbitrationRerun (t : Tick) (p : PartId) (s : State) : Host.Outcome State Fault Refusal :=
  onDev t s fun n d =>
    let x := d.part p
    match x.ldr.image with
    | none => d
    | some img =>
      if x.running ∧ x.att.live ∧ x.att.arb ∧ d.stk.running ∧ ((d.arbBeat p img).bind x.beatTick) = some n
          ∧ (d.arbItems p).all (fun i => i.arbiter.isNone && !i.done) then
        -- no record is raised: the attempt's cause stays open to the finding's own record (R306)
        let d := if x.att.doom.isSome then d else (d.doom n p 0x02 0 false 0).sendNotice p (sharedUnit 1) 0x02
        (d.arbItems p).foldl (fun d i =>
          let c : Option UnitCode := if x.mode.getLsbD 2 then some x.chk.arbUnit else (d.arbiters p i.array)[0]?
          match c with
          | some u => d.modItem p i.seq fun y => { y with arbiter := some u, tries := 1 }
          | none => d.arbFinding n p i 3) d
      else d

/-- Bits that differ at an index. -/
def flipAt {n : Nat} (l : List (Fin n × BitVec 128)) (k : Nat) : BitVec 128 := (l.map fun x => if x.1.val = k then x.2 else 0).foldl (· ^^^ ·) 0

/-- D3 (R310): the sums that the tile's operands give, as the re-run drains them. Those operands are intact (R305), so without a fault of
the arbiter every chunk sum is the one the tile itself should have had. -/
def rerunSums (i : ArbItem) (flips : List (Fin 128 × BitVec 128)) : List (BitVec 128) := i.truth.mapIdx fun k v => v ^^^ flipAt flips k

/-- ARBITRATION_RESULT (R310, R311): a re-run ends with its sums, or fails its own check; it is then run once more on the next candidate. -/
def execArbitrationResult (t : Tick) (p : PartId) (item : Nat) (flips : Option (List (Fin 128 × BitVec 128))) (s : State) :
    Host.Outcome State Fault Refusal :=
  onDev t s fun n d =>
    let x := d.part p
    match x.chk.list[item]? with
    | none => d
    | some i =>
      if i.done ∨ i.arbiter.isNone ∨ !x.att.arb ∨ x.att.slots.any (fun r => r.done.isNone && !r.aborted) then d
      else match flips with
        | some f => d.arbFinding n p i (let d3 := rerunSums i f; if d3 = i.d1 then 1 else if d3 = i.c1 then 2 else 3)
        | none =>
          let next := ((d.arbiters p i.array).filter fun u => some u != i.arbiter)[0]?
          if i.tries < 2 ∧ next.isSome then d.modItem p i.seq fun y => { y with arbiter := next, tries := 2 }
          else d.arbFinding n p i 3

/-- CHK_ARB_GO: 1 written to CHK_ARB.GO (R313). A record not on the list, or an arbiter that is no healthy array of the partition, is
refused. Outside a hold for arbitration in host-assisted mode there is nothing to name. -/
def execChkArbGo (t : Tick) (v : Requester) (seq : BitVec 32) (arbiter : UnitCode) (s : State) : Host.Outcome State Fault Refusal :=
  onDev t s fun _ d => serve v 0 d fun d =>
    let p := d.reqPart v
    let x := d.part p
    let d := d.respond 0 0
    let healthy := unitKind arbiter == 0 && decide (unitIdx arbiter < 4) && x.cfg.covers (unitSlice arbiter) && !d.fenced arbiter
    let ok := x.mode.getLsbD 2 && healthy && x.chk.list.any fun i => d.rpt.seqOf i.seq == seq
    d.modPart p fun x =>
      { x with chk := { x.chk with
          arbUnit := arbiter, arbSeq := seq, arbGo := ok, arbDone := false, arbResult := if ok then 0 else 7,
          list := if ok then x.chk.list.map fun i => if d.rpt.seqOf i.seq = seq then { i with arbiter := none, tries := 0, done := false } else i
                  else x.chk.list } }

/-! ## Proving burns -/

/-- Draw stream of the burns of a pair, after the slice of its first array (R315, log entry 46). -/
def burnStream (a : ArrayId) : Nat := 0x100 + a.val / 4

/-- Accumulator k of a burn's two tiles, as its operands give it. -/
def burnElem (σ n k : Nat) : BitVec 128 := burnAcc σ n (decide (4096 ≤ k)) (k % 4096 / 64) (k % 64)

/-- Whether accumulator k goes into checker sum s of a burn: rows then columns of T_a, then of T_b. -/
def burnIn (s k : Nat) : Bool :=
  s / 128 == k / 4096 && (if s % 128 < 64 then s % 64 == k % 4096 / 64 else s % 64 == k % 64)

/-- Whether the checker issues positive verdicts for an array's two tiles (R297, R315): every sum of what was drained equals its reference.
A sum that no fault touches equals it. -/
def burnPositive (σ n : Nat) (r : BurnRun) : Bool :=
  (List.range 256).all fun s =>
    let hit := (r.flips.map (·.1.val)).eraseDups.filter (burnIn s)
    let e := flipAt r.refs s
    if hit.isEmpty && e == 0 then true
    else
      let dev := (hit.map fun k => (burnElem σ n k ^^^ flipAt r.flips k) - burnElem σ n k).foldl (· + ·) 0
      let sum := (burnKnown σ n).getD s 0
      sum + dev == sum ^^^ e

/-- Whether two runs of a burn drained bit-equal accumulators. -/
def burnAgrees (a b : BurnRun) : Bool := ((a.flips ++ b.flips).map (·.1.val)).all fun k => flipAt a.flips k == flipAt b.flips k

/-- Whether a burn passes (R315): bit-equal accumulators, positive verdicts, and no flipped sum missed. -/
def FailedBurn.passes (f : FailedBurn) : Bool :=
  burnAgrees f.a f.b && burnPositive f.stream f.count f.a && burnPositive f.stream f.count f.b && !f.a.missed && !f.b.missed

/-- Whether a slot that was launched names an array in a span of beats of the attempt (R316). -/
def Part.namesIn (x : Part) (img : Image) (a : ArrayId) (lo hi : Nat) : Bool :=
  x.att.slots.any fun r => match slotOf img r.key with
    | some l => x.slice l.slice == a.val / 4 && l.units.getLsbD (a.val % 4)
        && decide (x.att.startOf img l < hi) && decide (lo < x.att.endOf img l)
    | none => false

/-- The beats of a burn that ends at a tick, from the anchor of the attempt: the BURN_g beats before it (R315). -/
def Part.burnBeats (x : Part) (t : Nat) : Nat × Nat := let o := x.offset t; (o - Config.burnBeats x.att.grade, o)

/-- Whether an array may take part in a burn that ends at a tick: healthy, and named by no launched slot in the burn's beats; one of a slice
that belongs to no partition in any beats (R316). -/
def Dev.burnable (d : Dev) (t : Nat) (a : ArrayId) : Bool :=
  !d.fenced (arrayUnit a.val) && match d.ownerOf (a.val / 4) with
    | none => true
    | some p =>
      let x := d.part p
      let b := x.burnBeats t
      x.cfg.state == .assigned && !(match x.ldr.image with | some img => x.namesIn img a b.1 b.2 | none => false)

/-- The tick at which a burn of an array that ends at a tick was launched: BURN_g beats earlier; where no partition holds the slice, at the
nominal beat of 16 ticks and at G1. -/
def Dev.burnLaunch (d : Dev) (t : Nat) (a : ArrayId) : Nat :=
  match d.ownerOf (a.val / 4) with
  | some p => t - Config.burnBeats (d.part p).att.grade * (d.part p).sch.stretch / 4
  | none => t - Config.burnBeats 1 * 16

/-- Whether two arrays form a pair for a burn that ends at a tick: two healthy arrays of one partition, or of none, idle for the burn's
beats (R316), and no emergency throttle where it launches (R336). -/
def Dev.burnPair (d : Dev) (t : Nat) (a b : ArrayId) : Bool :=
  a != b && d.burnable t a && d.burnable t b && d.ownerOf (a.val / 4) == d.ownerOf (b.val / 4) && !d.paused (d.burnLaunch t a)

/-- The burn counts of the slices of a pair raised (R315). -/
def Dev.countBurn (d : Dev) (t : Nat) (a b : ArrayId) (passed : Bool) : Dev :=
  let one (d : Dev) (s : Nat) : Dev := { d with slices := tabMod SliceSt.reset d.slices s fun (x : SliceSt) =>
    { x with burnCount := x.burnCount + 1, burnLast := if passed then BitVec.ofNat 32 (t / 2 ^ 20) else x.burnLast } }
  let d := one d (a.val / 4)
  if a.val / 4 = b.val / 4 then d else one d (b.val / 4)

/-- IN_SERVICE_BURN (R315, R316): a burn of a pair ends. One that passes is stamped; one that fails waits for its record (log entry 46). -/
def execInServiceBurn (t : Tick) (a b : BurnRun) (s : State) : Host.Outcome State Fault Refusal :=
  onDev t s fun n d =>
    if d.eng.phase = .ready ∧ d.stk.running ∧ d.burnPair n a.array b.array then
      let f : FailedBurn := ⟨a, b, burnStream a.array, (tabGet SliceSt.reset d.slices (a.array.val / 4)).burnCount.toNat⟩
      let d := d.countBurn n a.array b.array f.passes
      if f.passes then d else { d with eng := { d.eng with burnFails := d.eng.burnFails ++ [f] } }
    else d

/-- A PROVING_FAIL record in service (Table 11.11), with the fence it asks for. -/
def Dev.provingFail (d : Dev) (t : Nat) (judged partner : ArrayId) (third : Option ArrayId) (fence : Option UnitCode) (cause : Nat) : Dev :=
  let third := (third.map fun a => (arrayUnit a.val).toNat).getD noUnit
  let r : Report :=
    { code := 0x0B, severity := .stepReplay, unit := arrayUnit judged.val, part := d.ownerOf (judged.val / 4),
      synd := (arrayUnit judged.val).toNat + (arrayUnit partner.val).toNat * 2 ^ 16 + third * 2 ^ 32
        + (fence.map (·.toNat)).getD noUnit * 2 ^ 48 + cause * 2 ^ 64 }
  let d := d.report t r
  match fence with | some u => d.requestFence t u (some r) | none => d

/-- The records and fences of a burn that failed (R317): an array whose result differs from the other two's, all three when all differ, is
fenced; a checker that missed its flipped sum is fenced with its slice. Without a third array's run, or where the arrays agree and only a
verdict was negative, the record names no fence (log entry 46). -/
def Dev.judgeBurn (d : Dev) (t : Nat) (f : FailedBurn) (third : Option BurnRun) : Dev :=
  let a := f.a.array
  let b := f.b.array
  let arr (d : Dev) (x y : ArrayId) (c : ArrayId) : Dev := d.provingFail t x y (some c) (some (arrayUnit x.val)) 0
  let miss (d : Dev) (x y : ArrayId) : Dev := d.provingFail t x y none (some (unitOf (x.val / 4) 4 0)) 1
  let d :=
    if burnAgrees f.a f.b then (if f.a.missed || f.b.missed then d else d.provingFail t a b none none 0)
    else match third with
      | none => d.provingFail t a b none none 0
      | some c =>
        let da := !burnAgrees c f.a
        let db := !burnAgrees c f.b
        let d := if da then arr d a b c.array else d
        let d := if db then arr d b a c.array else d
        if da && db then arr d c.array a c.array else d
  let d := if f.a.missed then miss d a b else d
  if f.b.missed then miss d b a else d

/-- PROVING_FAIL (R317): the oldest burn that failed is judged, with a third healthy array's run where one was to be had. -/
def execProvingFail (t : Tick) (third : Option BurnRun) (s : State) : Host.Outcome State Fault Refusal :=
  onDev t s fun n d =>
    match d.eng.burnFails with
    | [] => d
    | f :: rest =>
      if d.eng.phase = .ready ∧ d.stk.running then
        let third := third.filter fun c => c.array != f.a.array && c.array != f.b.array && !d.fenced (arrayUnit c.array.val)
        Dev.judgeBurn { d with eng := { d.eng with burnFails := rest } } n f third
      else d

end Sys2Proof.Machine
end

