-- ==== Sys2Proof/Machine/Flue.lean ====
section
/-! DEFINITION. The flue: send launches (R269, R284), links (R293, R398), landing tiles and streams (R274, R279, R290), states,
records, counts and credits (R268, R280, R281), leases (R288, R289, R291), digests (R320). -/

namespace Sys2Proof.Machine

/-! ## Ports -/

/-- Bytes of a packet, header included (R264). -/
def pktBytes (k : Packet) : Nat := 64 + k.payload.length

/-- Ticks a launch holds its context: 192 port clocks and one for each flit of 256 bytes (R284). -/
def holdTicks (mhz : Nat) (k : Packet) : Nat := ceilDiv ((192 + ceilDiv (pktBytes k) 256) * 1000) (max 1 mhz)

/-- The context a packet takes: the last serves control packets only (R269). -/
def FluePort.freeContext (q : FluePort) (n : Nat) (control : Bool) : Option Nat :=
  ((List.range 13).filter fun i => control || decide (i < 12)).find? fun i => decide (q.contexts.getD i 0 ≤ n)

/-- Whether a verdict speaks for what a waiting data packet carries: it leaves after it (R277). -/
def Waiting.speaksFor (w v : Waiting) : Bool :=
  let a := w.pkt.hdr
  let b := v.pkt.hdr
  a.type == tyVerdict && !v.control && v.part == w.part && b.tid == a.tid && b.dst == a.dst
    && (b.type == tyStream || (b.rowTile == a.rowTile && b.colTile == a.colTile && b.kPart == a.kPart))

/-- The next packet of a port: control packets go first (R269), a verdict behind the packets of its own tile (R277). -/
def FluePort.next (q : FluePort) : Option Waiting :=
  let go (i : Nat) : Bool := match q.waiting[i]? with | some w => w.control && !(q.waiting.take i).any w.speaksFor | none => false
  match (List.range q.waiting.length).find? go with | some i => q.waiting[i]? | none => q.waiting[0]?

/-- A waiting packet removed, once. -/
def eraseWaiting : List Waiting → Waiting → List Waiting
  | [], _ => []
  | x :: l, w => if x = w then l else x :: eraseWaiting l w

/-- Whether a partition's state lets its ports send (R266). -/
def Part.maySend (x : Part) : Bool := x.cfg.state == .assigned && mayFlue x.sch.state

/-- SEND_LAUNCH (R266, R269, R284): a port's next packet leaves on a free context; a port whose link is down, that is fenced, or whose
partition is in no sending state sends nothing. -/
def execSendLaunch (t : Tick) (port : PortId) (s : State) : Host.Outcome State Fault Refusal :=
  onDev t s fun n d =>
    let q := tabGet FluePort.reset d.ports port.val
    let go := q.up && !q.stopped && !d.fenced (unitOf (port.val / 2) 7 (port.val % 2))
    match go, q.next with
    | true, some w =>
      match (d.part w.part).maySend, q.freeContext n w.control with
      | false, _ | _, none => d
      | true, some i =>
        let ends := n + holdTicks d.straps.flueMhz w.pkt
        let q := { q with waiting := eraseWaiting q.waiting w, contexts := q.contexts.set i ends,
                          sending := (q.sending.filter fun x => decide (n < x.1)) ++ [(ends, w)] }
        { d with ports := tabSet FluePort.reset d.ports port.val q, flueOut := d.flueOut ++ [w] }
    | _, _ => d

/-- LINK_DOWN (R293, R398): the port sends nothing more in the attempt, a packet on its way is cut off after its flit, and a partition that
may send reports the fall. -/
def execLinkDown (t : Tick) (port : PortId) (s : State) : Host.Outcome State Fault Refusal :=
  onDev t s fun n d =>
    let q := tabGet FluePort.reset d.ports port.val
    if !q.up then d
    else
      let owner := d.ownerOf (port.val / 2)
      let busy : Bool := match owner with | some p => (d.part p).maySend | none => false
      let q := match owner with | some p => q.cutOff n p | none => q
      let d := { d with ports := tabSet FluePort.reset d.ports port.val { q with up := false, stopped := busy } }
      match busy, owner with
      | true, some p =>
        d.report n { code := 0x0D, severity := .stepReplay, unit := unitOf (port.val / 2) 7 (port.val % 2), part := some p,
                     synd := 1 + port.val * 2 ^ 8 }
      | _, _ => d

/-- LINK_UP (R398): the level shows at once; the port sends again from the next anchor on. -/
def execLinkUp (t : Tick) (port : PortId) (s : State) : Host.Outcome State Fault Refusal :=
  onDev t s fun _ d => { d with ports := tabMod FluePort.reset d.ports port.val fun q => { q with up := true } }

/-! ## Landing -/

/-- A packet checked and landed (R274, R279). -/
def landPacket (t : Tick) (p : PartId) (k : Packet) (ref : Bool) (s : State) (land : Nat × Receive → Nat → StageBufs × Dev → StageBufs × Dev) :
    Host.Outcome State Fault Refusal :=
  let n := max s.now t
  let r := landChecks n p k (s.dev.tileChecks n p k ref)
  match r.2 with
  | none => .next { s with now := n, dev := r.1 }
  | some b =>
    let x := land b n (s.sb, r.1)
    .next { s with now := n, sb := x.1, dev := x.2 }

/-- The image in force of a partition, for landings. -/
def landIn (p : PartId) (k : Packet) (b : Nat × Receive) (n : Nat) (s : StageBufs × Dev) : StageBufs × Dev :=
  match (s.2.part p).ldr.image with | some img => landTile p b.1 b.2 img k n s | none => s

/-- TILE_CODE (R268, R279). -/
def execTileCode (t : Tick) (p : PartId) (k : Packet) (s : State) : Host.Outcome State Fault Refusal :=
  landPacket t p k false s (landIn p k)

/-- TILE_WIDE (R268, R279). -/
def execTileWide (t : Tick) (p : PartId) (k : Packet) (s : State) : Host.Outcome State Fault Refusal :=
  landPacket t p k false s (landIn p k)

/-- TILE_P128 (R55, R108, R290): a switch's bad sum is STREAM_SKEW or ACCUM_LIMIT at the owner and does not land. -/
def execTileP128 (t : Tick) (p : PartId) (k : Packet) (s : State) : Host.Outcome State Fault Refusal :=
  landPacket t p k true s fun b n s =>
    let sw := k.hdr.flags.getLsbD 1
    let bad (code : Byte) (synd : Nat) : StageBufs × Dev :=
      (s.1, s.2.report n { code := code, severity := .stepReplay, unit := (s.2.part p).port0, part := some p, synd := synd,
                           tid := some b.2.tid })
    if sw ∧ k.hdr.aux = 1 then bad 0x06 0x13
    else if sw ∧ k.hdr.aux = 2 then bad 0x10 3
    else landIn p k b n s

/-- TILE_PF32 (R115): a part is added to the running sum in order of arrival; the last lets the owner's tile go on. -/
def execTilePf32 (t : Tick) (p : PartId) (k : Packet) (s : State) : Host.Outcome State Fault Refusal :=
  onAll t s fun n s =>
    let r := s.2.tileChecks n p k true
    match r.2, (r.1.part p).ldr.image with
    | some (key, rc), some img =>
      let row := k.hdr.rowTile.toNat
      let col := k.hdr.colTile.toNat
      if (r.1.part p).flu.landed.contains (key, row, col, k.hdr.kPart.toNat) then (s.1, r.1)
      else
        let d := landPf32 p rc img k (r.1.landed p key row col k.hdr.kPart.toNat)
        ownerGo p img rc.tid row col n (s.1, d)
    | _, _ => (s.1, r.1)

/-- Lines of a STREAM packet of a dynamic exchange landed (R281), as far as the source's count goes. -/
def landDynamic (p : PartId) (k : Packet) (key : Nat) (s : StageBufs × Dev) : StageBufs × Dev :=
  match (s.2.part p).exchange key with
  | none => s
  | some (b, r, _, _) =>
    let src := k.hdr.src.toNat % 8192
    let n := k.hdr.nLines.toNat - 1
    let all := ((s.2.part p).dyn key).count src
    (List.range n).foldl (fun s i =>
      let j := k.hdr.aux.toNat + i
      if j < all then landLine p b r src j (pktLine k i) (BitVec.ofNat 16 (fieldLE (pktLine k n) (2 * i) 2)) s else s) s

/-- STREAM (R268, R279, R281). -/
def execStream (t : Tick) (p : PartId) (k : Packet) (s : State) : Host.Outcome State Fault Refusal :=
  landPacket t p k false s fun b n s => if b.2.dynamic then landDynamic p k b.1 s else landIn p k b n s

/-! ## States and records -/

/-- Whether two STATE packets belong to one state. -/
def sameState (a b : Packet) : Bool :=
  a.hdr.src == b.hdr.src && a.hdr.tid == b.hdr.tid && a.hdr.rowTile == b.hdr.rowTile && a.hdr.kPart == b.hdr.kPart

/-- The bytes of a state whose packets are all there. -/
def stateWhole (l : List Packet) (n : Nat) : Option (List Byte) :=
  ((List.range n).mapM fun i => (l.find? fun k => k.hdr.aux.toNat == i).map fun (k : Packet) => k.payload).map List.flatten

/-- STATE (R155, R156, R268): the states of 64 query rows at a node; merged by STATE_MERGE. -/
def execState (t : Tick) (p : PartId) (k : Packet) (s : State) : Host.Outcome State Fault Refusal :=
  onDev t s fun n d =>
    let r := d.recvChecks n p k
    if !r.2 then r.1
    else
      let d := r.1
      let x := d.part p
      let node := k.hdr.kPart.toNat % 2 ^ 24
      let level := k.hdr.kPart.toNat / 2 ^ 24
      match x.receiverOf k tyState, x.segBindings.find? fun b => match b.kind with
        | .chained _ _ _ c _ _ => c.pTid == k.hdr.tid.setWidth 24
        | _ => false with
      | none, _ => d.skew n p 5 0
      | some (_, rc), some b =>
        match b.kind with
        | .chained q _ _ c _ _ =>
          if rc.rowTiles ≤ k.hdr.rowTile.toNat ∨ rootLevel c < level ∨ levelNodes c level ≤ node then d.skew n p 6 0
          else
            let lines := ceilDiv (4 * (c.d + 2)) 512
            let all := k :: x.flu.chunks.filter fun y => sameState y k && y.hdr.aux != k.hdr.aux
            match stateWhole all (ceilDiv (64 * lines) 128) with
            | none => d.modPart p fun x => { x with flu := { x.flu with chunks := k :: x.flu.chunks.filter fun y => !(sameState y k && y.hdr.aux == k.hdr.aux) } }
            | some bs =>
              let d := d.modPart p fun x => { x with flu := { x.flu with chunks := x.flu.chunks.filter fun y => !sameState y k } }
              ((List.range 64).filter fun i => decide (64 * k.hdr.rowTile.toNat + i < (operandTensor q).rows)).foldl (fun d i =>
                let v (m : Nat) : BitVec 32 := BitVec.ofNat 32 (fieldLE bs (512 * lines * i + 4 * m) 4)
                d.putState p ⟨b.key, 64 * k.hdr.rowTile.toNat + i, level, node, v 0, v 1, (List.range c.d).map fun m => v (2 + m), k.hdr.ref.getLsbD i, []⟩) d
        | _ => d
      | some _, none => d.skew n p 5 0

/-- SAMPLE (R193, R268): 64 partial records of an entry-range part merged. -/
def execSample (t : Tick) (p : PartId) (k : Packet) (s : State) : Host.Outcome State Fault Refusal :=
  onDev t s fun n d =>
    let r := d.recvChecks n p k
    if !r.2 then r.1
    else
      let d := r.1
      let x := d.part p
      match x.receiverOf k tySample, x.sampleBind (k.hdr.tid.setWidth 24) with
      | some (_, rc), some b =>
        match b.kind with
        | .sampler q =>
          if !inExtents rc k then d.skew n p 6 0
          else
            ((List.range 64).filter fun i => decide (64 * k.hdr.rowTile.toNat + i < q.rows)).foldl (fun d i =>
              let row := 64 * k.hdr.rowTile.toNat + i
              if ((d.part p).bestOf b.key row).parts.contains k.hdr.kPart.toNat then d
              else d.mergeInto p b.key row (BitVec.ofNat 32 (fieldLE k.payload (8 * i) 4)) (fieldLE k.payload (8 * i + 4) 4) (some k.hdr.kPart.toNat)) d
        | _ => d
      | _, _ => d.skew n p 5 0

/-! ## Counts and credits (R280, R281) -/

/-- The exchange binding a COUNT or CREDIT packet names. -/
def Part.exchangeOf (x : Part) (k : Packet) : Option (Binding × Receive × (Nat × Nat) × (Nat × Nat)) :=
  (x.receivers.find? fun r => r.2.dynamic && r.2.group == k.hdr.group.toNat % 1024 && r.2.tid == k.hdr.tid.setWidth 24).bind fun r => x.exchange r.1

/-- COUNT (R280): the lines a member will send; once every count is there, credits go out. -/
def execCount (t : Tick) (p : PartId) (k : Packet) (s : State) : Host.Outcome State Fault Refusal :=
  onAll t s fun n s =>
    let r := s.2.recvChecks n p k
    if !r.2 then (s.1, r.1)
    else match (r.1.part p).exchangeOf k with
      | none => (s.1, r.1.skew n p 5 0)
      | some (b, rc, c, src) =>
        let y := (r.1.part p).dyn b.key
        let m := k.hdr.src.toNat % 8192
        let d := if (y.counts.lookup m).isSome then r.1 else r.1.setDyn p { y with counts := (m, k.hdr.aux.toNat) :: y.counts }
        startExchange p b rc c src n (s.1, d)

/-- CREDIT (R281): the source sends the lines its latest grant allows. -/
def execCredit (t : Tick) (p : PartId) (k : Packet) (s : State) : Host.Outcome State Fault Refusal :=
  onAll t s fun n s =>
    let r := s.2.recvChecks n p k
    if !r.2 then (s.1, r.1)
    else match (r.1.part p).exchangeOf k with
      | none => (s.1, r.1.skew n p 5 0)
      | some (b, rc, c, src) =>
        let ids := r.1.groupIds p rc.group
        match (List.range ids.length).find? fun i => ids.getD i 0 == k.hdr.src.toNat % 8192 with
        | none => (s.1, r.1)
        | some i =>
          let y := (r.1.part p).dyn b.key
          let old := (y.credit.lookup i).getD 0
          let new := max old k.hdr.aux.toNat
          sendShare p b rc c src i old new n (s.1, r.1.setDyn p { y with credit := (i, new) :: y.credit.filter fun z => z.1 != i })

/-! ## Leases (R288, R289, R291) -/

/-- The use of a lease that a LEASE packet speaks of: the first lease variant of the running segment that names it and is not yet
decided, else the last. Uses lie at least two epochs apart (R287), and a choice is sent in the epoch before its own (R291). -/
def Part.leaseUse (x : Part) (lease : Nat) : Option Variant :=
  x.ldr.image.bind fun img =>
    let vs := (variantsOf img x.sch.seg.toNat).filter fun v => v.kind == 1 && v.cond[0]? == some lease
    match vs.find? fun (v : Variant) => !x.att.variants.any fun y => y.1 == v.key with | some v => some v | none => vs.getLast?

/-- Window epochs of a lease's use. -/
def Part.leaseWindow (x : Part) (lease : Nat) : Option (Nat × Nat) :=
  match x.ldr.image with
  | none => none
  | some img => (x.leaseUse lease).map (x.windowEpochs img)

/-- Whether a tick lies before the start of a later epoch of the partition. -/
def Part.before (x : Part) (n e : Nat) : Bool :=
  decide (x.sch.epoch.toNat < e) && !(decide (e = x.sch.epoch.toNat + 1) && decide (x.sch.epochTick + epochLen x.sch.stretch ≤ n))

/-- The use of a lease that a refusal stamped at tick n speaks of: a refusal answers the request for a use, which leaves at beat 0 of the epoch
before its window, so it is the last use so requested, and the first of all while none is (DEDUCED, log entry 56). -/
def Part.refusedUse (x : Part) (n lease : Nat) : Option Variant :=
  x.ldr.image.bind fun img =>
    let vs := (variantsOf img x.sch.seg.toNat).filter fun v => v.kind == 1 && v.cond[0]? == some lease
    let first (v : Variant) : Nat := (x.windowEpochs img v).1
    let later (a : Option Variant) (v : Variant) : Option Variant := match a with
      | some u => if first u < first v then some v else a
      | none => some v
    let sooner (a : Option Variant) (v : Variant) : Option Variant := match a with
      | some u => if first v < first u then some v else a
      | none => some v
    ((vs.filter fun v => !x.before n (first v - 1)).foldl later none).or (vs.foldl sooner none)

/-- LEASE_REFUSED (R244, R288, R289, Table 9.1). -/
def execLeaseRefused (t : Tick) (p : PartId) (k : Packet) (s : State) : Host.Outcome State Fault Refusal :=
  onDev t s fun n d =>
    let r := d.recvChecks n p k
    if !r.2 then r.1
    else
      let lease := k.hdr.aux.toNat % 2 ^ 28
      let x := r.1.part p
      match x.ldr.image, x.refusedUse n lease with
      | some img, some v =>
        let w := x.windowEpochs img v
        let inTime := x.before n w.1
        let d := if inTime then r.1.modAtt p fun a => { a with refused := if a.refused.contains v.key then a.refused else a.refused ++ [v.key] } else r.1
        d.report n { code := 0x0E, severity := if inTime then .info else .stepReplay, unit := (d.part p).port0, part := some p,
                     synd := lease % 256 + w.1 % 2 ^ 32 * 2 ^ 32 }
      | _, _ => r.1

/-- LEASE_CHOICE (R291): a member's choice, lease or ring. -/
def execLeaseChoice (t : Tick) (p : PartId) (k : Packet) (s : State) : Host.Outcome State Fault Refusal :=
  onDev t s fun n d =>
    let r := d.recvChecks n p k
    if !r.2 then r.1
    else
      let lease := k.hdr.aux.toNat % 2 ^ 28
      let ring := k.hdr.aux.toNat / 2 ^ 28 == 4
      match (r.1.part p).leaseUse lease with
      | none => r.1
      | some v =>
        let d := r.1.modAtt p fun a => { a with choices := a.choices ++ [(v.key, k.hdr.src.toNat % 8192, ring)] }
        match (d.part p).ldr.image.bind fun img => img.leases.find? fun l => l.key == lease, (d.part p).leaseWindow lease with
        | some l, some w => d.tryLease p l v.key w.1 w.2
        | _, _ => d

/-! ## Digests (R320) -/

/-- DIGEST: a replica's digest of an identifier, kept for the comparison at the commit point. -/
def execDigest (t : Tick) (p : PartId) (k : Packet) (s : State) : Host.Outcome State Fault Refusal :=
  onDev t s fun n d =>
    let r := d.recvChecks n p k
    if !r.2 then r.1
    else
      let d := r.1
      let x := d.part p
      let ids := d.groupIds p (k.hdr.group.toNat % 1024)
      if k.hdr.group.toNat % 1024 ≠ x.chk.digGroup.toNat ∨ !x.inAttempt n then d
      else match (List.range ids.length).find? fun i => ids.getD i 0 == k.hdr.src.toNat % 8192 with
        | none => d
        | some rank =>
          let l := pktLine k 0
          let g : DigestRec := ⟨rank, fieldLE l 24 4 % 64, BitVec.ofNat 128 (fieldLE l 0 16), fieldLE l 32 8⟩
          d.modPart p fun x => { x with chk := { x.chk with recv := (x.chk.recv.filter fun y => !(y.rank == g.rank && y.id == g.id)) ++ [g] } }

end Sys2Proof.Machine
end

