-- ==== Sys2Proof/Machine/Agree.lean ====
section
/-! DEFINITION. Agreement across members (R245 to R250, R263): starting and joining a job, wants, holds, resumes, replacements. -/

namespace Sys2Proof.Machine

/-- Whether FLU_JOB names a valid group whose entry at the own rank is the member itself (R247, R272). -/
def Dev.jobOk (d : Dev) (p : PartId) : Bool :=
  match d.jobGrp p with
  | some g => ((d.listOf p g)[gRank g]?).map mIndex == some (d.part p).self
  | none => false

/-- Proposed start tick of a GO (R247): 2,097,152 ticks on, rounded up to a base beat. -/
def proposedTick (n : Nat) : Nat := roundUp (n + 2097152) 16

/-- The member's own START word; the stoker makes its first want for it. -/
def Dev.ownStart (d : Dev) (p : PartId) (n : Nat) (join : Byte) : Dev × StartWord :=
  let x := d.part p
  let w := d.wantFit p x.sch.epoch.toNat
  let d := d.modSch p fun h => { h with wantGrade := w.1, wantStretch := w.2.1 }
  let img := x.ldr.image
  (d, { src := x.self, epoch := x.sch.epoch.toNat, tick := proposedTick n,
        timeline := (img.map fun (i : Image) => i.header.timeline).getD 0,
        logical := (img.map fun (i : Image) => i.header.logicalDigest).getD [],
        grade := w.1, stretch := w.2.1, join := join, limit := 0, step := x.pktStep, attempt := 0 })

/-- A START word kept: one per member. -/
def keepStart (l : List StartWord) (w : StartWord) : List StartWord := (l.filter fun (y : StartWord) => y.src != w.src) ++ [w]

/-- An agreement fails (R247, R250, R263): DRAUGHT_REJECT, reason AGREE, and back to READY. -/
def Dev.disagree (d : Dev) (t : Nat) (p : PartId) : Dev :=
  ((d.reject t p 0x14 0 0).modPart p fun x =>
    { x with sch := { x.sch with state := .ready }, agree := { x.agree with starts := [], joining := false, resumes := [], wants := [] } }).idleFlue p

/-- Wants of a START word (R247): its grade from the first epoch, its stretch from the first epoch plus 2. -/
def startWants (e : Nat) (w : StartWord) : List Want := [⟨w.src, e, w.grade, 64⟩, ⟨w.src, e + 2, w.grade, w.stretch⟩]

/-- The start agreement (R247): once START has arrived from every member, they are compared; equal ones fix the first epoch. A partition
that starts during a firmware activation is held before its first anchor (R357 step 3, log entry 66). -/
def Dev.tryStart (d : Dev) (t : Nat) (p : PartId) : Dev :=
  let x := d.part p
  let ids := d.memberIds p
  if x.sch.state ≠ .starting ∨ x.agree.joining ∨ !ids.all (fun m => x.agree.starts.any fun (w : StartWord) => w.src == m) then d
  else
    let ws := x.agree.starts.filter fun (w : StartWord) => ids.contains w.src
    match ws.find? fun (w : StartWord) => w.src == x.self with
    | none => d
    | some own =>
      if ws.any fun (w : StartWord) => w.timeline != own.timeline || w.logical != own.logical || w.epoch != own.epoch then d.disagree t p
      else
        let tick := ws.foldl (fun n (w : StartWord) => max n w.tick) 0
        if tick ≤ t then d.broken t p own.src
        else
          d.modPart p fun x =>
            { x with
              sch := { x.sch with state := if d.stk.activating then .held else .running, epochTick := tick, timed := false, stretch := 64,
                                  nextAnchor := some own.epoch, outcomeReplay := false, first := true, commitEpoch := own.epoch,
                                  holds := if d.stk.activating then [.firmware] else [], heldSince := own.epoch },
              att := Attempt.none_,
              agree := { x.agree with starts := [], wants := (ws.flatMap (startWants own.epoch)).foldl insertWant [] } }

/-- START_GO (R247, R272). -/
def execStartGo (t : Tick) (v : Requester) (s : State) : Host.Outcome State Fault Refusal :=
  onDev t s fun n d => serve v 0 d fun d =>
    let p := d.reqPart v
    let x := d.part p
    let d := d.respond 0 0
    if x.sch.state ≠ .ready ∨ x.cfg.state ≠ .assigned then d.reqIgnored v
    else if !d.jobOk p then d.reject n p 0x14 0 0
    else
      let r := d.ownStart p n 0
      let d := r.1.modPart p fun x => { x with sch := { x.sch with state := .starting }, agree := { x.agree with starts := keepStart x.agree.starts r.2 } }
      (d.sendAgree p 0 (startLine r.2)).tryStart n p

/-- JOIN (R250): a member that was reset asks to rejoin a job held at a commit point. -/
def execJoin (t : Tick) (v : Requester) (s : State) : Host.Outcome State Fault Refusal :=
  onDev t s fun n d => serve v 0 d fun d =>
    let p := d.reqPart v
    let x := d.part p
    let d := d.respond 0 0
    if x.sch.state ≠ .ready ∨ x.cfg.state ≠ .assigned then d.reqIgnored v
    else if !d.jobOk p then d.reject n p 0x14 0 0
    else
      let r := d.ownStart p n 1
      let d := r.1.modPart p fun x =>
        { x with sch := { x.sch with state := .starting }, agree := { x.agree with starts := [], joining := true } }
      d.sendAgree p 0 (startLine r.2)

/-- CANCEL (R247, R421): STARTING ends, and START words held are discarded. -/
def execCancel (t : Tick) (v : Requester) (s : State) : Host.Outcome State Fault Refusal :=
  onDev t s fun _ d => serve v 0 d fun d =>
    let p := d.reqPart v
    let d := d.respond 0 0
    if (d.part p).sch.state = .starting then
      (d.modPart p fun x => { x with sch := { x.sch with state := .ready },
                                     agree := { x.agree with starts := [], joining := false, resumes := [], wants := [] } }).idleFlue p
    else d.reqIgnored v

/-- An AGREE packet to one member. -/
def Dev.agreeTo (d : Dev) (p : PartId) (m : BitVec 128) (word : Nat) (line : List Byte) : Dev :=
  d.sendTo p 0 true { type := tyAgree, group := (d.part p).flu.jobGroup.toNat, aux := word, payload := line } m

/-- Whether a held attempt's decision is replay. -/
def Part.heldReplay (x : Part) : Bool := x.att.decision == some .replay || x.att.noticeReplay

/-- A held member answers a joining one (R250 step 5), or rejects it. -/
def Dev.answerJoin (d : Dev) (t : Nat) (p : PartId) (w : StartWord) : Dev :=
  let x := d.part p
  let replay := x.heldReplay
  let step := if replay then x.sch.step.setWidth 32 else (x.sch.step + 1).setWidth 32
  match x.ldr.image, (d.peers p).find? fun m => mIndex m == w.src with
  | some img, some m =>
    if w.timeline ≠ img.header.timeline ∨ w.logical ≠ img.header.logicalDigest ∨ w.step ≠ step then d.reject t p 0x14 0 0
    else
      let e := x.sch.epoch.toNat + 2
      let ids := d.memberIds p
      let tick := x.sch.epochTick + epochLen x.sch.stretch + epochLen (x.stretchFor ids (e - 1))
      let ans : StartWord :=
        { src := x.self, epoch := e, tick := tick, timeline := img.header.timeline, logical := img.header.logicalDigest,
          grade := x.gradeFor [x.self] e, stretch := x.stretchFor [x.self] e, join := if replay then 6 else 2, limit := x.att.limit,
          step := x.pktStep, attempt := x.att.number }
      let d := d.agreeTo p m 0 (startLine ans)
      let d := match x.agree.resumes.find? fun r => r.1 == x.self with
        | some r => d.agreeTo p m 3 (resumeLine r.2.1 r.2.2)
        | none => d
      (x.agree.wants.filter fun y => y.member == x.self && decide (e < y.from_)).foldl (fun d y =>
        d.agreeTo p m 1 (wantLine y.from_ y.grade y.stretch)) d
  | _, _ => d

/-- The joining member's agreement (R250 steps 6 and 7), once every other member has answered. -/
def Dev.tryJoin (d : Dev) (t : Nat) (p : PartId) : Dev :=
  let x := d.part p
  let ids := (d.memberIds p).filter (· != x.self)
  let ws := x.agree.starts.filter fun (w : StartWord) => ids.contains w.src && w.join.getLsbD 1
  match ws with
  | [] => d
  | a :: _ =>
    if x.sch.state ≠ .starting ∨ !x.agree.joining ∨ !ids.all (fun m => ws.any fun (w : StartWord) => w.src == m) then d
    else if ws.any fun (w : StartWord) => w.step != a.step || w.attempt != a.attempt || w.join != a.join || w.limit != a.limit then d.disagree t p
    else
      let last := ws.foldl (fun (m : StartWord) (w : StartWord) => if m.epoch < w.epoch then w else m) a
      let e := last.epoch
      let wants := (ws.map fun (w : StartWord) => (⟨w.src, w.epoch, w.grade, w.stretch⟩ : Want)) ++ x.agree.wants
        ++ [⟨x.self, e + 2, x.sch.wantGrade, x.sch.wantStretch⟩]
      d.modPart p fun x =>
        { x with
          sch := { x.sch with state := .held, epoch := BitVec.ofNat 64 e, epochTick := last.tick, timed := false, stretch := 64, nextAnchor := none,
                              outcomeReplay := false, first := true, holds := [], heldSince := e, commitEpoch := e },
          att := { Attempt.none_ with number := a.attempt, limit := a.limit, decision := some (if a.join.getLsbD 2 then .replay else .commit) },
          agree := { x.agree with starts := [], wants := wants.foldl insertWant [], carry := some a.step, ownResume := false } }

/-- AGREE_START (R247, R248, R250, R266). -/
def execAgreeStart (t : Tick) (p : PartId) (k : Packet) (s : State) : Host.Outcome State Fault Refusal :=
  onDev t s fun n d =>
    let r := d.recvChecks n p k
    if !r.2 then r.1
    else
      let d := r.1
      let x := d.part p
      let w := { readStart k with src := k.hdr.src.toNat % 8192 }
      let keep (d : Dev) : Dev := d.modPart p fun x => { x with agree := { x.agree with starts := keepStart x.agree.starts w } }
      if w.join.getLsbD 0 then
        (if x.sch.state = .held ∧ (x.att.decision == some .replay || x.att.decision == some .commit) then d.answerJoin n p w else d)
      else if w.join.getLsbD 1 then
        (if !x.agree.joining then d else if w.tick ≤ n then d.broken n p w.src else (keep d).tryJoin n p)
      else if x.sch.state = .ready then keep d
      else if x.sch.state = .starting then (keep d).tryStart n p
      else if x.before n w.epoch then d
      else d.broken n p w.src

/-- Whether an agreement word for epoch e_p comes too late (R248, Table 9.1). -/
def Part.lateWord (x : Part) (n ep : Nat) : Bool := x.sch.timed && (x.sch.state == .running || x.sch.state == .held) && !x.before n ep

/-- AGREE_WANT (R246, R248). -/
def execAgreeWant (t : Tick) (p : PartId) (k : Packet) (s : State) : Host.Outcome State Fault Refusal :=
  onDev t s fun n d =>
    let r := d.recvChecks n p k
    if !r.2 then r.1
    else
      let l := pktLine k 0
      let m := k.hdr.src.toNat % 8192
      if (r.1.part p).lateWord n (fieldLE l 0 8) then r.1.broken n p m
      else r.1.modPart p fun x => { x with agree := { x.agree with wants := insertWant x.agree.wants ⟨m, fieldLE l 0 8, fieldLE l 8 1, fieldLE l 9 1⟩ } }

/-- AGREE_HOLD (R228, R240, R248, R249): every member that receives HOLD holds; one held only by it resumes at once. -/
def execAgreeHold (t : Tick) (p : PartId) (k : Packet) (s : State) : Host.Outcome State Fault Refusal :=
  onDev t s fun n d =>
    let r := d.recvChecks n p k
    if !r.2 then r.1
    else
      let d := r.1
      if !(d.part p).undecided n then d.broken n p (k.hdr.src.toNat % 8192)
      else
        let d := d.modAtt p fun a => { a with noticeHold := true }
        if (d.part p).sch.state = .running ∧ (d.part p).att.decision.isSome then (d.hold p .peer).resumeIfClear p else d

/-- AGREE_RESUME (R248, R249). -/
def execAgreeResume (t : Tick) (p : PartId) (k : Packet) (s : State) : Host.Outcome State Fault Refusal :=
  onDev t s fun n d =>
    let r := d.recvChecks n p k
    if !r.2 then r.1
    else
      let l := pktLine k 0
      let m := k.hdr.src.toNat % 8192
      if (r.1.part p).lateWord n (fieldLE l 0 8) then r.1.broken n p m
      else
        let d := r.1.modPart p fun x => { x with agree := { x.agree with resumes :=
          (x.agree.resumes.filter fun y => y.1 != m) ++ [(m, fieldLE l 0 8, (k.payload.getD 8 0).getLsbD 0)] } }
        d.tryRelease p

/-! ## Replacement (R263) -/

/-- AGREE_REPLACE (R248, R263). -/
def execAgreeReplace (t : Tick) (p : PartId) (k : Packet) (s : State) : Host.Outcome State Fault Refusal :=
  onDev t s fun n d =>
    let r := d.recvChecks n p k
    if !r.2 then r.1
    else
      let l := pktLine k 0
      let m := k.hdr.src.toNat % 8192
      if (r.1.part p).lateWord n (fieldLE l 0 8) then r.1.broken n p m
      else
        let d := r.1.modPart p fun x => { x with agree := { x.agree with replaces :=
          (x.agree.replaces.filter fun y => y.1 != m) ++ [(m, fieldLE l 0 8, BitVec.ofNat 64 (fieldLE l 8 8), BitVec.ofNat 64 (fieldLE l 16 8))] } }
        d.tryReplace n p

end Sys2Proof.Machine
end

