-- ==== Sys2Proof/Machine/Commit.lean ====
section
/-! DEFINITION. The commit point (R211, R240, R249, R278, R306, R320), the decision beat (R240, R302), the anchor of the
next attempt (R241, R242, R304), and the fall-back hold (R216, R217). -/

namespace Sys2Proof.Machine

/-! ## Verdicts that are missing (R278, R299) -/

/-- Whether a verdict that the image expects from a receiving binding on the timeline has not arrived positive, one for each tile that the
image routes to it, or a tile of the member's own still waits for its verdict. -/
def Part.missingVerdict (x : Part) : Bool :=
  let onTime (key : Nat) : Bool := x.timeline.any fun l => l.bind == key
  decide (x.att.openTiles ≠ 0) || x.receivers.any fun r =>
    onTime r.1 && (
      let got := x.att.verdicts.filter fun v => v.1 == r.1
      if r.2.dynamic then
        match x.flu.dyn.find? fun y => y.bind == r.1 with
        | none => true
        | some y => y.counts.any fun c => c.2 ≠ 0 && !got.any fun v => v.2.1 == c.1
      else if isTile r.2.type then match x.ldr.image with
        | some img => (routedTiles r.2 img x.sch.seg.toNat).any fun t => !got.any fun v => v.2.2 == t
        | none => false
      else decide ((got.map (·.2.2)).eraseDups.length < expectedPackets r.2))

/-! ## Digests (R320, Table 11.8) -/

/-- A DIGEST_DIVERGENCE record of an identifier: kind 0 odd member, 1 no majority, 2 missing, and the member named. -/
def divergence (p : PartId) (sev : Severity) (id kind member : Nat) : Report :=
  { code := 0x0C, severity := sev, unit := sharedUnit 1, part := some p, synd := id + kind * 2 ^ 8 + member * 2 ^ 16 }

/-- The digests of an attempt compared, identifier by identifier (Table 11.8): the units, and the syndrome of the first record where
the member holds. -/
def Dev.compareDigests (d : Dev) (t : Nat) (p : PartId) : Dev × Option Nat :=
  let x := d.part p
  match d.grp p x.chk.digGroup.toNat with
  | none => (d, none)
  | some g =>
    let members := d.listOf p g
    let n := members.length
    let own := gRank g
    let idx (r : Nat) : Nat := mIndex (members.getD r 0)
    x.chk.own.foldl (fun (acc : Dev × Option Nat) mine =>
      let at_ (r : Nat) : Option (BitVec 128 × Nat) :=
        if r = own then some (mine.digest, mine.lines)
        else (x.chk.recv.find? fun y => y.rank == r && y.id == mine.id).map fun y => (y.digest, y.lines)
      let all := (List.range n).map at_
      let told (r : Report) (d : Dev) : Dev × Option Nat := (d, acc.2.or (some r.synd))
      let odd (kind rank : Nat) : Dev × Option Nat :=
        let r := divergence p .stepReplay mine.id kind (idx rank)
        told r (acc.1.raise t r)
      match (List.range n).find? fun r => (at_ r).isNone with
      | some r => odd 2 r
      | none =>
        let ownPair := at_ own
        if all.all (· == ownPair) then acc
        else
          let count (v : Option (BitVec 128 × Nat)) : Nat := (all.filter (· == v)).length
          match all.find? fun v => decide (n < 2 * count v) with
          | some maj =>
            let rank := ((List.range n).find? fun r => at_ r != maj).getD 0
            if n < 3 then odd 1 rank
            else if ownPair = maj then odd 0 rank
            else
              let r := divergence p .partFatal mine.id 0 (idx rank)
              told r (acc.1.report t r)
          | none => odd 1 (((List.range n).find? fun r => at_ r != at_ 0).getD 0)) (d, none)

/-- Host-assisted comparison: bytes 0 to 39 of each payload, own included, go to CHK_DIG_ADDR + 64 (64 rank + ID) (R320). -/
def Dev.deliverDigests (d : Dev) (p : PartId) : Dev :=
  let x := d.part p
  match d.grp p x.chk.digGroup.toNat with
  | none => d
  | some g =>
    ((x.chk.own.map fun (y : DigestRec) => { y with rank := gRank g }) ++ x.chk.recv).foldl (fun (d : Dev) (y : DigestRec) =>
      let a := x.chk.digAddr.toNat + 64 * (64 * y.rank + y.id)
      let slot := (digestLine y (x.sch.step.setWidth 32)).take 64
      let line := List.replicate (a % 512) 0 ++ slot ++ List.replicate (448 - a % 512) 0
      d.issueWrite { port := x.memPort 0 0, id := none, part := p, slot := Config.noKey, addr := a / 512 * 512,
                     data := line, mask := wordMask (a % 512) 64, tag := 0, dropped := false }) d

/-! ## The decision -/

/-- A step-replay record of the member's own that its decision itself makes, as the attempt's cause (R306): the first such record stands. -/
def Dev.causeOf (d : Dev) (t : Nat) (p : PartId) (code : Byte) (synd : Nat) : Dev :=
  d.modAtt p fun a =>
    let a := a.own code synd
    match a.doom with
    | some m => if m.own then a else { a with doom := some { m with code := code, syndrome := BitVec.ofNat 128 synd, own := true } }
    | none => { a with doom := some ⟨code, BitVec.ofNat 128 synd, true, t⟩ }

/-- At the limit attempt a replay becomes an escalation (R306): held, with a record of FLAGS.LIMIT. -/
def Dev.atLimit (d : Dev) (t : Nat) (p : PartId) : Dev :=
  let x := d.part p
  if x.att.number < x.att.limit then d
  else
    let c := x.causeCode
    let d := d.raise t { code := c.1, severity := .stepReplay, unit := sharedUnit 1, part := some p,
                         synd := c.2.toNat, limit := true }
    (d.chkShow p c.1 true true).hold p (.replayLimit c.1)

/-- The code that host-assisted triage holds for (R324): the first of the member's own step-replay records that neither Table 8.5, R321 nor
arbitration takes up. -/
def Part.triageCode (x : Part) : Option Byte :=
  if x.mode.getLsbD 9 then
    (x.att.causes.map (·.1)).find? fun c => c != 0x0F && c != 0x0C && !(c == 0x02 && (x.att.arb || !x.chk.list.isEmpty))
  else none

/-- Row 1 of Table 8.5: error replay, with the holds of host-assisted triage, arbitration (R312, R313) and ledger repair. -/
def Dev.decideReplay (d : Dev) (t : Nat) (p : PartId) : Dev :=
  let x := d.part p
  let running := x.att.arb && (d.arbItems p).any fun i => i.arbiter.isSome && !i.done
  let d := d.decided p .replay
  let d := if x.mode.getLsbD 2 && !x.chk.list.isEmpty then (d.chkShow p 0x02 true false).hold p .arbitration
    else if running then (d.chkShow p 0x02 false false).hold p .arbitration
    else d
  let triage := x.triageCode
  let d := match triage with | some c => (d.chkShow p c true false).hold p (.triage c) | none => d
  let d := if (d.unrepaired p).isSome && d.repairByHold p && triage.isNone then (d.chkShow p 0x09 true false).hold p (.triage 0x09) else d
  d.atLimit t p

/-- Whether a fall-back variant of the segment names an entry (R215). -/
def Part.hasVariant (x : Part) (i : Nat) : Bool :=
  match x.ldr.image with
  | some img => (variantsOf img x.sch.seg.toNat).any fun v => v.kind == 0 && v.cond.contains i
  | none => false

/-- A CALIBRATION_FALLBACK record (R211). -/
def Dev.calRecord (d : Dev) (t : Nat) (p : PartId) (sev : Severity) (i : Nat) : Dev :=
  d.raise t { code := 0x0F, severity := sev, unit := sharedUnit 1, part := some p, synd := d.calSynd p i, tid := some (d.lgr p i).tid }

/-- The ledger update of the commit point begins (R212, R213). -/
def Dev.beginUpdate (d : Dev) (p : PartId) (setFb commit : Bool) : Dev :=
  d.modPart p fun x =>
    { x with lgrUpdate := some ⟨x.touched, x.touched.map (fun i => ((d.lgr p i).amax, (d.lgr p i).failCause)), if x.att.policies.isEmpty then x.allPolicies else x.att.policies, x.att.fb, setFb, commit⟩,
             att := { x.att with fb := true } }

/-- The hold at a commit decision that would save, in host-assisted mode of context save (R367). -/
def Dev.sealDue (d : Dev) (p : PartId) : Dev :=
  let x := d.part p
  if x.mode.getLsbD 8 && (x.saveDue || x.turnEnds) then (d.modCtx p fun c => { c with result := 4 }).hold p .seal else d

/-- Rows 2 to 4 of Table 8.5, and the seal hold of R367. -/
def Dev.decideLedger (d : Dev) (t : Nat) (p : PartId) : Dev :=
  let x := d.part p
  let hw := !x.mode.getLsbD 1
  let fails := x.touched.filter fun i => (d.lgr p i).failCause != 0
  let hard := fails.filter fun i => polFb (x.latched (d.lgr p i)) ≠ 0
  if hard.isEmpty then
    let d := fails.foldl (fun d i => d.calRecord t p .info i) d
    let d := (d.beginUpdate p hw true).decided p .commit
    d.sealDue p
  else
    let d := fails.foldl (fun d i => d.calRecord t p .stepReplay i) d
    let d := d.causeOf t p 0x0F ((fails[0]?.map (d.calSynd p)).getD 0)
    if hw ∧ hard.all x.hasVariant then ((d.beginUpdate p true false).decided p .replay).atLimit t p
    else
      ((d.beginUpdate p false false).decided p .hold).modPart p (fun x => { x with lgrHold := true }) |>.hold p .fallback

/-- The hold of R320 and R321: the attempt's decision is replay, and at the limit the hold is an escalation as well (R306). -/
def Dev.digestHold (d : Dev) (t : Nat) (p : PartId) (synd : Nat) : Dev :=
  if (d.part p).sch.state = .halted then d
  else ((((d.causeOf t p 0x0C synd).decided p .replay).chkShow p 0x0C true false).hold p .digest).atLimit t p

/-- One member's decision for the attempt: an exchange that is incomplete raises FLUE_TIMEOUT, in a doomed attempt too if it had begun
(R208); then in the order of Table 8.5 and R320; an arbitration attempt's is always replay (R312). -/
def Dev.takeDecision (d : Dev) (t : Nat) (p : PartId) : Dev :=
  let x := d.part p
  let d := if !x.att.exchangeDone && !x.touched.isEmpty && (x.att.doom.isNone || x.att.pointSent) then
      d.report t { code := 0x0D, severity := .stepReplay, unit := x.port0, part := some p, synd := 0 }
    else d
  let x := d.part p
  if x.att.arb || x.att.doom.isSome || x.att.noticeReplay || x.missingVerdict then d.decideReplay t p
  else if x.digestsDue then
    if x.mode.getLsbD 3 then
      (d.deliverDigests p).digestHold t p 0
    else
      let r := d.compareDigests t p
      match r.2 with
      | some synd => r.1.digestHold t p synd
      | none => r.1.decideLedger t p
  else d.decideLedger t p

/-- Notices a decision implies (R240, R249): HOLD by a member with a hold cause of its own, a replay notice by one that
decides replay. -/
def Dev.sendDecision (d : Dev) (p : PartId) : Dev :=
  let x := d.part p
  let own := x.sch.holds.filter (· != .peer)
  let d := if own.isEmpty then
      (if x.att.decision == some .replay then d.sendNotice p (sharedUnit 1) x.causeCode.1 else d)
    else d.sendAgree p 2 (holdLine x.sch.epoch.toNat x.sch.commitEpoch)
  d.resumeIfClear p

/-- COMMIT_POINT (R169, R211, R240, R249, R302, R328). A seed written before it is due for the first step that begins after it. A member that
does not hold sets the setpoints of the attempt that is anchored here. -/
def execCommitPoint (t : Tick) (p : PartId) (s : State) : Host.Outcome State Fault Refusal :=
  onDev t s fun n d =>
    let x := d.part p
    match x.ldr.image, x.segment with
    | some img, some g =>
      if x.sch.state = .running ∧ x.att.live ∧ !segIsLast g ∧ x.att.decision.isNone ∧ x.sch.holds.isEmpty
          ∧ x.beatTick (x.att.commitOff img g) = some n then
        let d := d.modPart p fun x => { x with rng := { x.rng with ripe := x.rng.pending.isSome } }
        let d :=
          if !d.stk.running then d.hold p .stoker
          else if d.stk.activating then d.hold p .firmware
          else d.takeDecision n p
        if (d.part p).sch.state = .halted then d
        else
          let d := if d.dmp.throttle then d.hold p .throttle else d
          let d := if (d.part p).att.noticeHold ∧ (d.part p).sch.holds.isEmpty then d.hold p .peer else d
          let d := d.sendDecision p
          if (d.part p).sch.state = .running then d.setGrade p ((d.part p).gradeFor (d.memberIds p) (d.part p).sch.epoch.toNat) else d
      else d
    | _, _ => d

/-- A hold whose decision was still open is decided (R314, R357): replay after a stopped stoker pair, with the holds that a replay may
need (R313, R324), else Table 8.5. -/
def Dev.decideHeld (d : Dev) (t : Nat) (p : PartId) : Dev :=
  let x := d.part p
  if x.sch.state ≠ .held ∨ x.att.decision.isSome ∨ !x.att.live then d
  else if x.sch.holds.contains .stoker then (d.causeOf t p 0x0A d.stk.synd).decideReplay t p
  else if x.sch.holds.contains .firmware then d.takeDecision t p
  else d

/-- STOKER_LOCKSTEP raised: both sequencers stop (R27, R302); a second one within 64 start-up epochs of a restart is
engine-fatal (R314). Before READY a second one leads to NO_SERVICE with cause 3 (R375). -/
def Dev.lockstep (d : Dev) (t : Nat) (part : Option PartId) (cause addr : Nat) : Dev :=
  let again : Bool := match d.stk.lastRestart with | some r => decide (t < r + 64 * Config.startupEpochTicks) | none => false
  let booting := d.eng.phase != .ready && d.eng.phase != .halted && d.eng.phase != .noService
  let d := { d with stk := { d.stk with running := false, synd := cause + addr * 2 ^ 32 }, secOut := d.secOut ++ [SecEvent.lockstep],
                    eng := { d.eng with bootLockstep := d.eng.bootLockstep + (if booting then 1 else 0) } }
  let d := d.report t { code := 0x0A, severity := if again && !booting then .engFatal else .stepReplay, unit := sharedUnit 1,
                        part := part, synd := cause + addr * 2 ^ 32 }
  if booting && decide (2 ≤ d.eng.bootLockstep) then d.setPhase .noService 3 else d

/-- DECISION_BEAT (R240, R302): the job's decision becomes final; a stoker that took none is found by the watchdog. -/
def execDecisionBeat (t : Tick) (p : PartId) (s : State) : Host.Outcome State Fault Refusal :=
  onDev t s fun n d =>
    let x := d.part p
    match x.ldr.image, x.segment with
    | some img, some g =>
      if (x.sch.state = .running ∨ x.sch.state = .held) ∧ x.att.live ∧ !x.att.final ∧ !segIsLast g
          ∧ x.beatTick (x.att.commitOff img g + Config.decisionBeats) = some n then
        if x.sch.state = .held then d
        else if x.att.decision.isNone then (d.lockstep n (some p) 1 0).hold p .stoker
        else
          let replay := x.att.decision == some .replay || x.att.noticeReplay
          let d := d.finalise p replay
          let e := if (d.part p).ctx.switching then x.sch.commitEpoch + 3 else x.sch.commitEpoch
          d.modSch p fun h => { h with nextAnchor := some e, outcomeReplay := replay }
      else d
    | _, _ => d

/-! ## The anchor (R241) -/

/-- Group entries whose change takes effect at an anchor (R273, R322): those pending with EFFECTIVE at or below `e` that
would be valid; a change that would bring an invalid entry into force, VALID clear included, is refused and sets GRP_ERR (R271). -/
def Dev.applyGroups (d : Dev) (n : Nat) (p : PartId) (e : Nat) : Dev :=
  let c := (d.part p).cfg
  (List.range c.grpCount).foldl (fun d h =>
    let g := d.group p h
    if g.pending ∧ gEffective g.written ≤ e then
      if d.grpValid p g.written then
        { d with groups := tabSet GroupEntry.reset d.groups (c.grpBase + h) { g with inForce := g.written, pending := false } }
      else
        let d := { d with groups := tabSet GroupEntry.reset d.groups (c.grpBase + h) { g with pending := false } }
        d.setGrpErr n p
    else d) d

/-- A patch whose agreed epoch has come takes effect at an anchor that follows a commit decision (R263, R180). -/
def Dev.applyPatch (d : Dev) (p : PartId) (e : Nat) : Dev :=
  let x := d.part p
  match x.ldr.staged, x.ldr.patchFrom, x.ldr.image with
  | some k, some from_, some base =>
    if from_ ≤ e then
      let img := patchImage base k
      let fresh := (img.streams.filter fun id => !x.rng.streams.any fun y => y.id == id).map fun id =>
        (x.rng.embers.find? fun y => y.id == id).getD ⟨id, BitVec.ofNat 128 (id.toNat * 2 ^ 64), BitVec.ofNat 128 (id.toNat * 2 ^ 64)⟩
      let d := d.modPart p fun x =>
        { x with ldr := { x.ldr with image := some img, staged := none, patchFrom := none, patchDigest := k.header.imageDigest },
                 rng := { x.rng with streams := x.rng.streams ++ fresh,
                                     embers := x.rng.embers.filter fun y => !img.streams.contains y.id } }
      d.refingerprint p
    else d
  | _, _, _ => d

/-- A seed that is ripe takes effect at a step's first anchor (R169, R425). -/
def Dev.applySeed (d : Dev) (p : PartId) : Dev :=
  let x := d.part p
  match x.rng.pending with
  | some k =>
    if x.rng.ripe then
      (d.modPart p fun x => { x with rng := { x.rng with seed := k, pending := none, ripe := false } }).refingerprint p
    else d
  | none => d

/-- A flue port at an anchor of its partition: one that is down, since reset too, is out of the new attempt (R398). -/
def FluePort.anchored (q : FluePort) : FluePort := { q with stopped := !q.up, waiting := if q.stopped then [] else q.waiting }

/-- ATTEMPT_ANCHOR (R241, R242, R304, R306, R328, R357). During a firmware activation a held partition launches nothing, its anchor put
off epoch by epoch (DESIGN CHOICE, log entry 66). What a stopped port had still to send of the old attempt is never sent (R398). The
segment of the attempt at whose anchor a patch takes effect is the one that NEXT of the base image's segment names (DESIGN CHOICE, log
entry 68: R263 does not say which image's record counts). -/
def execAttemptAnchor (t : Tick) (p : PartId) (s : State) : Host.Outcome State Fault Refusal :=
  onDev t s fun n d =>
    let x := d.part p
    if d.eng.phase = .ready ∧ x.running ∧ x.sch.nextAnchor = some x.sch.epoch.toNat ∧ !x.ctx.switching then
      if d.stk.activating ∧ x.sch.state = .held then d.modSch p fun h => { h with nextAnchor := some (x.sch.epoch.toNat + 1) }
      else
      let e := x.sch.epoch.toNat
      let replay := x.sch.outcomeReplay && !(x.sch.first && !x.agree.joining)
      let commit := !x.sch.outcomeReplay && !x.sch.first
      let ownEp := ((x.agree.resumes.find? fun r => r.1 == x.self).map fun r => r.2.1).getD e
      let d := if !x.sch.outcomeReplay && (!x.sch.first || x.agree.joining) then d.applyPatch p e else d
      let d := if commit then d.modSch p fun h =>
          { h with step := h.step + 1, seg := match x.segment with | some g => BitVec.ofNat 32 g.next | none => h.seg }
        else d
      let d := if commit then (d.applySeed p).applyGroups n p e
        else if x.chk.regroup then d.applyGroups n p ownEp else d
      let ids := d.memberIds p
      let y := d.part p
      let grade := y.gradeFor ids e
      let runs := (!x.sch.outcomeReplay && (!x.sch.first || x.agree.joining)) || (x.sch.first && x.sch.commitFirst)
        || (replay && x.att.commitAgain)
      let arb := replay && !x.chk.list.isEmpty && (!x.mode.getLsbD 2 || x.chk.arbGo)
      let seg := match y.ldr.image with | some img => segOf img y.sch.seg.toNat | none => none
      let att : Attempt :=
        { Attempt.none_ with
          live := true, number := if replay then x.att.number + 1 else 0, limit := if replay then x.att.limit else 3,
          grade := grade, anchorEpoch := e, anchorTick := x.sch.epochTick, runsCommit := runs,
          fb := replay && x.att.fb, arb := arb, eccEntries := if replay then x.att.eccEntries else [] }
      let commitEpoch := match y.ldr.image, seg with
        | some img, some g => e + att.commitOff img g / 65536
        | _, _ => e
      let d := d.modPart p fun z =>
        { z with
          att := att,
          sch := { z.sch with state := .running, holds := [], nextAnchor := none, outcomeReplay := false, first := false,
                              commitFirst := if x.sch.first then false else z.sch.commitFirst, commitEpoch := commitEpoch,
                              hostSlot := 0xFFFFFFFF#32, hostPending := false, hostGo := false },
          agree := { z.agree with resumes := [], ownResume := false, joining := false, carry := none },
          chk := { z.chk with regroup := false, own := match y.ldr.image with | some img => y.freshDigests img y.sch.seg.toNat | none => [], recv := [], list := if arb then z.chk.list else [], arbGo := z.chk.arbGo && arb },
          flu := { z.flu with dyn := [], landed := [], states := [], best := [], sums := [], chunks := [] },
          held := Held.reset }
      let d := { d with ports := (List.range (2 * x.cfg.size)).foldl (fun t i => tabMod FluePort.reset t (2 * x.cfg.first + i) FluePort.anchored) d.ports }
      let d := { d with arrays := tabClear (4 * x.cfg.first) (4 * x.cfg.size) d.arrays,
                        stations := tabClear (2 * x.cfg.first) (2 * x.cfg.size) d.stations }
      let d := (d.setGrade p grade).bump p 13 1
      match seg with
      | some g => if segIsLast g ∧ (d.part p).timeline.isEmpty then d.programOver p else d
      | none => d
    else d

/-! ## The fall-back hold (R217) -/

/-- LGR_HOLD_REPLAY: ACTION 0b01 (R217). An action while PENDING is 0 is ignored. -/
def execLgrHoldReplay (t : Tick) (v : Requester) (s : State) : Host.Outcome State Fault Refusal :=
  onDev t s fun n d => serve v 0 d fun d =>
    let p := d.reqPart v
    let d := d.respond 0 0
    if (d.part p).lgrHold then
      let d := ((d.decided p .replay).modPart p fun x => { x with lgrHold := false, att := { x.att with fb := true } })
      let d := if (d.part p).att.doom.isNone then d.causeOf n p 0x0F 0 else d
      (d.atLimit n p).clearHolds p fun c => c == .fallback
    else d

/-- LGR_HOLD_COMMIT: ACTION 0b10 (R217): committed as computed, R213 not applied. A seal that the commit calls for holds on (R367). -/
def execLgrHoldCommit (t : Tick) (v : Requester) (s : State) : Host.Outcome State Fault Refusal :=
  onDev t s fun _ d => serve v 0 d fun d =>
    let p := d.reqPart v
    let d := d.respond 0 0
    if (d.part p).lgrHold then
      let d := (d.decided p .commit).modPart p fun x => { x with lgrHold := false }
      (d.sealDue p).clearHolds p fun c => c == .fallback
    else d

end Sys2Proof.Machine
end

