-- ==== Sys2Proof/Machine/Form.lean ====
section
/-! DEFINITION. The loader's checks of an image's form, orders 2 to 7 of Table 9.9 (R41, R42, R132, R252 to R255, R257 to R259). -/

namespace Sys2Proof.Machine

/-- What DRAUGHT_REJECT names (R259): reason code, section type, record KEY. -/
abbrev Reject := Nat × Nat × Nat

/-- The first failure of a run of checks (R259). -/
def firstFail : List (Option Reject) → Option Reject
  | [] => none
  | some r :: _ => some r
  | none :: l => firstFail l

/-- A check that names a reason, a section type and the first of the records that break it. -/
def culprit (reason type : Nat) (keys : List Nat) : Option Reject := keys.head?.map fun k => (reason, type, k)

/-- A check of the whole image. -/
def need (reason : Nat) (ok : Bool) : Option Reject := if ok then none else some (reason, 0, 0)

/-- Strictly ascending numbers. -/
def ascending : List Nat → Bool
  | a :: b :: l => decide (a < b) && ascending (b :: l)
  | _ => true

/-! ## Reading an image's bytes (R252, R253, R255) -/

/-- The header (Table 9.4). -/
def readHeader (raw : List Byte) : ImgHeader :=
  { timeline := BitVec.ofNat 64 (fieldLE raw 120 8), logicalDigest := (raw.drop 72).take 48, imageDigest := (raw.drop 24).take 48,
    length := fieldLE raw 16 4, nSections := fieldLE raw 14 2, patch := fieldLE raw 13 1 == 1, slices := fieldLE raw 12 1,
    fwMin := fieldLE raw 8 4, part := fieldLE raw 6 2, version := fieldLE raw 4 2, magic := fieldLE raw 0 4 }

/-- The section table (R253). -/
def readSections (raw : List Byte) : List SectionEntry :=
  (List.range (fieldLE raw 14 2)).map fun i =>
    let o := 128 + 16 * i
    ⟨fieldLE raw o 2, fieldLE raw (o + 4) 4, fieldLE raw (o + 8) 4, fieldLE raw (o + 12) 4⟩

/-- Heads of up to n records that lie whole in the bytes from an offset on (R253). -/
def readHeads (raw : List Byte) : Nat → Nat → List RecHead
  | 0, _ => []
  | n + 1, off =>
    if raw.length < off + 16 then []
    else
      let len := fieldLE raw (off + 12) 4
      ⟨fieldLE raw off 2, fieldLE raw (off + 4) 4, fieldLE raw (off + 8) 4, len, fieldLE raw (off + 2) 2 == 0⟩ :: readHeads raw n (off + 16 + len)

/-- The heads of a section, read where the section lies. -/
def sectionHeads (raw : List Byte) (s : SectionEntry) : List RecHead := readHeads raw (min s.count (raw.length / 16)) s.offset

/-- A grade-indexed field (R255). -/
def readGrades (b : List Byte) (off : Nat) : List Nat := [fieldLE b off 4, fieldLE b (off + 4) 4, fieldLE b (off + 8) 4]

/-- A segment (Table 9.6). -/
def readSegment (r : RecHead × List Byte) : Segment := ⟨r.1.key, readGrades r.2 20, readGrades r.2 8, fieldLE r.2 4 4, fieldLE r.2 0 4⟩

/-- A slot (Table 9.7). -/
def readSlot (r : RecHead × List Byte) : Slot :=
  { key := r.1.key, commit := (fieldLE r.2 43 1).testBit 0, counting := (fieldLE r.2 43 1).testBit 1, kind := fieldLE r.2 42 1,
    units := BitVec.ofNat 8 (fieldLE r.2 41 1), slice := fieldLE r.2 40 1, len := readGrades r.2 28, start := readGrades r.2 16,
    workN := fieldLE r.2 12 4, workFirst := fieldLE r.2 8 4, bind := fieldLE r.2 4 4, seg := fieldLE r.2 0 4 }

/-- A variant (Table 9.8): `cond` holds the first N_COND conditions. -/
def readVariant (r : RecHead × List Byte) : Variant :=
  ⟨r.1.key, readGrades r.2 48, readGrades r.2 36, readGrades r.2 24, (List.range (fieldLE r.2 5 1)).map fun i => fieldLE r.2 (8 + 4 * i) 4,
   fieldLE r.2 4 1, fieldLE r.2 0 4⟩

/-- An image as the loader reads it: its header, section table, record heads, and every record whose layout the spec gives, from the
bytes; the reading of the other records is the command's (log entry 5). A codebook keeps the handle that the reading gives it: two
codebooks of different formats may have one handle, and no rule makes it the record's KEY (DESIGN CHOICE, log entry 5). -/
def readImage (img : Image) : Image :=
  let raw := img.raw
  let secs := readSections raw
  let x := { img with header := readHeader raw, sections := secs, heads := secs.flatMap (sectionHeads raw) }
  let recs (t : Nat) : List (RecHead × List Byte) := (imageRecords x).filter fun r => r.1.type == t
  { x with segments := (recs 1).map readSegment, slots := (recs 2).map readSlot, variants := (recs 3).map readVariant,
           codebooks := List.zipWith (fun (r : RecHead × List Byte) (c : CodebookRec) => ⟨c.key, r.2.length == 1040, r.2⟩) (recs 6) img.codebooks,
           actTables := (recs 7).map fun r => ⟨r.1.key, r.2⟩,
           streams := (recs 8).map fun r => BitVec.ofNat 32 (fieldLE r.2 0 4), base := ((recs 15).map (·.2)).flatten }

/-! ## Header and digests (R252, R257, R258) -/

/-- Order 2: the header, against the partition's size and LDR_LEN. -/
def headerCheck (img : Image) (patch : Bool) (size len : Nat) : Option Reject :=
  let h := img.header
  need 0x01 (h.magic == 0x49445846 && h.version == 1 && h.part == 0xF4 && h.patch == patch && h.slices == size
    && h.length == img.raw.length && h.length == len && h.length % 8 == 0 && fieldLE img.raw 20 4 == 0 && decide (fieldLE img.raw 13 1 ≤ 1))

/-- The image's bytes with IMAGE_DIGEST zero. -/
def rawBlank (raw : List Byte) : List Byte := raw.take 24 ++ List.replicate 48 0 ++ raw.drop 72

/-- Order 3: IMAGE_DIGEST. -/
def digestCheck (img : Image) : Option Reject := need 0x02 (sha384 (rawBlank img.raw) == img.header.imageDigest)

/-- The logical digest of a run of records (R257). -/
def logicalOf (l : List (RecHead × List Byte)) : List Byte :=
  sha384 ((l.filter fun r => r.1.logicalLen != 0 && r.1.type != 15).flatMap fun r =>
    bytesLE 2 r.1.type ++ bytesLE 4 r.1.key ++ bytesLE 4 r.1.logicalLen ++ r.2.take r.1.logicalLen)

/-- The timeline digest of a run of records (R258). -/
def timelineOf (l : List (RecHead × List Byte)) : BitVec 64 :=
  let of (t : Nat) : List Byte := (l.filter fun r => r.1.type == t).flatMap fun r => bytesLE 4 r.1.key ++ r.2
  BitVec.ofNat 64 (natLE ((sha384 (of 1 ++ of 3)).take 8))

/-- Order 19: LOGICAL_DIGEST and TIMELINE of the header against the records, of the merged image for a patch. -/
def recomputeCheck (h : ImgHeader) (l : List (RecHead × List Byte)) : Option Reject :=
  need 0x02 (logicalOf l == h.logicalDigest && timelineOf l == h.timeline)

/-! ## Sections and records (R253 to R255) -/

/-- Section types of Table 9.5. -/
def knownTypes (patch : Bool) : List Nat := (List.range 12).map (· + 1) ++ if patch then [15] else []

/-- Required types of a full image. -/
def requiredTypes (patch : Bool) : List Nat := if patch then [15] else [1, 2, 4, 10, 11]

/-- Whether two sections share a byte. -/
def sectionsMeet (a b : SectionEntry) : Bool := decide (a.offset < b.offset + b.length) && decide (b.offset < a.offset + a.length)

/-- Order 5: the section table. -/
def sectionCheck (img : Image) : Option Reject :=
  let h := img.header
  let types := img.sections.map (·.type)
  let bad (s : SectionEntry) : Bool :=
    !(knownTypes h.patch).contains s.type || decide (s.offset < 128 + 16 * h.nSections) || decide (h.length < s.offset + s.length)
      || img.sections.any fun o => o != s && sectionsMeet s o
  let zeros := (List.range h.nSections).all fun i => fieldLE img.raw (130 + 16 * i) 2 == 0
  firstFail [need 0x04 (h.nSections == img.sections.length && decide (128 + 16 * h.nSections ≤ h.length) && zeros && ascending types
               && (requiredTypes h.patch).all types.contains),
             ((img.sections.filter bad).head?).map fun s => (0x04, s.type, 0)]

/-- LOGICAL_LEN and BODY_LEN as the layouts fix them (Tables 9.5 to 9.8, R42, R132). -/
def lengthsOk (h : RecHead) : Bool :=
  match h.type with
  | 1 => h.logicalLen == 4 && h.bodyLen == 32
  | 2 => h.logicalLen == 0 && h.bodyLen == 48
  | 3 => h.logicalLen == 0 && h.bodyLen == 64
  | 6 => h.logicalLen == h.bodyLen && (h.bodyLen == 32 || h.bodyLen == 1040)
  | 7 => h.logicalLen == h.bodyLen && h.bodyLen == 4128
  | 8 => h.logicalLen == 4
  | 9 | 10 | 11 | 12 => h.logicalLen == 0
  | 15 => h.logicalLen == 48 && h.bodyLen == 48
  | _ => true

/-- A record's head (R253). -/
def recHeadOk (h : RecHead) : Bool :=
  h.zerosOk && h.logicalLen % 4 == 0 && h.bodyLen % 8 == 0 && decide (h.logicalLen ≤ h.bodyLen) && decide (h.key < 2 ^ 32) && lengthsOk h

/-- The zero bytes of a slot and of a variant body, and the conditions that a variant does not use (Tables 9.7 and 9.8). -/
def bodyOk (r : RecHead × List Byte) : Bool :=
  let b := r.2
  match r.1.type with
  | 2 => fieldLE b 44 4 == 0 && decide (fieldLE b 43 1 < 4)
  | 3 => fieldLE b 60 4 == 0 && fieldLE b 6 2 == 0
      && (List.range 4).all fun i => decide (i < fieldLE b 5 1) || fieldLE b (8 + 4 * i) 4 == 0xFFFFFFFF
  | _ => true

/-- KEYs of a section's records as the image reads them; a codebook's handle is not its KEY (log entry 5). -/
def keysOf (img : Image) (t : Nat) : Option (List Nat) :=
  match t with
  | 1 => some (img.segments.map (·.key))
  | 2 => some (img.slots.map (·.key))
  | 3 => some (img.variants.map (·.key))
  | 4 => some (img.bindings.map (·.key))
  | 5 => some (img.chains.map (·.key))
  | 7 => some (img.actTables.map (·.key))
  | 9 => some (img.ledgerLists.map (·.1))
  | 10 => some (img.regions.map (·.key))
  | 11 => some (img.routes.map (·.key))
  | 12 => some (img.leases.map (·.key))
  | _ => none

/-- A section's records, read where it lies: count, each of its section's type, lengths, ascending keys, the records the image names. -/
def recordsOk (img : Image) (s : SectionEntry) : Bool :=
  let hs := sectionHeads img.raw s
  hs.length == s.count && (hs.all fun h => h.type == s.type) && ascending (hs.map (·.key))
    && (hs.foldl (fun n h => n + 16 + h.bodyLen) 0) == s.length
    && (match keysOf img s.type with | some l => l == hs.map (·.key) | none => s.type != 6 || img.codebooks.length == s.count)

/-- Three grade-indexed u32 values (R255). -/
def gradesOk (l : List Nat) : Bool := l.length == 3 && l.all fun n => decide (n < 2 ^ 32)

/-- Kind of binding a slot kind runs (Table 9.7). -/
def kindFits (kind : Nat) (b : BindKind) : Bool :=
  match b with
  | .product .. => kind == 0
  | .copy .. => kind == 1
  | .fill .. => kind == 2
  | .chained .. => kind == 3
  | .sampler _ => kind == 4
  | .exchange .. | .receive _ => kind == 5
  | .weightDigest .. => kind == 1

/-- Fields of a segment in range (Table 9.6). -/
def segmentOk (img : Image) (g : Segment) : Bool :=
  gradesOk g.ledgerOff && gradesOk g.commitOff && (segIsLast g || (segOf img g.next).isSome)
    && (g.ledgerList == Config.noKey || (img.ledgerLists.lookup g.ledgerList).isSome)

/-- Units of work of a binding (R437). -/
def bindWork (img : Image) (b : BindKind) : Nat :=
  match b with
  | .product _ _ rt ct parts _ _ => rt * ct * parts
  | .copy .. | .fill .. => ceilDiv (outShape img b).1 64
  | .chained q _ _ c _ _ => ceilDiv (operandTensor q).rows 64 * spanCount c
  | .sampler s => s.rows
  | _ => 0

/-- Fields of a slot in range (Table 9.7, R437). -/
def slotOk (img : Image) (size : Nat) (l : Slot) : Bool :=
  gradesOk l.start && gradesOk l.len && decide (l.kind ≤ 6) && decide (l.slice < size)
    && (if l.seg < variantBit then (segOf img l.seg).isSome else (variantOf img (l.seg - variantBit)).isSome)
    && (if l.kind = 6 then l.bind == Config.noKey && l.units == 0 && l.workN == 0 && l.workFirst == 0
        else match bindOf img l.bind with
          | some b => kindFits l.kind b.kind && (if l.kind = 5 then l.workN == 0 && l.workFirst == 0
                        else decide (l.workFirst + l.workN ≤ bindWork img b.kind))
          | none => false)

/-- Fields of a variant in range (Table 9.8). -/
def variantOk (img : Image) (v : Variant) : Bool :=
  gradesOk v.w0 && gradesOk v.w1 && gradesOk v.delta && decide (v.kind ≤ 2) && decide (1 ≤ v.cond.length)
    && decide (v.cond.length ≤ (if v.kind = 1 then 1 else 4)) && (segOf img v.seg).isSome && decide (v.key < variantBit)

/-- Order 6: heads, lengths, key order, zeros of the records as they stand in the image. -/
def headCheck (img : Image) : Option Reject :=
  firstFail
    [((img.heads.find? fun h => !recHeadOk h)).map fun h => (0x05, h.type, h.key),
     ((img.sections.find? fun s => !recordsOk img s)).map fun s => (0x05, s.type, 0),
     ((imageRecords img).find? fun r => !bodyOk r).map fun r => (0x05, r.1.type, r.1.key)]

/-- Order 6: every field in range, of the merged image for a patch. -/
def fieldCheck (img : Image) (size : Nat) : Option Reject :=
  firstFail
    [culprit 0x05 1 ((img.segments.filter fun g => !segmentOk img g).map (·.key)),
     culprit 0x05 2 ((img.slots.filter fun l => !slotOk img size l).map (·.key)),
     culprit 0x05 3 ((img.variants.filter fun v => !variantOk img v).map (·.key)),
     culprit 0x05 12 ((img.leases.filter fun l => decide (255 < l.key)).map (·.key))]

/-! ## Timelines of a segment -/

/-- An attempt of a grade with variants selected. -/
def trial (grade : Nat) (sel : List Nat) : Attempt := { Attempt.none_ with grade := grade, variants := sel.map fun v => (v, true) }

/-- Every attempt of a segment: each grade with each selection of variants. -/
def trials (img : Image) (seg : Nat) : List Attempt :=
  [1, 2, 3].flatMap fun g => (subsets ((variantsOf img seg).map (·.key))).map (trial g)

/-- Slots of a segment's timeline in an attempt. -/
def trialSlots (img : Image) (seg : Nat) (a : Attempt) : List Slot := img.slots.filter fun l => a.onTimeline img seg l

/-- The timelines of every attempt of every segment. -/
def timelines (img : Image) : List (List Slot) := img.segments.flatMap fun g => (trials img g.key).map (trialSlots img g.key)

/-- Bindings of a run of slots, each once. -/
def bindsOfSlots (img : Image) (ls : List Slot) : List Binding := img.bindings.filter fun b => ls.any fun l => l.bind == b.key

/-! ## Codebooks and activation tables (R41, R42, R132) -/

/-- Strictly ascending entries. -/
def ascendingInt : List Int → Bool
  | a :: b :: l => decide (a < b) && ascendingInt (b :: l)
  | _ => true

/-- A codebook record (R39, R41, R42, Table 2.3). -/
def codebookOk (r : CodebookRec) : Bool :=
  let b := bookUser r
  let vals := b.vals.map (·.2)
  let top : Int := if r.c256 then 8388607 else 127 * 512
  let zeroEscape : Bool := match b.esc with
    | none => true
    | some e => if r.c256 then fieldLE r.bytes (4 * e) 4 == 0 else fieldLE r.bytes e 1 == 0
  let range : Bool := match b.esc with | none => true | some e => decide (e < if r.c256 then 256 else 16)
  r.bytes.length == (if r.c256 then 1040 else 32) && decide (r.key < if r.c256 then 8 else 32) && range && zeroEscape
    && ascendingInt vals && vals.contains 0 && vals.all (fun v => decide (-top ≤ v) && decide (v ≤ top))
    && (if r.c256 then fieldLE r.bytes 1026 14 == 0 else fieldLE r.bytes 17 15 == 0)

/-- An activation table record (R132, Table 5.4). -/
def actOk (r : ActRec) : Bool :=
  let w := signed 8 (fieldLE r.bytes 7 1)
  r.bytes.length == 4128 && decide (r.key < 8) && fieldLE r.bytes 0 3 == 0 && fieldLE r.bytes 24 8 == 0
    && decide (fieldLE r.bytes 3 1 ≤ 1) && decide (fieldLE r.bytes 4 1 ≤ 3) && decide (fieldLE r.bytes 5 1 ≤ 3)
    && decide (fieldLE r.bytes 6 1 ≤ 1) && decide (-8 ≤ w) && decide (w ≤ 8)

/-- Whether an earlier codebook of the same format has a record's handle (R42): with the range of a handle, the limits of 32 and 8 follow. -/
def handleTaken (l : List CodebookRec) (i : Nat) : Bool :=
  match l[i]? with
  | some r => (l.take i).any fun o => o.c256 == r.c256 && o.key == r.key
  | none => false

/-- Order 7: codebooks and activation tables. -/
def codebookCheck (img : Image) : Option Reject :=
  firstFail [culprit 0x0A 6 ((List.range img.codebooks.length).filterMap fun i => (img.codebooks[i]?).bind fun r =>
               if codebookOk r && !handleTaken img.codebooks i then none else some r.key),
             culprit 0x0A 7 ((img.actTables.filter fun r => !actOk r).map (·.key))]

end Sys2Proof.Machine
end

