-- ==== Sys2Proof/Machine/Bind.lean ====
section
/-! DEFINITION. The loader's checks of bindings, chains and streams, orders 8 to 10 of Table 9.9. -/

namespace Sys2Proof.Machine

/-! ## Parts of a binding -/

/-- A positive normal F32. -/
def posNormal (b : BitVec 32) : Bool := ts32Ok b
/-- A finite F32. -/
def finite32 (b : BitVec 32) : Bool := match f32Val b with | .fin _ => true | _ => false
/-- Two finite F32 values in order. -/
def ordered32 (lo hi : BitVec 32) : Bool := finite32 lo && finite32 hi && !fLt hi lo

/-- Whether a stream identifier is reserved (R172). -/
def reservedStream (s : BitVec 32) : Bool := decide (0xFFFFFF00 ≤ s.toNat)

/-- A bit source: no reserved identifier, and a declared stream stands in the stream table (R172, R177, R179). -/
def srcOk (img : Image) (s : BitSrc) : Bool := !reservedStream s.stream && (!s.declared || img.streams.contains s.stream)

/-- A rotation of a tensor of reduction length k (R90). -/
def rotOk (k : Nat) (r : Option Rotation) : Bool :=
  match r with
  | none => true
  | some r => decide (4 ≤ r.log2) && decide (r.log2 ≤ 8) && k % 2 ^ r.log2 == 0

/-- A ledger index within the partition's range (R199). -/
def entryOk (lgr : Nat) (e : Option Nat) : Bool := match e with | some i => decide (i < lgr) | none => true

/-- A narrow tensor (R42, R46, R57, R63, R90, R106, R199). -/
def tensorOk (img : Image) (lgr : Nat) (t : TensorRef) : Bool :=
  t.fmt != .e5m2 && (t.g == 32 || t.g == 64 || t.g == 128) && decide (1 ≤ t.rows) && decide (1 ≤ t.k) && decide (t.k ≤ 2 ^ 32)
    && decide (codeSpan t ≤ 2 ^ 64) && srcOk img t.src && rotOk t.k t.rot && entryOk lgr t.entry
    && (match t.fmt with
      | .c16 => img.codebooks.any fun r => !r.c256 && r.key == t.codebook
      | .c256 => img.codebooks.any fun r => r.c256 && r.key == t.codebook
      | _ => true)

/-- A wide tensor (R53, R57, R67). -/
def wideOk (img : Image) (w : WideRef) : Bool :=
  decide (1 ≤ w.rows) && decide (1 ≤ w.cols) && w.pitch % 512 == 0 && decide (wideSpan w ≤ 2 ^ 64) && srcOk img w.src
    && match w.fmt with
      | .wide f => decide (w.cols * wideBytes f ≤ w.pitch)
      | .fp8 .. => decide (w.cols ≤ w.pitch)
      | .mx t b => t != .fp6e3m2 && t != .fp6e2m3 && b == 32

/-- A region in F32, F16 or BF16, as stages, taps, wide outputs and landed wide tiles have it (Table 5.1, R139). -/
def plainOk (img : Image) (w : WideRef) : Bool := wideOk img w && match w.fmt with | .wide _ => true | _ => false

/-- Rotations of a prologue. -/
def prologueRots (pro : List Stage) : List Rotation := pro.filterMap fun s => match s with | .rotate r _ => some r | _ => none

/-- An operand (R46, R68, R90): a prologue's rotation is its code binding's, and none stands before a direct MX import. -/
def operandOk (img : Image) (lgr : Nat) (o : Operand) : Bool :=
  match o with
  | .pass t => tensorOk img lgr t
  | .convert w pro t =>
    let direct : Bool := match w.fmt with
      | .mx ty _ => directMx ty w t ((pro.filter fun s => match s with | .rotate .. => false | _ => true).map fun s => (0, s))
      | _ => false
    tensorOk img lgr t && wideOk img w && decide (prologueRots pro = t.rot.toList) && !(direct && t.rot.isSome)

/-- Both operands of a product are rotated alike or not at all; for odd r one of them leads (R93). -/
def rotsAgree (x y : TensorRef) : Bool :=
  match x.rot, y.rot with
  | none, none => true
  | some a, some b =>
    a == b && (a.log2 % 2 == 0 || (x.tid == a.key) != (y.tid == a.key))
  | _, _ => false

/-- Group handles that a binding and its chain name (R272). -/
def bindGroups (img : Image) (b : Binding) : List Nat :=
  (match b.kind with
  | .exchange r _ _ | .receive r => [r.group]
  | .sampler s => s.dest.toList.map (·.1)
  | .chained _ _ _ c _ _ => c.sends.map fun s => s.2.2.1
  | _ => []) ++ (chainOf img (outputOf b.kind).1).stages.filterMap fun s => match s with | .send g _ => some g | _ => none

/-- Bit sources of a chain's stages. -/
def stageSrcOk (img : Image) (s : Stage) : Bool :=
  match s with
  | .dropout _ _ src _ _ => srcOk img src
  | _ => true

/-- A receiving binding's fields (R106, R199, R274, R279, R280); the packets of a stream that it states are those that the loader derives
(R278). -/
def receiveOk (img : Image) (lgr : Nat) (r : Receive) : Bool :=
  r.tensor.all (tensorOk img lgr) && r.wide.all (plainOk img) && decide (r.k ≤ 2 ^ 32) && [tyTileCode, tyTileWide, tyTileP128, tyTilePf32, tyStream, tyState, tySample].contains r.type
    && (r.type != tyStream || r.dynamic || r.expected == streamExpected r)
    && (r.dynamic || (decide (1 ≤ r.rowTiles) && decide (1 ≤ r.colTiles) && decide (1 ≤ r.parts)))

/-- A region of a stage (Table 5.1). -/
def stageTensorsOk (img : Image) (lgr : Nat) (s : Stage) : Bool :=
  match s with
  | .residual w _ _ => plainOk img w
  | .activation _ (some w) _ => plainOk img w
  | .quantOut (.code t) _ rot _ _ _ => tensorOk img lgr t && decide (rot = t.rot)
  | .quantOut (.mx ty w) _ rot _ _ _ => wideOk img w && rot.isNone && ty != .fp6e3m2 && ty != .fp6e2m3
  | .quantOut (.fp8 _ w e _) _ rot _ _ _ => wideOk img w && rot.isNone && entryOk lgr e
  | _ => true

/-- Row-scaled operand of a binding (R113). -/
def rowScaled (k : BindKind) : Bool := [0, 1, 2].any fun o => match operandOf k o with | some x => (operandTensor x).rowTs | none => false

/-- An output's region, with its extents (R53, R113). -/
def outputOk (img : Image) (k : BindKind) : Bool :=
  let shape := outShape img k
  match (outputOf k).2 with
  | .wide w => plainOk img w && (w.rows == shape.1 && w.cols == shape.2)
  | .p128 w | .pf32 w => decide (1 ≤ w.rows) && w.rows == shape.1 && w.cols == shape.2 && !rowScaled k
      && (match k with | .product .. => true | _ => false)
  | .viaQuant => true

/-- A fill's distribution (R182, Table 7.5). -/
def distOk (f : Dist) : Bool :=
  match f with
  | .uniform lo hi => ordered32 lo hi
  | .bernoulli p => decide (p ≤ 65536)
  | .normalTable m s | .normalBm m s => finite32 m && finite32 s && !fLt s 0

/-- A sampler's fields (R190, R193, Table 7.7). -/
def samplerOk (img : Image) (s : Sampler) : Bool :=
  wideOk img s.scores && decide (s.scores.fmt = .wide .f32) && (match s.scores.place with | .buf .. => true | .mem _ => false)
    && s.scores.rows == s.rows && s.scores.cols == s.v && decide (1 ≤ s.rows) && decide (s.rows ≤ 4096) && decide (1 ≤ s.v)
    && decide (s.v ≤ 1048576) && posNormal s.invT && decide (s.first + s.count ≤ s.v)
    && match s.exportTo with | some (.buf ..) => false | _ => true

/-- A chained product's fields (R148, R149, Table 6.1). -/
def chainedOk (img : Image) (q k v : Operand) (c : Chained) (ch : Option Nat) : Bool :=
  let tq := operandTensor q
  let tk := operandTensor k
  let tv := operandTensor v
  let rec_ := actRec img c.expHandle
  let pro (o : Operand) : Nat := match o with | .convert _ l _ => l.length | .pass _ => 0
  decide (64 ≤ c.d) && decide (c.d ≤ 2048) && c.d % 64 == 0 && decide (1 ≤ c.nk) && decide (c.nk ≤ 1048576) && posNormal c.sigma
    && (c.pFmt == .e2m1 || c.pFmt == .e4m3) && decide (c.spanLog2 ≤ 13) && !reservedStream c.pStream
    && tq.g == tk.g && tq.k == c.d && tk.k == c.d && tk.rows == c.nk && tv.k == c.nk && tv.rows == c.d && tv.g == 32 && tv.rot.isNone
    && rotsAgree tq tk
    && (match c.bias with | some w => wideOk img w && (match w.fmt with | .wide _ => true | _ => false) | none => true)
    && (img.actTables.any fun r => r.key == c.expHandle) && fieldLE rec_ 3 1 == 1 && fieldLE rec_ 6 1 == 0
    && fLt 0 (BitVec.ofNat 32 (fieldLE rec_ 20 4)) && fieldLE rec_ 32 4 == 0x3F800000
    && decide (pro q + pro k + pro v + (chainOf img ch).stages.length ≤ 12)

/-- The kind's own fields (R102, R106, R113, R114, R148, R182, R190); a product's parts meet in P128 or PF32, or in the binding's own
region of partial sums (R114). -/
def kindOk (img : Image) (lgr : Nat) (b : Binding) : Bool :=
  match b.kind with
  | .product x y rt ct parts _ out =>
    let a := operandTensor x
    let c := operandTensor y
    operandOk img lgr x && operandOk img lgr y && a.g == c.g && a.k == c.k && rotsAgree a c && decide (1 ≤ parts)
      && rt == ceilDiv a.rows 64 && ct == ceilDiv c.rows 64
      && (parts == 1 || (!rowScaled b.kind && (match out with | .p128 _ | .pf32 _ => true | _ => b.psum.isSome)))
      && decide (parts ≤ ceilDiv a.k (max 1 a.g))
  | .copy code wide ch _ =>
    (match code, wide with
    | some t, none => tensorOk img lgr t && (t.rot.isNone || (prologueRots (chainOf img ch).stages).isEmpty)
    | none, some w => wideOk img w
    | _, _ => false)
  | .fill f src _ _ _ => distOk f && srcOk img src
  | .chained q k v c ch _ => operandOk img lgr q && operandOk img lgr k && operandOk img lgr v && chainedOk img q k v c ch
  | .sampler s => samplerOk img s
  | .exchange r _ _ | .receive r => receiveOk img lgr r
  | .weightDigest t _ _ => tensorOk img lgr t

/-! ## Sums of a product (R106, R113, R114) -/

/-- Whether a binding brings P128 parts into the sum of a product: a receiving binding of its tensor, or another product whose tiles
stay in a buffer (R108). -/
def feeds (img : Image) (b x : Binding) : Bool :=
  let tid := sumTid img b.kind
  match recvOf x.kind, x.kind with
  | some r, _ => r.type == tyTileP128 && r.tid == tid
  | none, .product _ _ _ _ _ c (.p128 w) => x.key != b.key && w.tid == tid && (sendOf (chainOf img c)).isNone
  | _, _ => false

/-- Whether a binding brings PF32 parts into the sum of a product (R115): a receiving binding of its tensor, or another product of it that
is written as PF32 and sent nowhere. -/
def feeds32 (img : Image) (b x : Binding) : Bool :=
  match recvOf x.kind, x.kind with
  | some r, _ => r.type == tyTilePf32 && r.tid == sumTid img b.kind
  | none, .product _ _ _ _ _ c (.pf32 w) => x.key != b.key && w.tid == sumTid img b.kind && (sendOf (chainOf img c)).isNone
  | _, _ => false

/-- Whether a binding is a product. -/
def isProduct : BindKind → Bool | .product .. => true | _ => false

/-- Whether a product's sum ends in it: it is written neither as P128 nor as PF32 (R114, R115). -/
def keepsSum (b : Binding) : Bool :=
  isProduct b.kind && match (outputOf b.kind).2 with | .p128 _ | .pf32 _ => false | _ => true

/-- Reduction positions that some slots' work covers of a product, and a receiving binding's. -/
def positions (ls : List Slot) (b : Binding) : Nat :=
  match recvOf b.kind, b.kind with
  | some r, _ => r.k
  | none, .product x _ rt ct parts _ _ =>
    let t := operandTensor x
    let us := (ls.filter fun l => l.bind == b.key).flatMap workUnits
    let n := ceilDiv (ceilDiv t.k (max 1 t.g)) (max 1 parts)
    (((us.map (· / max 1 (rt * ct))).eraseDups).map fun i => min t.k ((i + 1) * n * t.g) - min t.k (i * n * t.g)).sum
  | _, _ => 0

/-- The bindings whose parts a product's sum takes: all that feed it where it owns its sum, else the received ones alone, since a product
that is written as P128 or PF32 passes on what lands for it (R108, R114). -/
def summands (img : Image) (b : Binding) (here : List Binding) : List Binding :=
  here.filter fun x => if keepsSum b then feeds img b x || feeds32 img b x else (recvOf x.kind).isSome && feeds img b x

/-- R106, R113 and R114 of a product in an attempt: the sum's length, its split points, no split under row scales. -/
def sumOk (img : Image) (b : Binding) (ls : List Slot) : Bool :=
  let more := summands img b (bindsOfSlots img ls)
  let g := match b.kind with | .product x .. => max 1 (operandTensor x).g | _ => 1
  let lens := (positions ls b :: more.map (positions ls))
  decide (lens.sum ≤ 2 ^ 32) && decide ((lens.filter fun n => n % g != 0).length ≤ 1)
    && (!rowScaled b.kind || more.isEmpty)

/-- The same in every attempt that works on the product. -/
def sumsOk (img : Image) (b : Binding) : Bool :=
  !isProduct b.kind || (timelines img).all fun ls => !(ls.any fun l => l.bind == b.key) || sumOk img b ls

/-! ## Rows in one slice (R133, R164) -/

/-- Whether every row block of a binding is worked on in one slice only within each attempt. -/
def rowsInOneSlice (img : Image) (b : Binding) : Bool :=
  (timelines img).all fun ls =>
    let mine := ls.filter fun l => l.bind == b.key
    mine.all fun x => mine.all fun y => x.slice == y.slice
      || (workUnits x).all fun u => (workUnits y).all fun w => blockOfUnit b.kind u != blockOfUnit b.kind w

/-- Whether a quantise-out of the partition holds rows (R162). -/
def holdsRows (x : Part) (s : Stage) : Bool := match s with | .quantOut _ _ _ pol _ _ => x.policyOf pol == .rowHold | _ => false

/-- Whether a quantise-out's code target has a row-scale table exactly where its policy writes one (R163, R164, log entry 57): under row
hold always, under delayed scale never, under two-pass as the binding says. -/
def rowTableOk (x : Part) (s : Stage) : Bool :=
  match s with
  | .quantOut (.code t) _ _ pol _ _ => (match x.policyOf pol with | .rowHold => t.rowTs | .delayed => !t.rowTs | .twoPass => true)
  | _ => true

/-- R164: row hold in the default orientation, every row in one slice. -/
def rowHoldOk (img : Image) (x : Part) (b : Binding) : Bool :=
  (chainOf img (outputOf b.kind).1).stages.all fun s =>
    rowTableOk x s && (!holdsRows x s || ((match s with | .quantOut _ byRows .. => !byRows | _ => true) && rowsInOneSlice img b))

/-! ## Order 8 -/

/-- A binding (Table 9.9, order 8). Every operand of a product may lie where it will: that the stationary one is fed from a stage buffer
(R29) is no check of the table. -/
def bindingOk (d : Dev) (p : PartId) (img : Image) (b : Binding) : Bool :=
  let x := d.part p
  let stages := (chainOf img (outputOf b.kind).1).stages
  kindOk img x.cfg.lgrCount b && sumsOk img b && outputOk img b.kind && stages.all (stageTensorsOk img x.cfg.lgrCount) && stages.all (stageSrcOk img)
    && (chainOf img (outputOf b.kind).1).taps.all (fun t => plainOk img t.2) && rowHoldOk img x b
    && !reservedStream (chainOf img (outputOf b.kind).1).prodSrc.stream
    && (bindGroups img b).all (fun h => (d.grp p h).isSome)
    && (bindDigests img b).all fun k => decide (k.2 < 64) && d.mayDigest p k.1

/-- Whether the slots of an attempt read every line of operand o of a binding. -/
def operandWhole (img : Image) (ls : List Slot) (b : Binding) (o : Nat) : Bool :=
  let us := (ls.filter fun l => l.bind == b.key).flatMap workUnits
  match b.kind with
  | .product _ _ rt ct parts _ _ =>
    if o = 0 then (List.range (rt * parts)).all fun i => us.any fun u => u / max 1 ct == i
    else (List.range parts).all fun i => (List.range ct).all fun k => us.any fun u => u / max 1 (ct * rt) == i && u % max 1 ct == k
  | .chained _ _ _ c _ _ =>
    if o = 0 then (List.range (bindWork img b.kind / max 1 (spanCount c))).all fun i => us.any fun u => u / max 1 (spanCount c) == i
    else (List.range (spanCount c)).all fun i => us.any fun u => u % max 1 (spanCount c) == i
  | k => (List.range (bindWork img k)).all us.contains

/-- Whether a list names nothing twice. -/
def distinct (l : List Nat) : Bool := l.eraseDups.length == l.length

/-- Whether a digest binding hashes every line of its tensor once in an attempt (R319): a shard's tensor is read whole; every unit of an
output's binding is worked on, and once. -/
def hashesAll (img : Image) (ls : List Slot) (b : Binding) : Bool :=
  match b.kind with
  | .weightDigest t _ _ => (bindsOfSlots img ls).any fun x => [0, 1, 2].any fun o => readsAs x o t.tid && operandWhole img ls x o
  | _ =>
    let us := (ls.filter fun l => l.bind == b.key).flatMap workUnits
    (bindDigests img b).isEmpty || (distinct us && (List.range (bindWork img b.kind)).all us.contains)

/-- The digest bindings of a segment that R319 rejects, and the shards that no segment reads. -/
def digestCulprits (img : Image) : List Nat :=
  (img.bindings.filter fun b => match b.kind with | .weightDigest .. => !img.segments.any fun g => shardOf img g.key b | _ => false).map (·.key)
    ++ img.segments.flatMap fun g => ((trials img g.key).map (trialSlots img g.key)).flatMap fun ls =>
      (img.bindings.filter fun b => (shardOf img g.key b || (bindsOfSlots img ls).any fun x => x.key == b.key) && !hashesAll img ls b).map (·.key)

/-- Whether two receiving bindings of a segment could take one packet (R274). -/
def receiversClash (a b : Binding) : Bool :=
  match recvOf a.kind, recvOf b.kind with
  | some x, some y => a.key != b.key && x.group == y.group && x.tid == y.tid && x.type == y.type
  | _, _ => false

/-- Order 8: bindings. -/
def bindingCheck (d : Dev) (p : PartId) (img : Image) : Option Reject :=
  firstFail
    [culprit 0x0D 4 ((img.bindings.filter fun b => !bindingOk d p img b).map (·.key)),
     culprit 0x0D 4 (img.segments.flatMap fun g => let bs := bindsOfSeg img g.key; (bs.filter fun a => bs.any (receiversClash a)).map (·.key)),
     (img.segments.find? fun g => !distinct (segDigests img g.key)).map fun _ => (0x0D, 4, 0),
     culprit 0x0D 4 (digestCulprits img)]

/-! ## Order 9: chains -/

/-- Place of a stage in an epilogue or a copy's chain (Table 5.1): prologue, row unit, quantise-out, digest or send; none for an
invalid code. -/
def stageRank (s : Stage) : Option Nat :=
  match s with
  | .transpose | .gather .. | .rotate .. | .scale .. | .quantise => some 0
  | .quantOut .. => some 2
  | .digest .. | .send .. => some 3
  | .invalid _ => none
  | _ => some 1

/-- Never falling. -/
def nondecreasing : List Nat → Bool
  | a :: b :: l => decide (a ≤ b) && nondecreasing (b :: l)
  | _ => true

/-- Number of stages of a kind. -/
def stageCount (f : Stage → Bool) (l : List Stage) : Nat := (l.filter f).length

/-- Transpose and row gather at most once each (Table 5.2, rule 2). -/
def movesOk (l : List Stage) : Bool :=
  decide (stageCount (fun s => match s with | .transpose => true | _ => false) l ≤ 1)
    && decide (stageCount (fun s => match s with | .gather .. => true | _ => false) l ≤ 1)

/-- The value stages of a prologue run in order; a rotation stands directly before the quantise (rules 1 to 3). -/
def prologueOk (l : List Stage) : Bool :=
  movesOk l && l.all (fun s => stageRank s == some 0)
    && decide (stageCount (fun s => match s with | .quantise => true | _ => false) l = 1)
    && decide (stageCount (fun s => match s with | .rotate .. => true | _ => false) l ≤ 1)
    && match l.reverse with
      | .quantise :: r => (r.drop 1).all fun s => match s with | .rotate .. => false | _ => true
      | _ => false

/-- The order rules of an epilogue, or of a copy's chain, which has its prologue in front (rules 1 to 7). -/
def epilogueOk (copy : Bool) (l : List Stage) : Bool :=
  match l.mapM stageRank with
  | none => false
  | some ranks =>
    nondecreasing ranks && (copy || !ranks.contains 0) && movesOk l
      && l.all (fun s => match s with | .quantise | .rotate .. => false | _ => true)
      && decide (stageCount isNorm l ≤ 1)
      && decide (stageCount (fun s => match s with | .quantOut .. => true | _ => false) l ≤ 1)
      && decide (stageCount (fun s => match s with | .digest .. => true | _ => false) l ≤ 1)
      && decide (stageCount (fun s => match s with | .send .. => true | _ => false) l ≤ 1)

/-- The IF code of a wide storage format. -/
def ifOf (s : WideFmt) : IFmt := match s with | .f32 => .f32 | .bf16 => .bf16 | .f16 => .f16

/-- IF fields (R123, R124, R146): the n-th stage, with whether a value stage stands before it. -/
def ifOk (c : Chain) (product before : Bool) (s : Stage) : Bool :=
  match s with
  | .quantOut _ _ rot _ _ f =>
    if c.sepEq then f == ifOf c.s
    else if rot.isSome then f == .f32
    else if product && !before then f == .exact
    else f != .exact
  | s => match valueIf s with
    | some f => if c.sepEq then f == ifOf c.s else f != .exact
    | none => true

/-- IF fields along a run of stages. -/
def ifsOk (c : Chain) (product : Bool) : Bool → List Stage → Bool
  | _, [] => true
  | before, s :: l => ifOk c product before s && ifsOk c product (before || (valueIf s).isSome) l

/-- Parameters of a stage (R131 to R135, R162, R199, R275, Table 5.1). -/
def stageOk (img : Image) (lgr : Nat) (b : Binding) (s : Stage) : Bool :=
  match s with
  | .clamp lo hi _ => !fLt hi lo
  | .norm _ n eps _ _ _ => posNormal eps && decide (1 ≤ n) && decide (n ≤ 1048576) && n == (outShape img b.kind).2 && rowsInOneSlice img b
  | .activation (.table h) _ _ => img.actTables.any fun r => r.key == h
  | .dropout keep .. => decide (1 ≤ keep) && decide (keep ≤ 65536)
  | .statistics i _ => decide (i < lgr)
  | .send _ (.shift k) => decide (-8191 ≤ k) && decide (k ≤ 8191)
  | .quantOut _ _ _ pol _ _ => pol != some .twoPass
  | _ => true

/-- Extents of a quantise-out's target against the output (R137). -/
def targetOk (img : Image) (b : Binding) (s : Stage) : Bool :=
  match s with
  | .quantOut t byRows _ _ _ _ =>
    let e := targetExtents t
    (if byRows then (e.2, e.1) else e) == outShape img b.kind
  | _ => true

/-- Prologues of a binding's converted operands. -/
def prologues (k : BindKind) : List (List Stage) :=
  [0, 1, 2].filterMap fun o => match operandOf k o with | some (.convert _ pro _) => some pro | _ => none

/-- A binding's chain and prologues (Table 9.9, order 9). -/
def chainOk (lgr : Nat) (img : Image) (b : Binding) : Bool :=
  let c := chainOf img (outputOf b.kind).1
  let copy : Bool := match b.kind with | .copy .. => true | _ => false
  let product : Bool := match b.kind with | .product .. => true | _ => false
  let named : Bool := match (outputOf b.kind).1 with | some k => img.chains.any fun r => r.key == k | none => true
  let hasOut : Bool := match b.kind with | .product .. | .copy .. | .fill .. | .chained .. => true | _ => false
  let pros := prologues b.kind
  named && pros.all prologueOk && epilogueOk copy c.stages && decide ((pros.map (·.length)).sum + c.stages.length ≤ 12)
    && (!hasOut || (quantStage c).isSome == decide ((outputOf b.kind).2 = .viaQuant))
    && decide (c.taps.length ≤ 1)
    && c.taps.all (fun t => match c.stages[t.1]? with
      | some s => isRowStage s && (valueIf s).isSome
      | none => false)
    && ifsOk c product false c.stages && pros.all (ifsOk c false false) && c.stages.all (stageOk img lgr b) && c.stages.all (targetOk img b)

/-- KEY that a bad chain is reported under: the chain's, or its binding's where it has none. -/
def chainKey (b : Binding) : Nat := (outputOf b.kind).1.getD b.key

/-- Order 9: chains. -/
def chainCheck (lgr : Nat) (img : Image) : Option Reject :=
  firstFail [culprit 0x0B 5 ((img.bindings.filter fun b => !chainOk lgr img b).map chainKey),
             culprit 0x0B 5 ((img.chains.filter fun c => c.chain.stages.any fun s => match s with | .statistics i _ => decide (lgr ≤ i) | _ => false).map
               (·.key))]

/-! ## Order 10: streams (R177) -/

/-- Order 10: declared streams within the partition's capacity. -/
def streamCheck (size : Nat) (img : Image) : Option Reject := if img.streams.length ≤ 64 * size then none else some (0x0E, 8, 0)

end Sys2Proof.Machine
end

