-- ==== Sys2Proof/Machine/Verify.lean ====
section
/-! DEFINITION. The loader's checks of placement, orders 11 to 18 of Table 9.9, and the whole check of an image (R259). -/

namespace Sys2Proof.Machine

/-- Whether two slots run in overlapping windows of an attempt. -/
def slotsMeet (img : Image) (a : Attempt) (x y : Slot) : Bool :=
  decide (a.startOf img x < a.endOf img y) && decide (a.startOf img y < a.endOf img x)

/-! ## Orders 11 to 14 -/

/-- Order 11: routes within the partition (R23). -/
def routeCheck (img : Image) (size : Nat) : Option Reject :=
  culprit 0x06 11 ((img.routes.filter fun r => decide (size ≤ r.src) || decide (size ≤ r.dst)).map (·.key))

/-- Order 12: no route and no slot's unit is fenced (R33). -/
def fencedCheck (d : Dev) (x : Part) (img : Image) : Option Reject :=
  firstFail [culprit 0x07 11 ((img.routes.filter fun r => r.units.any d.fenced).map (·.key)),
             culprit 0x07 2 ((img.slots.filter fun l => (x.unitsOf l).any d.fenced).map (·.key))]

/-- Order 13: no code stream without its scales (R30). -/
def codeAloneCheck (img : Image) : Option Reject := culprit 0x08 11 ((img.routes.filter fun r => r.carriesCode && !r.carriesScale).map (·.key))

/-- Order 14: modes (R36). -/
def modeCheck (mode : BitVec 10) (img : Image) : Option Reject :=
  firstFail
    [need 0x09 (mode.toNat / 64 % 4 != 3),
     culprit 0x09 4 ((img.bindings.filter fun b => match b.kind with
       | .sampler _ => !mode.getLsbD 5 && !(img.slots.any fun l => l.bind == b.key)
       | _ => false).map (·.key)),
     culprit 0x09 12 ((img.leases.filter fun r => mode.getLsbD 4 && !(img.variants.any fun v => v.kind == 1 && v.cond.head? == some r.key)).map
       (·.key))]

/-! ## Order 15: counting (R99, R206) -/

/-- Entry and tensor of a quantisation that counts. -/
def tensorCounts (t : TensorRef) : List (Nat × BitVec 24) := if t.counting then tensorEntry t else []

/-- Entries that a stage counts into, with the tensor counted. -/
def stageCounts (s : Stage) : List (Nat × BitVec 24) :=
  match s with
  | .statistics i tid => [(i, tid)]
  | .quantOut (.code t) .. => tensorCounts t
  | .quantOut (.fp8 _ w (some i) true) .. => [(i, w.tid)]
  | _ => []

/-- What a binding counts, once for each counting operand and stage (R99, R136). -/
def bindCounts (img : Image) (b : Binding) : List (Nat × BitVec 24) :=
  ([0, 1, 2].flatMap fun o => match operandOf b.kind o with
    | some (.convert _ _ t) => tensorCounts t
    | _ => []) ++ (chainOf img (outputOf b.kind).1).stages.flatMap stageCounts

/-- Whether a slot counts: by its flag or its binding. -/
def slotCounts (img : Image) (l : Slot) : Bool := l.counting || (match bindOf img l.bind with | some b => !(bindCounts img b).isEmpty | none => false)

/-- A segment's counting bindings: one for each tensor in every attempt, all on the segment's list, which ascends within the range. -/
def countingOk (lgr : Nat) (img : Image) (g : Segment) : Bool :=
  let list := ledgerListOf img g
  ascending list && list.all (fun i => decide (i < lgr)) && (bindsOfSlots img (segSlots img g.key)).all (fun b => (bindCounts img b).all fun c => list.contains c.1)
    && (trials img g.key).all fun a => distinct ((bindsOfSlots img (trialSlots img g.key a)).flatMap fun b => (bindCounts img b).map fun c => c.2.toNat)

/-- Order 15. -/
def countingCheck (lgr : Nat) (img : Image) : Option Reject :=
  firstFail [culprit 0x10 9 ((img.ledgerLists.filter fun l => !l.2.all fun i => decide (i < lgr)).map (·.1)),
             culprit 0x10 1 ((img.segments.filter fun g => !countingOk lgr img g).map (·.key))]

/-! ## Order 16: slots -/

/-- Lines of the P128 partial sums that a slot's drain adds to the tiles of which it works on the last part: received ones, those that other
bindings leave in stage buffers, and the earlier parts of its own binding (R108, R114). -/
def sumReads (img : Image) (l : Slot) (b : Binding) : List Lines :=
  match b.kind with
  | .product _ _ rt ct parts _ _ =>
    let per := rt * ct
    let at_ := ((workUnits l).filter fun u => decide ((parts - 1) * per ≤ u)).map (· % max 1 per)
    ((summands img b (bindsOfSeg img (baseSeg img l))).flatMap fun x => match recvOf x.kind, x.kind with
      | some r, _ => if r.type = tyTileP128 then tileRuns (.buf r.slice r.line) x.tiles (at_.flatMap fun t => (List.range r.parts).map fun p =>
          (p * r.rowTiles + t / max 1 ct) * r.colTiles + t % max 1 ct) else []
      | none, .product _ _ rt' ct' parts' _ (.p128 w) =>
        tileRuns w.place x.tiles (at_.flatMap fun t => (List.range parts').map fun p => (p * rt' + t / max 1 ct) * ct' + t % max 1 ct)
      | _, _ => [])
      ++ match keepsSum b, b.psum with
        | true, some (s, n) => tileRuns (.buf s n) b.tiles (at_.flatMap fun t => (List.range (parts - 1)).map fun p => p * per + t)
        | _, _ => []
  | _ => []

/-- Lines of reads with those from a landing region of a dynamic exchange taken as the whole region: they are read by global line, round
the region (R281). -/
def roundRegion (img : Image) (seg : Nat) (r : Lines) : Lines :=
  ((bindsOfSeg img seg).findSome? fun b => match b.kind with
    | .exchange x _ _ => if x.slice = r.1 ∧ x.line ≤ r.2.1 ∧ r.2.1 < x.line + x.lines then some (x.slice, x.line, x.lines) else none
    | _ => none).getD r

/-- Lines a slot reads. -/
def slotReads (img : Image) (l : Slot) : List Lines :=
  match bindOf img l.bind with
  | some b => (bindReads img b ++ sumReads img l b).map (roundRegion img (baseSeg img l))
  | none => []

/-- Lines a slot writes or, for a receiving slot, has packets land in. -/
def slotWrites (img : Image) (l : Slot) : List Lines :=
  match bindOf img l.bind with
  | some b => bindWrites img b ++ sumWrites b (workUnits l) ++ bindLands b
  | none => []

/-- Whether two lists of runs share a line. -/
def runsMeet (a b : List Lines) : Bool := a.any fun x => b.any (linesMeet x)

/-- A slot by itself (R231, R238, R241, R242, R304, R305). -/
def slotAlone (img : Image) (l : Slot) : Bool :=
  let last : Bool := match segOf img (baseSeg img l) with | some g => segIsLast g | none => false
  [1, 2, 3].all (fun g => decide (Config.decisionBeats ≤ gradeAt l.start g) && decide (leastBeats img l g ≤ gradeAt l.len g))
    && !(l.commit && slotCounts img l) && (l.commit || !last) && !runsMeet (slotReads img l) (slotWrites img l)

/-- The offsets of a segment's ledger and commit points (R207, R239). The slots of the segment are its base slots (DESIGN CHOICE, log entry 68:
R239 does not say whether a variant's own slots count among them). -/
def pointsOk (img : Image) (g : Segment) : Bool :=
  segIsLast g || [1, 2, 3].all fun k =>
    let ends (f : Slot → Bool) : Nat := ((img.slots.filter fun l => l.seg == g.key && f l).map fun l => gradeAt l.start k + gradeAt l.len k).foldl max 0
    let c := gradeAt g.commitOff k
    let p := gradeAt g.ledgerOff k
    c % 65536 == 0 && decide (ends (fun l => !l.commit) + 131072 ≤ c) && decide (ends (slotCounts img) ≤ p) && decide (p + 65536 ≤ c)

/-- Two slots of an attempt (R233): no shared unit in overlapping windows, no read before the other's write has ended. -/
def pairOk (img : Image) (a : Attempt) (x y : Slot) : Bool :=
  !(x.slice == y.slice && x.units &&& y.units != 0 && slotsMeet img a x y)
    && !(runsMeet (slotReads img x) (slotWrites img y) && decide (a.startOf img x < a.endOf img y))

/-- A run of lines without those of another run. -/
def runCut (r w : Lines) : List Lines :=
  if linesMeet r w then
    [(r.1, r.2.1, w.2.1 - r.2.1), (r.1, w.2.1 + w.2.2, r.2.1 + r.2.2 - (w.2.1 + w.2.2))].filter fun q => decide (q.2.2 ≠ 0)
  else [r]

/-- Runs of lines without those of other runs. -/
def runsCut (rs ws : List Lines) : List Lines := ws.foldl (fun rs w => rs.flatMap fun r => runCut r w) rs

/-- A slot's reads of lines that a body slot off the attempt's timeline writes, in another attempt or another segment, and that no earlier
slot of the attempt rewrites (R305). -/
def staleRead (img : Image) (a : Attempt) (ls : List Slot) (x : Slot) : Bool :=
  let left := runsCut (slotReads img x) ((ls.filter fun y => decide (a.endOf img y ≤ a.startOf img x)).flatMap (slotWrites img))
  img.slots.any fun y => !y.commit && !(ls.any fun z => z.key == y.key) && runsMeet left (slotWrites img y)

/-- KEY of a slot that breaks R233 or R305 in some attempt of a segment. -/
def timelineCulprit (img : Image) (g : Segment) : Option Nat :=
  ((trials img g.key).findSome? fun a =>
    let ls := trialSlots img g.key a
    ls.find? fun x => staleRead img a ls x || ls.any fun y => y.key != x.key && !pairOk img a x y).map (·.key)

/-- Idle spans common to two arrays of the partition on a timeline of `n` beats: starts and ends. -/
def idleSpans (img : Image) (a : Attempt) (ls : List Slot) (n x y : Nat) : List (Nat × Nat) :=
  let busy := (ls.filter fun l => (l.slice == x / 4 && l.units.getLsbD (x % 4)) || (l.slice == y / 4 && l.units.getLsbD (y % 4))).map fun l =>
    (a.startOf img l, a.endOf img l)
  ((0 :: busy.map (·.2)).filter fun c => decide (c < n) && !busy.any fun b => decide (b.1 ≤ c) && decide (c < b.2)).map fun c =>
    (c, ((busy.map (·.1)).filter fun s => decide (c ≤ s)).foldl min n)

/-- Whether every window of 32 epochs within a timeline of `n` beats holds a span of at least `b` beats (R316). -/
def windowsOk (spans : List (Nat × Nat)) (n b : Nat) : Bool :=
  let w := 32 * 65536
  let long := spans.filter fun s => decide (s.1 + b ≤ s.2)
  (0 :: long.map fun s => s.2 - b + 1).all fun t =>
    decide (n < t + w) || long.any fun s => decide (max s.1 t + b ≤ min s.2 (t + w))

/-- Every healthy array of the partition finds time for its proving burns in every attempt of a segment (R316). -/
def burnsOk (d : Dev) (x : Part) (img : Image) (g : Segment) : Bool :=
  let arrays := (List.range (4 * x.cfg.size)).filter fun i => !d.fenced (arrayUnit (4 * x.cfg.first + i))
  (trials img g.key).all fun a =>
    let ls := trialSlots img g.key a
    let n := if segIsLast g then (ls.map (a.endOf img)).foldl max 0 else a.commitOff img g
    arrays.all fun i => windowsOk ((arrays.filter (· != i)).flatMap (idleSpans img a ls n i)) n (Config.burnBeats a.grade)

/-- Order 16. -/
def slotCheck (d : Dev) (x : Part) (img : Image) : Option Reject :=
  firstFail [culprit 0x0F 2 ((img.slots.filter fun l => !slotAlone img l).map (·.key)),
             culprit 0x0F 1 ((img.segments.filter fun g => !pointsOk img g).map (·.key)),
             culprit 0x0F 2 (img.segments.filterMap (timelineCulprit img)),
             culprit 0x0F 1 ((img.segments.filter fun g => !burnsOk d x img g).map (·.key))]

/-! ## Order 17: variants (R199, R243, R287) -/

/-- A variant's conditions. -/
def condOk (lgr : Nat) (img : Image) (v : Variant) : Bool :=
  if v.kind = 1 then v.cond.all fun i => img.leases.any fun r => r.key == i else v.cond.all fun i => decide (i < lgr)

/-- A variant under one grade. -/
def variantAt (img : Image) (g : Segment) (v : Variant) (k : Nat) : Bool :=
  let w0 := gradeAt v.w0 k
  let w1 := gradeAt v.w1 k
  let span (l : Slot) : Nat × Nat := (gradeAt l.start k, gradeAt l.start k + gradeAt l.len k)
  let others := (variantsOf img g.key).filter fun u => u.key != v.key
  decide (w0 ≤ w1)
    && (img.slots.all fun l => l.seg != v.key + variantBit || (decide (w0 ≤ (span l).1) && decide ((span l).2 ≤ w1 + gradeAt v.delta k)))
    && (img.slots.all fun l => l.seg != g.key || !(decide ((span l).1 < w1) && decide (w1 < (span l).2)))
    && others.all (fun u => decide (w1 ≤ gradeAt u.w0 k) || decide (gradeAt u.w1 k ≤ w0))
    && (segIsLast g || decide (w1 ≤ gradeAt g.ledgerOff k))
    && (v.kind != 1 || (decide (131072 ≤ w0) && others.all fun u => decide (w0 ≤ gradeAt u.w0 k) || decide (gradeAt u.w0 k + 131072 ≤ w0)))

/-- The shifts of a segment's variants under one grade. -/
def shiftsOk (img : Image) (g : Segment) (k : Nat) : Bool :=
  decide (gradeAt g.commitOff k + ((variantsOf img g.key).map fun v => gradeAt v.delta k).sum ≤ 2 ^ 32 - 65536)

/-- A variant. -/
def variantFits (lgr : Nat) (img : Image) (v : Variant) : Bool :=
  match segOf img v.seg with
  | none => false
  | some g => condOk lgr img v && [1, 2, 3].all fun k => variantAt img g v k && shiftsOk img g k

/-- Order 17. -/
def variantCheck (lgr : Nat) (img : Image) : Option Reject :=
  culprit 0x11 3 ((img.variants.filter fun v => !variantFits lgr img v).map (·.key))

/-! ## Order 18: stage-buffer accounting (R143, R144, R161, R165, R283) -/

/-- Bytes of an element under an IF (Table 5.3). -/
def ifBytes : IFmt → Nat
  | .f32 => 4
  | .bf16 | .f16 => 2
  | .exact => 16

/-- Bytes of an input element, MXFP4 and narrow codes taken as whole bytes. -/
def inputBytes (w : WideRef) : Nat := match w.fmt with | .wide f => wideBytes f | _ => 1

/-- Row blocks a slot works on. -/
def slotBlocks (b : Binding) (l : Slot) : List Nat := ((workUnits l).map (blockOfUnit b.kind)).eraseDups

/-- Output columns a slot works on. -/
def slotCols (img : Image) (b : Binding) (l : Slot) : Nat :=
  match b.kind with
  | .product _ _ _ ct _ _ _ => min (outShape img b.kind).2 (64 * ((workUnits l).map (· % max 1 ct)).eraseDups.length)
  | _ => (outShape img b.kind).2

/-- The arrays that run a slot's work (n_a): those with some unit of it. For a copy or a fill, of which the rule does not say, the pairs of
array and row unit that the slot names (DESIGN CHOICE, log entry 63). -/
def runArrays (b : Binding) (l : Slot) : List Nat :=
  match b.kind with
  | .product .. | .chained .. => (slotArrays l).filter fun a => (slotBlocks b l).any fun β => arrayFor l β == some a
  | _ => slotArrays l

/-- Column tiles of a row block of a product that some slots drain: those whose last part is among their units. -/
def drainedCols (ct : Nat) (rt parts : Nat) (ls : List Slot) (block : Nat) : List Nat :=
  ((ls.flatMap workUnits).filterMap fun u =>
    if (parts - 1) * rt * ct ≤ u ∧ u / max 1 ct % max 1 rt = block then some (u % max 1 ct) else none).eraseDups

/-- Row blocks that an array has open at most at once: `open_` were open when it began, `whole` says which it leaves whole. -/
def mostOpen (open_ : List Nat) (whole : Nat → Bool) (blocks : List Nat) : Nat :=
  (blocks.foldl (fun (s : List Nat × Nat) β =>
    let now := if s.1.contains β then s.1 else s.1 ++ [β]
    (if whole β then now.filter (· != β) else now, max s.2 now.length)) (open_, open_.length)).2

/-- n_r: the rows of which some tile is drained but not all, at most at any beat of the slot. An array takes its row blocks in ascending
order (R437), and blocks that earlier slots of the binding left open on the slice stay so until they are whole; of slots that run together
the first by KEY counts those that none of them works on. -/
def openRows (img : Image) (a : Attempt) (ls : List Slot) (b : Binding) (l : Slot) : Nat :=
  match b.kind with
  | .product _ _ rt ct parts _ _ =>
    let mine := ls.filter fun y => y.bind == l.bind && y.slice == l.slice
    let before := mine.filter fun y => decide (a.endOf img y ≤ a.startOf img l)
    let beside := mine.filter fun y => y.key != l.key && slotsMeet img a y l
    let cols := drainedCols ct rt parts
    let left := (List.range rt).filter fun β => !(cols before β).isEmpty && decide ((cols before β).length < ct)
    let idle := left.filter fun β => !((l :: beside).any fun y => !(cols [y] β).isEmpty)
    let whole (β : Nat) : Bool := decide (ct ≤ (cols (l :: before) β).length)
    let blocks := (List.range rt).filter fun β => !(cols [l] β).isEmpty
    64 * (((slotArrays l).map fun r =>
        let own := blocks.filter fun β => arrayFor l β == some r
        mostOpen (own.filter left.contains) whole own).sum
      + if beside.all fun y => decide (l.key < y.key) then idle.length else 0)
  | _ => 64 * min (slotArrays l).length (slotBlocks b l).length

/-- G of a quantise-out's target. An FP8 export has no group: 32 stands for it (DESIGN CHOICE, log entry 63). -/
def targetG : OutTarget → Nat
  | .code t => t.g
  | _ => 32

/-- F_k of a stage (Table 5.6). The table has no row for a quantise-out under two-pass: it keeps no row and takes the term of delayed
scale (DESIGN CHOICE, log entry 63). -/
def footprint (x : Part) (img : Image) (b : Binding) (l : Slot) (nR input : Nat) (s : Stage) : Nat :=
  let nI := ((List.range 2).filter fun i => l.units.getLsbD (4 + i)).length
  let nA := (runArrays b l).length
  let rows := rowsOf (outShape img b.kind).1 (slotBlocks b l)
  let lines (n f : Nat) : Nat := ceilDiv (n * f) 512
  match s with
  | .transpose => 64 * input * nI
  | .gather _ n => ceilDiv (4 * n) 512
  | .scale (.vector v _) _ => lines v.len (wideBytes v.fmt)
  | .bias v byRow _ => lines (if byRow then rows else slotCols img b l) (wideBytes v.fmt)
  | .residual w _ _ => 16 * inputBytes w * nA
  | .activation _ (some w) _ => 16 * inputBytes w * nA
  | .norm _ n _ gain off f =>
    nR * lines n (ifBytes f) + (match gain with | some v => lines n (wideBytes v.fmt) | none => 0)
      + (match off with | some v => lines n (wideBytes v.fmt) | none => 0)
  | .quantOut t _ _ pol _ f =>
    if x.policyOf pol = .rowHold then nR * lines (targetExtents t).2 (ifBytes f)
    else 8 * ifBytes f * nA * (ceilDiv (targetG t) 64 + 1)
  | .send .. => 64 * max 1 (b.ports.filter fun q => q / 2 == l.slice).length
  | _ => 0

/-- Lines that a row block's states of a chained product take (R161). -/
def blockState (c : Chained) : Nat := 64 * ceilDiv (4 * (c.d + 2)) 512

/-- Lines of a chained product beside its stages (R161): for each array that runs it the lines of P and the states of the block of which it
folds most spans. -/
def chainedPrint (b : Binding) (l : Slot) (c : Chained) : Nat :=
  let spans (β : Nat) : Nat := ((workUnits l).filter fun u => blockOfUnit b.kind u == β).length
  let most (a : Nat) : Nat := ((slotBlocks b l).filter fun β => arrayFor l β == some a).foldl (fun n β => max n (spans β)) 1
  let p := if c.pFmt = .e2m1 then ceilDiv (64 * 128) 1024 else ceilDiv (64 * 128) 512
  ((runArrays b l).map fun a => 2 * (p + 1) + blockState c * (1 + (ceilLog2 (most a : Rat)).toNat)).sum

/-- Lines of the states from the partition's other slices that a slot holds for merging (R156, R161). -/
def besideAt (img : Image) (a : Attempt) (ls : List Slot) (b : Binding) (l : Slot) (c : Chained) : Nat :=
  ((slotBlocks b l).map (slicesBeside img a ls l c)).sum * blockState c

/-- Lines of some runs. -/
def linesIn (l : List Lines) : Nat := (l.map (·.2.2)).sum

/-- Lines of some runs on a slice. -/
def linesOn (slice : Nat) (l : List Lines) : Nat := ((l.filter fun r => r.1 == slice).map (·.2.2)).sum

/-- IF of the first stage of a copy's chain that has one, quantise-out included. -/
def copyIf (c : Chain) : IFmt :=
  (c.stages.findSome? fun s => match s with | .quantOut _ _ _ _ _ f => some f | s => valueIf s).getD .f32

/-- The terms Σ F_k of a slot of an attempt, each as the region names it with its lines: stages of prologues and chain (Table 5.6), a copy's
input, and what a chained product adds (R161). -/
def slotTerms (x : Part) (img : Image) (a : Attempt) (ls : List Slot) (b : Binding) (l : Slot) : List ((Nat × Nat × Nat) × Nat) :=
  let c := chainOf img (outputOf b.kind).1
  let nR := openRows img a ls b l
  let run (o : Nat) (f : Stage → Nat) (ss : List Stage) : List ((Nat × Nat × Nat) × Nat) :=
    (List.range ss.length).zipWith (fun i s => ((b.key, o, i), f s)) ss
  let pros := [0, 1, 2].flatMap fun o => match operandOf b.kind o with
    | some (.convert w pro _) => run o (footprint x img b l nR (inputBytes w)) pro
    | _ => []
  let input := match b.kind with | .copy _ (some w) _ _ => inputBytes w | _ => 1
  let own := match b.kind with
    | .copy .. => [((b.key, 3, 255), 16 * ifBytes (copyIf c) * (slotArrays l).length)]
    | .chained _ _ _ k _ _ => [((b.key, 3, 255), chainedPrint b l k + besideAt img a ls b l k)]
    | _ => []
  pros ++ run 3 (footprint x img b l nR input) c.stages ++ own

/-- Lines of a stage's term that lie in a region with lines of its own, no more than it has: a vector or an index list in a stage buffer. -/
def placedPart (s : Stage) (term : Nat) : Nat :=
  let vec (v : VecRef) (n : Nat) : Nat := min n (linesIn (vecLines v))
  match s with
  | .scale (.vector v _) _ | .bias v _ _ => vec v term
  | .gather (.buf ..) n => ceilDiv (4 * n) 512
  | .norm _ n _ gain off _ =>
    let part (v : VecRef) : Nat := vec v (ceilDiv (n * wideBytes v.fmt) 512)
    gain.elim 0 part + off.elim 0 part
  | _ => 0

/-- Lines that one slot asks of its slice by itself (R143 without L_sys, L_land and L_psum). -/
def slotLines (x : Part) (img : Image) (a : Attempt) (ls : List Slot) (l : Slot) : Nat :=
  match bindOf img l.bind with
  | none => 0
  | some b =>
    (match b.kind with
      | .product a _ _ _ _ _ _ | .chained a _ _ _ _ _ => linesOn l.slice (tensorLines (operandTensor a))
      | _ => 0) + ((slotTerms x img a ls b l).map (·.2)).sum

/-- Whether a receiving binding is live in a slot: the slot runs beside its own, or the image declares its landing region live there
(R144, R283). -/
def landLive (img : Image) (a : Attempt) (ls : List Slot) (l : Slot) (b : Binding) : Bool :=
  (ls.any fun y => y.bind == b.key && (y.key == l.key || slotsMeet img a l y))
    || img.regions.any fun q => q.live.contains l.key && (bindLands b).any fun r => r.1 == l.slice && linesMeet r (q.slice, q.line, q.lines)

/-- Lines of the STATE packets that a receiving binding holds for merging (R161, R283). -/
def stateLines (img : Image) (seg : Nat) (r : Receive) : Nat :=
  if r.type ≠ tyState then 0
  else (bindsOfSeg img seg).foldl (fun n x => match x.kind with
    | .chained _ _ _ c _ _ => if c.pTid = r.tid then n + r.rowTiles * r.parts * blockState c else n
    | _ => n) 0

/-- The receiving bindings that are live in a slot. -/
def landsAt (img : Image) (a : Attempt) (ls : List Slot) (l : Slot) : List (Binding × Receive) :=
  ((bindsOfSlots img ls).filter (landLive img a ls l)).filterMap fun b => (recvOf b.kind).map fun r => (b, r)

/-- What a receiving binding asks of its slice beside C_land (R283): 64 lines for each port, a dynamic exchange's counts and credits, and
the STATE packets held. -/
def landPrint (d : Dev) (p : PartId) (img : Image) (seg : Nat) (x : Binding × Receive) : Nat :=
  64 * max 1 x.1.ports.length + stateLines img seg x.2
    + if x.2.dynamic then ceilDiv (8 * ((d.grp p x.2.group).elim 0 gN)) 512 else 0

/-- L_land of a slot (R283): what the receiving bindings that are live in it ask of its slice. -/
def landAt (d : Dev) (p : PartId) (img : Image) (seg : Nat) (a : Attempt) (ls : List Slot) (l : Slot) : Nat :=
  ((landsAt img a ls l).map fun x => linesOn l.slice (bindLands x.1) + if x.2.slice = l.slice then landPrint d p img seg x else 0).sum

/-- Lines of the P128 tiles held for reduction in a slot: of a product's or its own region of partial sums, from the slot that writes them to
the end of the slot whose product takes them, and of a receiving binding, once it is live no longer, to that end (R108, R114, R283). -/
def psumRuns (img : Image) (a : Attempt) (ls : List Slot) (l : Slot) : List Lines :=
  let slots (b : Binding) : List Slot := ls.filter fun y => y.bind == b.key
  let left (b : Binding) : Bool := (slots b).any fun y => decide (a.startOf img l < a.endOf img y)
  let taken (b : Binding) : Bool := (bindsOfSlots img ls).any fun o => (summands img o [b]).isEmpty == false && isProduct o.kind && left o
  let begun (b : Binding) : List Slot := (slots b).filter fun y => decide (a.startOf img y < a.endOf img l)
  (bindsOfSlots img ls).flatMap fun b => match recvOf b.kind with
    | some r => if r.type = tyTileP128 && !landLive img a ls l b && !(begun b).isEmpty && taken b then bindLands b else []
    | none => if isProduct b.kind && (left b || taken b) then sumWrites b ((begun b).flatMap workUnits) else []

/-- L of R143 at a slot of an attempt: L_sys, what the slots of its slice that run with it ask, L_land and L_psum. -/
def linesAt (d : Dev) (p : PartId) (img : Image) (seg : Nat) (a : Attempt) (ls : List Slot) (l : Slot) : Nat :=
  let beside := ls.filter fun y => y.slice == l.slice && (y.key == l.key || slotsMeet img a l y)
  512 + (beside.map (slotLines (d.part p) img a ls)).sum + landAt d p img seg a ls l + linesOn l.slice (psumRuns img a ls l)

/-- Whether a run of lines lies in a declared region that is live in a slot (R144). -/
def declared (img : Image) (slot : Nat) (r : Lines) : Bool :=
  r.2.2 == 0 || img.regions.any fun q => q.slice == r.1 && decide (q.line ≤ r.2.1) && decide (r.2.1 + r.2.2 ≤ q.line + q.lines) && q.live.contains slot

/-- Whether a declared region serves a term of a slot, is live in it and is no smaller (R144). -/
def termDeclared (img : Image) (l : Slot) (t : (Nat × Nat × Nat) × Nat) : Bool :=
  t.2 == 0 || img.regions.any fun q => q.term == some t.1 && q.slice == l.slice && q.live.contains l.key && decide (t.2 ≤ q.lines)

/-- Whether every term of a slot of an attempt lies in declared regions that are live in the slot and no smaller (R144): those with lines of
their own where these lie, the others in a region that serves the term. L_sys is the engine's own and needs no region (DESIGN CHOICE, log
entry 63). -/
def termsDeclared (d : Dev) (p : PartId) (img : Image) (seg : Nat) (a : Attempt) (ls : List Slot) (l : Slot) : Bool :=
  let ofSlot : Bool := match bindOf img l.bind with
    | none => true
    | some b =>
      let stage (id : Nat × Nat × Nat) : Option Stage :=
        if id.2.2 = 255 then none
        else (match id.2.1, operandOf b.kind id.2.1 with
          | 3, _ => (chainOf img (outputOf b.kind).1).stages
          | _, some (.convert _ pro _) => pro
          | _, _ => [])[id.2.2]?
      (slotTerms (d.part p) img a ls b l).all fun t => termDeclared img l (t.1, t.2 - (stage t.1).elim 0 (placedPart · t.2))
  let here (rs : List Lines) : Bool := (rs.filter fun r => r.1 == l.slice).all (declared img l.key)
  ofSlot && here (psumRuns img a ls l) && (landsAt img a ls l).all fun x =>
    here (bindLands x.1) && (x.2.slice != l.slice || termDeclared img l ((x.1.key, 3, 254), landPrint d p img seg x))

/-- Whether two regions are live at one time: in one slot, or in slots that overlap in some attempt. -/
def liveTogether (img : Image) (q o : Region) : Bool :=
  q.live.any fun x => o.live.any fun y => x == y || img.segments.any fun g => (trials img g.key).any fun a =>
    let ls := trialSlots img g.key a
    ls.any fun l => l.key == x && ls.any fun m => m.key == y && slotsMeet img a l m

/-- A declared region: within the slice, and apart from every other that is live with it. -/
def regionOk (img : Image) (size : Nat) (q : Region) : Bool :=
  decide (q.slice < size) && decide (q.line + q.lines ≤ Config.linesPerSlice)
    && img.regions.all fun o => o.key == q.key || !(linesMeet (q.slice, q.line, q.lines) (o.slice, o.line, o.lines) && liveTogether img q o)

/-- Whether a binding places its P128 tiles apart from one another (R108). -/
def tilesApart (b : Binding) : Bool :=
  (List.range b.tiles.length).all fun i => (List.range i).all fun j =>
    decide (b.tiles.getD j 0 + 128 ≤ b.tiles.getD i 0) || decide (b.tiles.getD i 0 + 128 ≤ b.tiles.getD j 0)

/-- Lines a slot's prologue stages read. -/
def prologueReads (img : Image) (l : Slot) : List Lines :=
  match bindOf img l.bind with
  | some b => (prologues b.kind).flatMap (·.flatMap stageReads)
      ++ ((chainOf img (outputOf b.kind).1).stages.filter fun s => stageRank s == some 0).flatMap stageReads
  | none => []

/-- Order 18. -/
def bufferCheck (d : Dev) (p : PartId) (img : Image) : Option Reject :=
  let x := d.part p
  firstFail
    [culprit 0x0C 10 ((img.regions.filter fun q => !regionOk img x.cfg.size q).map (·.key)),
     culprit 0x0C 2 ((img.slots.filter fun l => !(slotReads img l ++ slotWrites img l).all (declared img l.key)).map (·.key)),
     culprit 0x0C 2 (img.segments.flatMap fun g => (trials img g.key).flatMap fun a =>
       let ls := trialSlots img g.key a
       (ls.filter fun l => !termsDeclared d p img g.key a ls l).map (·.key)),
     culprit 0x0C 4 ((img.bindings.filter fun b => !tilesApart b).map (·.key)),
     culprit 0x0C 2 ((img.slots.filter fun l => runsMeet (prologueReads img l) (slotWrites img l)).map (·.key)),
     culprit 0x0C 2 (img.segments.flatMap fun g => (trials img g.key).flatMap fun a =>
       let ls := trialSlots img g.key a
       (ls.filter fun l => decide (Config.linesPerSlice < linesAt d p img g.key a ls l)).map (·.key))]

/-! ## The whole check -/

/-- Orders 6 to 18 of Table 9.9 on the records of an image. -/
def contentCheck (d : Dev) (p : PartId) (img : Image) : Option Reject :=
  let x := d.part p
  let lgr := x.cfg.lgrCount
  firstFail [codebookCheck img, bindingCheck d p img, chainCheck lgr img, streamCheck x.cfg.size img, routeCheck img x.cfg.size,
             fencedCheck d x img, codeAloneCheck img, modeCheck x.mode img, countingCheck lgr img, slotCheck d x img,
             variantCheck lgr img, bufferCheck d p img]

/-- Orders 2 to 5 of Table 9.9 on the `len` bytes that the loader has read, with a memory error on any read (R422). -/
def formCheck (d : Dev) (p : PartId) (img : Image) (patch : Bool) (len : Nat) (memErr : Bool) : Option Reject :=
  let x := d.part p
  firstFail [need 0x01 (!memErr), headerCheck img patch x.cfg.size len, digestCheck img,
             need 0x03 (decide (img.header.fwMin ≤ d.stk.activeBank.version.toNat)), sectionCheck img]

/-- A full image under Table 9.9, order 1 apart (R259). -/
def fullCheck (d : Dev) (p : PartId) (img : Image) (len : Nat) (memErr : Bool) : Option Reject :=
  let img := readImage img
  firstFail [formCheck d p img false len memErr, headCheck img, fieldCheck img (d.part p).cfg.size, contentCheck d p img,
             recomputeCheck img.header (imageRecords img)]

/-- A patch under Table 9.9, and the image that would result (R262). -/
def patchCheck (d : Dev) (p : PartId) (base patch : Image) (memErr : Bool) : Option Reject :=
  let patch := readImage patch
  let img := patchImage base patch
  let streams := patch.sections.any fun s => s.type == 8
  firstFail [formCheck d p patch true (d.part p).ldr.len.toNat memErr,
             need 0x12 (patch.base == base.header.imageDigest && (!streams || base.streams.all patch.streams.contains)),
             headCheck patch, fieldCheck img (d.part p).cfg.size, contentCheck d p img,
             recomputeCheck patch.header (imageRecords img)]

end Sys2Proof.Machine
end

