-- ==== Sys2Proof/Machine/Load.lean ====
section
/-! DEFINITION. Loading: LDR_CTRL.GO with a full image or a patch, installing (R177, R259 to R262, R422), WITHDRAW. -/

namespace Sys2Proof.Machine

/-- Loader registers of a partition changed. -/
def Dev.modLdr (d : Dev) (p : PartId) (f : Ldr → Ldr) : Dev := d.modPart p fun x => { x with ldr := f x.ldr }

/-- A load or staging rejected (R259, Table 16.6): one DRAUGHT_REJECT, RESULT 3 and its syndrome in REJECT. -/
def Dev.loadRejected (d : Dev) (t : Nat) (p : PartId) (r : Reject) : Dev :=
  (d.reject t p r.1 r.2.1 r.2.2).modLdr p fun l =>
    { l with result := 3, reject := BitVec.ofNat 48 (r.1 + r.2.1 * 2 ^ 8 + r.2.2 * 2 ^ 16) }

/-- A declared stream at its starting point (R176). -/
def freshStream (id : BitVec 32) : Stream := ⟨id, streamStart id, streamStart id⟩

/-- An image put in place of the partition's (R117, R176, R177, R261): its streams at their starting points, the fingerprint
recomputed, the first load locking the RWL fields (R435) and bringing a written seed into force (R169). -/
def Dev.install (d : Dev) (p : PartId) (img : Image) : Dev :=
  (d.modPart p fun x =>
    let seed : Option (BitVec 128) := if x.ldr.locked then none else x.rng.pending
    { x with
      ldr := { x.ldr with image := some img, staged := none, patchFrom := none, locked := true },
      att := Attempt.none_, held := Held.reset,
      rng := { x.rng with streams := img.streams.map freshStream, embers := [],
                          seed := seed.getD x.rng.seed, pending := if seed.isSome then none else x.rng.pending,
                          ripe := x.rng.ripe && !seed.isSome },
      tel := { x.tel with slack := [] } }).refingerprint p

/-- LOAD_IMAGE (R260, R261 step 2, R422): LDR_CTRL.GO with a full image, whose lines the loader begins to read. -/
def execLoadImage (t : Tick) (v : Requester) (s : State) : Host.Outcome State Fault Refusal :=
  onDev t s fun n d => serve v 0 d fun d =>
    let p := d.reqPart v
    let x := d.part p
    let d := d.respond 0 0
    if x.ldr.result = 1 ∨ x.cfg.state ≠ .assigned then d.reqIgnored v
    else if x.sch.state = .empty ∨ x.sch.state = .ready ∨ x.sch.state = .done then
      ((d.modLdr p fun l => { l with result := 1, asked := 0, lines := [], readErr := false }).modSch p fun h =>
        { h with before := h.state, state := .loading }).loaderReads p
    else d.loadRejected n p (0x13, 0, 0)

/-- LOAD_COMPLETE (R259, R261 steps 3 and 4, R422), once every line has come: the image installed and READY, or the state before and a
record. The bytes are those read from memory; the command gives the reading of the records that have no layout (log entry 5). -/
def execLoadComplete (t : Tick) (p : PartId) (img : Image) (memErr : Bool) (s : State) : Host.Outcome State Fault Refusal :=
  onAll t s fun n s =>
    let x := s.2.part p
    let img := x.ldr.loaded img
    let done (d : Dev) : Dev := d.modLdr p fun l => { l with lines := [], asked := 0 }
    if x.sch.state ≠ .loading ∨ x.ldr.wholeRead = false then s
    else match fullCheck s.2 p img x.ldr.len.toNat (memErr || x.ldr.readErr) with
      | some r => (s.1, done ((s.2.loadRejected n p r).modSch p fun h => { h with state := h.before }))
      | none =>
        let d := done ((s.2.install p (readImage img)).modLdr p fun l => { l with result := 2 })
        (sbClearValid s.1 x.cfg.first x.cfg.size,
         d.modPart p fun x => { x with sch := { x.sch with state := .ready, timed := false },
                                       agree := if x.sch.before = .done then Agree.none_ else x.agree })

/-- STAGE_PATCH (R254, R262, R263): LDR_CTRL.GO with a patch; it is checked with the loaded image, staged, and REPLACE is sent.
The command carries what the loader's reads of the patch brought (log entry 5). -/
def execStagePatch (t : Tick) (v : Requester) (img : Image) (memErr : Bool) (s : State) : Host.Outcome State Fault Refusal :=
  onDev t s fun n d => serve v 0 d fun d =>
    let p := d.reqPart v
    let x := d.part p
    let checked := x.ldr.image.bind fun base => patchCheck d p base img memErr
    let d := d.respond 0 0
    if x.ldr.result = 1 ∨ x.cfg.state ≠ .assigned then d.reqIgnored v
    else match x.ldr.image with
      | some _ =>
        if x.sch.state = .ready ∨ x.sch.state = .running ∨ x.sch.state = .held then
          match checked with
          | some r => d.loadRejected n p r
          | none => (d.modLdr p fun l => { l with staged := some (readImage img), patchFrom := none, result := 2 }).sendReplace n p
        else d.loadRejected n p (0x13, 0, 0)
      | none => d.loadRejected n p (0x13, 0, 0)

/-- WITHDRAW (R262, R422): the staged patch is discarded. -/
def execWithdraw (t : Tick) (v : Requester) (s : State) : Host.Outcome State Fault Refusal :=
  onDev t s fun _ d => serve v 0 d fun d =>
    let p := d.reqPart v
    let x := d.part p
    let d := d.respond 0 0
    if x.ldr.result = 1 then d.reqIgnored v
    else d.modPart p fun x => { x with ldr := { x.ldr with staged := none, patchFrom := none },
                                       agree := { x.agree with replaces := x.agree.replaces.filter fun r => r.1 != x.self } }

end Sys2Proof.Machine
end

