-- ==== Sys2Proof/Machine/Ctx.lean ====
section
/-! DEFINITION. Context control (R365 to R372): registering, saving, sealing, restoring, and the switch between contexts. -/

namespace Sys2Proof.Machine

/-- A descriptor kept as the engine has read it. -/
def keepDesc (c : Ctx) (i : Nat) (ds : Descriptor) : Ctx := { c with descs := tabPut c.descs i ds }

/-- The STEP of a written slot of a context noted (R365). -/
def noteSlot (c : Ctx) (i slot : Nat) (step : Option Nat) : Ctx :=
  let s := tabGet (none, none) c.slotSteps i
  { c with slotSteps := tabSet (none, none) c.slotSteps i (if slot = 0 then (step, s.2) else (s.1, step)) }

/-- A write of PART_CTX_CTRL with an OP (Table 13.10): INDEX is stored; the OP itself is write-only (R11). -/
def Dev.ctxOp (d : Dev) (v : Requester) (index : Fin 8) : Dev :=
  (d.respond 0 0).modCtx (d.reqPart v) fun c => { c with index := index.val }

/-- A context operation that fails: RESULT 3. -/
def Dev.ctxFailed (d : Dev) (p : PartId) : Dev := d.modCtx p fun c => { c with result := 3 }

/-! ## Registering (R370) -/

/-- Bytes of a context image at full size (R363, R370): every entry of the range and every declared stream. -/
def ctxFull (lgrCount streams : Nat) : Nat := 32 + 256 + 64 * lgrCount + 32 * streams + 16

/-- Bound of a save at full size, in ns (R365). -/
def saveBound (lgrCount : Nat) (img : Image) : Rat :=
  20000 + (lgrCount : Rat) * 1000 / 64 + (ctxFull lgrCount img.streams.length : Rat) / 4

/-- Bounds of an install and a restore at full size, in ns (R261, R368). -/
def enterBound (lgrCount : Nat) (img : Image) : Rat :=
  50000 + (img.raw.length : Rat) / 4 + (img.heads.length : Rat) * 2000 / 1024
    + 20000 + (lgrCount : Rat) * 1000 / 64 + (ctxFull lgrCount img.streams.length : Rat) / 2

/-- Whether a switch from one image to another fits in its time (R370). -/
def switchFits (lgrCount : Nat) (out in_ : Image) : Bool := decide (131000 + saveBound lgrCount out + enterBound lgrCount in_ ≤ 3000000)

/-- Why a context cannot be registered, none when it can (R259, R370). -/
def Dev.registerCheck (d : Dev) (p : PartId) (i : Nat) (ds : Descriptor) (img : Option Image) : Option Reject :=
  let x := d.part p
  match img with
  | none => some (0x01, 0, 0)
  | some img =>
    let img := readImage img
    firstFail
      [need 0x05 (ds.valid && ds.zerosOk && decide (1 ≤ ds.quantum)),
       fullCheck d p img ds.imageLen false,
       culprit 0x0D 4 ((img.bindings.filter fun b => (bindGroups img b).any fun h => match d.grp p h with
         | some g => decide (1 < gN g)
         | none => true).map (·.key)),
       need 0x0E (decide (ctxFull x.cfg.lgrCount img.streams.length ≤ ds.slotLen)),
       need 0x0E (x.ctx.images.all fun y => y.1 == i || !x.ctx.reg.getLsbD y.1
         || (switchFits x.cfg.lgrCount y.2 img && switchFits x.cfg.lgrCount img y.2))]

/-- CTX_REGISTER: OP 1 (R370). -/
def execCtxRegister (t : Tick) (v : Requester) (index : Fin 8) (ds : Descriptor) (img : Option Image) (s : State) :
    Host.Outcome State Fault Refusal :=
  onDev t s fun n d => serve v 0 d fun d =>
    let p := d.reqPart v
    match d.registerCheck p index.val ds img with
    | some r => ((d.ctxOp v index).reject n p r.1 r.2.1 r.2.2).ctxFailed p
    | none => (d.ctxOp v index).modCtx p fun c =>
        let c := keepDesc c index.val ds
        { c with reg := c.reg ||| (1#8 <<< index.val), images := match img with | some k => tabPut c.images index.val (readImage k) | none => c.images,
                 leaving := c.leaving.filter (· != index.val), result := 2 }

/-- CTX_DEREGISTER: OP 2 (R370): at the context's next switch, after a final save. -/
def execCtxDeregister (t : Tick) (v : Requester) (index : Fin 8) (s : State) : Host.Outcome State Fault Refusal :=
  onDev t s fun _ d => serve v 0 d fun d =>
    let p := d.reqPart v
    let d := d.ctxOp v index
    d.modCtx p fun c =>
      if c.reg.getLsbD index.val then { c with leaving := (c.leaving.filter (· != index.val)) ++ [index.val], result := 2 } else c

/-! ## Saving (R365 to R367) -/

/-- CTX_SAVE: OP 3 (R365): a save at the next commit decision. -/
def execCtxSave (t : Tick) (v : Requester) (index : Fin 8) (ds : Descriptor) (s : State) : Host.Outcome State Fault Refusal :=
  onDev t s fun _ d => serve v 0 d fun d =>
    let p := d.reqPart v
    (d.ctxOp v index).modCtx p fun c => { keepDesc c index.val ds with request := true }

/-- CTX_SEAL: OP 5 (R367): a body that passes is sealed in place and the hold released. Without the hold the operation is ignored. The slot
is the one that R365 chooses, which the body in clear makes invalid. -/
def execCtxSeal (t : Tick) (v : Requester) (index : Fin 8) (ds : Descriptor) (slots : CtxSlots) (s : State) :
    Host.Outcome State Fault Refusal :=
  onDev t s fun _ d => serve v 0 d fun d =>
    let p := d.reqPart v
    let x := d.part p
    let d := d.ctxOp v index
    if !x.sch.holds.contains .seal then d
    else
      let slot := d.slotFor p ds slots.slot0 slots.slot1
      let at_ := if slot = 0 then slots.slot0 else slots.slot1
      let body := at_.body.take (fieldLE at_.header 8 4)
      let d := d.modCtx p fun c => keepDesc c index.val ds
      if (bodyCheck body.length ds.slotLen x.cfg.lgrCount body).isSome || !d.maySeal p ds.key then d.ctxFailed p
      else
        let step := fieldLE body 48 8
        let img := sealBody (d.key p ds.key) body
        let base := slotAddr ds slot
        let d := (d.bumpNonce p ds.key).modCtx p fun c =>
          let c := noteSlot c index.val slot (some step)
          { c with savedStep := BitVec.ofNat 32 step, result := 2, request := false, retry := none,
                   written := some ⟨index.val, slot, BitVec.ofNat 64 step, img⟩,
                   writes := [⟨base + 32, img.body⟩, ⟨base, img.header⟩, ⟨base + 32 + img.body.length, img.tag⟩] }
        d.clearHolds p fun c => c == .seal

/-! ## Switching (R371, R372) -/

/-- Registered contexts after the active one, in rotation (R371). -/
def Ctx.rotation (c : Ctx) : List Nat := ((List.range 7).map fun k => (c.active + 1 + k) % 8).filter fun i => c.reg.getLsbD i

/-- Whether a context's image is the registered one and its bytes have their digest (R371). -/
def Ctx.imageSame (c : Ctx) (k : NextCtx) : Bool :=
  sha384 (rawBlank k.image.raw) == (readHeader k.image.raw).imageDigest
    && match c.images.lookup k.index with
      | some r => r.header.imageDigest == (readHeader k.image.raw).imageDigest
      | none => true

/-- The first context of the rotation whose image can be installed; each one dropped before it has its DRAUGHT_REJECT. -/
def Dev.nextContext (d : Dev) (t : Nat) (p : PartId) (next : List NextCtx) : List Nat → Dev × Option NextCtx
  | [] => (d, none)
  | i :: l =>
    match next.find? fun k => k.index == i with
    | none => d.nextContext t p next l
    | some k =>
      if (d.part p).ctx.imageSame k then (d, some k)
      else ((d.reject t p 0x02 0 0).modCtx p fun c => { c with reg := c.reg &&& ~~~(1#8 <<< i) }).nextContext t p next l

/-- A context that starts afresh (R371): step 0 in SEG0 with its SEED and a cleared ledger range. -/
def Dev.freshContext (d : Dev) (p : PartId) (ds : Descriptor) : Dev :=
  let c := (d.part p).cfg
  ({ d with ledger := tabClear c.lgrBase c.lgrCount d.ledger }.modPart p fun x =>
    { x with sch := { x.sch with step := 0, seg := BitVec.ofNat 32 ds.seg0, commitFirst := false },
             rng := { x.rng with seed := ds.seed, pending := none, ripe := false } }).refingerprint p

/-- The incoming context installed and restored (R371 steps 2 to 4); its attempt is anchored without an increment. -/
def Dev.enterContext (d : Dev) (p : PartId) (k : NextCtx) : Dev :=
  let d := d.install p (readImage k.image)
  let a := d.openSlot p k.desc k.slot0
  let b := d.openSlot p k.desc k.slot1
  let d := d.modCtx p fun c => noteSlot (noteSlot (keepDesc c k.index k.desc) k.index 0 (slotStep a)) k.index 1 (slotStep b)
  let d := match newerSlot a b with
    | some r => d.restoreBody p r.2
    | none => d.freshContext p k.desc
  (d.modCtx p fun c => { c with active := k.index, turn := 0 }).modSch p fun h => { h with first := true, outcomeReplay := false }

/-- The switch at the end of a turn (R371): the outgoing context leaves if OP 2 asked for it, and the next one enters. Where none can, the
active one goes on, or its program, if that is over, leaves the partition DONE. -/
def Dev.switchContext (d : Dev) (t : Nat) (p : PartId) (next : List NextCtx) : Dev × Bool :=
  let old := (d.part p).ctx
  let r := d.nextContext t p next old.rotation
  let d := r.1.modCtx p fun c => { c with switching := false, turn := 0 }
  match r.2 with
  | some k =>
    let d := d.modCtx p fun c =>
      { c with leaving := c.leaving.filter (· != old.active),
               reg := if old.leaving.contains old.active then c.reg &&& ~~~(1#8 <<< old.active) else c.reg }
    (d.enterContext p k, true)
  | none => (if (r.1.part p).att.live then d else d.programOver p, false)

/-- The end of a hardware save (R365, R366): a key that may not seal fails it before any write; else the image goes to the chosen slot in
three ordered writes, and an error answered to one of them stops the rest. -/
def Dev.saveEnds (d : Dev) (t : Nat) (p : PartId) (w : SaveJob) (e : SaveEnd) (ds : Descriptor) (slot0 slot1 : CtxImage) : Dev :=
  let slot := d.slotFor p ds slot0 slot1
  let d := d.modCtx p fun c => keepDesc c w.index ds
  if d.maySeal p ds.key then
    let img := sealBody (d.key p ds.key) w.body
    let writes := saveWrites (slotAddr ds slot) img
    let d := d.bumpNonce p ds.key
    match e with
    | .done => d.modCtx p fun c =>
        { noteSlot c w.index slot (some w.step.toNat) with
          savedStep := w.step.setWidth 32, result := 2, retry := none, saving := none, written := some ⟨w.index, slot, w.step, img⟩, writes := writes }
    | .memError k =>
      (d.modCtx p fun c => { noteSlot c w.index slot none with writes := writes.take (k.val + 1) }).saveFailed t p slot 0x01
  else d.saveFailed t p slot 0x0E

/-- CONTEXT_SAVE_COMPLETE (R365, R366, R371): the slot is written, or the save has failed; at the end of a turn the switch follows, in
host-assisted mode after the seal. `next` is what memory holds of the contexts that may be switched to. -/
def execContextSaveComplete (t : Tick) (p : PartId) (e : SaveFound) (next : List NextCtx) (s : State) :
    Host.Outcome State Fault Refusal :=
  onAll t s fun n s =>
    let x := s.2.part p
    let d := match x.ctx.saving with
      | some w => s.2.saveEnds n p w e.ended e.desc e.slots.slot0 e.slots.slot1
      | none => s.2
    let ends : Bool := !x.att.live || (x.att.final && (x.ctx.saving.isSome || (x.mode.getLsbD 8 && !x.sch.holds.contains .seal)))
    if ends ∧ (if x.att.live then (d.part p).ctx.switching else x.ctx.switching) then
      let q := d.switchContext n p next
      (if q.2 then sbClearValid s.1 x.cfg.first x.cfg.size else s.1, q.1)
    else (s.1, d)

/-! ## Restoring (R368, R369) -/

/-- One DRAUGHT_REJECT of a restore (R368). -/
def Dev.restoreRejected (d : Dev) (t : Nat) (p : PartId) (slot reason detail : Nat) : Dev :=
  (d.report t { code := 0x11, severity := .info, unit := sharedUnit 1, part := some p,
                synd := reason + (0xC0 + slot) * 2 ^ 8 + detail * 2 ^ 16 }).modCtx p fun c => { c with result := 3 }

/-- CTX_RESTORE: OP 4 (R368, row 1 of Table 13.12). One that finds a restore running fails by itself and leaves that one to end. -/
def execCtxRestore (t : Tick) (v : Requester) (index : Fin 8) (ds : Descriptor) (s : State) : Host.Outcome State Fault Refusal :=
  onDev t s fun n d => serve v 0 d fun d =>
    let p := d.reqPart v
    let x := d.part p
    let d := d.ctxOp v index
    if x.sch.state ≠ .ready ∨ x.ctx.saving.isSome ∨ x.ctx.restoring.isSome then d.restoreRejected n p 0 0x13 0
    else d.modCtx p fun c => { keepDesc c index.val ds with restoring := some index.val, result := 1 }

/-- CTX_RESTORE_COMPLETE (R368, R369): the newer valid slot is written, with EPOCH + 1 as the epoch start value; when neither passes,
one record for the newer slot. -/
def execCtxRestoreComplete (t : Tick) (p : PartId) (slot0 slot1 : CtxImage) (s : State) : Host.Outcome State Fault Refusal :=
  onDev t s fun n d =>
    let x := d.part p
    match x.ctx.restoring with
    | none => d
    | some i =>
      match x.ctx.descs.lookup i with
      | none => d
      | some ds =>
        let a := d.openSlot p ds slot0
        let b := d.openSlot p ds slot1
        let d := d.modCtx p fun c => noteSlot (noteSlot c i 0 (slotStep a)) i 1 (slotStep b)
        match newerSlot a b with
        | some r =>
          ((d.restoreBody p r.2).modSch p fun h => { h with epoch := BitVec.ofNat 64 (fieldLE r.2.body 56 8 + 1) }).modCtx p fun c =>
            { c with active := i, result := 2, restoring := none }
        | none =>
          let slot := if d.claimedStep p ds slot0 < d.claimedStep p ds slot1 then 1 else 0
          match (if slot = 0 then a else b) with
          | .inl e => (d.restoreRejected n p slot e.1 e.2).modCtx p fun c => { c with restoring := none }
          | .inr _ => d

end Sys2Proof.Machine
end

