-- ==== Sys2Proof/Machine/Sec.lean ====
section
/-! DEFINITION. What the root of trust does through SEC: the partition table (R342 to R347, R387, R420), fences (R381 to
R386), stoker firmware (R27, R314, R356, R357, R432), keys (R355, R433); and the TEST wrapper (R410, R411). -/

namespace Sys2Proof.Machine

/-- Engine states in which the root of trust assigns partitions, keys and fences (Table 14.2). -/
def Dev.inService (d : Dev) : Bool := d.eng.phase == .ready

/-- A SEC request done: status 0. -/
def Dev.done (d : Dev) : Dev := d.respond 0 0
/-- A SEC request ignored or refused: status 1 (R420, R432). -/
def Dev.refuse (d : Dev) : Dev := d.respond 0 1

/-! ## Partitions -/

/-- Two ranges without a common entry. -/
def disjoint (b1 n1 b2 n2 : Nat) : Bool := n1 == 0 || n2 == 0 || decide (b1 + n1 ≤ b2) || decide (b2 + n2 ≤ b1)

/-- Whether the shape of an entry meets R31. -/
def PCfg.shapeOk (c : PCfg) : Bool := [1, 2, 4, 8, 16].contains c.size && c.first % c.size == 0 && decide (c.first + c.size ≤ 16)

/-- Whether the ranges of an entry lie within Table 0.3. -/
def PCfg.rangesOk (c : PCfg) : Bool :=
  decide (c.lgrBase + c.lgrCount ≤ Config.ledgerEntries) && decide (c.membBase + c.membCount ≤ Config.memberEntries)
    && decide (c.grpBase + c.grpCount ≤ Config.groupEntries) && decide (c.keyBase + c.keyCount ≤ Config.keySlots)

/-- Whether two entries share no ledger entry, member entry, group entry or key slot (R24). -/
def PCfg.apart (a b : PCfg) : Bool :=
  disjoint a.lgrBase a.lgrCount b.lgrBase b.lgrCount && disjoint a.membBase a.membCount b.membBase b.membCount
    && disjoint a.grpBase a.grpCount b.grpBase b.grpCount && disjoint a.keyBase a.keyCount b.keyBase b.keyCount

/-- Whether partition p may be assigned (R343). -/
def Dev.assignable (d : Dev) (p : PartId) : Bool :=
  let c := (d.part p).cfg
  c.state == .free && c.shapeOk && c.rangesOk
    && ((List.range c.size).all fun i => decide (sliceCond (d.fence (c.first + i)) < 2) && (d.ownerOf (c.first + i)).isNone)
    && allParts.all fun q => q == p || (d.part q).cfg.state == .free || c.apart (d.part q).cfg

/-- PARTITION_ASSIGN (R343, Table 16.4). -/
def execPartitionAssign (t : Tick) (p : PartId) (s : State) : Host.Outcome State Fault Refusal :=
  onDev t s fun _ d => serve .sec 0 d fun d =>
    if d.inService ∧ d.assignable p then
      let c := (d.part p).cfg
      let d := (List.range c.size).foldl (fun (d : Dev) i =>
        { d with slices := tabMod SliceSt.reset d.slices (c.first + i) fun x => { x with counters := [], residueUnits := [] } }) d
      (d.setPart p { Part.reset with cfg := { (d.part p).cfg with state := .assigned, resetDone := false, dbgSeen := false } }).done
    else d.refuse

/-- PARTITION_RESET (R387 steps 1 and 2): launches are suppressed, slots aborted, sends cut and the flue held idle. Reads
and writes on their way are dropped when they answer; writes not yet issued are not issued. -/
def execPartitionReset (t : Tick) (p : PartId) (s : State) : Host.Outcome State Fault Refusal :=
  onDev t s fun n d => serve .sec 0 d fun d =>
    if d.inService ∧ (d.part p).cfg.state = .assigned then
      let d := d.haltPart n p
      let d := d.modPart p fun x =>
        { x with cfg := { x.cfg with state := .resetting, resetDone := false }, att := .none_,
                 ctx := { x.ctx with saving := none, switching := false, restoring := none }, lgrUpdate := none }
      let reads := d.memReads.map fun (r : MemRead) => if r.part = p then { r with dropped := true } else r
      let issued := d.memWrites.filter fun w => !(w.part == p && w.id.isNone)
      let writes := issued.map fun (w : MemWrite) => if w.part = p then { w with dropped := true } else w
      Dev.done { d with memReads := reads, memWrites := writes }
    else d.refuse

/-- Member and group entries of a partition's ranges at their reset values, VALID clear among them (R346, R419). -/
def Dev.clearTables (d : Dev) (c : PCfg) : Dev :=
  { d with members := tabClear c.membBase c.membCount d.members, groups := tabClear c.grpBase c.grpCount d.groups }

/-- Telemetry as a partition reset leaves it (R419): the registers at their reset values, the counters as they stand until the next
assignment (R343). -/
def Tel.cleared (x : Tel) : Tel := { Tel.reset with counters := x.counters }

/-- What a partition reset clears in the units (R346). The records still queued go to the operator only. -/
def Dev.clearPart (d : Dev) (p : PartId) : Dev :=
  let x := d.part p
  let c := x.cfg
  let d := (d.clearTables c).dropStaged p
  let d := { d with
    ledger := tabClear c.lgrBase c.lgrCount d.ledger,
    ledgerBad := tabClear c.lgrBase c.lgrCount d.ledgerBad,
    keys := tabClear c.keyBase c.keyCount d.keys,
    arrays := tabClear (4 * c.first) (4 * c.size) d.arrays,
    stations := tabClear (2 * c.first) (2 * c.size) d.stations,
    rpt := { d.rpt with queue := d.rpt.queue.map fun (r : Rec) => if r.part = some p then { r with opOnly := true } else r } }
  d.setPart p { Part.reset with cfg := { c with resetDone := true, dbgSeen := false }, tel := x.tel.cleared }

/-- PARTITION_RESET_COMPLETE (R387 steps 3 and 4, R346, R405). -/
def execPartitionResetComplete (t : Tick) (p : PartId) (s : State) : Host.Outcome State Fault Refusal :=
  onAll t s fun _ w =>
    let c := (w.2.part p).cfg
    if c.state = .resetting ∧ !c.resetDone ∧ !w.2.memWrites.any (fun y => y.part == p) then
      let d := w.2.clearPart p
      (sbClearValid w.1 c.first c.size, { d with secOut := d.secOut ++ [SecEvent.resetDone p] })
    else w

/-- SCRUB_START (R347, Table 16.4): one status record, then no other names the partition. -/
def execScrubStart (t : Tick) (p : PartId) (s : State) : Host.Outcome State Fault Refusal :=
  onDev t s fun n d => serve .sec 0 d fun d =>
    let c := (d.part p).cfg
    if c.state = .resetting then
      if c.resetDone then
        let d := d.raise n { code := 0, severity := .info, unit := sharedUnit 0xA, part := some p,
                             synd := 1 + c.first * 2 ^ 8 + c.size * 2 ^ 16 }
        (d.modPart p fun x => { x with cfg := { x.cfg with state := .scrubbing } }).done
      else d.done
    else d.refuse

/-- PARTITION_FREE (R420, Tables 13.3 and 16.4): SIZE and FIRST become 0. The arrays of slices that belong to no partition stay at the G1
setpoint (R328). -/
def execPartitionFree (t : Tick) (p : PartId) (s : State) : Host.Outcome State Fault Refusal :=
  onDev t s fun _ d => serve .sec 0 d fun d =>
    let c := (d.part p).cfg
    if c.state = .scrubbing ∨ (c.state = .resetting ∧ c.resetDone) then
      (d.modPart p fun x => { x with cfg := { x.cfg with state := .free, resetDone := false, size := 0, first := 0 } }).regulate.done
    else if c.state = .resetting then d.done
    else d.refuse

/-! ## Fences -/

/-- A record raised again for a partition as partition-fatal (R384). -/
def Dev.reraise (d : Dev) (t : Nat) (p : PartId) (r : Option Rec) : Dev :=
  match r with
  | some r => d.report t { code := r.code, severity := .partFatal, unit := r.unit, part := some p, synd := r.syndrome.toNat,
                           slot := r.slot, tid := r.tid, tag := r.tag }
  | none => d.haltPart t p

/-- FENCE_CONFIRM (R381 to R386, R328, R338): a write of ENG_FENCEs, taken in INIT too, where the root of trust writes the retained fences
(R385). Bits it leaves clear stay as they are (R385). The domains of fenced
arrays, a whole fenced slice's included, are switched off and lose their state. -/
def execFenceConfirm (t : Tick) (s : SliceId) (data : Word) (st : State) : Host.Outcome State Fault Refusal :=
  onDev t st fun n d =>
    if d.eng.phase = .reset then d.respond 0 2
    else
    let old := d.fence s.val
    let new := old ||| data.setWidth 16
    let met (u : UnitCode) : Bool :=
      unitSlice u == s.val && (match fenceBit u with | some b => new.getLsbD b | none => false)
    let causes := d.eng.fenceReqs.filter fun q => met q.1
    let off := ((List.range 4).filter fun i => sliceCond new == 2 || new.getLsbD i).map (4 * s.val + ·)
    let d : Dev := { d with
      eng := { d.eng with fences := tabSet 0 d.eng.fences s.val new, fenceReqs := d.eng.fenceReqs.filter fun q => !met q.1 },
      arrays := d.arrays.filter fun (x : Nat × ArraySt) => !off.contains x.1,
      pwr := { d.pwr with en := off.foldl (fun e i => e &&& ~~~(BitVec.ofNat 65 (2 ^ i))) d.pwr.en,
                          wasOff := d.pwr.wasOff ++ off.filter fun i => !d.pwr.wasOff.contains i } }
    let d := if sliceCond old ≠ 2 ∧ sliceCond new = 2 then
        match d.ownerOf s.val with
        | some p =>
          if (d.part p).cfg.state = .assigned then
            (d.reraise n p ((causes.findSome? fun q => q.2))).haltPart n p
          else d
        | none => d
      else d
    let d := if d.eng.phase = .ready ∧ !anyService d.eng.fences then d.setPhase .noService 5 else d
    d.done

/-! ## Stoker firmware -/

/-- A firmware bank. -/
def Stk.bank (k : Stk) (b : Fin 2) : Bank := if b.val = 0 then k.bank0 else k.bank1
/-- A firmware bank replaced. -/
def Stk.setBank (k : Stk) (b : Fin 2) (x : Bank) : Stk := if b.val = 0 then { k with bank0 := x } else { k with bank1 := x }
/-- Whether a bank is the active one. -/
def Stk.isActive (k : Stk) (b : Fin 2) : Bool := (b.val == 1) == k.active

/-- SEC_FW_CTRL.BANK as an operation's write leaves it (Table 16.14). -/
def Dev.selBank (d : Dev) (b : Fin 2) : Dev := { d with stk := { d.stk with bankSel := b.val == 1 } }

/-- States in which SEC_FW_CTRL operations act (Table 14.2). -/
def Dev.fwOpen (d : Dev) : Bool :=
  d.eng.phase == .firmware || d.eng.phase == .budget || d.eng.phase == .burn || d.eng.phase == .ready

/-- FW_LOCK (R356): the measurement is recorded and the bank write-locked. -/
def execFwLock (t : Tick) (b : Fin 2) (measurement : List Byte) (s : State) : Host.Outcome State Fault Refusal :=
  onDev t s fun _ d => serve .sec 0 d fun d =>
    if d.fwOpen then
      let d := d.selBank b
      let k := d.stk.bank b
      if k.locked then d.done
      else Dev.done { d with stk := d.stk.setBank b { k with locked := true, measurement := measurement } }
    else d.refuse

/-- FW_CLEAR (R432): the active bank only while the stoker pair is not running. -/
def execFwClear (t : Tick) (b : Fin 2) (s : State) : Host.Outcome State Fault Refusal :=
  onDev t s fun _ d => serve .sec 0 d fun d =>
    let d := if d.fwOpen then d.selBank b else d
    if d.fwOpen ∧ !(d.stk.isActive b && d.stk.running) then Dev.done { d with stk := d.stk.setBank b .reset } else d.refuse

/-- FW_START (R432, R375 step 5). -/
def execFwStart (t : Tick) (s : State) : Host.Outcome State Fault Refusal :=
  onDev t s fun _ d => serve .sec 0 d fun d =>
    if d.eng.phase = .firmware then Dev.done { d with stk := { d.stk with running := true } } else d.refuse

/-- FIRMWARE_ACTIVATION (R357 steps 2 and 3): refused if a partition holds an image whose FW_MIN exceeds the staged
version. -/
def execFirmwareActivation (t : Tick) (s : State) : Host.Outcome State Fault Refusal :=
  onDev t s fun _ d => serve .sec 0 d fun d =>
    let b := d.stk.stagedBank
    let fits (x : Part) : Bool := match x.ldr.image with
      | some img => decide (img.header.fwMin ≤ b.version.toNat)
      | none => true
    if d.inService ∧ b.valid ∧ b.locked ∧ allParts.all (fun p => fits (d.part p)) then
      Dev.done { d with stk := { d.stk with activating := true } }
    else d.refuse

/-- Whether a partition lets the banks swap (R357 step 4, R372, R432): it is held or not RUNNING, and no switch of its contexts is in
progress. -/
def Part.swapReady (x : Part) : Bool := x.cfg.state != .assigned || (x.sch.state != .running && !x.ctx.switching)

/-- FW_SWAP (R357 step 4, R372, R432): the roles swap, the former active bank is cleared and unlocked, the pair restarts. -/
def execFwSwap (t : Tick) (s : State) : Host.Outcome State Fault Refusal :=
  onDev t s fun _ d => serve .sec 0 d fun d =>
    let b := d.stk.stagedBank
    if d.fwOpen ∧ allParts.all (fun p => (d.part p).swapReady) ∧ b.valid ∧ b.locked then
      let k := d.stk
      let k := if k.active then { k with bank1 := .reset } else { k with bank0 := .reset }
      Dev.done { d with stk := { k with active := !k.active, running := false, restarting := true, activating := true, swapping := true } }
    else d.refuse

/-- FW_RESET_RESTART (R314): the pair is reset and restarts once its firmware has been measured again. -/
def execFwResetRestart (t : Tick) (s : State) : Host.Outcome State Fault Refusal :=
  onDev t s fun _ d => serve .sec 0 d fun d =>
    if d.fwOpen then Dev.done { d with stk := { d.stk with running := false, restarting := true } } else d.refuse

/-- STOKER_LOCKSTEP (R27, R314): found by compare. -/
def execStokerLockstep (t : Tick) (addr : BitVec 32) (s : State) : Host.Outcome State Fault Refusal :=
  onDev t s fun n d => if d.stk.running then d.lockstep n none 0 addr.toNat else d

/-- A partition that waits for its first anchor alone runs again once nothing holds it (log entry 66). -/
def Sch.startAgain (h : Sch) (live : Bool) : Sch :=
  if h.state == .held && !live && h.holds.isEmpty && h.nextAnchor.isSome then { h with state := .running } else h

/-- The holds that waited for the stoker pair are decided and released (R314, R357). -/
def Dev.stokerBack (d : Dev) (t : Nat) (c : HoldCause) : Dev :=
  d.eachPart (fun _ x => x.cfg.state == .assigned && x.sch.state == .held && x.sch.holds.contains c) fun p d =>
    ((d.decideHeld t p).clearHolds p fun h => h == c).modPart p fun x => { x with sch := x.sch.startAgain x.att.live }

/-- STOKER_RESTART_COMPLETE (R314, R357): a failed measurement is engine-fatal. -/
def execStokerRestartComplete (t : Tick) (measured : Bool) (s : State) : Host.Outcome State Fault Refusal :=
  onDev t s fun n d =>
    if !d.stk.restarting then d
    else if !measured then
      let d := { d with stk := { d.stk with restarting := false, swapping := false } }
      d.report n { code := 0x0A, severity := .engFatal, unit := sharedUnit 1, part := none, synd := 2 }
    else if d.stk.swapping then
      let d := { d with stk := { d.stk with running := true, restarting := false, swapping := false, activating := false } }
      let d := d.eachPart (fun _ x => x.cfg.state == .assigned) fun p d => d.refingerprint p
      (d.stokerBack n .stoker).stokerBack n .firmware
    else
      let d := { d with stk := { d.stk with running := true, restarting := false, restarts := min 255 (d.stk.restarts + 1),
                                            lastRestart := some n } }
      d.stokerBack n .stoker

/-! ## Keys (R355, R433) -/

/-- SLOT of SEC_KEY_CMD. -/
def keySlotOf (cmd : Word) : Nat := fld cmd 21 16

/-- Whether a command may replace or remove what a global key slot holds (R355). -/
def Dev.keyFree (d : Dev) (h : Nat) : Bool :=
  !(tabGet KeySlot.reset d.keys h).valid || !allParts.any fun p =>
    let x := d.part p
    x.cfg.state == .assigned && decide (x.cfg.keyBase ≤ h) && decide (h < x.cfg.keyBase + x.cfg.keyCount)
      && !(x.sch.state == .empty || x.sch.state == .done || x.sch.state == .halted)

/-- The key window after a command: key material and RAND zero, the result set (R433). -/
def Dev.keyWinAfter (d : Dev) (refused : Bool) : Dev :=
  { d with keyWin := { d.keyWin with data := 0, nonce := 0, refused := refused } }

/-- KEY_INSTALL (R433). Outside READY it is refused as under R355 (log entry 33). -/
def execKeyInstall (t : Tick) (cmd : Word) (s : State) : Host.Outcome State Fault Refusal :=
  onDev t s fun _ d => serve .sec 0 d fun d =>
    if !d.inService then (d.keyWinAfter true).done
    else
      let h := keySlotOf cmd
      if d.keyFree h then
        let k : KeySlot := { key := d.keyWin.data, keyId := BitVec.ofNat 32 (fld cmd 63 32), kind := BitVec.ofNat 2 (fld cmd 9 8),
                             purpose := BitVec.ofNat 2 (fld cmd 13 12), valid := true, rand := d.keyWin.nonce, count := 0 }
        Dev.done (Dev.keyWinAfter { d with keys := tabSet KeySlot.reset d.keys h k } false)
      else (d.keyWinAfter true).done

/-- KEY_ZEROISE (R433). Outside READY it is refused as under R355 (log entry 33). -/
def execKeyZeroise (t : Tick) (cmd : Word) (s : State) : Host.Outcome State Fault Refusal :=
  onDev t s fun _ d => serve .sec 0 d fun d =>
    if !d.inService then (d.keyWinAfter true).done
    else
      let h := keySlotOf cmd
      if d.keyFree h then Dev.done (Dev.keyWinAfter { d with keys := tabErase d.keys h } false)
      else (d.keyWinAfter true).done

/-! ## TEST -/

/-- The TEST wrapper's WS_BYPASS (R410). -/
def wsBypass : TestInstr := .wsBypass

/-- What the IEEE 1687 network behind INSTR_NET reaches (R410). -/
inductive Instrument where
  | voltageSensors | junctionSensors | stageBufferBist | tableStoreBist | burnController
  deriving DecidableEq, Repr

/-- Instruments that a wrapper instruction gives access to (R410): no key, seed or firmware storage among them (R411). -/
def instruments (i : TestInstr) : List Instrument :=
  match i with
  | .instrNet => [.voltageSensors, .junctionSensors, .stageBufferBist, .tableStoreBist, .burnController]
  | .wsBypass | .wsExtest | .wsIntest | .wsSafe | .wsClamp => []

/-- TEST_INSTRUCTION (R410, R411): any instruction but WS_BYPASS takes effect in RESET with sec_test_en high, and otherwise the wrapper holds
WS_BYPASS. Out of RESET it holds WS_BYPASS throughout, since the engine leaves RESET only when no test instruction has been entered. -/
def execTestInstruction (t : Tick) (secTestEn : Bool) (code : TestInstr) (s : State) : Host.Outcome State Fault Refusal :=
  onDev t s fun _ d =>
    if d.eng.phase ≠ .reset then d
    else if !secTestEn ∨ code = wsBypass then { d with eng := { d.eng with wrapper := wsBypass } }
    else
      let d := { d with eng := { d.eng with testMode := true, wrapper := code }, keys := [], stk := { d.stk with bank0 := .reset, bank1 := .reset } }
      d.eachPart (fun _ _ => true) fun p d => d.modPart p fun x => { x with rng := .reset }

end Sys2Proof.Machine
end

