-- ==== Sys2Proof/Machine/Regs.lean ====
section
/-! DEFINITION. The control space (R11, R344, R413 to R435): the register map as it reads in each view, the writes of the fields
without behaviour of their own, the ledger, member and group windows, the probe, the record ring and the debug space. -/

namespace Sys2Proof.Machine

/-! ## Requests -/

/-- What a requester's latches hold. -/
def Dev.latch (d : Dev) (r : Requester) : ViewLatch := tabGet ViewLatch.reset d.views (reqId r)
/-- A requester's latches changed. -/
def Dev.modLatch (d : Dev) (r : Requester) (f : ViewLatch → ViewLatch) : Dev :=
  { d with views := tabMod ViewLatch.reset d.views (reqId r) f }

/-- An address outside the view (R413): a write is counted. -/
def Dev.outside (d : Dev) (r : Requester) (write : Bool) : Dev := ((if write then d.reqIgnored r else d)).respond 0 1

/-- A write counted when it carries ones where no field takes them (R418). -/
def Dev.counted (d : Dev) (r : Requester) (bad : Bool) : Dev := if bad then d.reqIgnored r else d

/-- Whether a word has ones outside a mask. -/
def extra (w : Word) (mask : Nat) : Bool := w &&& ~~~(BitVec.ofNat 64 mask) != 0

/-! ## The windows of the ledger and of the flue tables (R423, R424) -/

/-- Kinds of windows: ledger entries, member entries, group entries. -/
inductive Window where
  | ledger | member | group
  deriving DecidableEq, Repr

/-- Where an address lies in the windows: the kind, the entry as addressed, the word. -/
def windowOf (addr : Nat) : Option (Window × Nat × Nat) :=
  if 0x400000 ≤ addr ∧ addr < 0x600000 then some (.ledger, (addr - 0x400000) / 64, addr / 8 % 8)
  else if 0x600000 ≤ addr ∧ addr < 0x620000 then some (.member, (addr - 0x600000) / 16, addr / 8 % 2)
  else if 0x068000 ≤ addr ∧ addr < 0x06C000 then some (.group, (addr - 0x068000) / 16, addr / 8 % 2)
  else none

/-- Base and count of a partition's range of a window. -/
def PCfg.range (c : PCfg) (k : Window) : Nat × Nat :=
  match k with
  | .ledger => (c.lgrBase, c.lgrCount)
  | .member => (c.membBase, c.membCount)
  | .group => (c.grpBase, c.grpCount)

/-- Entries a window has (R199, R270, R271). -/
def windowSize (k : Window) : Nat :=
  match k with | .ledger => Config.ledgerEntries | .member => Config.memberEntries | .group => Config.groupEntries

/-- The partition that owns a global entry of a window. -/
def Dev.entryOwner (d : Dev) (k : Window) (n : Nat) : Option PartId :=
  allParts.find? fun p =>
    let c := (d.part p).cfg
    c.state != .free && decide ((c.range k).1 ≤ n) && decide (n < (c.range k).1 + (c.range k).2)

/-- Global number of the entry a requester addresses; none outside its view (R413, R423). -/
def Dev.entryOf (d : Dev) (r : Requester) (k : Window) (i : Nat) : Option Nat :=
  if isOp r then if i < windowSize k then some i else none
  else
    let c := (d.part (d.reqPart r)).cfg
    if c.state != .free && decide (i < (c.range k).2) then some ((c.range k).1 + i) else none

/-- A step of a partition is in progress: from the first launch of an attempt to the member's decision at its commit point (R205). -/
def Part.inStep (x : Part) : Bool :=
  (x.sch.state == .running || x.sch.state == .held) && x.att.live && x.att.launched && x.att.decision.isNone

/-- Whether the ledger window accepts a write to an entry (R205, R216; R220 for an entry that awaits its repair). -/
def Dev.lgrOpen (d : Dev) (n : Nat) : Bool :=
  match d.entryOwner .ledger n with
  | none => true
  | some p =>
    let x := d.part p
    (!x.inStep || x.lgrHold || (x.sch.state == .held && tabGet false d.ledgerBad n)) && x.lgrUpdate.isNone

/-- Whether a write outside those times goes through to an entry's TS32 alone: the entry holds the single scale of a two-pass quantise-out and
the host window is open, in which R166 (step 3) has the runtime write it (DESIGN CHOICE, log entry 44: R205 makes no exception). -/
def Dev.scaleOpen (d : Dev) (n : Nat) : Bool :=
  match d.entryOwner .ledger n with
  | none => false
  | some p =>
    let x := d.part p
    x.sch.hostPending && x.lgrUpdate.isNone && x.twoPassEntries.any fun i => (x.cfg.range .ledger).1 + i == n

/-- The single scale of a two-pass quantise-out, as the runtime writes it in the host window (R166): the entry's TS32 and the attempt's. -/
def Dev.giveScale (d : Dev) (n : Nat) (ts : BitVec 32) : Dev :=
  let d := { d with ledger := tabMod LedgerEntry.reset d.ledger n fun e => { e with ts32 := ts } }
  match d.entryOwner .ledger n with
  | none => d
  | some p =>
    let i := n - ((d.part p).cfg.range .ledger).1
    d.modAtt p fun a => { a with scales := (a.scales.filter fun (s : Nat × BitVec 32) => s.1 != i) ++ [(i, ts)] }

/-- Whether a word carries ones in the read-only fields of word w of a ledger entry (R418, Table 8.1). -/
def ledgerRoBad (w : Nat) (data : Word) : Bool :=
  match w with
  | 0 => extra data (2 ^ 64 - 1 - 0x5C0000000)
  | 1 => extra data (2 ^ 64 - 1 - (2 ^ 32 - 1) * 2 ^ 8)
  | 2 => false
  | 3 => extra data (2 ^ 40 - 1)
  | _ => data != 0

/-- A read of word 0 of a ledger entry (R423): words 1 to 7 are latched. -/
def Dev.lgrRead0 (d : Dev) (r : Requester) (i : Nat) : Dev :=
  match d.entryOf r .ledger i with
  | none => d.outside r false
  | some n =>
    let e := tabGet LedgerEntry.reset d.ledger n
    (d.modLatch r fun l => { l with snap := some (n, e) }).respond (e.word 0) 0

/-- What a write of the ledger window does whether it is accepted or not (R423): the latch goes, and with it the words
staged for another entry. -/
def Dev.lgrTouch (d : Dev) (r : Requester) (n : Nat) : Dev :=
  d.modLatch r fun l => { l with snap := none, staged := l.staged.filter fun (s : Nat × Option Word × Option Word × Option Word) => s.1 == n }

/-- A write that the window refuses, counted in the partition's telemetry (R205). -/
def Dev.lgrRefused (d : Dev) (n : Nat) : Dev :=
  match d.entryOwner .ledger n with | some p => d.bump p 1 1 | none => d

/-- A write of word 0, 1 or 2 of a ledger entry, staged (R423). -/
def Dev.lgrStage (d : Dev) (r : Requester) (i w : Nat) (data : Word) : Dev :=
  match d.entryOf r .ledger i with
  | none => d.outside r true
  | some n =>
    let d := (d.lgrTouch r n).respond 0 0
    if d.lgrOpen n || d.scaleOpen n then
      (d.modLatch r fun l =>
        let s := l.staged.getD (n, none, none, none)
        { l with staged := some (n, if w = 0 then some data else s.2.1, if w = 1 then some data else s.2.2.1,
                                 if w = 2 then some data else s.2.2.2) }).counted r (ledgerRoBad w data)
    else d.lgrRefused n

/-- Entry n as the words a requester has staged and word 3 make it (R423). -/
def Dev.stagedEntry (d : Dev) (r : Requester) (n : Nat) (data : Word) : LedgerEntry :=
  let s := (d.latch r).staged.getD (n, none, none, none)
  let e := tabGet LedgerEntry.reset d.ledger n
  e.writeWords (s.2.1.getD (e.word 0)) (s.2.2.1.getD (e.word 1)) (s.2.2.2.getD (e.word 2)) data

/-- A write of word 3 of a ledger entry (R423, R205): the staged words and word 3 take effect together. A write that makes a
bad entry whole again ends its repair (R220). -/
def Dev.lgrWrite3 (d : Dev) (r : Requester) (i : Nat) (data : Word) : Dev :=
  match d.entryOf r .ledger i with
  | none => d.outside r true
  | some n =>
    let d := (d.lgrTouch r n).respond 0 0
    if d.lgrOpen n then
      let d := { d with ledger := tabSet LedgerEntry.reset d.ledger n (d.stagedEntry r n data), ledgerBad := tabSet false d.ledgerBad n false }
      (d.modLatch r fun l => { l with staged := none }).counted r (ledgerRoBad 3 data)
    else if d.scaleOpen n then
      let d := d.giveScale n (d.stagedEntry r n data).ts32
      (d.modLatch r fun l => { l with staged := none }).counted r (ledgerRoBad 3 data)
    else d.lgrRefused n

/-- Whether a group in force or a pending one uses a partition-local member entry (R273 step 1). -/
def Dev.memberUsed (d : Dev) (p : PartId) (i : Nat) : Bool :=
  (List.range (d.part p).cfg.grpCount).any fun h =>
    let g := d.group p h
    let uses (e : BitVec 128) : Bool := decide (gBase e ≤ i) && decide (i < gBase e + gN e)
    (d.grpValid p g.inForce && uses g.inForce) || (g.pending && gValid g.written && uses g.written)

/-- The staged word 0, or the current one, of a two-word entry. -/
def stagedOr (s : Option (Nat × Word)) (n : Nat) (cur : Word) : Word :=
  match s with | some (m, w) => if m = n then w else cur | none => cur

/-- An entry from its two words, low word first. -/
def twoWords (w0 w1 : Word) : BitVec 128 := BitVec.ofNat 128 (w1.toNat * 2 ^ 64 + w0.toNat)

/-- A member entry with its fields (Table 10.3): a PORTS_LOG2 out of range leaves that field (R418), reserved bits read zero. -/
def memberFields (old w1 : Word) : Word :=
  let w := BitVec.ofNat 64 (w1.toNat / 2 ^ 12 * 2 ^ 12 + w1.toNat % 2)
  if 1 ≤ fld w1 14 12 ∧ fld w1 14 12 ≤ 5 then w else BitVec.ofNat 64 (w.toNat - fld w1 14 12 * 2 ^ 12 + fld old 14 12 * 2 ^ 12)

/-- A group entry's word 0 with its fields (Table 10.4): an N or a RANK out of range leaves that field (R418). -/
def groupFields (old w0 : Word) : Word :=
  let n := if 1 ≤ fld w0 34 21 ∧ fld w0 34 21 ≤ 8192 then fld w0 34 21 else fld old 34 21
  let rank := if fld w0 20 8 < n then fld w0 20 8 else fld old 20 8
  BitVec.ofNat 64 (fld w0 63 35 * 2 ^ 35 + n * 2 ^ 21 + rank * 2 ^ 8 + fld w0 0 0)

/-- A write of word 1 of a member entry (R273 step 1): an entry in use stays. -/
def Dev.memberWrite (d : Dev) (t : Nat) (r : Requester) (i : Nat) (w1 : Word) : Dev :=
  match d.entryOf r .member i with
  | none => d.outside r true
  | some n =>
    let w0 := stagedOr (d.latch r).membStaged n 0
    let d := (d.modLatch r fun l => { l with membSnap := none, membStaged := none }).respond 0 0
    let old := BitVec.ofNat 64 ((tabGet 0 d.members n).toNat / 2 ^ 64)
    let put (d : Dev) : Dev :=
      let ports := fld w1 14 12
      (Dev.counted { d with members := tabSet 0 d.members n (twoWords 0 (memberFields old w1)) } r
        (w0 != 0 || extra w1 (2 ^ 64 - 1 - 0xFFE) || ports == 0 || decide (5 < ports)))
    match d.entryOwner .member n with
    | none => put d
    | some p => if d.memberUsed p (n - (d.part p).cfg.membBase) then d.setGrpErr t p else put d

/-- A write of word 1 of a group entry (R273, R424): it must name an epoch at least two ahead. It is pending from then on while a job starts
or runs and where it changes a valid group in force; the first setup of a group outside a job is in force at once (log entry 47). -/
def Dev.groupWrite (d : Dev) (t : Nat) (r : Requester) (h : Nat) (w1 : Word) : Dev :=
  match d.entryOf r .group h with
  | none => d.outside r true
  | some n =>
    let g := tabGet GroupEntry.reset d.groups n
    let old := BitVec.ofNat 64 g.written.toNat
    let w0 := stagedOr (d.latch r).grpStaged n old
    let d := (d.modLatch r fun l => { l with grpSnap := none, grpStaged := none }).respond 0 0
    let new := twoWords (groupFields old w0) w1
    let bad := extra w0 (2 ^ 64 - 1 - 0xFE) || groupFields old w0 != BitVec.ofNat 64 (fld w0 63 8 * 2 ^ 8 + fld w0 0 0)
    let put (d : Dev) (e : GroupEntry) : Dev := Dev.counted { d with groups := tabSet GroupEntry.reset d.groups n e } r bad
    match d.entryOwner .group n with
    | none => put d ⟨new, new, false⟩
    | some p =>
      let x := d.part p
      if gEffective new < x.sch.epoch.toNat + 2 then d.setGrpErr t p
      else put d (if mayFlue x.sch.state ∨ d.grpValid p g.inForce then { g with written := new, pending := true } else ⟨new, new, false⟩)

/-- A write of word 0 of a member or group entry, staged (R424). -/
def Dev.tableStage (d : Dev) (r : Requester) (isGroup : Bool) (i : Nat) (data : Word) : Dev :=
  match d.entryOf r (if isGroup then .group else .member) i with
  | none => d.outside r true
  | some n =>
    (d.modLatch r fun l => if isGroup then { l with grpSnap := none, grpStaged := some (n, data) }
                           else { l with membSnap := none, membStaged := some (n, data) }).respond 0 0

/-- A window's word as it reads (R423, R424): the latched value while the latch of the entry holds; word 0 of a member or group
entry latches word 1. -/
def Dev.windowRead (d : Dev) (r : Requester) (k : Window) (i w : Nat) : Dev :=
  match d.entryOf r k i with
  | none => d.outside r false
  | some n =>
    let l := d.latch r
    match k with
    | .ledger =>
      if w = 0 then d.lgrRead0 r i
      else
        let e := match l.snap with
          | some (m, e) => if m = n then e else tabGet LedgerEntry.reset d.ledger n
          | none => tabGet LedgerEntry.reset d.ledger n
        d.respond (e.word w) 0
    | .member =>
      let e := tabGet 0 d.members n
      let hi := BitVec.ofNat 64 (e.toNat / 2 ^ 64)
      if w = 0 then (d.modLatch r fun l => { l with membSnap := some (n, hi) }).respond (BitVec.ofNat 64 e.toNat) 0
      else d.respond (stagedOr l.membSnap n hi) 0
    | .group =>
      let e := (tabGet GroupEntry.reset d.groups n).written
      let hi := BitVec.ofNat 64 (e.toNat / 2 ^ 64)
      if w = 0 then (d.modLatch r fun l => { l with grpSnap := some (n, hi) }).respond (BitVec.ofNat 64 e.toNat) 0
      else d.respond (stagedOr l.grpSnap n hi) 0

/-! ## Values that take two registers (R416) -/

/-- The 128-bit value an address shows one half of, and whether the high one. -/
def Part.pairAt (x : Part) (addr : Nat) : Option (BitVec 128 × Bool) :=
  let str := x.rng.streams.find? fun y => y.id == x.rng.strSel
  match addr with
  | 0x050000 => some (x.rng.seed, false)
  | 0x050008 => some (x.rng.seed, true)
  | 0x050100 => some (x.rng.probeSeed, false)
  | 0x050108 => some (x.rng.probeSeed, true)
  | 0x050110 => some (x.rng.probeP0, false)
  | 0x050118 => some (x.rng.probeP0, true)
  | 0x050120 => some (x.rng.probeP1, false)
  | 0x050128 => some (x.rng.probeP1, true)
  | 0x050210 => some (match str with | some y => y.cur | none => 0, false)
  | 0x050218 => some (match str with | some y => y.cur | none => 0, true)
  | 0x050220 => some (match str with | some y => y.cmt | none => 0, false)
  | 0x050228 => some (match str with | some y => y.cmt | none => 0, true)
  | _ => none

/-- A read of one half (R416): a LO read latches the HI half, the next HI read of the same register returns it. -/
def Dev.pairRead (d : Dev) (r : Requester) (addr : Nat) (v : BitVec 128) (hi : Bool) : Dev :=
  let key := (d.reqPart r).val * 2 ^ 24 + (if hi then addr else addr + 8)
  let high := BitVec.ofNat 64 (v.toNat / 2 ^ 64)
  if hi then
    let w := (((d.latch r).hi.find? fun e => e.1 == key).map (·.2)).getD high
    (d.modLatch r fun l => { l with hi := tabErase l.hi key }).respond w 0
  else (d.modLatch r fun l => { l with hi := tabPut l.hi key high }).respond (v.setWidth 64) 0

/-! ## The map as it reads -/

/-- A register's reading from its fields: values and their lowest bits. -/
def word (l : List (Nat × Nat)) : Word := BitVec.ofNat 64 (l.foldl (fun n f => n + f.1 * 2 ^ f.2) 0)

/-- Partition registers at an offset of an entry (Tables 1.5, 13.3, 13.5, 13.10). -/
def Part.entryRead (x : Part) (off : Nat) : Option Word :=
  let c := x.cfg
  match off with
  | 0x00 => some (word [(c.tenant.toNat, 32), (c.size, 16), (c.first, 8), (c.state.code, 0)])
  | 0x08 => some (word [(c.lgrCount, 32), (c.lgrBase, 0)])
  | 0x10 => some (word [(c.membCount, 32), (c.membBase, 0)])
  | 0x18 => some (word [(c.grpCount, 32), (c.grpBase, 0)])
  | 0x20 => some (word [(c.keyCount, 32), (c.keyBase, 0)])
  | 0x28 => some (word [(c.keyKind.toNat, 8), (bit c.dbgSeen, 2), (bit c.opProfile, 1), (bit c.opDebug, 0)])
  | 0x30 => some (word [(x.mode.toNat, 0)])
  | 0x38 => some (word [(x.ctx.saveEvery, 32), (x.ctx.index, 5)])
  | 0x40 => some x.ctx.base
  | 0x48 => some (word [(x.ctx.savedStep.toNat, 32), (x.ctx.reg.toNat, 24), (x.ctx.result, 8), (x.ctx.active, 0)])
  | _ => none

/-- Schedule registers (Table 16.5). -/
def Part.schRead (x : Part) (off : Nat) : Option Word :=
  let h := x.sch
  let timing := x.running
  match off with
  | 0x00 => some (word [(x.att.number, 8), (h.state.code, 0)])
  | 0x08 => some h.epoch
  | 0x10 => some h.step
  | 0x18 => some (word [(h.seg.toNat, 0)])
  | 0x20 => some (word [(bit h.commitFirst, 2)])
  | 0x28 => some (word [(h.hostSlot.toNat, 32), (bit h.hostPending, 1), (bit h.hostGo, 0)])
  | 0x30 => some (word [(if timing then h.stretch else 0, 56), (x.att.grade, 48), (h.wantStretch, 40), (h.wantGrade, 32)])
  | 0x38 => some (word [(x.att.anchorEpoch, 0)])
  | 0x40 => some (word [(h.commitEpoch, 0)])
  | _ => none

/-- Loader registers (Table 16.6). -/
def Part.ldrRead (x : Part) (off : Nat) : Option Word :=
  let l := x.ldr
  match off with
  | 0x00 => some l.addr
  | 0x08 => some (word [(l.len.toNat, 0)])
  | 0x10 => some 0
  | 0x18 => some (word [(l.result, 56), (bit l.staged.isSome, 55), (l.reject.toNat, 0)])
  | _ =>
    if 0x40 ≤ off ∧ off < 0x70 then
      some (BitVec.ofNat 64 (fieldLE (match l.image with | some img => img.header.imageDigest | none => []) (off - 0x40) 8))
    else if 0x80 ≤ off ∧ off < 0xB0 then some (BitVec.ofNat 64 (fieldLE l.patchDigest (off - 0x80) 8))
    else none

/-- RNG registers that are no half of a pair (Table 16.7). -/
def Part.rngRead (x : Part) (off : Nat) : Option Word :=
  let g := x.rng
  match off with
  | 0x010 => some (word [(bit g.pending.isSome, 0)])
  | 0x130 => some (word [(bit g.probeDone, 1)])
  | 0x138 => some g.probeOut
  | 0x200 => some (word [(g.strSel.toNat, 0)])
  | 0x208 => some (word [(bit (g.streams.any fun y => y.id == g.strSel), 1),
      (bit (match x.ldr.image with | some img => img.streams.contains g.strSel | none => false), 0)])
  | _ => none

/-- FLU registers (Tables 10.5 and 16.8). -/
def Dev.fluRead (d : Dev) (x : Part) (off : Nat) : Option Word :=
  match off with
  | 0x00 =>
    let up := (List.range (2 * x.cfg.size)).foldl (fun n i =>
      n + bit (tabGet FluePort.reset d.ports (x.port i)).up * 2 ^ i) 0
    some (word [(up, 32), (bit x.flu.grpErr, 0)])
  | 0x10 => some (word [(x.flu.tag.toNat, 48), (x.flu.jobGroup.toNat, 32), (x.flu.self.toNat, 0)])
  | _ => if 0x20 ≤ off ∧ off < 0x40 then some (BitVec.ofNat 64 (x.flu.redChoice.toNat / 2 ^ (8 * (off - 0x20)))) else none

/-- Record ring registers (Table 16.9, R427). -/
def Part.ringRead (x : Part) (off : Nat) : Option Word :=
  match off with
  | 0x10 => some (word [(x.ring.head.toNat, 0)])
  | 0x18 => some (word [(x.ring.tail.toNat, 0)])
  | 0x20 => some (word [(x.ring.dropped.toNat, 0)])
  | _ =>
    if 0x1000 ≤ off ∧ off < 0x2000 then
      some (match x.ring.slots.find? fun e => e.1 == (off - 0x1000) / 64 with
        | some e => e.2.word (off / 8 % 8)
        | none => 0)
    else none

/-- Counters that slices keep as well (Table 16.10). -/
def sliceCounter (c : Nat) : Bool := decide (5 ≤ c) && decide (c ≤ 12)

/-- Whether a value is coarsened for a view (R348, R428). -/
def coarse16 (op : Bool) (n : Nat) : Nat := if op then n else n / 65536 * 65536

/-- Telemetry of a partition (R428, Table 16.11), exact or coarsened. In the operator's view 0x09_0080 is counter 16, which is not banked
(log entry 48). -/
def Dev.telRead (d : Dev) (x : Part) (exact : Bool) (off : Nat) : Option Word :=
  let slices := (List.range x.cfg.size).map x.slice
  match off with
  | 0x080 => some (word [(x.tel.blockEpoch.toNat, 32), (x.tel.blockPower.toNat / 10000 * 10000, 0)])
  | 0x200 => some (word [(x.tel.slackSel.toNat, 0)])
  | 0x208 =>
    let n := (x.tel.slack.lookup x.tel.slackSel.toNat).getD (2 ^ 64 - 1)
    some (BitVec.ofNat 64 (if exact || n == 2 ^ 64 - 1 then n else n / epochLen (if x.running then x.sch.stretch else 64)))
  | _ =>
    if off < 0x80 then
      let c := off / 8
      let n := if sliceCounter c then
          slices.foldl (fun n s => n + tabGet 0 (tabGet SliceSt.reset d.slices s).counters c) 0
        else tabGet 0 x.tel.counters c
      some (BitVec.ofNat 64 (coarse16 exact (min Config.telMax n)))
    else none

/-- Domain telemetry (R429). -/
def Dev.domRead (d : Dev) (n w : Nat) : Word :=
  let t := d.domTel n
  match w with
  | 0 => word [((t.maxTemp % 65536).toNat, 48), (t.minMv, 32), ((t.temp % 65536).toNat, 16), (t.mv, 0)]
  | 1 => word [(t.below, 32), (t.current, 0)]
  | 2 => word [(t.late, 32), (t.short, 0)]
  | _ => word [(if d.dmp.told then tabGet 0xFFFF d.dmp.ceil n else 0, 16), (tabGet 0 d.dmp.grant n, 0)]

/-- CHK registers (Tables 11.3, 11.5, 11.6 and 16.12). -/
def Part.chkRead (x : Part) (off : Nat) : Option Word :=
  let c := x.chk
  match off with
  | 0x00 => some (word [(min 4 c.list.length, 0)])
  | 0x10 => some (word [(c.holdEp, 32), (c.cause.toNat, 16), (bit c.replayLim, 15), (bit c.pending, 0)])
  | 0x20 => some (word [(c.arbUnit.toNat, 48), (c.arbResult, 45), (bit c.arbDone, 44), (c.arbSeq.toNat, 0)])
  | 0x40 => some (word [(c.digGroup.toNat, 32), (c.digInterval.toNat, 16), (bit c.digEnable, 0)])
  | 0x48 => some c.digAddr
  | _ => none

/-- The status of key slot h of a range (Table 13.6). -/
def Dev.slotRead (d : Dev) (x : Part) (off : Nat) : Option Word :=
  if off = 0x400 then some (word [(d.keyWin.group.toNat, 0)])
  else if off / 8 < x.cfg.keyCount then
    let k := tabGet KeySlot.reset d.keys (x.cfg.keyBase + off / 8)
    some (word [(k.keyId.toNat, 32), (k.kind.toNat, 8), (k.purpose.toNat, 4), (bit k.valid, 0)])
  else none

/-- Banked registers at an offset of the space (R414). -/
def Dev.bankRead (d : Dev) (x : Part) (op : Bool) (addr : Nat) : Option Word :=
  let off := addr % 65536
  match addr / 65536 with
  | 0x2 => x.schRead off
  | 0x3 => x.ldrRead off
  | 0x4 => if off < 0x80 then some (x.policy (off / 8)) else if off = 0x80 then some (word [(bit x.lgrHold, 0)]) else none
  | 0x5 => x.rngRead off
  | 0x6 => d.fluRead x off
  | 0x8 => x.ringRead off
  | 0x9 => d.telRead x op off
  | 0xA => d.slotRead x off
  | 0xC => x.chkRead off
  | _ => none

/-- ENG registers (Tables 14.1, 14.5, 14.6 and 16.3). -/
def Dev.engRead (d : Dev) (r : Requester) (off : Nat) : Option Word :=
  let s := d.straps
  match off with
  | 0x00 => some 0x00000A5D00F40100#64
  | 0x08 => some 0x1010400880002000#64
  | 0x10 => some 0x0400040004002088#64
  | 0x18 => let x := d.part (d.reqPart r); some (if x.cfg.state = .free then 0 else x.fprint)
  | 0x40 => some (word [(d.eng.arraysOk, 32), (d.eng.cause.toNat, 8), (d.eng.phase.code, 0)])
  | 0x48 => some (word [(sliceMap d.eng.fences, 0)])
  | 0x50 => some (word [(s.flueLat, 32), (s.memWrLat, 8), (s.memRdLat, 0)])
  | 0x58 => some (word [(s.chip.toNat, 32), (s.flueMhz, 16), (s.memMhz, 0)])
  | 0x80 => if isOp r then some (word [((match r with | .sec => d.eng.secsel | _ => d.eng.opsel).val, 0)]) else none
  | _ => if 0x100 ≤ off ∧ off < 0x180 then some (word [((d.fence ((off - 0x100) / 8)).toNat, 0)]) else none

/-- The slice a requester names by its window, none outside its view (R413). -/
def Dev.sliceOf (d : Dev) (r : Requester) (i : Nat) : Option Nat :=
  if isOp r then if i < 16 then some i else none
  else
    let c := (d.part (d.reqPart r)).cfg
    if c.state != .free && decide (i < c.size) then some (c.first + i) else none

/-- A slice window (R428, Table 16.11), its counters exact or coarsened. -/
def Dev.slcRead (d : Dev) (r : Requester) (exact : Bool) (addr : Nat) : Option Word :=
  match d.sliceOf r ((addr - 0x100000) / 65536) with
  | none => none
  | some s =>
    let off := addr % 65536
    if off = 0 then
      let own := d.ownerOf s
      some (word [(bit own.isSome, 12), (match own with | some p => p.val | none => 0, 8), (sliceCond (d.fence s), 0)])
    else if 0x100 ≤ off ∧ off < 0x180 ∧ sliceCounter ((off - 0x100) / 8) then
      some (BitVec.ofNat 64 (coarse16 exact (tabGet 0 (tabGet SliceSt.reset d.slices s).counters ((off - 0x100) / 8))))
    else none

/-- Registers of the operator's map that are not banked (Table 16.1, R428): damper, report unit, counter 16, stoker status, domains, burn
counts. -/
def Dev.operRead (d : Dev) (addr : Nat) : Option Word :=
  let k := d.stk
  match addr with
  | 0x070000 => some (word [(d.dmp.tempWarn, 32), (d.dmp.guard, 24), (d.dmp.gradeMax, 16), (d.dmp.stretchStep, 8), (bit d.dmp.fitEn, 0)])
  | 0x070008 =>
    some (word [(d.dmp.wait, 32), (bit d.dmp.loss, 16), (allParts.foldl (fun n p => n + bit (d.dmp.unfit.contains p) * 2 ^ p.val) 0, 0)])
  | 0x080000 => some (word [(d.rpt.dropEng, 48), (d.rpt.dropPart, 36), (d.rpt.dropStep, 24), (d.rpt.dropCorr, 12), (d.rpt.dropInfo, 0)])
  | 0x080008 => some (word [(d.rpt.queue.length, 0)])
  | 0x090080 => some (word [(d.eng.ignoredOp, 0)])
  | 0x0B0008 =>
    some (word [(k.stagedBank.version.toNat, 32), (k.stagedBank.svn.toNat, 16), (k.restarts, 8), (bit k.running, 4),
                (bit k.stagedBank.valid, 3), (bit k.stagedBank.locked, 2), (bit k.activeBank.locked, 1), (bit k.active, 0)])
  | _ =>
    if 0x094000 ≤ addr ∧ addr < 0x094000 + 32 * 65 then some (d.domRead ((addr - 0x094000) / 32) (addr / 8 % 4))
    else if 0x0C0100 ≤ addr ∧ addr < 0x0C0180 then
      let s := tabGet SliceSt.reset d.slices ((addr - 0x0C0100) / 8)
      some (word [(s.burnLast.toNat, 32), (s.burnCount.toNat, 0)])
    else none

/-- The SEC space above 0x80_0000 (Tables 16.13 and 16.14): no key material reads back. -/
def Dev.secRead (d : Dev) (addr : Nat) : Option Word :=
  let info (b : Bank) : Word := word [(b.version.toNat, 32), (b.svn.toNat, 16), (bit b.valid, 0)]
  match addr with
  | 0x800000 => some (word [(bit d.stk.active, 16), (bit d.stk.bankSel, 8)])
  | 0x800010 => some (info d.stk.bank0)
  | 0x800018 => some (info d.stk.bank1)
  | 0xE00030 => some (word [(bit d.keyWin.refused, 0)])
  | _ =>
    if 0xC00000 ≤ addr ∧ addr < 0xD00000 then
      some (tabGet 0 (if d.stk.bankSel then d.stk.bank1 else d.stk.bank0).words ((addr - 0xC00000) / 8))
    else if 0xE00000 ≤ addr ∧ addr < 0xE00030 then some 0
    else none

/-- Whether an address lies in a block that is banked (R414). -/
def bankedAt (addr : Nat) : Bool := [0x2, 0x3, 0x4, 0x5, 0x6, 0x8, 0x9, 0xA, 0xC].contains (addr / 65536)

/-- A banked register as a requester sees it (R413, R414): that of its partition, zero while the partition is FREE. -/
def Dev.bankShown (d : Dev) (r : Requester) (read : Part → Option Word) : Option Word :=
  let x := d.part (d.reqPart r)
  (read x).map fun w => if x.cfg.state = .free then 0 else w

/-- A register that is no window, no pair: what it reads in a view, none outside it (R413, R414). -/
def Dev.regRead (d : Dev) (r : Requester) (addr : Nat) : Option Word :=
  let op := isOp r
  if r = .sec ∧ 0x800000 ≤ addr then d.secRead addr
  else if addr < 0x010000 then d.engRead r addr
  else if addr < 0x020000 then
    if op then if addr < 0x011000 then (d.part (Fin.ofNat 16 (addr / 256))).entryRead (addr % 256) else none
    else if addr < 0x010100 then (d.part (d.reqPart r)).entryRead (addr % 256) else none
  else if addr = 0x0B0000 then some (word [(d.stk.activeBank.version.toNat, 32), (d.stk.activeBank.svn.toNat, 16)])
  else if op ∧ (d.operRead addr).isSome then d.operRead addr
  else if bankedAt addr then
    d.bankShown r (fun x => d.bankRead x op addr)
  else if 0x100000 ≤ addr ∧ addr < 0x200000 then d.slcRead r op addr
  else none

/-- A read of a register or window word (R413 to R416, R423). -/
def Dev.read (d : Dev) (r : Requester) (addr : Nat) : Dev :=
  match windowOf addr with
  | some (k, i, w) => d.windowRead r k i w
  | none =>
    let x := d.part (d.reqPart r)
    match x.pairAt addr with
    | some (v, hi) => if x.cfg.state = .free then d.respond 0 0 else d.pairRead r addr v hi
    | none =>
      match d.regRead r addr with
      | some w => d.respond w 0
      | none => d.outside r false

/-- LO_READ_LATCH: a read on CFG or SEC (R416). -/
def execLoReadLatch (t : Tick) (r : Requester) (addr : BitVec 24) (s : State) : Host.Outcome State Fault Refusal :=
  onDev t s fun _ d => serve r addr.toNat d fun d => d.read r addr.toNat

/-- LEDGER_WORD0_READ (R423). -/
def execLedgerWord0Read (t : Tick) (r : Requester) (index : Nat) (s : State) : Host.Outcome State Fault Refusal :=
  onDev t s fun _ d => serve r 0 d fun d => d.lgrRead0 r index

/-- LEDGER_WORD_STAGE (R423). -/
def execLedgerWordStage (t : Tick) (r : Requester) (index : Nat) (w : Fin 3) (data : Word) (s : State) :
    Host.Outcome State Fault Refusal :=
  onDev t s fun _ d => serve r 0 d fun d => d.lgrStage r index w.val data

/-- LEDGER_WORD3_WRITE (R205, R423). -/
def execLedgerWord3Write (t : Tick) (r : Requester) (index : Nat) (data : Word) (s : State) : Host.Outcome State Fault Refusal :=
  onDev t s fun _ d => serve r 0 d fun d => d.lgrWrite3 r index data

/-- TABLE_ENTRY_WRITE (R273, R424). -/
def execTableEntryWrite (t : Tick) (r : Requester) (isGroup : Bool) (index : Nat) (word1 : Word) (s : State) :
    Host.Outcome State Fault Refusal :=
  onDev t s fun n d => serve r 0 d fun d => if isGroup then d.groupWrite n r index word1 else d.memberWrite n r index word1

/-! ## Writes of fields without behaviour of their own (log entry 9) -/

/-- A number within a range, or the field as it stands (R418). -/
def inRange (lo hi v old : Nat) : Nat := if lo ≤ v ∧ v ≤ hi then v else old
/-- Whether a number lies outside a range. -/
def out (lo hi v : Nat) : Bool := !(decide (lo ≤ v) && decide (v ≤ hi))

/-- A policy record as a write leaves it, and whether the write is counted (Table 8.3, R418). -/
def writePolicy (old w : Word) : Word × Bool :=
  let fb := fld w 23 20
  let fbOk := fb == 0 || fb == 4 || fb == 5
  (word [(fld w 63 32, 32), (fld w 29 24, 24), (if fbOk then fb else fld old 23 20, 20), (fld w 19 14, 14),
         (inRange 0 4 (fld w 13 11) (fld old 13 11), 11)],
   extra w 0xFFFFFFFF3FFFF800 || !fbOk || out 0 4 (fld w 13 11))

/-- Whether an address is a register of RWL fields (R435), by its offset in the local view. -/
def lockedAt (addr : Nat) : Bool := [0x010030, 0x060010, 0x0C0040, 0x0C0048].contains addr

/-- Whether a schedule register takes writes (R421). -/
def Part.setup (x : Part) : Bool := x.sch.state == .empty || x.sch.state == .ready

/-- Half of a 128-bit register written. -/
def setHalf (v : BitVec 128) (hi : Bool) (w : Word) : BitVec 128 :=
  if hi then BitVec.ofNat 128 (w.toNat * 2 ^ 64 + v.toNat % 2 ^ 64) else BitVec.ofNat 128 (v.toNat / 2 ^ 64 * 2 ^ 64 + w.toNat)

/-- A write of RNG_SEED_HI (R169, R425). -/
def Rng.writeHi (g : Rng) (data : Word) : Rng :=
  { g with pending := some (BitVec.ofNat 128 (data.toNat * 2 ^ 64 + g.stagedLo.toNat)), ripe := false }

/-- The probe started (R198, R425); what it will write is kept until it is done. -/
def Rng.startProbe (g : Rng) : Rng :=
  if g.probeBusy.isSome then g
  else { g with probeDone := false, probeBusy := some (mix g.probeP0 g.probeP1 (keySchedule g.probeSeed)) }

/-- RPT_TAIL as a write leaves it (R427): one beyond HEAD, or more than 64 behind it, is ignored. -/
def Ring.writeTail (q : Ring) (tail : BitVec 32) : Ring := if (q.head - tail).toNat ≤ 64 then { q with tail := tail } else q

/-- A write of FLU_RED_CHOICEn (Table 16.8). What the register held before the writes of this tick is kept for a use that is decided in it
(R426). -/
def Flu.writeChoice (x : Flu) (t n : Nat) (w : Word) : Flu :=
  let bits : BitVec 256 := BitVec.ofNat 256 ((2 ^ 64 - 1) * 2 ^ (64 * n))
  let mark : ChoiceMark := match x.choiceMark with
    | some m => if m.tick = t then { m with wrote := m.wrote ||| bits } else ⟨t, x.redChoice, bits⟩
    | none => ⟨t, x.redChoice, bits⟩
  { x with redChoice := (x.redChoice &&& ~~~bits) ||| BitVec.ofNat 256 (w.toNat * 2 ^ (64 * n)), choiceMark := some mark }

/-- A write of a partition's register, by its address in the local view: the partition after it and whether the write is
counted (R418, R421); none where the local map has nothing to write. A status bit that the engine has set in the same tick stays (R417). The actions of LDR_CTRL, SCH_START, SCH_HOST_GO, LGR_HOLD,
CHK_HOLD, CHK_ARB and PART_CTX_CTRL have rows of their own and do not act here. -/
def Part.write (x : Part) (t addr : Nat) (w : Word) : Option (Part × Bool) :=
  let sch (f : Sch → Sch) (bad : Bool) : Option (Part × Bool) :=
    some (if x.setup then ({ x with sch := f x.sch }, bad) else (x, true))
  let rng (f : Rng → Rng) (bad : Bool) : Option (Part × Bool) := some ({ x with rng := f x.rng }, bad)
  let chk (f : Chk → Chk) (bad : Bool) : Option (Part × Bool) := some ({ x with chk := f x.chk }, bad)
  match addr with
  | 0x010030 => some ({ x with mode := w.setWidth 10 }, extra w 0x3FF)
  | 0x010038 => some ({ x with ctx := { x.ctx with saveEvery := fld w 47 32, index := fld w 7 5 } }, extra w 0xFFFF000000E7)
  | 0x010040 => some ({ x with ctx := { x.ctx with base := w &&& ~~~0x3F#64 } }, extra w (2 ^ 64 - 64))
  | 0x020008 => sch (fun h => { h with epoch := w }) false
  | 0x020010 => sch (fun h => { h with step := w }) false
  | 0x020018 => sch (fun h => { h with seg := w.setWidth 32 }) (extra w 0xFFFFFFFF)
  | 0x020020 => sch (fun h => { h with commitFirst := w.getLsbD 2 }) (extra w 0xF)
  | 0x020028 => some (x, extra w 1)
  | 0x030000 => some ({ x with ldr := { x.ldr with addr := w &&& ~~~0x1FF#64 } }, extra w (2 ^ 64 - 512))
  | 0x030008 => some ({ x with ldr := { x.ldr with len := w.setWidth 32 } }, extra w 0xFFFFFFFF)
  | 0x030010 => some (x, extra w 3)
  | 0x040080 => some (x, extra w 6)
  | 0x050000 => rng (fun g => { g with stagedLo := w }) false
  | 0x050100 => rng (fun g => { g with probeSeed := setHalf g.probeSeed false w }) false
  | 0x050108 => rng (fun g => { g with probeSeed := setHalf g.probeSeed true w }) false
  | 0x050110 => rng (fun g => { g with probeP0 := setHalf g.probeP0 false w }) false
  | 0x050118 => rng (fun g => { g with probeP0 := setHalf g.probeP0 true w }) false
  | 0x050120 => rng (fun g => { g with probeP1 := setHalf g.probeP1 false w }) false
  | 0x050128 => rng (fun g => { g with probeP1 := setHalf g.probeP1 true w }) false
  | 0x050008 => rng (fun g => g.writeHi w) false
  | 0x050130 => rng (fun g => if w.getLsbD 0 then g.startProbe else g) (extra w 1)
  | 0x080018 => some ({ x with ring := x.ring.writeTail (w.setWidth 32) }, extra w 0xFFFFFFFF)
  | 0x050200 => rng (fun g => { g with strSel := w.setWidth 32 }) (extra w 0xFFFFFFFF)
  | 0x060000 => some ({ x with flu := { x.flu with grpErr := x.flu.grpErr && (!w.getLsbD 0 || x.flu.grpErrAt == some t) } }, extra w 1)
  | 0x060010 =>
    some ({ x with flu := { x.flu with tag := BitVec.ofNat 16 (fld w 63 48), jobGroup := BitVec.ofNat 10 (fld w 41 32),
                                       self := BitVec.ofNat 13 (fld w 12 0) } }, extra w 0xFFFF03FF00001FFF)
  | 0x090200 => some ({ x with tel := { x.tel with slackSel := w.setWidth 32 } }, extra w 0xFFFFFFFF)
  | 0x0C0010 => chk (fun c => { c with holdEp := inRange 16 65535 (fld w 47 32) c.holdEp })
                  (extra w 0xFFFF00000006 || out 16 65535 (fld w 47 32))
  | 0x0C0020 => chk (fun c => { c with arbUnit := BitVec.ofNat 16 (fld w 63 48), arbSeq := w.setWidth 32 })
                  (extra w 0xFFFF0001FFFFFFFF)
  | 0x0C0040 => chk (fun c => { c with digGroup := BitVec.ofNat 10 (fld w 41 32), digInterval := BitVec.ofNat 6 (fld w 21 16),
                                       digEnable := w.getLsbD 0 }) (extra w 0x3FF003F0001)
  | 0x0C0048 => chk (fun c => { c with digAddr := w &&& ~~~0x3F#64 }) (extra w (2 ^ 64 - 64))
  | _ =>
    if 0x040000 ≤ addr ∧ addr < 0x040080 then
      let n := (addr - 0x040000) / 8
      let r := writePolicy (x.policy n) w
      some ({ x with policies := tabSet policyReset x.policies n r.1 }, r.2)
    else if 0x060020 ≤ addr ∧ addr < 0x060040 then
      let n := (addr - 0x060020) / 8
      some ({ x with flu := x.flu.writeChoice t n w }, false)
    else none

/-- A write of DMP_CTRL (Table 12.3, R418). -/
def Dmp.writeCtrl (m : Dmp) (w : Word) : Dmp :=
  { m with tempWarn := inRange 60 95 (fld w 39 32) m.tempWarn, guard := inRange 10 60 (fld w 31 24) m.guard,
           gradeMax := inRange 1 3 (fld w 17 16) m.gradeMax, stretchStep := inRange 1 64 (fld w 15 8) m.stretchStep,
           fitEn := w.getLsbD 0 }
/-- Whether a write of DMP_CTRL is counted. -/
def dmpCtrlBad (w : Word) : Bool :=
  extra w 0xFFFF03FF01 || out 60 95 (fld w 39 32) || out 10 60 (fld w 31 24) || out 1 3 (fld w 17 16) || out 1 64 (fld w 15 8)

/-- Whether an offset of a partition-table entry is written by the root of trust alone (R340, Tables 13.3 and 13.5). -/
def secField (off : Nat) : Bool := [0x00, 0x08, 0x10, 0x18, 0x20, 0x28].contains off

/-- A SEC write of a partition-table entry beside STATE (R420): none where the write is not accepted. -/
def PCfg.secWrite (c : PCfg) (off : Nat) (w : Word) : Option PCfg :=
  match off with
  | 0x28 =>
    let dbg := w.getLsbD 0 || w.getLsbD 1
    some { c with opDebug := w.getLsbD 0, opProfile := w.getLsbD 1, dbgSeen := c.dbgSeen || dbg,
                  keyKind := BitVec.ofNat 2 (inRange 0 2 (fld w 9 8) c.keyKind.toNat) }
  | _ =>
    if c.state != .free then none
    else match off with
      | 0x00 => some { c with tenant := BitVec.ofNat 32 (fld w 63 32), size := fld w 20 16, first := fld w 11 8 }
      | 0x08 => some { c with lgrCount := inRange 0 32768 (fld w 47 32) c.lgrCount, lgrBase := fld w 14 0 }
      | 0x10 => some { c with membCount := inRange 0 8192 (fld w 45 32) c.membCount, membBase := fld w 12 0 }
      | 0x18 => some { c with grpCount := inRange 0 1024 (fld w 42 32) c.grpCount, grpBase := fld w 9 0 }
      | 0x20 => some { c with keyCount := inRange 0 64 (fld w 38 32) c.keyCount, keyBase := fld w 5 0 }
      | _ => none

/-- Writes of the SEC space above 0x80_0000 beside the operations (Tables 16.13, 16.14, R432). An OP that SEC_FW_CTRL does not have is
ignored with status 1, and the whole write with it. -/
def Dev.secWrite (d : Dev) (addr : Nat) (w : Word) : Dev :=
  let putBank (one : Bool) (f : Bank → Bank) : Dev :=
    let b := if one then d.stk.bank1 else d.stk.bank0
    if b.locked then d.refuse
    else Dev.done { d with stk := if one then { d.stk with bank1 := f b } else { d.stk with bank0 := f b } }
  let putInfo (b : Bank) : Bank :=
    { b with version := BitVec.ofNat 32 (fld w 63 32), svn := BitVec.ofNat 16 (fld w 31 16), valid := w.getLsbD 0 }
  match addr with
  | 0x800000 => if 6 ≤ fld w 2 0 then d.refuse else Dev.done { d with stk := { d.stk with bankSel := w.getLsbD 8 } }
  | 0x800010 => putBank false putInfo
  | 0x800018 => putBank true putInfo
  | 0xE00020 => d.done
  | 0xE00028 => Dev.done { d with keyWin := { d.keyWin with nonce := w.setWidth 48 } }
  | 0xE00030 => d.done
  | _ =>
    if 0xC00000 ≤ addr ∧ addr < 0xD00000 then
      putBank d.stk.bankSel fun b => { b with words := tabSet 0 b.words ((addr - 0xC00000) / 8) w }
    else if 0xE00000 ≤ addr ∧ addr < 0xE00020 then
      let n := (addr - 0xE00000) / 8
      let v := d.keyWin.data.toNat
      Dev.done { d with keyWin := { d.keyWin with
        data := BitVec.ofNat 256 (v - v / 2 ^ (64 * n) % 2 ^ 64 * 2 ^ (64 * n) + w.toNat * 2 ^ (64 * n)) } }
    else d.refuse

/-- A write of a partition's register by a requester (R11, R35, R414, R418, R435), by its address in the local view. -/
def Dev.partWrite (d : Dev) (n : Nat) (r : Requester) (p : PartId) (addr : Nat) (w : Word) : Dev :=
  let x := d.part p
  let idle : Bool := bankedAt addr && x.cfg.state == .free
  if isOp r ∧ (d.operRead addr).isSome then (d.counted r (w != 0)).respond 0 0
  else match x.write n addr w with
    | some (y, bad) =>
      if idle then d.respond 0 0
      else if lockedAt addr ∧ x.ldr.locked then ((d.reject n p 0x15 0 0).reqIgnored r).respond 0 0
      else ((d.setPart p y).counted r bad).respond 0 0
    | none =>
      if (d.regRead r addr).isSome ∨ (x.pairAt addr).isSome then (d.counted r (!idle && w != 0)).respond 0 0
      else d.outside r true

/-- A write of a partition-table entry, at offset `off` of entry p. -/
def Dev.entryWrite (d : Dev) (n : Nat) (r : Requester) (p : PartId) (off : Nat) (w : Word) : Dev :=
  if secField off then
    match r with
    | .cfg _ | .unknown _ => d.bumpOp.respond 0 0
    | .sec =>
      match (d.part p).cfg.secWrite off w with
      | some c => (d.modPart p fun x => { x with cfg := c }).done
      | none => d.refuse
  else d.partWrite n r p (0x010000 + off) w

/-- A write of the ENG block (R340, R381, R431, Table 16.3). -/
def Dev.engWrite (d : Dev) (r : Requester) (off : Nat) (w : Word) : Dev :=
  if off = 0x80 ∧ isOp r then
    let sel : PartId := Fin.ofNat 16 (fld w 3 0)
    let d : Dev := match r with
      | .sec => { d with eng := { d.eng with secsel := sel } }
      | _ => { d with eng := { d.eng with opsel := sel } }
    (d.counted r (extra w 0xF)).respond 0 0
  else if 0x100 ≤ off ∧ off < 0x180 then
    match r with
    | .sec => d.respond 0 0
    | _ => d.bumpOp.respond 0 0
  else if off = 0x48 ∧ r = .sec then d.refuse
  else if (d.engRead r off).isSome then (d.counted r (w != 0)).respond 0 0
  else d.outside r true

/-- A write of a window word (R423, R424). -/
def Dev.windowWrite (d : Dev) (t : Nat) (r : Requester) (k : Window) (i w : Nat) (data : Word) : Dev :=
  match k with
  | .ledger =>
    if w < 3 then d.lgrStage r i w data
    else if w = 3 then d.lgrWrite3 r i data
    else match d.entryOf r .ledger i with
      | none => d.outside r true
      | some _ => ((d.modLatch r fun l => { l with snap := none }).counted r (ledgerRoBad w data)).respond 0 0
  | .member => if w = 0 then d.tableStage r false i data else d.memberWrite t r i data
  | .group => if w = 0 then d.tableStage r true i data else d.groupWrite t r i data

/-- A write of SEC_KEYGROUP, or of another SEC slot status (R340, Table 13.6). -/
def Dev.keyStatusWrite (d : Dev) (r : Requester) (addr : Nat) (w : Word) : Dev :=
  match r with
  | .sec => if addr = 0x0A0400 then Dev.done { d with keyWin := { d.keyWin with group := w.setWidth 32 } } else d.done
  | _ => d.bumpOp.respond 0 0

/-- A CFG or SEC write to a register without behaviour of its own (R11, R413 to R421, R431, R435). -/
def Dev.write (d : Dev) (n : Nat) (r : Requester) (addr : Nat) (w : Word) : Dev :=
  match windowOf addr with
  | some (k, i, j) => d.windowWrite n r k i j w
  | none =>
    if r = .sec ∧ 0x800000 ≤ addr then d.secWrite addr w
    else if addr < 0x010000 then d.engWrite r addr w
    else if addr < 0x020000 then
      if isOp r then
        if addr < 0x011000 then d.entryWrite n r (Fin.ofNat 16 (addr / 256)) (addr % 256) w else d.outside r true
      else if addr < 0x010100 then d.entryWrite n r (d.reqPart r) (addr % 256) w else d.outside r true
    else if addr / 65536 = 0xA ∧ (d.regRead r addr).isSome then d.keyStatusWrite r addr w
    else if addr = 0x070000 ∧ isOp r then
      (Dev.counted (Dev.regulate { d with dmp := d.dmp.writeCtrl w }) r (dmpCtrlBad w)).respond 0 0
    else if bankedAt addr then d.partWrite n r (d.reqPart r) addr w
    else if (d.regRead r addr).isSome then (d.counted r (w != 0)).respond 0 0
    else d.outside r true

/-- REGISTER_WRITE (R11, R400, R417). -/
def execRegisterWrite (t : Tick) (r : Requester) (addr : BitVec 24) (data : Word) (s : State) : Host.Outcome State Fault Refusal :=
  onDev t s fun n d => serve r addr.toNat d fun d => d.write n r addr.toNat data

/-! ## Registers with rows of their own -/

/-- RNG_SEED_HI_WRITE (R169): the staged seed is pending. -/
def execRngSeedHiWrite (t : Tick) (v : Requester) (data : Word) (s : State) : Host.Outcome State Fault Refusal :=
  onDev t s fun _ d => serve v 0 d fun d =>
    let p := d.reqPart v
    let d := d.respond 0 0
    if (d.part p).cfg.state = .free then d else d.modPart p fun x => { x with rng := x.rng.writeHi data }

/-- PROBE_START (R198, R425). -/
def execProbeStart (t : Tick) (v : Requester) (s : State) : Host.Outcome State Fault Refusal :=
  onDev t s fun _ d => serve v 0 d fun d =>
    let p := d.reqPart v
    let d := d.respond 0 0
    if (d.part p).cfg.state = .free then d else d.modPart p fun x => { x with rng := x.rng.startProbe }

/-- The probe done (R198). -/
def Rng.endProbe (g : Rng) : Rng :=
  match g.probeBusy with
  | some w => { g with probeOut := w, probeDone := true, probeBusy := none }
  | none => g

/-- PROBE_DONE (R198). -/
def execProbeDone (t : Tick) (p : PartId) (s : State) : Host.Outcome State Fault Refusal :=
  onDev t s fun _ d => d.modPart p fun x => { x with rng := x.rng.endProbe }

/-- RPT_TAIL_WRITE (R427). -/
def execRptTailWrite (t : Tick) (v : Requester) (data : BitVec 32) (s : State) : Host.Outcome State Fault Refusal :=
  onDev t s fun _ d => serve v 0 d fun d =>
    let p := d.reqPart v
    let d := d.respond 0 0
    if (d.part p).cfg.state = .free then d else d.modPart p fun x => { x with ring := x.ring.writeTail data }

/-- A record written to a ring in its coarsened form, or counted as dropped (R349, R427). -/
def Ring.put (q : Ring) (r : Rec) : Ring :=
  if (q.head - q.tail).toNat < 64 then { q with head := q.head + 1, slots := tabPut q.slots (q.head.toNat % 64) r.coarsen }
  else { q with dropped := q.dropped + 1 }

/-- RECORD_EMIT (R349, R406, R427): the oldest queued record crosses RPT uncoarsened and enters its partition's ring. -/
def execRecordEmit (t : Tick) (s : State) : Host.Outcome State Fault Refusal :=
  onDev t s fun _ d =>
    match d.rpt.queue with
    | [] => d
    | r :: q =>
      let d := { d with rpt := { d.rpt with queue := q, out := d.rpt.out ++ [r] } }
      match r.part with
      | none => d
      | some p =>
        if r.opOnly || (d.part p).cfg.state == .free then d else d.modPart p fun x => { x with ring := x.ring.put r }

/-! ## Debug (R407, R434, Table 16.15) -/

/-- A word of the debug space, none where the read does not succeed. -/
def debugWord (sb : StageBufs) (d : Dev) (addr : Nat) : Option Word :=
  let slice := addr / 2 ^ 25 % 16
  let open_ (p : Option PartId) : Bool := match p with | some p => (d.part p).cfg.opDebug | none => false
  let accs (f : ArraySt → Tab (BitVec 128)) : Option Word :=
    if addr / 2 ^ 18 % 128 = 0 ∧ addr % 8 = 0 ∧ open_ (d.ownerOf slice) then
      let a := tabGet ArraySt.reset d.arrays (4 * slice + addr / 2 ^ 16 % 4)
      some (BitVec.ofNat 64 ((tabGet 0 (f a) (addr / 16 % 4096)).toNat / 2 ^ (64 * (addr / 8 % 2))))
    else none
  match addr / 2 ^ 29 with
  | 0 =>
    if addr % 8 = 0 ∧ open_ (d.ownerOf slice) then
      some (BitVec.ofNat 64 (fieldLE (sbRead sb slice (addr % 2 ^ 25 / 512)) (addr % 512) 8))
    else none
  | 1 => accs (·.acc)
  | 2 => accs (·.latch)
  | 3 =>
    if addr % 8 = 0 ∧ addr / 2 ^ 16 % 2 ^ 13 = 0 then
      match d.rpt.queue[addr / 64 % 1024]? with
      | some r => if (r.part.isNone && unitKind r.unit == 0xF) || open_ r.part then some (r.word (addr / 8 % 8)) else none
      | none => none
    else none
  | _ => none

/-- A word of the telemetry space of the TEL/DBG port (R430), none where the read does not succeed: the TEL block and the slice windows
under the rules of the view. The operator's view of a partition is exact while its OP_PROFILE is 1, and coarsened like the tenant's
otherwise (R350, log entry 55). -/
def Dev.telPort (d : Dev) (v : View) (addr : Nat) : Option Word :=
  let r : Requester := .cfg v
  let op := isOp r
  if addr % 8 ≠ 0 then none
  else if addr / 65536 = 0x9 then
    if op ∧ (d.operRead addr).isSome then d.operRead addr
    else
      d.bankShown r fun x => d.telRead x (op && x.cfg.opProfile) (addr % 65536)
  else if 0x100000 ≤ addr ∧ addr < 0x200000 then
    let profile : Bool := match (d.sliceOf r ((addr - 0x100000) / 65536)).bind d.ownerOf with
      | some p => (d.part p).cfg.opProfile
      | none => true
    d.slcRead r (op && profile) addr
  else none

/-- DEBUG_READ (R407, R430, R434): a read of the TEL/DBG port in space 0 (telemetry) or 1 (debug). Only the response changes. -/
def execDebugRead (t : Tick) (v : Fin 32) (addr : TelAddr) (s : State) : Host.Outcome State Fault Refusal :=
  onAll t s fun _ w =>
    let word : Option Word :=
      if addr.space = 0 then (if h : v.val < 17 then w.2.telPort ⟨v.val, h⟩ addr.offset.toNat else none)
      else if v.val = 16 then debugWord w.1 w.2 addr.offset.toNat else none
    if w.2.deaf then (w.1, w.2.respond 0 2)
    else match word with
      | some x => (w.1, w.2.respond x 0)
      | none => (w.1, w.2.respond 0 1)

end Sys2Proof.Machine
end

