-- ==== Sys2Proof/Machine/Dispatch.lean ====
section
/-! DEFINITION. Which meaning each command has: one arm per row of spec/opcode_table.json. -/

namespace Sys2Proof.Machine
open Sys2Proof

/-- The effect of a command on everything but the queue. -/
def exec (i : Instr) (s : State) : Host.Outcome State Fault Refusal :=
  match i with
  | .powerGoodRise t => Sys2Proof.Machine.execPowerGoodRise t s
  | .powerGoodFall t dom => Sys2Proof.Machine.execPowerGoodFall t dom s
  | .engineReset t => Sys2Proof.Machine.execEngineReset t s
  | .resetRelease t => Sys2Proof.Machine.execResetRelease t s
  | .timeBaseLock t => Sys2Proof.Machine.execTimeBaseLock t s
  | .timeBaseLockTimeout t => Sys2Proof.Machine.execTimeBaseLockTimeout t s
  | .initialisation t f => Sys2Proof.Machine.execInitialisation t f s
  | .stokerFirstInstructions t => Sys2Proof.Machine.execStokerFirstInstructions t s
  | .startupEpoch t m => Sys2Proof.Machine.execStartupEpoch t m s
  | .startupBurnComplete t f => Sys2Proof.Machine.execStartupBurnComplete t f s
  | .timebaseLoss t strobe => Sys2Proof.Machine.execTimebaseLoss t strobe s
  | .epochBoundary t p m => Sys2Proof.Machine.execEpochBoundary t p m s
  | .grantMessage t m => Sys2Proof.Machine.execGrantMessage t m s
  | .grantLoss t => Sys2Proof.Machine.execGrantLoss t s
  | .emergencyThrottle t => Sys2Proof.Machine.execEmergencyThrottle t s
  | .throttleRelease t => Sys2Proof.Machine.execThrottleRelease t s
  | .sensorSample t l => Sys2Proof.Machine.execSensorSample t l s
  | .attemptAnchor t p => Sys2Proof.Machine.execAttemptAnchor t p s
  | .slotLaunch t p slot => Sys2Proof.Machine.execSlotLaunch t p slot s
  | .variantSelect t p variant => Sys2Proof.Machine.execVariantSelect t p variant s
  | .handshake t sl w c => Sys2Proof.Machine.execHandshake t sl w c s
  | .tileComplete t a => Sys2Proof.Machine.execTileComplete t a s
  | .drainComplete t a => Sys2Proof.Machine.execDrainComplete t a s
  | .tileVerdict t a => Sys2Proof.Machine.execTileVerdict t a s
  | .ashPacketWrite t p bind => Sys2Proof.Machine.execAshPacketWrite t p bind s
  | .sendLaunch t port => Sys2Proof.Machine.execSendLaunch t port s
  | .slotComplete t p slot => Sys2Proof.Machine.execSlotComplete t p slot s
  | .slotEndCheck t p slot => Sys2Proof.Machine.execSlotEndCheck t p slot s
  | .unitHangCheck t p slot unit idle => Sys2Proof.Machine.execUnitHangCheck t p slot unit idle s
  | .hostWindowStart t p slot => Sys2Proof.Machine.execHostWindowStart t p slot s
  | .hostWindowEnd t p slot => Sys2Proof.Machine.execHostWindowEnd t p slot s
  | .ledgerPoint t p => Sys2Proof.Machine.execLedgerPoint t p s
  | .commitPoint t p => Sys2Proof.Machine.execCommitPoint t p s
  | .decisionBeat t p => Sys2Proof.Machine.execDecisionBeat t p s
  | .contextSaveComplete t p e next => Sys2Proof.Machine.execContextSaveComplete t p e next s
  | .ledgerUpdateComplete t p => Sys2Proof.Machine.execLedgerUpdateComplete t p s
  | .holdLimitExpiry t p => Sys2Proof.Machine.execHoldLimitExpiry t p s
  | .arbitrationRerun t p => Sys2Proof.Machine.execArbitrationRerun t p s
  | .arbitrationResult t p item d3 => Sys2Proof.Machine.execArbitrationResult t p item d3 s
  | .inServiceBurn t a b => Sys2Proof.Machine.execInServiceBurn t a b s
  | .provingFail t f => Sys2Proof.Machine.execProvingFail t f s
  | .ledgerSweep t l => Sys2Proof.Machine.execLedgerSweep t l s
  | .stokerLockstep t addr => Sys2Proof.Machine.execStokerLockstep t addr s
  | .stokerRestartComplete t measured => Sys2Proof.Machine.execStokerRestartComplete t measured s
  | .firmwareActivation t => Sys2Proof.Machine.execFirmwareActivation t s
  | .memReadResponse t port id data tag err => Sys2Proof.Machine.execMemReadResponse t port id data tag err s
  | .memWriteAck t port id err => Sys2Proof.Machine.execMemWriteAck t port id err s
  | .linkDown t port => Sys2Proof.Machine.execLinkDown t port s
  | .linkUp t port => Sys2Proof.Machine.execLinkUp t port s
  | .tileCode t p k => Sys2Proof.Machine.execTileCode t p k s
  | .tileWide t p k => Sys2Proof.Machine.execTileWide t p k s
  | .tileP128 t p k => Sys2Proof.Machine.execTileP128 t p k s
  | .tilePf32 t p k => Sys2Proof.Machine.execTilePf32 t p k s
  | .stream t p k => Sys2Proof.Machine.execStream t p k s
  | .verdict t p k => Sys2Proof.Machine.execVerdict t p k s
  | .notice t p k => Sys2Proof.Machine.execNotice t p k s
  | .agreeStart t p k => Sys2Proof.Machine.execAgreeStart t p k s
  | .agreeWant t p k => Sys2Proof.Machine.execAgreeWant t p k s
  | .agreeHold t p k => Sys2Proof.Machine.execAgreeHold t p k s
  | .agreeResume t p k => Sys2Proof.Machine.execAgreeResume t p k s
  | .agreeReplace t p k => Sys2Proof.Machine.execAgreeReplace t p k s
  | .ledger t p k => Sys2Proof.Machine.execLedger t p k s
  | .ledgerRepairRequest t p k => Sys2Proof.Machine.execLedgerRepairRequest t p k s
  | .ledgerRepairAnswer t p k => Sys2Proof.Machine.execLedgerRepairAnswer t p k s
  | .state t p k => Sys2Proof.Machine.execState t p k s
  | .stateMerge t p bind rowTile level node => Sys2Proof.Machine.execStateMerge t p bind rowTile level node s
  | .sample t p k => Sys2Proof.Machine.execSample t p k s
  | .count t p k => Sys2Proof.Machine.execCount t p k s
  | .credit t p k => Sys2Proof.Machine.execCredit t p k s
  | .leaseRefused t p k => Sys2Proof.Machine.execLeaseRefused t p k s
  | .leaseChoice t p k => Sys2Proof.Machine.execLeaseChoice t p k s
  | .digest t p k => Sys2Proof.Machine.execDigest t p k s
  | .unknownPacket t p k => Sys2Proof.Machine.execUnknownPacket t p k s
  | .recordEmit t => Sys2Proof.Machine.execRecordEmit t s
  | .startGo t v => Sys2Proof.Machine.execStartGo t v s
  | .join t v => Sys2Proof.Machine.execJoin t v s
  | .cancel t v => Sys2Proof.Machine.execCancel t v s
  | .hostGo t v => Sys2Proof.Machine.execHostGo t v s
  | .loadImage t v => Sys2Proof.Machine.execLoadImage t v s
  | .loadComplete t p img memErr => Sys2Proof.Machine.execLoadComplete t p img memErr s
  | .stagePatch t v img memErr => Sys2Proof.Machine.execStagePatch t v img memErr s
  | .withdraw t v => Sys2Proof.Machine.execWithdraw t v s
  | .lgrHoldReplay t v => Sys2Proof.Machine.execLgrHoldReplay t v s
  | .lgrHoldCommit t v => Sys2Proof.Machine.execLgrHoldCommit t v s
  | .chkHoldReplay t v => Sys2Proof.Machine.execChkHoldReplay t v s
  | .chkHoldRegroup t v => Sys2Proof.Machine.execChkHoldRegroup t v s
  | .chkArbGo t v seq arbiter => Sys2Proof.Machine.execChkArbGo t v seq arbiter s
  | .ctxRegister t v index d img => Sys2Proof.Machine.execCtxRegister t v index d img s
  | .ctxDeregister t v index => Sys2Proof.Machine.execCtxDeregister t v index s
  | .ctxSave t v index d => Sys2Proof.Machine.execCtxSave t v index d s
  | .ctxRestore t v index d => Sys2Proof.Machine.execCtxRestore t v index d s
  | .ctxRestoreComplete t p slot0 slot1 => Sys2Proof.Machine.execCtxRestoreComplete t p slot0 slot1 s
  | .ctxSeal t v index d slots => Sys2Proof.Machine.execCtxSeal t v index d slots s
  | .rngSeedHiWrite t v data => Sys2Proof.Machine.execRngSeedHiWrite t v data s
  | .probeStart t v => Sys2Proof.Machine.execProbeStart t v s
  | .probeDone t p => Sys2Proof.Machine.execProbeDone t p s
  | .rptTailWrite t v data => Sys2Proof.Machine.execRptTailWrite t v data s
  | .ledgerWord0Read t r index => Sys2Proof.Machine.execLedgerWord0Read t r index s
  | .ledgerWordStage t r index word data => Sys2Proof.Machine.execLedgerWordStage t r index word data s
  | .ledgerWord3Write t r index data => Sys2Proof.Machine.execLedgerWord3Write t r index data s
  | .tableEntryWrite t r isGroup index word1 => Sys2Proof.Machine.execTableEntryWrite t r isGroup index word1 s
  | .loReadLatch t r addr => Sys2Proof.Machine.execLoReadLatch t r addr s
  | .registerWrite t r addr data => Sys2Proof.Machine.execRegisterWrite t r addr data s
  | .debugRead t v addr => Sys2Proof.Machine.execDebugRead t v addr s
  | .partitionAssign t p => Sys2Proof.Machine.execPartitionAssign t p s
  | .partitionReset t p => Sys2Proof.Machine.execPartitionReset t p s
  | .partitionResetComplete t p => Sys2Proof.Machine.execPartitionResetComplete t p s
  | .scrubStart t p => Sys2Proof.Machine.execScrubStart t p s
  | .partitionFree t p => Sys2Proof.Machine.execPartitionFree t p s
  | .fenceConfirm t sl data => Sys2Proof.Machine.execFenceConfirm t sl data s
  | .fwLock t bank measurement => Sys2Proof.Machine.execFwLock t bank measurement s
  | .fwClear t bank => Sys2Proof.Machine.execFwClear t bank s
  | .fwStart t => Sys2Proof.Machine.execFwStart t s
  | .fwSwap t => Sys2Proof.Machine.execFwSwap t s
  | .fwResetRestart t => Sys2Proof.Machine.execFwResetRestart t s
  | .keyInstall t cmd => Sys2Proof.Machine.execKeyInstall t cmd s
  | .keyZeroise t cmd => Sys2Proof.Machine.execKeyZeroise t cmd s
  | .testInstruction t secTestEn code => Sys2Proof.Machine.execTestInstruction t secTestEn code s
  | .ledgerClearComplete t p => Sys2Proof.Machine.execLedgerClearComplete t p s

end Sys2Proof.Machine
end

