-- ==== Sys2Proof/WellFormed.lean ====
section
/-! DEFINITION. Which commands are well formed: every string of bytes and every list has the length its port gives
it, and every number lies in its field. `exec` answers on ill-formed commands too. -/

namespace Sys2Proof

/-- The tick a command is stamped with (R226). -/
def Instr.tick : Instr → Tick
  | .powerGoodRise t => t
  | .powerGoodFall t _ => t
  | .engineReset t => t
  | .resetRelease t => t
  | .timeBaseLock t => t
  | .timeBaseLockTimeout t => t
  | .initialisation t _ => t
  | .stokerFirstInstructions t => t
  | .startupEpoch t _ => t
  | .startupBurnComplete t _ => t
  | .timebaseLoss t _ => t
  | .epochBoundary t _ _ => t
  | .grantMessage t _ => t
  | .grantLoss t => t
  | .emergencyThrottle t => t
  | .throttleRelease t => t
  | .sensorSample t _ => t
  | .attemptAnchor t _ => t
  | .slotLaunch t _ _ => t
  | .variantSelect t _ _ => t
  | .handshake t _ _ _ => t
  | .tileComplete t _ => t
  | .drainComplete t _ => t
  | .tileVerdict t _ => t
  | .ashPacketWrite t _ _ => t
  | .sendLaunch t _ => t
  | .slotComplete t _ _ => t
  | .slotEndCheck t _ _ => t
  | .unitHangCheck t _ _ _ _ => t
  | .hostWindowStart t _ _ => t
  | .hostWindowEnd t _ _ => t
  | .ledgerPoint t _ => t
  | .commitPoint t _ => t
  | .decisionBeat t _ => t
  | .contextSaveComplete t _ _ _ => t
  | .ledgerUpdateComplete t _ => t
  | .holdLimitExpiry t _ => t
  | .arbitrationRerun t _ => t
  | .arbitrationResult t _ _ _ => t
  | .inServiceBurn t _ _ => t
  | .provingFail t _ => t
  | .ledgerSweep t _ => t
  | .stokerLockstep t _ => t
  | .stokerRestartComplete t _ => t
  | .firmwareActivation t => t
  | .memReadResponse t _ _ _ _ _ => t
  | .memWriteAck t _ _ _ => t
  | .linkDown t _ => t
  | .linkUp t _ => t
  | .tileCode t _ _ => t
  | .tileWide t _ _ => t
  | .tileP128 t _ _ => t
  | .tilePf32 t _ _ => t
  | .stream t _ _ => t
  | .verdict t _ _ => t
  | .notice t _ _ => t
  | .agreeStart t _ _ => t
  | .agreeWant t _ _ => t
  | .agreeHold t _ _ => t
  | .agreeResume t _ _ => t
  | .agreeReplace t _ _ => t
  | .ledger t _ _ => t
  | .ledgerRepairRequest t _ _ => t
  | .ledgerRepairAnswer t _ _ => t
  | .state t _ _ => t
  | .stateMerge t _ _ _ _ _ => t
  | .sample t _ _ => t
  | .count t _ _ => t
  | .credit t _ _ => t
  | .leaseRefused t _ _ => t
  | .leaseChoice t _ _ => t
  | .digest t _ _ => t
  | .unknownPacket t _ _ => t
  | .recordEmit t => t
  | .startGo t _ => t
  | .join t _ => t
  | .cancel t _ => t
  | .hostGo t _ => t
  | .loadImage t _ => t
  | .loadComplete t _ _ _ => t
  | .stagePatch t _ _ _ => t
  | .withdraw t _ => t
  | .lgrHoldReplay t _ => t
  | .lgrHoldCommit t _ => t
  | .chkHoldReplay t _ => t
  | .chkHoldRegroup t _ => t
  | .chkArbGo t _ _ _ => t
  | .ctxRegister t _ _ _ _ => t
  | .ctxDeregister t _ _ => t
  | .ctxSave t _ _ _ => t
  | .ctxRestore t _ _ _ => t
  | .ctxRestoreComplete t _ _ _ => t
  | .ctxSeal t _ _ _ _ => t
  | .rngSeedHiWrite t _ _ => t
  | .probeStart t _ => t
  | .probeDone t _ => t
  | .rptTailWrite t _ _ => t
  | .ledgerWord0Read t _ _ => t
  | .ledgerWordStage t _ _ _ _ => t
  | .ledgerWord3Write t _ _ _ => t
  | .tableEntryWrite t _ _ _ _ => t
  | .loReadLatch t _ _ => t
  | .registerWrite t _ _ _ => t
  | .debugRead t _ _ => t
  | .partitionAssign t _ => t
  | .partitionReset t _ => t
  | .partitionResetComplete t _ => t
  | .scrubStart t _ => t
  | .partitionFree t _ => t
  | .fenceConfirm t _ _ => t
  | .fwLock t _ _ => t
  | .fwClear t _ => t
  | .fwStart t => t
  | .fwSwap t => t
  | .fwResetRestart t => t
  | .keyInstall t _ => t
  | .keyZeroise t _ => t
  | .testInstruction t _ _ => t
  | .ledgerClearComplete t _ => t

/-- The same command stamped at another tick. -/
def Instr.atTick (i : Instr) (t : Tick) : Instr :=
  match i with
  | .powerGoodRise _ => .powerGoodRise t
  | .powerGoodFall _ dom => .powerGoodFall t dom
  | .engineReset _ => .engineReset t
  | .resetRelease _ => .resetRelease t
  | .timeBaseLock _ => .timeBaseLock t
  | .timeBaseLockTimeout _ => .timeBaseLockTimeout t
  | .initialisation _ f => .initialisation t f
  | .stokerFirstInstructions _ => .stokerFirstInstructions t
  | .startupEpoch _ m => .startupEpoch t m
  | .startupBurnComplete _ f => .startupBurnComplete t f
  | .timebaseLoss _ strobe => .timebaseLoss t strobe
  | .epochBoundary _ p m => .epochBoundary t p m
  | .grantMessage _ m => .grantMessage t m
  | .grantLoss _ => .grantLoss t
  | .emergencyThrottle _ => .emergencyThrottle t
  | .throttleRelease _ => .throttleRelease t
  | .sensorSample _ l => .sensorSample t l
  | .attemptAnchor _ p => .attemptAnchor t p
  | .slotLaunch _ p slot => .slotLaunch t p slot
  | .variantSelect _ p variant => .variantSelect t p variant
  | .handshake _ s w c => .handshake t s w c
  | .tileComplete _ a => .tileComplete t a
  | .drainComplete _ a => .drainComplete t a
  | .tileVerdict _ a => .tileVerdict t a
  | .ashPacketWrite _ p bind => .ashPacketWrite t p bind
  | .sendLaunch _ port => .sendLaunch t port
  | .slotComplete _ p slot => .slotComplete t p slot
  | .slotEndCheck _ p slot => .slotEndCheck t p slot
  | .unitHangCheck _ p slot unit idle => .unitHangCheck t p slot unit idle
  | .hostWindowStart _ p slot => .hostWindowStart t p slot
  | .hostWindowEnd _ p slot => .hostWindowEnd t p slot
  | .ledgerPoint _ p => .ledgerPoint t p
  | .commitPoint _ p => .commitPoint t p
  | .decisionBeat _ p => .decisionBeat t p
  | .contextSaveComplete _ p e next => .contextSaveComplete t p e next
  | .ledgerUpdateComplete _ p => .ledgerUpdateComplete t p
  | .holdLimitExpiry _ p => .holdLimitExpiry t p
  | .arbitrationRerun _ p => .arbitrationRerun t p
  | .arbitrationResult _ p item d3 => .arbitrationResult t p item d3
  | .inServiceBurn _ a b => .inServiceBurn t a b
  | .provingFail _ f => .provingFail t f
  | .ledgerSweep _ l => .ledgerSweep t l
  | .stokerLockstep _ addr => .stokerLockstep t addr
  | .stokerRestartComplete _ measured => .stokerRestartComplete t measured
  | .firmwareActivation _ => .firmwareActivation t
  | .memReadResponse _ port id data tag err => .memReadResponse t port id data tag err
  | .memWriteAck _ port id err => .memWriteAck t port id err
  | .linkDown _ port => .linkDown t port
  | .linkUp _ port => .linkUp t port
  | .tileCode _ p k => .tileCode t p k
  | .tileWide _ p k => .tileWide t p k
  | .tileP128 _ p k => .tileP128 t p k
  | .tilePf32 _ p k => .tilePf32 t p k
  | .stream _ p k => .stream t p k
  | .verdict _ p k => .verdict t p k
  | .notice _ p k => .notice t p k
  | .agreeStart _ p k => .agreeStart t p k
  | .agreeWant _ p k => .agreeWant t p k
  | .agreeHold _ p k => .agreeHold t p k
  | .agreeResume _ p k => .agreeResume t p k
  | .agreeReplace _ p k => .agreeReplace t p k
  | .ledger _ p k => .ledger t p k
  | .ledgerRepairRequest _ p k => .ledgerRepairRequest t p k
  | .ledgerRepairAnswer _ p k => .ledgerRepairAnswer t p k
  | .state _ p k => .state t p k
  | .stateMerge _ p bind rowTile level node => .stateMerge t p bind rowTile level node
  | .sample _ p k => .sample t p k
  | .count _ p k => .count t p k
  | .credit _ p k => .credit t p k
  | .leaseRefused _ p k => .leaseRefused t p k
  | .leaseChoice _ p k => .leaseChoice t p k
  | .digest _ p k => .digest t p k
  | .unknownPacket _ p k => .unknownPacket t p k
  | .recordEmit _ => .recordEmit t
  | .startGo _ v => .startGo t v
  | .join _ v => .join t v
  | .cancel _ v => .cancel t v
  | .hostGo _ v => .hostGo t v
  | .loadImage _ v => .loadImage t v
  | .loadComplete _ p img memErr => .loadComplete t p img memErr
  | .stagePatch _ v img memErr => .stagePatch t v img memErr
  | .withdraw _ v => .withdraw t v
  | .lgrHoldReplay _ v => .lgrHoldReplay t v
  | .lgrHoldCommit _ v => .lgrHoldCommit t v
  | .chkHoldReplay _ v => .chkHoldReplay t v
  | .chkHoldRegroup _ v => .chkHoldRegroup t v
  | .chkArbGo _ v seq arbiter => .chkArbGo t v seq arbiter
  | .ctxRegister _ v index d img => .ctxRegister t v index d img
  | .ctxDeregister _ v index => .ctxDeregister t v index
  | .ctxSave _ v index d => .ctxSave t v index d
  | .ctxRestore _ v index d => .ctxRestore t v index d
  | .ctxRestoreComplete _ p slot0 slot1 => .ctxRestoreComplete t p slot0 slot1
  | .ctxSeal _ v index d slots => .ctxSeal t v index d slots
  | .rngSeedHiWrite _ v data => .rngSeedHiWrite t v data
  | .probeStart _ v => .probeStart t v
  | .probeDone _ p => .probeDone t p
  | .rptTailWrite _ v data => .rptTailWrite t v data
  | .ledgerWord0Read _ r index => .ledgerWord0Read t r index
  | .ledgerWordStage _ r index word data => .ledgerWordStage t r index word data
  | .ledgerWord3Write _ r index data => .ledgerWord3Write t r index data
  | .tableEntryWrite _ r isGroup index word1 => .tableEntryWrite t r isGroup index word1
  | .loReadLatch _ r addr => .loReadLatch t r addr
  | .registerWrite _ r addr data => .registerWrite t r addr data
  | .debugRead _ v addr => .debugRead t v addr
  | .partitionAssign _ p => .partitionAssign t p
  | .partitionReset _ p => .partitionReset t p
  | .partitionResetComplete _ p => .partitionResetComplete t p
  | .scrubStart _ p => .scrubStart t p
  | .partitionFree _ p => .partitionFree t p
  | .fenceConfirm _ s data => .fenceConfirm t s data
  | .fwLock _ bank measurement => .fwLock t bank measurement
  | .fwClear _ bank => .fwClear t bank
  | .fwStart _ => .fwStart t
  | .fwSwap _ => .fwSwap t
  | .fwResetRestart _ => .fwResetRestart t
  | .keyInstall _ cmd => .keyInstall t cmd
  | .keyZeroise _ cmd => .keyZeroise t cmd
  | .testInstruction _ secTestEn code => .testInstruction t secTestEn code
  | .ledgerClearComplete _ p => .ledgerClearComplete t p

/-- A packet: NLINES lines of 512 bytes, at most 16 lines but for those of Table 10.2 (R264), TYPE as its command says. -/
def Packet.wf (k : Packet) : Bool := k.payload.length == 512 * k.hdr.nLines.toNat

/-- A grant message covers the 65 domains (Table 15.7). -/
def GrantMsg.wf (m : GrantMsg) : Bool := m.domains.length == 65

/-- A context image has a whole header and tag (R362). -/
def CtxImage.wf (c : CtxImage) : Bool := c.header.length == 32 && c.tag.length == 16

/-- A context descriptor's numbers lie in their fields (Table 13.11). -/
def Descriptor.wf (d : Descriptor) : Bool :=
  decide (d.key < 256) && decide (d.quantum < 2 ^ 32) && decide (d.seg0 < 2 ^ 32) && decide (d.slotLen < 2 ^ 64)
    && decide (d.imageLen < 2 ^ 64) && decide (d.ctxAddr < 2 ^ 64) && decide (d.imageAddr < 2 ^ 64)

/-- Both slots of a context. -/
def CtxSlots.wf (c : CtxSlots) : Bool := c.slot0.wf && c.slot1.wf

/-- What the engine finds for a save. -/
def SaveFound.wf (e : SaveFound) : Bool := e.desc.wf && e.slots.wf

/-- The image is as long as its header says (Table 9.4). -/
def Image.wf (i : Image) : Bool := i.raw.length == i.header.length

/-- A voltage in millivolts and a temperature in 1/8 degrees fit their record fields (Table 11.9). -/
def Sample.wf (x : Sample) : Bool :=
  decide (x.mv < 2 ^ 16) && decide (-(2 ^ 15) ≤ x.temp ∧ x.temp < 2 ^ 15)

/-- One array's burn gives the 4,096 accumulators of two tiles (R378). -/
def ArrayBurn.wf (b : ArrayBurn) : Bool := b.accs.length == 8192

/-- A burn's findings. -/
def BurnFindings.wf (f : BurnFindings) : Bool := f.arrays.all ArrayBurn.wf && f.thirds.all fun x => x.2.wf

/-- A ledger finding names an entry, one of its eight words and a bit (R219). -/
def EccFinding.wf (f : EccFinding) : Bool :=
  decide (f.entry < Config.ledgerEntries) && decide (f.word < 8) && decide (f.bit < 256)

/-- Control-space addresses are multiples of 8 within 24 bits (R413). -/
def addrWf (a : BitVec 24) : Bool := a.toNat % 8 == 0

/-- Well-formed commands. -/
def Instr.wf : Instr → Bool
  | .powerGoodRise _ => true
  | .powerGoodFall _ _ => true
  | .engineReset _ => true
  | .resetRelease _ => true
  | .timeBaseLock _ => true
  | .timeBaseLockTimeout _ => true
  | .initialisation _ _ => true
  | .stokerFirstInstructions _ => true
  | .startupEpoch _ _ => true
  | .startupBurnComplete _ f => f.wf
  | .timebaseLoss _ _ => true
  | .epochBoundary _ _ _ => true
  | .grantMessage _ m => m.wf
  | .grantLoss _ => true
  | .emergencyThrottle _ => true
  | .throttleRelease _ => true
  | .sensorSample _ l => l.all Sample.wf
  | .attemptAnchor _ _ => true
  | .slotLaunch _ _ _ => true
  | .variantSelect _ _ _ => true
  | .handshake _ _ _ _ => true
  | .tileComplete _ _ => true
  | .drainComplete _ _ => true
  | .tileVerdict _ _ => true
  | .ashPacketWrite _ _ _ => true
  | .sendLaunch _ _ => true
  | .slotComplete _ _ _ => true
  | .slotEndCheck _ _ _ => true
  | .unitHangCheck _ _ _ _ _ => true
  | .hostWindowStart _ _ _ => true
  | .hostWindowEnd _ _ _ => true
  | .ledgerPoint _ _ => true
  | .commitPoint _ _ => true
  | .decisionBeat _ _ => true
  | .contextSaveComplete _ _ e next => e.wf && next.all fun c => c.desc.wf && c.image.wf && c.slot0.wf && c.slot1.wf
  | .ledgerUpdateComplete _ _ => true
  | .holdLimitExpiry _ _ => true
  | .arbitrationRerun _ _ => true
  | .arbitrationResult _ _ _ _ => true
  | .inServiceBurn _ _ _ => true
  | .provingFail _ _ => true
  | .ledgerSweep _ l => l.all EccFinding.wf
  | .stokerLockstep _ _ => true
  | .stokerRestartComplete _ _ => true
  | .firmwareActivation _ => true
  | .memReadResponse _ _ _ data _ _ => data.length == 512
  | .memWriteAck _ _ _ _ => true
  | .linkDown _ _ => true
  | .linkUp _ _ => true
  | .tileCode _ _ k => k.wf
  | .tileWide _ _ k => k.wf
  | .tileP128 _ _ k => k.wf
  | .tilePf32 _ _ k => k.wf
  | .stream _ _ k => k.wf
  | .verdict _ _ k => k.wf
  | .notice _ _ k => k.wf
  | .agreeStart _ _ k => k.wf
  | .agreeWant _ _ k => k.wf
  | .agreeHold _ _ k => k.wf
  | .agreeResume _ _ k => k.wf
  | .agreeReplace _ _ k => k.wf
  | .ledger _ _ k => k.wf
  | .ledgerRepairRequest _ _ k => k.wf
  | .ledgerRepairAnswer _ _ k => k.wf
  | .state _ _ k => k.wf
  | .stateMerge _ _ _ _ _ _ => true
  | .sample _ _ k => k.wf
  | .count _ _ k => k.wf
  | .credit _ _ k => k.wf
  | .leaseRefused _ _ k => k.wf
  | .leaseChoice _ _ k => k.wf
  | .digest _ _ k => k.wf
  | .unknownPacket _ _ k => k.wf
  | .recordEmit _ => true
  | .startGo _ _ => true
  | .join _ _ => true
  | .cancel _ _ => true
  | .hostGo _ _ => true
  | .loadImage _ _ => true
  | .loadComplete _ _ img _ => img.wf
  | .stagePatch _ _ img _ => img.wf
  | .withdraw _ _ => true
  | .lgrHoldReplay _ _ => true
  | .lgrHoldCommit _ _ => true
  | .chkHoldReplay _ _ => true
  | .chkHoldRegroup _ _ => true
  | .chkArbGo _ _ _ _ => true
  | .ctxRegister _ _ _ d img => d.wf && (match img with | some i => i.wf | none => true)
  | .ctxDeregister _ _ _ => true
  | .ctxSave _ _ _ d => d.wf
  | .ctxRestore _ _ _ d => d.wf
  | .ctxRestoreComplete _ _ slot0 slot1 => slot0.wf && slot1.wf
  | .ctxSeal _ _ _ d slots => d.wf && slots.wf
  | .rngSeedHiWrite _ _ _ => true
  | .probeStart _ _ => true
  | .probeDone _ _ => true
  | .rptTailWrite _ _ _ => true
  | .ledgerWord0Read _ _ index => decide (index < Config.ledgerEntries)
  | .ledgerWordStage _ _ index _ _ => decide (index < Config.ledgerEntries)
  | .ledgerWord3Write _ _ index _ => decide (index < Config.ledgerEntries)
  | .tableEntryWrite _ _ isGroup index _ => decide (index < if isGroup then Config.groupEntries else Config.memberEntries)
  | .loReadLatch _ _ addr => addrWf addr
  | .registerWrite _ _ addr _ => addrWf addr
  | .debugRead _ _ _ => true
  | .partitionAssign _ _ => true
  | .partitionReset _ _ => true
  | .partitionResetComplete _ _ => true
  | .scrubStart _ _ => true
  | .partitionFree _ _ => true
  | .fenceConfirm _ _ _ => true
  | .fwLock _ _ measurement => measurement.length == 48
  | .fwClear _ _ => true
  | .fwStart _ => true
  | .fwSwap _ => true
  | .fwResetRestart _ => true
  | .keyInstall _ _ => true
  | .keyZeroise _ _ => true
  | .testInstruction _ _ _ => true
  | .ledgerClearComplete _ _ => true

end Sys2Proof
end

