-- ==== Sys2Proof/Certificates/Slice0/Obligations.lean ====
section
/-! DEFINITION. The statements about the engine: for every command what it does and what it leaves alone, and the invariants of a
step. A command completes when exec answers a next state; the helper definitions at the top say so once. -/

namespace Sys2Proof.Claims

open Sys2Proof Sys2Proof.Machine

/-! ## The shape of statements -/

/-- A command answers a next state that satisfies P. -/
def Answers (c : Instr) (s : State) (P : State → Prop) : Prop := ∃ s', exec c s = .next s' ∧ P s'

/-- Nothing but the tick and the units changed: the queue and the stage buffers are as before. -/
def UnitsOnly (t : Tick) (s s' : State) : Prop := s' = { s with now := max s.now t, dev := s'.dev }

/-- The tick is the later one and the units are d, the unchanged ones taken from s; the queue and the stage buffers are as before. -/
def UnitsAre (t : Tick) (s s' : State) (d : Dev) : Prop := s' = { s with now := max s.now t, dev := d }

/-- Every partition but p is as before. -/
def OthersSame (p : PartId) (s s' : State) : Prop := ∀ q, q ≠ p → s'.dev.part q = s.dev.part q

/-- Of the units, partition p's registers and the response to a request changed at most. -/
def PartOnly (p : PartId) (t : Tick) (s s' : State) : Prop :=
  UnitsAre t s s' { s.dev with parts := s'.dev.parts, rsp := s'.dev.rsp } ∧ OthersSame p s s'

/-- Of the units, partition p, the report queue, the packets waiting to leave and the response to a request changed at most. -/
def PartAndFlue (p : PartId) (t : Tick) (s s' : State) : Prop :=
  s' = { s with now := max s.now t, dev := { s.dev with
    parts := s'.dev.parts, rpt := s'.dev.rpt, ports := s'.dev.ports, rsp := s'.dev.rsp } } ∧ OthersSame p s s'

/-- The job group of a partition names the member itself, as it is in force and as it was last written. -/
def NamesSelf (d : Dev) (p : PartId) : Prop :=
  (d.part p).self ∈ d.memberIds p
    ∧ (d.part p).self ∈ (d.listOf p (d.group p (d.part p).flu.jobGroup.toNat).written).map mIndex

/-- The member has sent RESUME with its outcome, two epochs after the present one (R249). -/
def Resumed (p : PartId) (s s' : State) (replay : Bool) : Prop :=
  (s'.dev.part p).agree.ownResume = true
    ∧ ((s.dev.part p).self, (s.dev.part p).sch.epoch.toNat + 2, replay) ∈ (s'.dev.part p).agree.resumes

end Sys2Proof.Claims

open Sys2Proof Sys2Proof.Machine Sys2Proof.Claims

/-! ## The step, the queue and reset -/

/-- A step runs the command at the front of the queue with the rest of the queue; on an empty queue the block idles
(the queue and the idling are the model's, log entry 1). -/
def Obligations.StepRunsFront : Prop :=
  (∀ (c : Instr) (s : State), step { s with pending := c :: s.pending } = exec c s)
    ∧ ∀ s : State, s.pending = [] → step s = .next s

/-- Every command completes in every state: it answers a next state with the queue as it was and the later of the two ticks as its tick.
There is no fault and no refusal (log entries 1 and 2). -/
def Obligations.EveryCommandAnswers : Prop :=
  ∀ (c : Instr) (s : State), Answers c s fun s' => s'.pending = s.pending ∧ s'.now = max s.now c.tick

/-- What reset leaves (R376, R389, R408, Tables 16.5 to 16.9): the engine in RESET with no fence, every supply enabled, no table
entry valid, no key, no partition assigned, no record queued, and the registers whose reset value is not zero. -/
def Obligations.ResetLeaves : Prop :=
  let d := State.reset.dev
  d.eng.phase = .reset ∧ (∀ i, d.fence i = 0) ∧ d.pwr.en = BitVec.allOnes 65
    ∧ (∀ i, (tabGet LedgerEntry.reset d.ledger i).valid = false) ∧ (∀ i, (tabGet KeySlot.reset d.keys i).valid = false)
    ∧ (∀ i, tabGet 0 d.members i = 0) ∧ (∀ i, tabGet GroupEntry.reset d.groups i = GroupEntry.reset)
    ∧ d.rpt.queue = [] ∧ State.reset.pending = []
    ∧ (∀ p, (d.part p).cfg.state = .free ∧ (d.part p).sch.state = .empty ∧ (d.part p).chk.holdEp = 4096
        ∧ (d.part p).sch.hostSlot = 0xFFFFFFFF#32 ∧ (d.part p).rng.seed = 0)
    ∧ ∀ a, memGet State.reset.sb.mem a = 0

/-- The stage buffers at reset are in canonical form. -/
def Obligations.ResetCanonical : Prop := State.reset.sb.wf = true

/-- Every step keeps the stage buffers in canonical form, so that equal contents are equal data: keys rise, and no byte, tag or bit
is listed at the value an unlisted one reads as. -/
def Obligations.StepKeepsCanonical : Prop :=
  ∀ s s' : State, s.sb.wf = true → step s = .next s' → s'.sb.wf = true

/-! ## Stage buffers (R19, R20, R64) -/

/-- A line that has not been written since the load reads as zeros, whatever its bytes hold (R19). A write of part of a line sets
its validity bit; the bytes written read as written, and the others as before, or as zero when the bit was clear. Every other line
reads as before. -/
def Obligations.StageBufferLines : Prop :=
  (∀ (sb : StageBufs) (first size slice line : Nat), first ≤ slice → slice < first + size → line < 65536 →
     sbRead (sbClearValid sb first size) slice line = List.replicate 512 0
     ∧ (sbClearValid sb first size).mem = sb.mem)
  ∧ (∀ (sb : StageBufs) (slice line off : Nat) (bs : List Byte) (tag : Option (BitVec 16)), off + bs.length ≤ 512 → line < 65536 →
       let w := sbWrite sb slice line off bs tag
       sbValid w slice line = true
       ∧ (∀ i, i < 512 → (sbRead w slice line).getD i 0
           = if off ≤ i ∧ i < off + bs.length then bs.getD (i - off) 0 else (sbRead sb slice line).getD i 0)
       ∧ tabGet 0 w.tag (lineKey slice line) = tag.getD 0
       ∧ ∀ slice' line', line' < 65536 → (slice', line') ≠ (slice, line) →
           sbRead w slice' line' = sbRead sb slice' line' ∧ sbValid w slice' line' = sbValid sb slice' line')

/-! ## Exact accumulation and the checker (R101 to R105, R297) -/

namespace Sys2Proof.Claims

/-- A number of handshakes of an array's dot units. -/
def dotsN : Nat → ArraySt → ArraySt
  | 0, x => x
  | n + 1, x => dotsN n x.dots

/-- An operand register as R100 and R103 let a group of 32 m elements stand in it: as many escape marks as integers, narrow integers
multiples of 512, and every integer of at most 8,388,607 in magnitude. -/
def regOk (m : Nat) (wide : Bool) (g : OpGroup) : Prop :=
  g.q.length = 32 * m ∧ g.esc.length = 32 * m ∧ g.wide = wide
    ∧ ∀ i < 32 * m, -(2 ^ 23) < g.q.getD i 0 ∧ g.q.getD i 0 < 2 ^ 23
        ∧ (wide = false → g.esc.getD i false = false → g.q.getD i 0 % 512 = 0)

/-- An array about to run a group: 64 registers a side, all of one group size, and the cursor at the start. -/
def groupReady (m : Nat) (wa wb : Bool) (x : ArraySt) : Prop :=
  0 < m ∧ m ≤ 4 ∧ x.gsum = [] ∧ x.limbI = 0 ∧ x.limbJ = 0 ∧ x.part = 0
    ∧ (∀ i < 64, regOk m wa (tabGet OpGroup.reset x.rowOp i)) ∧ ∀ j < 64, regOk m wb (tabGet OpGroup.reset x.colOp j)

/-- Handshakes of a group: one per 32 positions and limb pair (R13, R104). -/
def groupHandshakes (m : Nat) (wa wb : Bool) : Nat := m * (limbCount wa * limbCount wb)

end Sys2Proof.Claims

/-- The handshakes of a group add to each accumulator exactly the group contribution of R101, modulo 2^128; the limb passes and the
escape unit leave nothing out. The registers are free again and the next group follows. -/
def Obligations.GroupAddsContribution : Prop :=
  ∀ (m : Nat) (wa wb : Bool) (x : ArraySt), groupReady m wa wb x →
    let y := dotsN (groupHandshakes m wa wb) x
    (∀ k < 4096, tabGet 0 y.acc k = tabGet 0 x.acc k
        + BitVec.ofInt 128 (contribution (tabGet OpGroup.reset x.rowOp (k / 64)) (tabGet OpGroup.reset x.colOp (k % 64))))
    ∧ y.grp = x.grp + 1 ∧ y.gsum = [] ∧ y.rowOp = [] ∧ y.colOp = [] ∧ y.limbI = 0 ∧ y.limbJ = 0 ∧ y.part = 0
    ∧ y.tile = x.tile ∧ y.latch = x.latch ∧ y.drained = x.drained ∧ y.judges = x.judges

/-- The checker's reference sums equal the sums of the accumulators after every group, if they did before: an array and a checker
without a fault give a positive verdict (R297). -/
def Obligations.CheckerAgrees : Prop :=
  ∀ (m : Nat) (wa wb : Bool) (x : ArraySt), groupReady m wa wb x →
    let refs (z : ArraySt) : List (BitVec 128) :=
      (List.range 64).map (fun i => tabGet 0 z.tapRow i) ++ (List.range 64).map fun i => tabGet 0 z.tapCol i
    refs x = tileSums x.acc →
    let y := dotsN (groupHandshakes m wa wb) x
    refs y = tileSums y.acc

/-! ## Power-good, reset and start-up (R229, R375 to R386, R389, R409) -/

/-- ENGINE_RESET delivers the queued records and then resets every unit; input pins, straps and what has left the engine stay, and
the stage buffers are left to initialisation (R376, R389). That every queued record is delivered is the model's choice (log entry 30: R389
loses what is still queued after 100 us). POWER_GOOD_RISE shows power-good in every domain (R375 step 1). A fall in
the control domain resets the engine, which then waits for a power cycle; a fall in an enabled array domain outside RESET requests
the array's fence (R409). In RESET, with sec_test_en high, a TEST instruction but WS_BYPASS is the wrapper's and clears every key, seed and
firmware bank; without sec_test_en the wrapper falls back to WS_BYPASS; outside RESET no instruction has an effect (R410, R411). When
the clearing ends and what of the wrapper is visible are the model's choice (log entry 34). -/
def Obligations.PowerAndReset : Prop :=
  (∀ (t : Tick) (s : State), Answers (.engineReset t) s fun s' =>
     UnitsOnly t s s' ∧ s'.dev.eng.phase = .reset ∧ s'.dev.rpt.out = s.dev.rpt.out ++ s.dev.rpt.queue ∧ s'.dev.rpt.queue = []
     ∧ s'.dev.parts = [] ∧ s'.dev.ledger = [] ∧ s'.dev.members = [] ∧ s'.dev.groups = [] ∧ s'.dev.keys = []
     ∧ s'.dev.eng.fences = [] ∧ s'.dev.memReads = [] ∧ s'.dev.memWrites = [] ∧ s'.dev.arrays = []
     ∧ s'.dev.straps = s.dev.straps ∧ s'.dev.pwr.good = s.dev.pwr.good ∧ s'.dev.secOut = s.dev.secOut
     ∧ s'.dev.flueOut = s.dev.flueOut ∧ ∀ i < 32, (tabGet FluePort.reset s'.dev.ports i).up = (tabGet FluePort.reset s.dev.ports i).up)
  ∧ (∀ (t : Tick) (s : State),
       exec (.powerGoodRise t) s = .next
           { s with now := max s.now t, dev := { s.dev with pwr := { s.dev.pwr with good := BitVec.allOnes 65 } } }
       ∧ (∀ dom : Fin 65, dom.val = 64 → Answers (.powerGoodFall t dom) s fun s' =>
           UnitsOnly t s s' ∧ s'.dev.eng.phase = .reset ∧ s'.dev.eng.awaitCycle = true ∧ s'.dev.pwr.good.getLsbD 64 = false
           ∧ s'.dev.parts = [] ∧ s'.dev.ledger = [] ∧ s'.dev.keys = [] ∧ s'.dev.eng.fences = [] ∧ s'.dev.rpt.queue = []
           ∧ s'.dev.straps = s.dev.straps)
       ∧ (∀ dom : Fin 65, dom.val < 64 → s.dev.pwr.en.getLsbD dom.val = true → s.dev.eng.phase ≠ .reset →
           Answers (.powerGoodFall t dom) s fun s' =>
             UnitsAre t s s' { s.dev with pwr := s'.dev.pwr, eng := s'.dev.eng, secOut := s'.dev.secOut, rpt := s'.dev.rpt,
                                          ports := s'.dev.ports, parts := s'.dev.parts }
             ∧ s'.dev.eng.fences = s.dev.eng.fences ∧ s'.dev.eng.fenceReqs = s.dev.eng.fenceReqs ++ [(arrayUnit dom.val, none)]
             ∧ s'.dev.secOut.getLast? = some (.fence (arrayUnit dom.val))
             ∧ ∀ k < 65, s'.dev.pwr.good.getLsbD k = (s.dev.pwr.good.getLsbD k && k != dom.val))
       ∧ (∀ code, s.dev.eng.phase = .reset → code ≠ wsBypass → Answers (.testInstruction t true code) s fun s' =>
         UnitsOnly t s s' ∧ s'.dev.keys = [] ∧ s'.dev.eng.testMode = true ∧ s'.dev.eng.wrapper = code
         ∧ (∀ b, s'.dev.stk.bank b = Bank.reset)
         ∧ ∀ p, (s'.dev.part p).rng = Rng.reset)
       ∧ (∀ code, s.dev.eng.phase = .reset → exec (.testInstruction t false code) s = .next { s with now := max s.now t, dev :=
           { s.dev with eng := { s.dev.eng with wrapper := wsBypass } } })
       ∧ ∀ en code, s.dev.eng.phase ≠ .reset → exec (.testInstruction t en code) s = .next { s with now := max s.now t })

/-- The first steps of start-up (R375 steps 2, 3 and 6): release from reset under power-good, lock of the time base in its window or
the end of the wait for it, and the stoker pair's first instructions. INITIALISATION zeroes the stage buffers and every table
(R376), requests a fence for each stage buffer that cannot be read back, and moves on to FIRMWARE, or to NO_SERVICE with cause 2
when a table store fails. -/
def Obligations.StartupAdvances : Prop :=
  (∀ (t : Tick) (s : State),
     let n := max s.now t
     (s.dev.eng.phase = .reset → s.dev.pwr.good = BitVec.allOnes 65 → s.dev.eng.awaitCycle = false → s.dev.eng.testMode = false →
       exec (.resetRelease t) s = .next { s with now := n, dev := { s.dev with
         eng := { s.dev.eng with phase := .init, releasedAt := n, tbLocked := false } } })
     ∧ (s.dev.eng.phase = .init → s.dev.eng.releasedAt + 4096 ≤ n → n < s.dev.eng.releasedAt + 10000000 →
       exec (.timeBaseLock t) s = .next { s with now := n, dev := { s.dev with eng := { s.dev.eng with tbLocked := true } } })
     ∧ (s.dev.eng.phase = .init → s.dev.eng.tbLocked = false → s.dev.eng.releasedAt + 10000000 ≤ n →
       exec (.timeBaseLockTimeout t) s = .next { s with now := n, dev := { s.dev with
         eng := { s.dev.eng with phase := .noService, cause := 1 } } })
     ∧ (s.dev.eng.phase = .firmware → s.dev.stk.running = true →
       exec (.stokerFirstInstructions t) s = .next { s with now := n, dev := { s.dev with
         eng := { s.dev.eng with phase := .budget, cause := 0 } } }))
  ∧ (∀ (t : Tick) (f : InitFindings) (s : State), s.dev.eng.phase = .init → s.dev.eng.tbLocked = true →
       Answers (.initialisation t f) s fun s' =>
         s' = { s with now := max s.now t, sb := StageBufs.reset, dev := s'.dev }
         ∧ s'.dev.ledger = [] ∧ s'.dev.members = [] ∧ s'.dev.groups = [] ∧ s'.dev.keys = [] ∧ s'.dev.parts = [] ∧ s'.dev.arrays = []
         ∧ s'.dev.eng.phase = (if f.tableBad then .noService else .firmware) ∧ s'.dev.eng.cause = (if f.tableBad then 2 else 0)
         ∧ (∀ x ∈ f.sbBad, (unitOf x.val 5 0, none) ∈ s'.dev.eng.fenceReqs) ∧ s'.dev.eng.fences = s.dev.eng.fences
         ∧ s'.dev.straps = s.dev.straps)

/-- The start-up epochs (R375 steps 7 to 10, R377): in BUDGET without a grant a request for two epochs ahead goes out; the granted
epoch begins the burn; a judged burn whose fences are set ends in READY, or in NO_SERVICE with cause 5 where the minimum service set is not
there (R386). The end of the burn judges it (R380): a fence is requested of every array, checker, station and stage buffer that fails, for a
row unit of the array of its index, and a shared unit that is broken is missing from the minimum service set. An array whose domain had been
off is no longer fenced for that (R338). -/
def Obligations.StartupBurnRuns : Prop :=
  ∀ (t : Tick) (m : List Measure) (f : BurnFindings) (s : State),
    let n := max s.now t
    let e := n / 1048576
    (n % 1048576 = 0 → s.dev.eng.phase = .budget → s.dev.dmp.throttle = false → s.dev.eng.burn.granted = none →
      (∀ r, s.dev.eng.burn.firstReq = some r → e < r + 64) →
      Answers (.startupEpoch t m) s fun s' =>
        UnitsAre t s s' { s.dev with eng := s'.dev.eng, dmp := s'.dev.dmp }
        ∧ s'.dev.eng.phase = .budget ∧ s'.dev.eng.burn.firstReq = some (s.dev.eng.burn.firstReq.getD e)
        ∧ ∃ r, s'.dev.dmp.reqs = s.dev.dmp.reqs ++ [r] ∧ r.start = (e + 2) * 1048576 ∧ r.len = 1048576 ∧ r.src = 0xFF)
    ∧ (n % 1048576 = 0 → s.dev.eng.phase = .budget → s.dev.dmp.throttle = false → s.dev.eng.burn.granted = some e →
      Answers (.startupEpoch t m) s fun s' =>
        UnitsAre t s s' { s.dev with eng := s'.dev.eng, dmp := s'.dev.dmp }
        ∧ s'.dev.eng.phase = .burn ∧ s'.dev.eng.burn.judged = false)
    ∧ (n % 1048576 = 0 → s.dev.eng.phase = .burn → s.dev.eng.burn.judged = true → s.dev.eng.fenceReqs = [] →
      Answers (.startupEpoch t m) s fun s' =>
        UnitsAre t s s' { s.dev with eng := s'.dev.eng, dmp := s'.dev.dmp, secOut := s'.dev.secOut, rpt := s'.dev.rpt }
        ∧ s'.dev.eng.arraysOk = arraysUp s.dev.eng.fences ∧ s'.dev.eng.fences = s.dev.eng.fences
        ∧ (s.dev.minService = true → s'.dev.eng.phase = .ready ∧ s'.dev.eng.cause = 0)
        ∧ (s.dev.minService = false → s'.dev.eng.phase = .noService ∧ s'.dev.eng.cause = 5))
    ∧ (s.dev.eng.phase = .burn → s.dev.eng.burn.judged = false →
      Answers (.startupBurnComplete t f) s fun s' =>
        UnitsAre t s s' { s.dev with eng := s'.dev.eng, pwr := s'.dev.pwr, secOut := s'.dev.secOut, rpt := s'.dev.rpt }
        ∧ s'.dev.eng.phase = .burn ∧ s'.dev.eng.burn.judged = true
        ∧ s'.dev.pwr.wasOff = (s.dev.pwr.wasOff.filter fun a => s.dev.fenceSet (arrayUnit a)) ∧ s'.dev.eng.fences = s.dev.eng.fences
        ∧ (∀ a < 64, s.dev.fenceSet (arrayUnit a) = false → (judgeArray f a).isSome →
            ∃ q ∈ s'.dev.eng.fenceReqs, q.1 = arrayUnit a)
        ∧ (∀ x ∈ f.checkers, checkerFails f x = true → ∃ q ∈ s'.dev.eng.fenceReqs, q.1 = unitOf x.slice.val 4 0)
        ∧ (∀ x ∈ f.units, UnitBurn.fails x = true → ∃ q ∈ s'.dev.eng.fenceReqs, q.1 = burnFence x.unit)
        ∧ (∀ u ∈ f.broken, unitKind u ≠ 15 → ∃ q ∈ s'.dev.eng.fenceReqs, q.1 = burnFence u)
        ∧ ∀ u ∈ f.broken, unitKind u = 15 → u ∈ s'.dev.eng.sharedBad)

/-! ## Epochs, the damper and sensors (R223 to R225, R331 to R337) -/

/-- EPOCH_BOUNDARY: the partition's epoch begins at the tick. Its first epoch keeps the number agreed at the start; each later one
counts up by one. The stretch is the largest any member wants for the epoch (R223, R246). -/
def Obligations.EpochBoundaryCounts : Prop :=
  ∀ (t : Tick) (p : PartId) (m : List Measure) (s : State),
    let x := s.dev.part p
    let e := if x.sch.timed then x.sch.epoch.toNat + 1 else x.sch.epoch.toNat
    x.boundaryAt (max s.now t) = true → x.sch.timed = true ∨ x.agree.joining = false →
    Answers (.epochBoundary t p m) s fun s' =>
      UnitsAre t s s' { s.dev with dmp := s'.dev.dmp, rpt := s'.dev.rpt, ports := s'.dev.ports, parts := s'.dev.parts }
      ∧ OthersSame p s s'
      ∧ (s'.dev.part p).sch.epoch = BitVec.ofNat 64 e ∧ (s'.dev.part p).sch.epochTick = max s.now t
      ∧ (s'.dev.part p).sch.timed = true ∧ (s'.dev.part p).sch.stretch = x.stretchFor (s.dev.memberIds p) e
      ∧ (s'.dev.part p).sch.state = x.sch.state ∧ (s'.dev.part p).sch.step = x.sch.step

/-- GRANT_MESSAGE (R332, R333, R403): a message for a request of at most four epochs before sets the 65 ceilings and, when stamped before
START, the 65 grants, and ends the wait; one without its request, or late, counts and leaves every grant as it was. That it counts once in
each of the 65 domains is the model's choice (log entry 30: R333 and R403 say only that it is counted). GRANT_LOSS is noted after 16 epochs
without a grant, and before that changes nothing (R333). -/
def Obligations.GrantsTaken : Prop :=
  ∀ (t : Tick) (m : GrantMsg) (s : State),
    let n := max s.now t
    let found := s.dev.dmp.reqs.find? fun r => r.start == m.start && decide (s.dev.reqEpoch r n ≤ r.sentEpoch + 4)
    Answers (.grantMessage t m) s (fun s' =>
      s' = { s with now := n, dev := { s.dev with dmp := s'.dev.dmp, eng := s'.dev.eng } }
      ∧ (found.isSome → ∀ i < 65, tabGet 0xFFFF s'.dev.dmp.ceil i = (m.domains.getD i (0, 0)).2.toNat)
      ∧ (found.isSome → n < m.start → s'.dev.dmp.wait = 0 ∧ s'.dev.dmp.loss = false
          ∧ (∀ i < 65, tabGet 0 s'.dev.dmp.grant i = (m.domains.getD i (0, 0)).1.toNat)
          ∧ ∀ i < 65, (s'.dev.domTel i).late = (s.dev.domTel i).late)
      ∧ (found = none ∨ m.start ≤ n → s'.dev.eng = s.dev.eng ∧ s'.dev.dmp.wait = s.dev.dmp.wait ∧ s'.dev.dmp.loss = s.dev.dmp.loss
          ∧ s'.dev.dmp.grant = s.dev.dmp.grant ∧ ∀ i < 65, (s'.dev.domTel i).late = (s.dev.domTel i).late + 1)
      ∧ (found = none → s'.dev.dmp.ceil = s.dev.dmp.ceil))
    ∧ exec (.grantLoss t) s = .next
        { s with now := n, dev := { s.dev with dmp := { s.dev.dmp with loss := s.dev.dmp.loss || decide (16 ≤ s.dev.dmp.wait) } } }

/-- EMERGENCY_THROTTLE stamps the assertion. During start-up it takes the engine back to BUDGET (R377); otherwise it dooms the live
attempt of every running partition (R251, R336). Its release is stamped and ends the partitions' throttle holds (R249). -/
def Obligations.ThrottlePauses : Prop :=
  ∀ (t : Tick) (s : State),
    (s.dev.eng.phase = .budget ∨ s.dev.eng.phase = .burn → Answers (.emergencyThrottle t) s fun s' =>
      UnitsAre t s s' { s.dev with eng := s'.dev.eng, dmp := s'.dev.dmp, rpt := s'.dev.rpt }
      ∧ s'.dev.eng.phase = .budget ∧ s'.dev.eng.burn = ⟨none, none, false⟩
      ∧ s'.dev.dmp.throttle = true ∧ s'.dev.dmp.throttleAt = max s.now t)
    ∧ (s.dev.eng.phase ≠ .budget → s.dev.eng.phase ≠ .burn → Answers (.emergencyThrottle t) s fun s' =>
      UnitsAre t s s' { s.dev with dmp := s'.dev.dmp, rpt := s'.dev.rpt, ports := s'.dev.ports, parts := s'.dev.parts }
      ∧ s'.dev.dmp.throttle = true ∧ s'.dev.dmp.throttleAt = max s.now t
      ∧ ∀ p, (s.dev.part p).cfg.state = .assigned → (s.dev.part p).sch.state = .running → (s.dev.part p).att.live = true →
          (s'.dev.part p).att.doom.isSome)
    ∧ (s.dev.dmp.throttle = true → Answers (.throttleRelease t) s fun s' =>
      UnitsAre t s s' { s.dev with dmp := s'.dev.dmp, ports := s'.dev.ports, parts := s'.dev.parts }
      ∧ s'.dev.dmp.throttle = false ∧ s'.dev.dmp.releasedAt = max s.now t
      ∧ ∀ p, HoldCause.throttle ∉ (s'.dev.part p).sch.holds)

/-- SENSOR_SAMPLE stores the sample of every sensor it names (R337); the temperature of the control domain is the highest of the
array domains'. An enabled array domain below 0.65 V, under a slot that names its array, makes every tile of the array in the attempt
negative and dooms the attempt (R329). -/
def Obligations.SensorSampleStored : Prop :=
  ∀ (t : Tick) (l : List Sample) (s : State), (l.map fun x => x.dom).Nodup →
    Answers (.sensorSample t l) s fun s' =>
      UnitsAre t s s' { s.dev with dmp := s'.dev.dmp, rpt := s'.dev.rpt, ports := s'.dev.ports, parts := s'.dev.parts }
      ∧ (∀ x ∈ l, ∀ p, x.dom.val < 64 → x.mv < 650 → s.dev.pwr.en.getLsbD x.dom.val = true → s.dev.ownerOf (x.dom.val / 4) = some p →
          (s.dev.part p).uses (arrayUnit x.dom.val) = true →
          x.dom.val ∈ (s'.dev.part p).att.low
          ∧ ((s.dev.part p).att.live = true → x.dom.val ∉ (s.dev.part p).att.low → (s'.dev.part p).att.doom.isSome))
      ∧ (∀ x ∈ l, (s'.dev.domTel x.dom.val).mv = x.mv ∧ (x.dom.val < 64 → (s'.dev.domTel x.dom.val).temp = x.temp))
      ∧ (∀ i < 64, (s'.dev.domTel i).temp ≤ (s'.dev.domTel 64).temp)
      ∧ (∀ i < 65, i ∉ l.map (fun x => x.dom.val) → (s'.dev.domTel i).mv = (s.dev.domTel i).mv)

/-! ## Attempts and slots (R19, R203 to R206, R228, R232 to R244, R304, R306) -/

/-- ATTEMPT_ANCHOR: at beat 0 of the agreed epoch the next attempt begins. After a replay its number is one higher and the step the
same; after a commit the number is 0 and the step one higher; a first attempt keeps the step (R241, R242, R306). A last segment without a
slot on its timeline ends the program at once: DONE, or a switch to the contexts left in the rotation (the switch is the model's, log entry
28). While firmware is being activated a partition that holds waits for the next epoch (R357; the waiting is the model's, log entry 66). -/
def Obligations.AttemptAnchorBegins : Prop :=
  ∀ (t : Tick) (p : PartId) (s : State),
    let x := s.dev.part p
    s.dev.eng.phase = .ready → x.running = true → x.sch.nextAnchor = some x.sch.epoch.toNat → x.ctx.switching = false →
    (s.dev.stk.activating = true → x.sch.state = .held →
      exec (.attemptAnchor t p) s = .next { s with
        now := max s.now t, dev := s.dev.setPart p { x with sch := { x.sch with nextAnchor := some (x.sch.epoch.toNat + 1) } } })
    ∧ (s.dev.stk.activating = false ∨ x.sch.state ≠ .held → Answers (.attemptAnchor t p) s fun s' =>
      let y := s'.dev.part p
      UnitsAre t s s' { s.dev with pwr := s'.dev.pwr, groups := s'.dev.groups, arrays := s'.dev.arrays,
                                   stations := s'.dev.stations, ports := s'.dev.ports, parts := s'.dev.parts }
      ∧ OthersSame p s s'
      ∧ y.att.anchorEpoch = x.sch.epoch.toNat ∧ y.att.anchorTick = x.sch.epochTick
      ∧ y.att.slots = [] ∧ y.att.doom = none ∧ y.att.decision = none ∧ y.sch.epoch = x.sch.epoch
      ∧ (let ended := y.segment.any segIsLast && y.timeline.isEmpty
         (ended = false → y.sch.state = .running ∧ y.att.live = true ∧ y.sch.nextAnchor = none)
         ∧ (ended = true → y.att.live = false ∧ (y.sch.state = .done ∧ y.sch.nextAnchor = none
             ∨ y.sch.state = .running ∧ y.ctx.switching = true ∧ y.sch.nextAnchor = some (x.sch.epoch.toNat + 3))))
      ∧ (x.sch.outcomeReplay = true → x.sch.first = false → y.att.number = x.att.number + 1 ∧ y.att.limit = x.att.limit)
      ∧ (x.sch.outcomeReplay = false → y.att.number = 0 ∧ y.att.limit = 3)
      ∧ (x.sch.outcomeReplay = false → x.sch.first = false → y.sch.step = x.sch.step + 1)
      ∧ (x.sch.outcomeReplay = true ∨ x.sch.first = true → y.sch.step = x.sch.step ∧ y.sch.seg = x.sch.seg))

/-- SLOT_LAUNCH: at the start tick of its start beat a slot of the timeline whose units are in service and whose entries are valid
runs from that tick on (R22, R205, R228). A counting slot due before the ledger's update or clear is complete raises SLOT_OVERRUN, which
dooms the attempt (R206, R212); that it does not run, and that the slot's COUNTING flag makes a counting slot, are the model's choice (log
entry 44). -/
def Obligations.SlotLaunchRuns : Prop :=
  ∀ (t : Tick) (p : PartId) (slot : Nat) (s : State) (img : Image) (l : Slot) (b : Binding),
    let x := s.dev.part p
    let n := max s.now t
    x.ldr.image = some img → slotOf img slot = some l → bindOf img l.bind = some b → l.kind ≠ 6 →
    s.dev.launches p n l = true → x.att.onTimeline img x.sch.seg.toNat l = true → x.beatTick (x.att.startOf img l) = some n →
    x.att.run slot = none → (x.unitsOf l).any s.dev.fenced = false → s.dev.repairDue p = false →
    ((s.dev.firstLaunch p).ledgerLate p l = false → (s.dev.firstLaunch p).badEntry p (bindEntries img b) = none →
      Answers (.slotLaunch t p slot) s fun s' =>
        s'.pending = s.pending ∧ s'.now = n ∧ s'.dev.eng = s.dev.eng ∧ (l.kind ≠ 5 → s'.sb = s.sb ∧ OthersSame p s s')
        ∧ (s'.dev.part p).att.launched = true ∧ (s'.dev.part p).att.isRunning slot = true
        ∧ ∃ r, (s'.dev.part p).att.run slot = some r ∧ r.launched = n ∧ r.finished = [])
    ∧ ((s.dev.firstLaunch p).ledgerLate p l = true → Answers (.slotLaunch t p slot) s fun s' =>
        s'.pending = s.pending ∧ s'.now = n ∧ s'.sb = s.sb ∧ s'.dev.eng = s.dev.eng ∧ OthersSame p s s'
        ∧ (s'.dev.part p).att.run slot = none ∧ (s'.dev.part p).att.doom.isSome)

/-- VARIANT_SELECT: once per attempt, at the first beat of the window, the variant is selected or not from its conditions, and the
commit point moves with the selected shifts (R243, R244). -/
def Obligations.VariantSelectDecides : Prop :=
  ∀ (t : Tick) (p : PartId) (variant : Nat) (s : State) (img : Image) (g : Segment) (v : Variant),
    let x := s.dev.part p
    x.ldr.image = some img → x.segment = some g → variantOf img variant = some v → x.sch.state = .running → x.att.live = true →
    v.seg = g.key → (x.att.variants.any fun y => y.1 == variant) = false →
    x.beatTick (x.att.window img v).1 = some (max s.now t) → x.lgrUpdate = none →
    Answers (.variantSelect t p variant) s fun s' =>
      PartOnly p t s s' ∧ s'.dev.rsp = s.dev.rsp
      ∧ (s'.dev.part p).att.variants = x.att.variants ++ [(variant, s.dev.selects p v)]
      ∧ (segIsLast g = false → (s'.dev.part p).sch.commitEpoch
          = x.att.anchorEpoch + (s'.dev.part p).att.commitOff img g / 65536)

/-- SLOT_COMPLETE stamps the end of a slot's work. At the end beat, a slot completed before keeps its slack and stays; one that has
not is an overrun, which aborts it and dooms the attempt (R232, R234). UNIT_HANG_CHECK: a unit that is not idle 64 beats after its
slot's abort is hung: its partition is HALTED and its fence requested; a row unit goes with its array (R235). -/
def Obligations.SlotEndsInTime : Prop :=
  (∀ (t : Tick) (p : PartId) (slot : Nat) (s : State) (img : Image) (g : Segment) (l : Slot) (b : Binding) (r : SlotRun),
     let x := s.dev.part p
     let n := max s.now t
     x.ldr.image = some img → x.segment = some g → slotOf img slot = some l → bindOf img l.bind = some b → x.att.run slot = some r →
     (x.att.isRunning slot = true → r.memErr = false → workOver s.dev p img l b = true → s.dev.memPending p slot = none →
       s.dev.waitingPort p img b = none → Answers (.slotComplete t p slot) s fun s' =>
         PartAndFlue p t s s' ∧ ∃ r', (s'.dev.part p).att.run slot = some r' ∧ r'.done = some n ∧ r'.aborted = false)
     ∧ (x.running = true → x.att.live = true → l.kind ≠ 6 → x.att.onTimeline img g.key l = true →
       x.beatTick (x.att.endOf img l) = some n →
       (r.aborted = false → r.done = none → Answers (.slotEndCheck t p slot) s fun s' =>
         UnitsOnly t s s' ∧ OthersSame p s s' ∧ s'.dev.eng = s.dev.eng ∧ s'.dev.ledger = s.dev.ledger
          ∧ (s'.dev.part p).att.doom.isSome
         ∧ ∃ r', (s'.dev.part p).att.run slot = some r' ∧ r'.aborted = true)
       ∧ (r.aborted = false → ∀ c, r.done = some c → c < n → Answers (.slotEndCheck t p slot) s fun s' =>
         PartAndFlue p t s s' ∧ (s'.dev.part p).att.doom = x.att.doom
         ∧ tabGet noSlack (s'.dev.part p).tel.slack slot = min (n - c) (tabGet noSlack x.tel.slack slot))))
  ∧ (∀ (t : Tick) (p : PartId) (slot : Nat) (unit : UnitCode) (s : State) (img : Image) (l : Slot) (r : SlotRun),
       let x := s.dev.part p
       let named := if unitKind unit = 3 then unitOf (unitSlice unit) 0 (unitIdx unit) else unit
       x.ldr.image = some img → slotOf img slot = some l → x.att.run slot = some r → x.running = true ∨ x.sch.state = .done →
       r.aborted = true → x.beatTick (x.att.endOf img l + 64) = some (max s.now t) → (x.unitsOf l).contains named = true →
       (Answers (.unitHangCheck t p slot unit false) s fun s' =>
         UnitsAre t s s' { s.dev with eng := s'.dev.eng, secOut := s'.dev.secOut, rpt := s'.dev.rpt, ports := s'.dev.ports,
                                      parts := s'.dev.parts }
         ∧ OthersSame p s s' ∧ (s'.dev.part p).sch.state = .halted
         ∧ s'.dev.secOut = s.dev.secOut ++ [.fence unit] ∧ ∃ q ∈ s'.dev.eng.fenceReqs, q.1 = unit)
       ∧ exec (.unitHangCheck t p slot unit true) s = .next { s with now := max s.now t })

/-- Host windows (R166, R167): the first beat sets PENDING and the slot, a GO before the end is kept, and at the end both clear; without
a GO the end is an overrun. -/
def Obligations.HostWindowHandshake : Prop :=
  ∀ (t : Tick) (p : PartId) (v : Requester) (slot : Nat) (s : State) (img : Image) (l : Slot),
    let x := s.dev.part p
    let n := max s.now t
    x.ldr.image = some img → slotOf img slot = some l → l.kind = 6 → slot < 2 ^ 32 →
    (s.dev.launches p n l = true → x.att.onTimeline img x.sch.seg.toNat l = true → x.beatTick (x.att.startOf img l) = some n →
      Answers (.hostWindowStart t p slot) s fun s' => PartOnly p t s s' ∧ s'.dev.rsp = s.dev.rsp
        ∧ (s'.dev.part p).sch.hostPending = true ∧ (s'.dev.part p).sch.hostGo = false
        ∧ (s'.dev.part p).sch.hostSlot.toNat = slot)
    ∧ (x.running = true → x.att.live = true → x.sch.hostPending = true → x.sch.hostSlot.toNat = slot →
      x.att.onTimeline img x.sch.seg.toNat l = true → x.beatTick (x.att.endOf img l) = some n → Answers (.hostWindowEnd t p slot) s fun s' =>
        PartAndFlue p t s s' ∧ (s'.dev.part p).sch.hostPending = false ∧ (s'.dev.part p).sch.hostGo = false
        ∧ (x.sch.hostGo = true → (s'.dev.part p).att = { x.att with live := (s'.dev.part p).att.live })
        ∧ (x.sch.hostGo = false → (s'.dev.part p).att.doom.isSome))
    ∧ (s.dev.reqPart v = p → s.dev.hears v = true → x.sch.hostPending = true → x.sch.hostSlot.toNat = slot →
      (∀ e, x.beatTick (x.att.endOf img l) = some e → n < e) → Answers (.hostGo t v) s fun s' => PartOnly p t s s'
        ∧ (s'.dev.part p).sch.hostGo = true ∧ s'.dev.rsp = some ⟨0, 0⟩)

/-! ## Arrays, stations and the checker in a slot (R14 to R18, R104, R297 to R299) -/

/-- A handshake of an array's dot units is that of R104 on the array and touches no other array, line or table; a handshake that loads
an operand register puts the group in turn there. Both wait for landed packets (R279). -/
def Obligations.HandshakeRuns : Prop :=
  ∀ (t : Tick) (sl : SliceId) (a : Fin 4) (side : Bool) (i : Fin 64) (s : State) (j : Job) (tile : Tile),
    let k := 4 * sl.val + a.val
    let x := s.dev.array k
    x.tile = some tile → s.dev.job sl.val tile.slot (unitOf sl.val 0 a.val) = some j →
    (s.dev.part j.p).waitsFor j.img j.b = [] → x.grp < (tileRange j.b.kind tile).2 →
    (regsFull x.rowOp = true → regsFull x.colOp = true → Answers (.handshake t sl (.dots a) .ok) s fun s' =>
      UnitsOnly t s s' ∧ s'.dev.array k = x.dots ∧ (∀ b, b ≠ k → s'.dev.array b = s.dev.array b)
      ∧ s'.dev.ledger = s.dev.ledger ∧ s'.dev.stations = s.dev.stations ∧ s'.dev.eng = s.dev.eng)
    ∧ ∀ g f, x.limbI = 0 → x.limbJ = 0 → x.part = 0 → s.dev.groupFor j tile side i.val x.grp = some (g, f) →
      Answers (.handshake t sl (.load a side i) .ok) s fun s' =>
        UnitsAre t s s' { s.dev with arrays := s'.dev.arrays }
        ∧ tabGet OpGroup.reset (if side then (s'.dev.array k).rowOp else (s'.dev.array k).colOp) i.val = g
        ∧ (s'.dev.array k).acc = x.acc ∧ ∀ b, b ≠ k → s'.dev.array b = s.dev.array b

/-- TILE_COMPLETE: the accumulators move to the drain latches and are cleared, and the tile waits for its verdict with the sums of both
sides (R14, R15, R297). -/
def Obligations.TileCompleteMoves : Prop :=
  ∀ (t : Tick) (a : ArrayId) (s : State) (tile : Tile) (j : Job),
    let x := s.dev.array a.val
    x.tile = some tile → s.dev.job (a.val / 4) tile.slot (arrayUnit a.val) = some j → x.drained = none →
    (tileRange j.b.kind tile).2 ≤ x.grp →
    Answers (.tileComplete t a) s fun s' =>
      let y := s'.dev.array a.val
      UnitsAre t s s' { s.dev with arrays := s'.dev.arrays }
      ∧ (∀ b, b ≠ a.val → s'.dev.array b = s.dev.array b)
      ∧ y.latch = x.acc ∧ y.acc = [] ∧ y.drained = some tile ∧ y.tile = none
      ∧ ∃ q, y.judges = x.judges ++ [q] ∧ q.tile = tile ∧ q.failure = x.failure ∧ q.cause = (if x.overflow then some 0x10 else none)
          ∧ (q.sums.map fun z => z.1) = some (tileSums x.acc)

/-- DRAIN_COMPLETE of a product that leaves as P128 into a stage buffer: element k of the tile lies as 16 little-endian bytes from the
first line on that the binding names for the tile, no other line changes, and the latches are empty (R14, R54, R108). An egress station of
the slot must be in service (R382). -/
def Obligations.DrainWritesP128 : Prop :=
  ∀ (t : Tick) (a : ArrayId) (s : State) (tile : Tile) (j : Job) (w : WideRef) (sl line rt ct parts : Nat) (ka kb : Operand)
      (ch : Option Nat) (out : Output),
    let x := s.dev.array a.val
    x.drained = some tile → s.dev.job (a.val / 4) tile.slot (arrayUnit a.val) = some j → j.b.kind = .product ka kb rt ct parts ch out →
    j.out = .p128 w → w.place = .buf sl line → sendOf j.chain = none → s.dev.partials j tile = some [] → s.dev.egressFenced j = false →
    (∀ i < 64, (64 * tile.row + i < sideRows j.b.kind tile true → (s.dev.operandTs (s.dev.jobEnv s.sb j) j 0 (64 * tile.row + i)).isSome)
      ∧ (64 * tile.col + i < sideRows j.b.kind tile false → (s.dev.operandTs (s.dev.jobEnv s.sb j) j 1 (64 * tile.col + i)).isSome)) →
    (x.judges.any fun q => q.tile.tag == tile.tag && q.cause == some 0x10) = false → ∀ egress : Bool,
    Answers (.drainComplete t ⟨a, egress, .ok⟩) s fun s' =>
      let first := lineAddr ((s.dev.part j.p).slice sl) line + 512 * tileAt j.b.tiles tile.unit
      s'.pending = s.pending ∧ s'.now = max s.now t ∧ (s'.dev.array a.val).drained = none ∧ (s'.dev.array a.val).latch = []
      ∧ (∀ k < 4096, ∀ b < 16, memGet s'.sb.mem (first + 16 * k + b)
          = BitVec.ofNat 8 ((tabGet 0 x.latch k).toNat / 256 ^ b))
      ∧ (∀ c, c < first ∨ first + 65536 ≤ c → sbRead s'.sb (c / 33554432) (c / 512 % 65536) = sbRead s.sb (c / 33554432) (c / 512 % 65536))
      ∧ ∀ b, b ≠ a.val → s'.dev.array b = s.dev.array b

/-- TILE_VERDICT: a drained tile whose sums agree counts as positive and one open tile fewer is left; one whose sums differ dooms the
attempt (R299, R300). Sums that agree do not help a tile that an overflow, a stopped station or lost ash has made negative (R62, R66, R107),
nor, before the commit point, one of an array that fell below 0.65 V (R329); and what comes after the commit point is missing (Table 9.1).
The checker must be in service (R382). -/
def Obligations.TileVerdictJudges : Prop :=
  ∀ (t : Tick) (a : ArrayId) (s : State) (q : Judge) (j : Job) (d1 c1 : List (BitVec 128)),
    let x := s.dev.array a.val
    x.judges = [q] → x.drained = none → s.dev.tileJob q.tile = some j → q.sums = some (d1, c1) → q.failure = [] →
    s.dev.fenced (unitOf (a.val / 4) 4 0) = false →
    let att := (s.dev.part j.p).att
    let lost := (s.dev.part j.p).ashLost j q.tile
    let inTime := (s.dev.part j.p).inAttempt (max s.now t)
    (d1 = c1 → q.cause = none → lost = false → inTime = true → att.low.contains a.val = false → Answers (.tileVerdict t a) s fun s' =>
      s'.pending = s.pending ∧ s'.now = max s.now t ∧ (s'.dev.array a.val).judges = [] ∧ s'.dev.rpt = s.dev.rpt
      ∧ (s'.dev.part j.p).att.openTiles = att.openTiles - 1
      ∧ (s'.dev.part j.p).att.judged = att.judged ++ (judgedTiles j q.tile).map (·, a.val))
    ∧ (d1 = c1 → q.cause.isSome ∨ lost = true ∨ inTime = true ∧ att.low.contains a.val = true → Answers (.tileVerdict t a) s fun s' =>
      s'.pending = s.pending ∧ s'.now = max s.now t ∧ (s'.dev.array a.val).judges = []
      ∧ (s'.dev.part j.p).att.openTiles = att.openTiles - 1 ∧ (s'.dev.part j.p).att.judged = att.judged)
    ∧ (d1 = c1 → q.cause = none → lost = false → inTime = false → Answers (.tileVerdict t a) s fun s' =>
      s'.pending = s.pending ∧ s'.now = max s.now t ∧ (s'.dev.array a.val).judges = [] ∧ (s'.dev.part j.p).att = att)
    ∧ (d1 ≠ c1 → att.live = true → Answers (.tileVerdict t a) s fun s' =>
      s'.pending = s.pending ∧ s'.now = max s.now t ∧ (s'.dev.array a.val).judges = []
      ∧ (s'.dev.part j.p).att.doom.isSome ∧ (s'.dev.part j.p).att.openTiles = att.openTiles - 1)

/-- ASH_PACKET_WRITE of a stage-buffer stream: the next ash packet, its closing group known and its region not full, is written as one
line, and the stream moves on (R61, R62). With its region full nothing is written, the attempt is doomed, and no tile of the binding with a
group left unwritten counts as positive any more (R62). -/
def Obligations.AshPacketWritten : Prop :=
  ∀ (t : Tick) (p : PartId) (bind : Nat) (s : State) (j : Job) (r : SlotRun) (c : TensorRef) (i : Nat) (rows : Bool)
      (rot : Option Rotation) (pol : Option RowPolicy) (am : Option Place) (ifm : IFmt) (sl line : Nat),
    let x := s.dev.part p
    (x.att.slots.find? fun r => match s.dev.jobOf p r.key with | some j => j.b.key == bind | none => false) = some r →
    s.dev.jobOf p r.key = some j → quantStage j.chain = some (i, .quantOut (.code c) rows rot pol am ifm) →
    s.dev.egressFenced j = false → ∀ span, x.ashDue j.b.key c = some span →
    (c.ash = .buf sl line → (x.asm j.b.key).ashPackets < c.ashCap → Answers (.ashPacketWrite t p bind) s fun s' =>
      s'.pending = s.pending ∧ s'.now = max s.now t
      ∧ ((s'.dev.part p).asm j.b.key).ashPackets = (x.asm j.b.key).ashPackets + 1
      ∧ ((s'.dev.part p).asm j.b.key).nextAsh = (x.asm j.b.key).nextAsh + span
      ∧ sbValid s'.sb (x.slice sl) (line + (x.asm j.b.key).ashPackets) = true
      ∧ ∀ sl' line', line' < 65536 → line + (x.asm j.b.key).ashPackets < 65536 → (sl', line') ≠ (x.slice sl, line + (x.asm j.b.key).ashPackets) →
          sbRead s'.sb sl' line' = sbRead s.sb sl' line')
    ∧ (c.ashCap ≤ (x.asm j.b.key).ashPackets → x.att.live = true → Answers (.ashPacketWrite t p bind) s fun s' =>
      s'.pending = s.pending ∧ s'.now = max s.now t ∧ s'.sb = s.sb ∧ ((s'.dev.part p).asm j.b.key).overflow = true
      ∧ (s'.dev.part p).att.doom.isSome
      ∧ ∀ q ∈ (s'.dev.part p).att.judged, q.1.1 = j.b.key → (s'.dev.part p).ashLacks j q.1.2.1 (some q.1.2.2.1) = false)

/-! ## Flue ports and memory ports (R269, R284, R293, R393 to R398) -/

/-- LINK_UP shows the level at once and lets nothing go before the next anchor; LINK_DOWN on a port of a partition that may send
stops the port for the attempt, cuts off what it is sending, and dooms a live attempt (R293, R398). SEND_LAUNCH: the port's next packet, a
control packet first but a verdict behind the packets of its own tile (R277), leaves on a free context, which is held for 192 port clocks
and one for each flit of 256 bytes; no other port changes (R269, R284). That the hold ends at the launch's tick plus the quotient rounded up,
and that the packet counts as sent when it is launched, are the model's choice (log entry 53). A partition whose state lets nothing out, as
after a halt, sends nothing (R266). -/
def Obligations.FluePortsSend : Prop :=
  (∀ (t : Tick) (port : PortId) (s : State),
     let q := tabGet FluePort.reset s.dev.ports port.val
     (Answers (.linkUp t port) s fun s' =>
       UnitsAre t s s' { s.dev with ports := s'.dev.ports }
       ∧ tabGet FluePort.reset s'.dev.ports port.val = { q with up := true }
       ∧ ∀ k, k ≠ port.val → tabGet FluePort.reset s'.dev.ports k = tabGet FluePort.reset s.dev.ports k)
     ∧ (∀ p, q.up = true → s.dev.ownerOf (port.val / 2) = some p → (s.dev.part p).cfg.state = .assigned →
         mayFlue (s.dev.part p).sch.state = true → Answers (.linkDown t port) s fun s' =>
       PartAndFlue p t s s' ∧ (tabGet FluePort.reset s'.dev.ports port.val).up = false
       ∧ (tabGet FluePort.reset s'.dev.ports port.val).stopped = true
       ∧ (∀ x ∈ q.sending, max s.now t < x.1 → x.2.part = p →
           x ∉ (tabGet FluePort.reset s'.dev.ports port.val).sending ∧ (max s.now t, x.2) ∈ (tabGet FluePort.reset s'.dev.ports port.val).cut)
       ∧ ((s.dev.part p).att.live = true → (s'.dev.part p).att.doom.isSome)))
  ∧ (∀ (t : Tick) (port : PortId) (s : State) (w : Waiting) (i : Nat),
       let q := tabGet FluePort.reset s.dev.ports port.val
       let n := max s.now t
       q.up = true → q.stopped = false → s.dev.fenced (unitOf (port.val / 2) 7 (port.val % 2)) = false → q.next = some w →
       ((s.dev.part w.part).maySend = false → exec (.sendLaunch t port) s = .next { s with now := n })
       ∧ (q.freeContext n w.control = some i → q.contexts.length = 13 → (s.dev.part w.part).maySend = true →
       Answers (.sendLaunch t port) s fun s' =>
         let q' := tabGet FluePort.reset s'.dev.ports port.val
         s' = { s with now := n, dev := { s.dev with ports := s'.dev.ports, flueOut := s.dev.flueOut ++ [w] } }
         ∧ (∀ k, k ≠ port.val → tabGet FluePort.reset s'.dev.ports k = tabGet FluePort.reset s.dev.ports k)
         ∧ q'.waiting.length + 1 = q.waiting.length
         ∧ (∀ k y, q.waiting[k]? = some y → y.control = true → (q.waiting.take k).any y.speaksFor = false → w.control = true)
         ∧ (∃ k, q.waiting[k]? = some w ∧ (w.control = true → (q.waiting.take k).any w.speaksFor = false)) ∧ (w.control = false → i < 12)
         ∧ q'.contexts.getD i 0 = n + ceilDiv ((192 + ceilDiv (64 + w.pkt.payload.length) 256) * 1000) (max 1 s.dev.straps.flueMhz)
         ∧ ∀ k, k ≠ i → q'.contexts.getD k 0 = q.contexts.getD k 0))

/-- A memory read's response goes to the station that asked, and the identifier is free; a response with an error stops the slot. One to the
loader brings its line, or its error, and the loader reads on (R422). A write's acknowledgement frees its identifier (R393, R395). -/
def Obligations.MemoryAnswers : Prop :=
  ∀ (t : Tick) (port : PortId) (id : Fin 1024) (data : List Byte) (tag : BitVec 16) (s : State),
    (∀ r : MemRead, (s.dev.memReads.find? fun r => r.port == port && r.id == id) = some r → r.dropped = false →
      (r.loader = true → ∀ err : Fin 4, Answers (.memReadResponse t port id data tag err) s fun s' =>
        UnitsAre t s s' { s.dev with memReads := s'.dev.memReads, parts := s'.dev.parts } ∧ OthersSame r.part s s'
        ∧ (s'.dev.part r.part).ldr.lines.lookup r.index = some (padLine data)
        ∧ (s'.dev.part r.part).ldr.readErr = ((s.dev.part r.part).ldr.readErr || decide (err ≠ 0))
        ∧ (s'.dev.part r.part).sch = (s.dev.part r.part).sch)
      ∧ (r.loader = false → s.dev.fenced (unitOf (r.station / 2) 1 (r.station % 2)) = false →
      (Answers (.memReadResponse t port id data tag 0) s fun s' =>
        UnitsAre t s s' { s.dev with memReads := s'.dev.memReads, stations := s'.dev.stations }
        ∧ (s'.dev.memReads.all fun y => !(y.port == port && y.id == id)) = true
        ∧ (⟨r.part, r.slot, r.opnd, r.kind, r.index, padLine data, tag, []⟩ : StLine)
            ∈ (tabGet Station.reset s'.dev.stations r.station).lines
        ∧ ∀ k, k ≠ r.station → tabGet Station.reset s'.dev.stations k = tabGet Station.reset s.dev.stations k)
      ∧ ∀ err : Fin 4, err ≠ 0 → Answers (.memReadResponse t port id data tag err) s fun s' =>
        UnitsAre t s s' { s.dev with memReads := s'.dev.memReads, memWrites := s'.dev.memWrites, parts := s'.dev.parts }
        ∧ OthersSame r.part s s'
        ∧ ∀ y ∈ (s'.dev.part r.part).att.slots, y.key = r.slot → y.memErr = true))
    ∧ ∀ w : MemWrite, (s.dev.memWrites.find? fun w => w.port == port && w.id == some id) = some w →
      (∀ y ∈ s.dev.memWrites, y.port = port → y.id.isSome) →
      Answers (.memWriteAck t port id 0) s fun s' =>
        UnitsAre t s s' { s.dev with memWrites := s'.dev.memWrites, memReads := s'.dev.memReads, parts := s'.dev.parts }
        ∧ ((s.dev.part w.part).sch.state ≠ .loading → s'.dev.memReads = s.dev.memReads ∧ s'.dev.parts = s.dev.parts)
        ∧ (s'.dev.memWrites.all fun y => !(y.port == port && y.id == some id)) = true
        ∧ ∀ y ∈ s.dev.memWrites, !(y.port == port && y.id == some id) = true → y ∈ s'.dev.memWrites

/-! ## The ledger (R203 to R221, R285) -/

/-- LEDGER_POINT: at its beat a member of an undoomed attempt gives its own record of every touched entry, in list order, to the
exchange (R207, R208). LEDGER_CLEAR_COMPLETE lets counting slots go (R206). LEDGER: records of another member that agree with the
receiver's list join the exchange; one that names another entry or tensor, or lies past the list's end, is STREAM_SKEW and dooms the
attempt (R208); records that come at or after the commit point are missing (Table 9.1). -/
def Obligations.LedgerRecordsExchanged : Prop :=
  (∀ (t : Tick) (p : PartId) (s : State),
     let x := s.dev.part p
     (∀ (img : Image) (g : Segment), x.ldr.image = some img → x.segment = some g → x.sch.state = .running → x.att.live = true →
         segIsLast g = false → x.att.pointSent = false → x.att.doom = none →
         x.beatTick (x.att.ledgerOff img g) = some (max s.now t) → Answers (.ledgerPoint t p) s fun s' =>
       UnitsAre t s s' { s.dev with ledger := s'.dev.ledger, ports := s'.dev.ports, parts := s'.dev.parts }
       ∧ OthersSame p s s' ∧ (∀ i, i ∉ x.touched → s'.dev.lgr p i = s.dev.lgr p i)
       ∧ (s'.dev.part p).att.pointSent = true
       ∧ (s'.dev.part p).sch = x.sch
       ∧ (s'.dev.part p).att.exchange = x.att.exchange
           ++ ((List.range x.touched.length).zip x.touched).map fun ie => exRecOf x.self ie.1 ie.2 (s.dev.lgr p ie.2))
     ∧ (x.att.launched = true → Answers (.ledgerClearComplete t p) s fun s' =>
       PartOnly p t s s' ∧ s'.dev.rsp = s.dev.rsp ∧ s'.dev.part p = { x with att := { x.att with clearDone := true } }))
  ∧ (∀ (t : Tick) (p : PartId) (k : Packet) (s : State),
       let x := s.dev.part p
       let n := max s.now t
       let pos := k.hdr.aux.toNat % 2 ^ 31
       let recs := ((List.range (8 * k.hdr.nLines.toNat)).map (readExRec (k.hdr.src.toNat % 8192) pos k.payload)).filter fun e =>
         decide (e.pos < x.touched.length) || !e.blank
       let differs (e : ExRec) : Bool := decide (x.touched.length ≤ e.pos) || e.entry != x.touched.getD e.pos 0
         || e.tid != (s.dev.lgr p (x.touched.getD e.pos 0)).tid
       (s.dev.recvChecks n p k).2 = true →
       (recs.find? differs = none → x.inAttempt n = false → exec (.ledger t p k) s = .next { s with now := n })
       ∧ (recs.find? differs = none → x.inAttempt n = true → x.att.pointSent = false → Answers (.ledger t p k) s fun s' =>
         PartOnly p t s s' ∧ s'.dev.rsp = s.dev.rsp
         ∧ s'.dev.part p = { x with att := { x.att with exchange := x.att.exchange
             ++ (recs.filter fun e => !x.att.exchange.any fun y => y.src == e.src && y.pos == e.pos) } })
       ∧ (∀ e, recs.find? differs = some e → x.att.live = true → Answers (.ledger t p k) s fun s' =>
         PartAndFlue p t s s' ∧ (s'.dev.part p).att.doom.isSome ∧ (s'.dev.part p).att.exchange = x.att.exchange))

/-- LEDGER_UPDATE_COMPLETE: every listed entry takes the update of R212, and under hardware fall-back the state of R213, from the latched
policy records; every other entry stays (R212, R213). -/
def Obligations.LedgerUpdateApplies : Prop :=
  ∀ (t : Tick) (p : PartId) (s : State) (u : LgrUpdate), (s.dev.part p).lgrUpdate = some u → u.entries.Nodup →
    let new (e : LedgerEntry) (tot : BitVec 32 × BitVec 3) : LedgerEntry :=
      let pol := u.policies.getD e.policy.toNat policyReset
      let f := { e with amax := tot.1, failCause := tot.2 }.update pol u.fb ((s.dev.part p).mode.getLsbD 0)
      let f := if u.setFb then f.fallback pol u.commit else f
      { f with amax := e.amax, failCause := e.failCause }
    Answers (.ledgerUpdateComplete t p) s fun s' =>
      UnitsAre t s s' { s.dev with ledger := s'.dev.ledger, parts := s'.dev.parts }
      ∧ OthersSame p s s' ∧ (s'.dev.part p).lgrUpdate = none ∧ (s'.dev.part p).att = (s.dev.part p).att
      ∧ ∀ i, s'.dev.lgr p i = match (u.entries.zip u.totals).lookup i with
          | some tot => new (s.dev.lgr p i) tot
          | none => s.dev.lgr p i

/-- LEDGER_SWEEP of one uncorrectable entry of a partition: the entry is not valid until repaired, and the sweep is noted (R220,
R221). Ledger repair (R220, R285): a request for a good entry of the list is answered to its sender; the answer restores every field
of the entry but the counters and AMAX, and no other entry. -/
def Obligations.LedgerEntriesRepaired : Prop :=
  (∀ (t : Tick) (f : EccFinding) (p : PartId) (i : Nat) (s : State), f.bad = true → s.dev.lgrOwner f.entry = some (p, i) →
     (s.dev.part p).att.eccEntries.any (fun e => e.1 == i) = false →
     Answers (.ledgerSweep t [f]) s fun s' =>
       UnitsOnly t s s' ∧ OthersSame p s s' ∧ (s'.dev.lgr p i).valid = false
       ∧ tabGet false s'.dev.ledgerBad ((s.dev.part p).cfg.lgrBase + i) = true
       ∧ s'.dev.stk.lastSweep = max s.now t / 1048576 ∧ (s'.dev.part p).att.eccEntries = (s.dev.part p).att.eccEntries ++ [(i, i + f.word * 2 ^ 16 + 255 * 2 ^ 24)]
       ∧ ((s.dev.part p).att.live = true → (s'.dev.part p).att.doom.isSome)
       ∧ ∀ e, e ≠ (s.dev.part p).cfg.lgrBase + i →
           tabGet LedgerEntry.reset s'.dev.ledger e = tabGet LedgerEntry.reset s.dev.ledger e)
  ∧ (∀ (t : Tick) (p : PartId) (k : Packet) (s : State),
       let x := s.dev.part p
       let i := k.hdr.aux.toNat % 2 ^ 15
       (s.dev.recvChecks (max s.now t) p k).2 = true →
       (∀ m, x.touched.contains i = true → tabGet false s.dev.ledgerBad (x.cfg.lgrBase + i) = false →
           ((s.dev.peers p).find? fun m => mIndex m == k.hdr.src.toNat % 8192) = some m → x.cfg.state = .assigned →
           mayFlue x.sch.state = true → Answers (.ledgerRepairRequest t p k) s fun s' =>
         UnitsAre t s s' { s.dev with ports := s'.dev.ports }
         ∧ ∃ w, (tabGet FluePort.reset s'.dev.ports (x.port 0)).waiting
               = (tabGet FluePort.reset s.dev.ports (x.port 0)).waiting ++ [w]
             ∧ w.control = true ∧ w.part = p ∧ w.chip = mChip m ∧ w.pkt.payload.take 64 = bytesLE 64 (s.dev.lgr p i).toBits)
       ∧ (i < x.cfg.lgrCount → tabGet false s.dev.ledgerBad (x.cfg.lgrBase + i) = true →
           Answers (.ledgerRepairAnswer t p k) s fun s' =>
         let e := s.dev.lgr p i
         let n := LedgerEntry.ofBits (fieldLE k.payload 0 64)
         UnitsAre t s s' { s.dev with ledger := s'.dev.ledger, ledgerBad := s'.dev.ledgerBad }
         ∧ tabGet false s'.dev.ledgerBad (x.cfg.lgrBase + i) = false
         ∧ s'.dev.lgr p i = { n with elements := e.elements, groups := e.groups, clipped := e.clipped, ashUsed := e.ashUsed,
                                     ashSat := e.ashSat, flushed := e.flushed, zeroGroups := e.zeroGroups, amax := e.amax }
         ∧ ∀ q, q ≠ x.cfg.lgrBase + i → tabGet LedgerEntry.reset s'.dev.ledger q = tabGet LedgerEntry.reset s.dev.ledger q))

/-- A saturating counter never passes 2^40 − 1, in local counting and in the exchange, and the counters that reach it are told for the
telemetry (R218). One that has reached it stays there until the clear of R206, which leaves scale, history and identity alone. -/
def Obligations.CountersSaturate : Prop :=
  let top := 1099511627775
  let counters : List ((LedgerEntry → BitVec 40) × (QStats → Nat)) :=
    [(fun e => e.elements, fun q => q.elements), (fun e => e.groups, fun q => q.groups), (fun e => e.clipped, fun q => q.clipped),
     (fun e => e.ashUsed, fun q => q.ashUsed), (fun e => e.ashSat, fun q => q.ashSat), (fun e => e.flushed, fun q => q.flushed),
     (fun e => e.zeroGroups, fun q => q.zeroGroups)]
  (∀ (e : LedgerEntry) (q : QStats),
    (∀ c ∈ counters, (c.1 (e.count q).1).toNat = min ((c.1 e).toNat + c.2 q) top ∧ c.1 e.clear = 0)
    ∧ (e.count q).2 = (counters.filter fun c => decide ((c.1 e).toNat < top ∧ top ≤ (c.1 e).toNat + c.2 q)).length
    ∧ e.clear.amax = 0 ∧ e.clear.failCause = 0 ∧ e.clear.hist = e.hist ∧ e.clear.ts32 = e.ts32
    ∧ e.clear.tid = e.tid ∧ e.clear.valid = e.valid)
  ∧ ∀ (a b : ExRec) (i : Nat), i < a.counts.length → i < b.counts.length →
      ((combineEx a b).1.counts.getD i 0).toNat = min ((a.counts.getD i 0).toNat + (b.counts.getD i 0).toNat) top

/-! ## Commit points, holds and contexts (R211, R217, R240, R249, R306 to R308, R365 to R371) -/

/-- COMMIT_POINT with the stoker pair running, in hardware modes and with nothing that holds: a doomed attempt below its limit decides
replay; an undoomed one with every verdict in, the exchange done, no digest due and no failing entry decides commit and begins the
ledger update. A member that goes on sets the setpoints of the attempt anchored there, whose grade is the one in force from then on (R328), and
a seed written before is due at the next step (R169). A stopped stoker pair decides nothing and holds (R211, R240, R302). -/
def Obligations.CommitPointDecides : Prop :=
  ∀ (t : Tick) (p : PartId) (s : State) (img : Image) (g : Segment),
    let x := s.dev.part p
    x.ldr.image = some img → x.segment = some g → x.sch.state = .running → x.att.live = true → segIsLast g = false →
    x.att.decision = none → x.sch.holds = [] → x.beatTick (x.att.commitOff img g) = some (max s.now t) →
    s.dev.dmp.throttle = false → x.att.noticeHold = false → x.mode = 0 →
    let grade := x.gradeFor (s.dev.memberIds p) x.sch.epoch.toNat
    let goesOn (s' : State) : Prop := UnitsAre t s s' { s.dev with pwr := s'.dev.pwr, rpt := s'.dev.rpt, ports := s'.dev.ports,
                                                                   parts := s'.dev.parts }
      ∧ OthersSame p s s' ∧ (s'.dev.part p).rng.ripe = x.rng.pending.isSome
      ∧ s'.dev.pwr = (s.dev.setGrade p grade).pwr ∧ (s'.dev.part p).sch.graded = grade
    (s.dev.stk.running = true → s.dev.stk.activating = false → x.att.doom.isSome → x.att.arb = false → s.dev.unrepaired p = none →
      x.att.number < x.att.limit → Answers (.commitPoint t p) s fun s' =>
        goesOn s' ∧ (s'.dev.part p).att.decision = some .replay ∧ (s'.dev.part p).sch.state = .running)
    ∧ (s.dev.stk.running = true → s.dev.stk.activating = false → x.att.arb = false → x.att.doom = none → x.att.noticeReplay = false →
      x.missingVerdict = false → x.att.exchangeDone = true → x.digestsDue = false →
      (x.touched.all fun i => (s.dev.lgr p i).failCause == 0) = true → Answers (.commitPoint t p) s fun s' =>
        goesOn s' ∧ (s'.dev.part p).att.decision = some .commit ∧ (s'.dev.part p).sch = { x.sch with graded := grade }
        ∧ (∃ u, (s'.dev.part p).lgrUpdate = some u ∧ u.entries = x.touched
            ∧ u.totals = x.touched.map (fun i => ((s.dev.lgr p i).amax, (s.dev.lgr p i).failCause)) ∧ u.commit = true ∧ u.setFb = true)
        ∧ s'.dev.rpt = s.dev.rpt)
    ∧ (s.dev.stk.running = false → Answers (.commitPoint t p) s fun s' =>
        PartAndFlue p t s s' ∧ (s'.dev.part p).att.decision = none ∧ (s'.dev.part p).sch.state = .held
        ∧ HoldCause.stoker ∈ (s'.dev.part p).sch.holds)

/-- DECISION_BEAT: the decision of a running partition becomes final, replay if the member decided replay or a notice said so, and the
next attempt is anchored at the commit epoch (R240, R241). -/
def Obligations.DecisionBecomesFinal : Prop :=
  ∀ (t : Tick) (p : PartId) (s : State) (img : Image) (g : Segment) (c : Decision),
    let x := s.dev.part p
    let replay := c == .replay || x.att.noticeReplay
    x.ldr.image = some img → x.segment = some g → x.sch.state = .running → x.att.live = true → x.att.final = false →
    segIsLast g = false → x.beatTick (x.att.commitOff img g + 8192) = some (max s.now t) → x.att.decision = some c →
    Answers (.decisionBeat t p) s fun s' =>
      PartOnly p t s s' ∧ s'.dev.rsp = s.dev.rsp ∧ (s'.dev.part p).att.final = true
      ∧ (s'.dev.part p).att.decision = some (if replay then .replay else .commit)
      ∧ (s'.dev.part p).sch.outcomeReplay = replay ∧ (s'.dev.part p).sch.state = .running
      ∧ (s'.dev.part p).sch.nextAnchor = some (if (s'.dev.part p).ctx.switching then x.sch.commitEpoch + 3 else x.sch.commitEpoch)
      ∧ (replay = true → (s'.dev.part p).ctx = x.ctx)

/-- R180: at a commit point that decides commit, every stream's current counter is advanced by the span that the step's stages have drawn from
it (R179) and copied to its committed one, once in the attempt. The job's commit takes the streams forward where the member's own decision has
not. Advancing the counters by the step's spans at the commit, and not draw by draw, is the model's reading (log entries 31 and 35). The job's
replay restores every current counter from its committed one, so that the replay draws the same bits; that it takes back a commit of the
member's own, for which the counters are kept, is the model's choice (log entry 65). -/
def Obligations.StreamsFollowDecision : Prop :=
  (∀ (t : Tick) (p : PartId) (s : State) (img : Image) (g : Segment),
    let x := s.dev.part p
    x.ldr.image = some img → x.segment = some g → x.sch.state = .running → x.att.live = true → segIsLast g = false →
    x.att.decision = none → x.sch.holds = [] → x.beatTick (x.att.commitOff img g) = some (max s.now t) →
    s.dev.stk.running = true → s.dev.stk.activating = false → x.mode = 0 → x.att.arb = false → x.att.doom = none →
    x.att.noticeReplay = false → x.missingVerdict = false → x.att.exchangeDone = true → x.digestsDue = false →
    (∀ r ∈ x.agree.resumes, r.2.2 = false) →
    (x.touched.all fun i => (s.dev.lgr p i).failCause == 0) = true → Answers (.commitPoint t p) s fun s' =>
      let y := s'.dev.part p
      y.rng.streams.map (fun z => z.id) = x.rng.streams.map (fun z => z.id) ∧ y.rng.seed = x.rng.seed
      ∧ (x.att.rewind = none → y.rng.streams = (advanceStreams img x.sch.seg.toNat x.rng).streams
          ∧ y.rng.streams = x.rng.streams.map (fun z =>
              let c := streamAdvance z.cur (stepSpan img x.sch.seg.toNat z.id)
              { z with cur := c, cmt := c })
          ∧ y.att.rewind = some x.rng.streams)
      ∧ (x.att.rewind.isSome → y.rng.streams = x.rng.streams ∧ y.att.rewind = x.att.rewind))
  ∧ (∀ (t : Tick) (p : PartId) (s : State) (img : Image) (g : Segment),
    let x := s.dev.part p
    x.ldr.image = some img → x.segment = some g → x.sch.state = .running → x.att.live = true → x.att.final = false →
    segIsLast g = false → x.beatTick (x.att.commitOff img g + 8192) = some (max s.now t) →
    (x.att.decision = some .replay ∨ x.att.decision = some .commit ∧ x.att.noticeReplay = true → Answers (.decisionBeat t p) s fun s' =>
      (s'.dev.part p).rng.streams = (x.att.rewind.getD x.rng.streams).map (fun y => { y with cur := y.cmt })
      ∧ (s'.dev.part p).rng.seed = x.rng.seed ∧ (s'.dev.part p).rng.pending = x.rng.pending)
    ∧ (x.att.decision = some .commit → x.att.noticeReplay = false → x.att.rewind.isSome → Answers (.decisionBeat t p) s fun s' =>
      (s'.dev.part p).rng = x.rng)
    ∧ (x.att.decision = some .commit → x.att.noticeReplay = false → x.att.rewind = none → Answers (.decisionBeat t p) s fun s' =>
      (s'.dev.part p).rng.streams = (advanceStreams img x.sch.seg.toNat x.rng).streams
      ∧ (∀ y ∈ (s'.dev.part p).rng.streams, y.cmt = y.cur)
      ∧ (s'.dev.part p).rng.streams.map (fun y => y.id) = x.rng.streams.map fun y => y.id))

/-- HOLD_LIMIT_EXPIRY: a hold that outlasts CHK_HOLD.HOLD_EP epochs is partition-fatal: the partition is HALTED (R307). The
runtime's releases (R217, R308, R322): LGR_HOLD decides replay with the fb mark, or commit as computed, and clears PENDING; CHK_HOLD
decides replay, grants three further replays at the limit, and notes a regrouping. A held member whose last own cause ends so sends RESUME
with its outcome (R249); one whose commit has a context to seal goes on holding for the seal (R367). Once every RESUME is in, the decision is
the job's, so the member's own stands where no RESUME carries replay, or where it decides replay itself. An action while PENDING is 0
changes nothing. -/
def Obligations.HoldsEnd : Prop :=
  (∀ (t : Tick) (p : PartId) (s : State),
     let x := s.dev.part p
     x.sch.state = .held → x.sch.heldSince + x.chk.holdEp < x.sch.epoch.toNat →
     Answers (.holdLimitExpiry t p) s fun s' =>
       PartAndFlue p t s s' ∧ (s'.dev.part p).sch.state = .halted ∧ (s'.dev.part p).sch.holds = []
       ∧ (x.cfg.state ≠ .scrubbing → x.cfg.state ≠ .free → s'.dev.rpt.seq = s.dev.rpt.seq + 1))
  ∧ (∀ (t : Tick) (v : Requester) (s : State),
       let p := s.dev.reqPart v
       let x := s.dev.part p
       let clears (f : HoldCause → Bool) : Prop :=
         x.sch.state = .held ∧ x.agree.ownResume = false ∧ ∀ c ∈ x.sch.holds, c = .peer ∨ f c = true
       let seals : Prop := x.sch.state = .held ∧ x.mode.getLsbD 8 = true ∧ (x.saveDue = true ∨ x.turnEnds = true)
       s.dev.hears v = true →
       (x.lgrHold = true → x.att.number < x.att.limit → Answers (.lgrHoldReplay t v) s fun s' =>
           PartAndFlue p t s s' ∧ s'.dev.rsp = some ⟨0, 0⟩ ∧ (s'.dev.part p).lgrHold = false
           ∧ (NamesSelf s.dev p → (s'.dev.part p).att.decision = some .replay)
           ∧ (s'.dev.part p).att.fb = true ∧ (s'.dev.part p).att.doom.isSome
           ∧ (s'.dev.part p).sch.holds = x.sch.holds.filter (· != .fallback)
           ∧ (clears (· == .fallback) → Resumed p s s' true))
       ∧ (x.lgrHold = true → Answers (.lgrHoldCommit t v) s fun s' =>
           PartAndFlue p t s s' ∧ s'.dev.rsp = some ⟨0, 0⟩ ∧ (s'.dev.part p).lgrHold = false
           ∧ ((∀ r ∈ x.agree.resumes, r.2.2 = false) → x.att.noticeReplay = false → (s'.dev.part p).att.decision = some .commit)
           ∧ (s'.dev.part p).lgrUpdate = x.lgrUpdate ∧ HoldCause.fallback ∉ (s'.dev.part p).sch.holds
           ∧ (clears (· == .fallback) → ¬ seals → Resumed p s s' x.att.noticeReplay)
           ∧ (seals → HoldCause.seal ∈ (s'.dev.part p).sch.holds ∧ (s'.dev.part p).ctx.result = 4))
       ∧ (x.chk.pending = true → x.att.number < 255 → ∀ regroup : Bool,
         Answers (if regroup then .chkHoldRegroup t v else .chkHoldReplay t v) s fun s' =>
           PartAndFlue p t s s' ∧ s'.dev.rsp = some ⟨0, 0⟩ ∧ (s'.dev.part p).chk.pending = false
           ∧ (s'.dev.part p).chk.regroup = regroup ∧ (NamesSelf s.dev p → (s'.dev.part p).att.decision = some .replay)
           ∧ (s'.dev.part p).att.limit = (if x.chk.replayLim then x.att.limit + 3 else x.att.limit)
           ∧ (∀ c ∈ (s'.dev.part p).sch.holds, c.viaChk = false)
           ∧ (clears (fun c => c.viaChk || c == .arbitration && x.mode.getLsbD 2) → Resumed p s s' true))
       ∧ (x.lgrHold = false → exec (.lgrHoldReplay t v) s = .next { s with now := max s.now t, dev := s.dev.respond 0 0 }
           ∧ exec (.lgrHoldCommit t v) s = .next { s with now := max s.now t, dev := s.dev.respond 0 0 })
       ∧ (x.chk.pending = false → exec (.chkHoldReplay t v) s = .next { s with now := max s.now t, dev := s.dev.respond 0 0 }
           ∧ exec (.chkHoldRegroup t v) s = .next { s with now := max s.now t, dev := s.dev.respond 0 0 }))

/-- Contexts (R365 to R370, R11): every operation stores INDEX. A registered context's descriptor and image are kept; one taken out leaves
at its next switch; a save asked for is made at the next commit decision. A save is sealed under the key its descriptor names when it is
written: zeros over the header of the slot R365 chooses, the body and the tag, then the header; a memory error keeps the slot for the retry,
and a key that may not seal writes nothing (R366). Each leaves the rest of the partition alone. That descriptor and slot are those found at
CONTEXT_SAVE_COMPLETE, and that a memory error leaves the writes up to the failing one issued, are the model's choice (log entry 28). -/
def Obligations.ContextRequests : Prop :=
  ∀ (t : Tick) (v : Requester) (i : Fin 8) (ds : Descriptor) (s : State),
    let p := s.dev.reqPart v
    let x := s.dev.part p
    s.dev.hears v = true →
    (∀ img, s.dev.registerCheck p i.val ds (some img) = none → Answers (.ctxRegister t v i ds (some img)) s fun s' =>
      PartOnly p t s s' ∧ s'.dev.part p = { x with ctx := (s'.dev.part p).ctx } ∧ (s'.dev.part p).ctx.reg.getLsbD i.val = true
      ∧ (s'.dev.part p).ctx.result = 2 ∧ i.val ∉ (s'.dev.part p).ctx.leaving ∧ (s'.dev.part p).ctx.index = i.val
      ∧ ∀ k < 8, k ≠ i.val → (s'.dev.part p).ctx.reg.getLsbD k = x.ctx.reg.getLsbD k)
    ∧ (x.ctx.reg.getLsbD i.val = true → Answers (.ctxDeregister t v i) s fun s' =>
      PartOnly p t s s' ∧ s'.dev.part p = { x with ctx := (s'.dev.part p).ctx } ∧ i.val ∈ (s'.dev.part p).ctx.leaving
      ∧ (s'.dev.part p).ctx.reg = x.ctx.reg ∧ (s'.dev.part p).ctx.index = i.val)
    ∧ (Answers (.ctxSave t v i ds) s fun s' =>
      PartOnly p t s s' ∧ s'.dev.part p = { x with ctx :=
        { x.ctx with index := i.val, descs := tabPut x.ctx.descs i.val ds, request := true } })
    ∧ ∀ (w : SaveJob) (slot0 slot1 : CtxImage) (next : List NextCtx), x.ctx.saving = some w → x.ctx.switching = false →
      let slot := s.dev.slotFor p ds slot0 slot1
      let img := sealBody (s.dev.key p ds.key) w.body
      let ends (s' : State) : Prop :=
        UnitsAre t s s' { s.dev with keys := s'.dev.keys, rpt := s'.dev.rpt, parts := s'.dev.parts } ∧ OthersSame p s s'
        ∧ (s'.dev.part p).ctx.saving = none ∧ s'.dev.part p = { x with ctx := (s'.dev.part p).ctx }
      (s.dev.maySeal p ds.key = true →
        (Answers (.contextSaveComplete t p ⟨.done, ds, slot0, slot1⟩ next) s fun s' =>
          ends s' ∧ (s'.dev.part p).ctx.savedStep = w.step.setWidth 32 ∧ (s'.dev.part p).ctx.result = 2
          ∧ (s'.dev.part p).ctx.written = some ⟨w.index, slot, w.step, img⟩
          ∧ (s'.dev.part p).ctx.writes = [⟨ds.ctxAddr + slot * ds.slotLen, List.replicate 32 0⟩,
              ⟨ds.ctxAddr + slot * ds.slotLen + 32, img.body ++ img.tag⟩, ⟨ds.ctxAddr + slot * ds.slotLen, img.header⟩]
          ∧ (s'.dev.key p ds.key).count = (s.dev.key p ds.key).count + 1)
        ∧ ∀ k : Fin 3, Answers (.contextSaveComplete t p ⟨.memError k, ds, slot0, slot1⟩ next) s fun s' =>
          ends s' ∧ (s'.dev.part p).ctx.result = 3 ∧ (s'.dev.part p).ctx.retry = some slot
          ∧ (s'.dev.part p).ctx.writes = (saveWrites (slotAddr ds slot) img).take (k.val + 1))
      ∧ (s.dev.maySeal p ds.key = false → ∀ e, Answers (.contextSaveComplete t p ⟨e, ds, slot0, slot1⟩ next) s fun s' =>
          ends s' ∧ (s'.dev.part p).ctx.result = 3 ∧ (s'.dev.part p).ctx.retry = some slot
          ∧ (s'.dev.part p).ctx.writes = x.ctx.writes ∧ s'.dev.keys = s.dev.keys)

/-- Restoring and sealing (R367 to R369): a restore begins in READY; of the two slots the newer that passes every check gives the step,
and the epoch count goes on from the saved one plus one; the body in the slot of R365, when it passes, is sealed under the partition's key,
whose nonce counter rises, the hold for the seal ends, and a member that holds for nothing else sends RESUME with its outcome (R249). That the
runtime leaves the body in clear in the slot that R365 chooses, and that the seal looks for it there, is the model's choice (log entry 28). -/
def Obligations.ContextRestoreAndSeal : Prop :=
  ∀ (t : Tick) (v : Requester) (i : Fin 8) (ds : Descriptor) (s : State),
    let p := s.dev.reqPart v
    let x := s.dev.part p
    (s.dev.hears v = true → x.sch.state = .ready → x.ctx.saving = none → x.ctx.restoring = none → Answers (.ctxRestore t v i ds) s fun s' =>
      PartOnly p t s s' ∧ s'.dev.part p = { x with ctx := (s'.dev.part p).ctx } ∧ (s'.dev.part p).ctx.restoring = some i.val
      ∧ (s'.dev.part p).ctx.result = 1 ∧ (s'.dev.part p).ctx.index = i.val ∧ (s'.dev.part p).ctx.active = x.ctx.active)
    ∧ (∀ (slot0 slot1 : CtxImage) (k n : Nat) (r : CtxRead), x.ctx.restoring = some k → x.ctx.descs.lookup k = some ds →
        newerSlot (s.dev.openSlot p ds slot0) (s.dev.openSlot p ds slot1) = some (n, r) →
        Answers (.ctxRestoreComplete t p slot0 slot1) s fun s' =>
      UnitsOnly t s s' ∧ OthersSame p s s' ∧ s'.dev.eng = s.dev.eng ∧ (s'.dev.part p).ctx.restoring = none
      ∧ (s'.dev.part p).ctx.active = k ∧ (s'.dev.part p).ctx.result = 2
      ∧ (s'.dev.part p).sch.step = BitVec.ofNat 64 (fieldLE r.body 48 8)
      ∧ (s'.dev.part p).sch.epoch = BitVec.ofNat 64 (fieldLE r.body 56 8 + 1)
      ∧ (s'.dev.part p).rng.seed = BitVec.ofNat 128 (fieldLE r.body 64 16) ∧ (s'.dev.part p).rng.pending = none
      ∧ (∀ e, e < (s.dev.part p).cfg.lgrBase ∨ (s.dev.part p).cfg.lgrBase + max r.nEntries x.cfg.lgrCount ≤ e →
          tabGet LedgerEntry.reset s'.dev.ledger e = tabGet LedgerEntry.reset s.dev.ledger e))
    ∧ ∀ slot0 slot1 : CtxImage,
        let at_ := if s.dev.slotFor p ds slot0 slot1 = 0 then slot0 else slot1
        let body := at_.body.take (fieldLE at_.header 8 4)
        s.dev.hears v = true → HoldCause.seal ∈ x.sch.holds → x.mode.getLsbD 8 = true →
        bodyCheck body.length ds.slotLen x.cfg.lgrCount body = none →
        s.dev.maySeal p ds.key = true → Answers (.ctxSeal t v i ds ⟨slot0, slot1⟩) s fun s' =>
      UnitsAre t s s' { s.dev with keys := s'.dev.keys, ports := s'.dev.ports, rsp := some ⟨0, 0⟩, parts := s'.dev.parts }
      ∧ OthersSame p s s' ∧ (s'.dev.part p).sch.holds = x.sch.holds.filter (· != .seal)
      ∧ (x.sch.state = .held → x.agree.ownResume = false → x.att.decision.isSome → (∀ c ∈ x.sch.holds, c = .peer ∨ c = .seal) →
          Resumed p s s' (x.att.decision == some .replay || x.att.noticeReplay))
      ∧ (s'.dev.part p).ctx.savedStep = BitVec.ofNat 32 (fieldLE body 48 8) ∧ (s'.dev.part p).ctx.result = 2
      ∧ (∃ w, (s'.dev.part p).ctx.written = some w ∧ w.slot = s.dev.slotFor p ds slot0 slot1 ∧ w.image = sealBody (s.dev.key p ds.key) body)
      ∧ (s'.dev.key p ds.key).count = (s.dev.key p ds.key).count + 1

/-! ## Arbitration and proving burns (R309 to R317) -/

/-- CHK_ARB.GO names a listed record and a healthy array of the partition, or is refused with RESULT 7 (R313). ARBITRATION_RERUN
dooms the attempt and gives every listed tile an arbiter, or its end when there is none (R310). ARBITRATION_RESULT in hardware mode:
the sums of the tile's operands, as the arbiter drains them, equal to the array's own find the checker at fault, equal to the checker's find
the array, and any others leave both in doubt; the units at fault are to be fenced (R311, Table 11.4). A re-run that fails its own check is
run once more on the next candidate (R310). -/
def Obligations.ArbitrationRuns : Prop :=
  (∀ (t : Tick) (v : Requester) (p : PartId) (seq : BitVec 32) (u : UnitCode) (s : State),
     let x := s.dev.part (s.dev.reqPart v)
     let ok := x.mode.getLsbD 2 && (unitKind u == 0 && decide (unitIdx u < 4) && x.cfg.covers (unitSlice u) && !s.dev.fenced u)
       && x.chk.list.any fun i => s.dev.rpt.seqOf i.seq == seq
     (s.dev.hears v = true → Answers (.chkArbGo t v seq u) s fun s' =>
       let y := s'.dev.part (s.dev.reqPart v)
       PartOnly (s.dev.reqPart v) t s s' ∧ y = { x with chk := y.chk } ∧ y.chk.arbUnit = u ∧ y.chk.arbSeq = seq
       ∧ y.chk.arbGo = ok ∧ y.chk.arbDone = false ∧ y.chk.arbResult = (if ok then 0 else 7)
       ∧ (ok = false → y.chk.list = x.chk.list))
     ∧ ∀ img, (s.dev.part p).ldr.image = some img → (s.dev.part p).running = true → (s.dev.part p).att.live = true →
         (s.dev.part p).att.arb = true → s.dev.stk.running = true → (s.dev.part p).mode = 0 →
         ((s.dev.arbBeat p img).bind (s.dev.part p).beatTick) = some (max s.now t) →
         ((s.dev.arbItems p).all fun i => i.arbiter.isNone && !i.done) = true →
         Answers (.arbitrationRerun t p) s fun s' =>
           UnitsAre t s s' { s.dev with eng := s'.dev.eng, secOut := s'.dev.secOut, rpt := s'.dev.rpt,
                                        ports := s'.dev.ports, parts := s'.dev.parts }
           ∧ OthersSame p s s' ∧ (s'.dev.part p).att.doom.isSome
           ∧ ∀ i ∈ s'.dev.arbItems p, i.arbiter.isSome ∨ i.done = true)
  ∧ (∀ (t : Tick) (p : PartId) (item : Nat) (flips : List (Fin 128 × BitVec 128)) (s : State) (i : ArbItem),
       let x := s.dev.part p
       let sums := rerunSums i flips
       let next := ((s.dev.arbiters p i.array).filter fun u => some u != i.arbiter)[0]?
       let checker := unitOf (i.array.val / 4) 4 0
       let asked (s' : State) (u : UnitCode) : Prop := ∃ q ∈ s'.dev.eng.fenceReqs, q.1 = u
       x.chk.list[item]? = some i → i.done = false → i.arbiter.isSome → x.att.arb = true → x.mode.getLsbD 2 = false →
       (x.att.slots.any fun r => r.done.isNone && !r.aborted) = false →
       (∀ u, i.tries < 2 → next = some u → Answers (.arbitrationResult t p item none) s fun s' =>
         PartOnly p t s s' ∧ s'.dev.rsp = s.dev.rsp
         ∧ (s'.dev.part p).chk.list[item]? = some { i with arbiter := some u, tries := 2 })
       ∧ Answers (.arbitrationResult t p item (some flips)) s fun s' =>
         UnitsAre t s s' { s.dev with eng := s'.dev.eng, secOut := s'.dev.secOut, rpt := s'.dev.rpt,
                                      ports := s'.dev.ports, parts := s'.dev.parts }
         ∧ OthersSame p s s'
         ∧ (sums = i.d1 → asked s' checker) ∧ (sums ≠ i.d1 → asked s' (arrayUnit i.array.val))
         ∧ (sums ≠ i.d1 → sums ≠ i.c1 → asked s' checker)
         ∧ ∀ y ∈ (s'.dev.part p).chk.list, y.seq = i.seq → y.done = true)

/-- IN_SERVICE_BURN counts a burn in the slices of its pair; one that passes, with bit-equal accumulators, positive verdicts and no flipped
sum missed, is stamped, and one that fails waits for its record (R315; the waiting is the model's, log entry 46). PROVING_FAIL judges the
oldest that waits: it asks for a fence of every array whose accumulators differ from the third's, and of a checker that missed its flipped
sum (R317). -/
def Obligations.ProvingBurns : Prop :=
  ∀ (t : Tick) (a b : BurnRun) (s : State),
    let sl (d : Dev) (k : Nat) : SliceSt := tabGet SliceSt.reset d.slices k
    s.dev.eng.phase = .ready → s.dev.stk.running = true →
    (s.dev.burnPair (max s.now t) a.array b.array = true → Answers (.inServiceBurn t a b) s fun s' =>
      let f : FailedBurn := ⟨a, b, 0x100 + a.array.val / 4, (sl s.dev (a.array.val / 4)).burnCount.toNat⟩
      UnitsAre t s s' { s.dev with slices := s'.dev.slices, eng := { s.dev.eng with burnFails := s'.dev.eng.burnFails } }
      ∧ (∀ k, k = a.array.val / 4 ∨ k = b.array.val / 4 → (sl s'.dev k).burnCount = (sl s.dev k).burnCount + 1
          ∧ (f.passes = true → (sl s'.dev k).burnLast = BitVec.ofNat 32 (max s.now t / 1048576))
          ∧ (f.passes = false → (sl s'.dev k).burnLast = (sl s.dev k).burnLast))
      ∧ (∀ k, k ≠ a.array.val / 4 → k ≠ b.array.val / 4 → sl s'.dev k = sl s.dev k)
      ∧ s'.dev.eng.burnFails = (if f.passes then s.dev.eng.burnFails else s.dev.eng.burnFails ++ [f]))
    ∧ (∀ (f : FailedBurn) (rest : List FailedBurn) (third : Option BurnRun), s.dev.eng.burnFails = f :: rest →
      Answers (.provingFail t third) s fun s' =>
      let asked (u : UnitCode) : Prop := ∃ q ∈ s'.dev.eng.fenceReqs, q.1 = u
      let differs (c r : BurnRun) : Prop := third = some c ∧ c.array ≠ f.a.array ∧ c.array ≠ f.b.array
        ∧ s.dev.fenced (arrayUnit c.array.val) = false ∧ burnAgrees f.a f.b = false ∧ burnAgrees c r = false
      UnitsAre t s s' { s.dev with eng := s'.dev.eng, secOut := s'.dev.secOut, rpt := s'.dev.rpt,
                                   ports := s'.dev.ports, parts := s'.dev.parts }
      ∧ s'.dev.eng.fences = s.dev.eng.fences ∧ s'.dev.eng.burnFails = rest
      ∧ (∀ c, differs c f.a → asked (arrayUnit f.a.array.val)) ∧ (∀ c, differs c f.b → asked (arrayUnit f.b.array.val))
      ∧ (∀ c, differs c f.a → differs c f.b → asked (arrayUnit c.array.val))
      ∧ (f.a.missed = true → asked (unitOf (f.a.array.val / 4) 4 0)) ∧ (f.b.missed = true → asked (unitOf (f.b.array.val / 4) 4 0)))

/-! ## Packets (R264 to R293) -/

/-- The receive checks of Table 10.6 in their order: a packet whose check word is wrong, or that another job or member is meant by,
is counted as unknown and changes nothing else; an older attempt's is counted as stale; a newer one's halts the partition; a group whose
generation differs is STREAM_SKEW (R266, R274). -/
def Obligations.ReceiveChecksInOrder : Prop :=
  ∀ (d : Dev) (n : Nat) (p : PartId) (k : Packet),
    let x := d.part p
    let r := d.recvChecks n p k
    let first := pktCrcOk k = false ∨ k.hdr.job ≠ x.flu.tag ∨ k.hdr.dst.toNat % 8192 ≠ x.self ∨ x.mayReceive k = false
    (first → r = (d.bump p 3 1, false))
    ∧ (¬ first → skipsAttempt x k = false → x.attemptOf k = 1 → r = (d.bump p 4 1, false))
    ∧ (¬ first → skipsAttempt x k = false → x.attemptOf k = 2 → r.2 = false ∧ (r.1.part p).sch.state = .halted)
    ∧ (¬ first → skipsAttempt x k = true ∨ x.attemptOf k = 0 →
        (∀ g, d.grp p (k.hdr.group.toNat % 1024) = some g → gGen g = k.hdr.gen.toNat → r = (d, true))
        ∧ ((∀ g, d.grp p (k.hdr.group.toNat % 1024) = some g → gGen g ≠ k.hdr.gen.toNat) → r.2 = false
          ∧ (x.att.live = true → (r.1.part p).att.doom.isSome)))

/-- A TILE_P128 that passes its checks lands as 65,536 bytes at the place that its binding names for it, which no other line shares, and
counts as landed for the tile that waits for it (R55, R108, R279). A TILE_CODE, TILE_WIDE, TILE_PF32 or STREAM packet of fixed size
that passes its checks counts as landed, for the waits of R279. -/
def Obligations.TilesLand : Prop :=
  (∀ (t : Tick) (p : PartId) (k : Packet) (s : State) (key : Nat) (r : Receive) (img : Image),
     let x := s.dev.part p
     let first := lineAddr (x.slice r.slice) r.line + 512 * x.p128Line key r k.hdr.rowTile.toNat k.hdr.colTile.toNat k.hdr.kPart.toNat
     k.hdr.type = tyTileP128 → k.payload.length = 65536 → (s.dev.tileChecks (max s.now t) p k true).2 = some (key, r) →
     x.landFits key r k = true → k.hdr.flags.getLsbD 1 = false → x.ldr.image = some img →
     Answers (.tileP128 t p k) s fun s' =>
       s'.pending = s.pending ∧ s'.now = max s.now t ∧ OthersSame p s s'
       ∧ (s'.dev.part p).flu.landed.contains (key, k.hdr.rowTile.toNat, k.hdr.colTile.toNat, k.hdr.kPart.toNat) = true
       ∧ (∀ i < 65536, memGet s'.sb.mem (first + i) = k.payload.getD i 0)
       ∧ ∀ c, c < first ∨ first + 65536 ≤ c → sbRead s'.sb (c / 33554432) (c / 512 % 65536) = sbRead s.sb (c / 33554432) (c / 512 % 65536))
  ∧ (∀ (t : Tick) (p : PartId) (k : Packet) (s : State) (key : Nat) (r : Receive) (img : Image),
       let n := max s.now t
       let tile := (key, k.hdr.rowTile.toNat, k.hdr.colTile.toNat, placePart k)
       let done (s' : State) : Prop := s'.pending = s.pending ∧ s'.now = n ∧ (s'.dev.part p).flu.landed.contains tile = true
       (s.dev.part p).ldr.image = some img →
       ((s.dev.tileChecks n p k false).2 = some (key, r) → (s.dev.part p).landFits key r k = true →
         Answers (.tileCode t p k) s done ∧ Answers (.tileWide t p k) s done
         ∧ (r.dynamic = false → Answers (.stream t p k) s done))
       ∧ ((s.dev.tileChecks n p k true).2 = some (key, r) → Answers (.tilePf32 t p k) s done))

/-- VERDICT and NOTICE (R278, R301): a positive word from an expected tile is kept, one stamped at or after the commit point is missing
(Table 9.1); a negative one, and a notice, before the decision beat make the job replay and doom the receiver's live attempt, and from the
decision beat on break the agreement (R248). UNKNOWN_PACKET only counts (R267). -/
def Obligations.VerdictsAndNotices : Prop :=
  ∀ (t : Tick) (p : PartId) (k : Packet) (s : State),
    let x := s.dev.part p
    let n := max s.now t
    let ok := (s.dev.recvChecks n p k).2 = true
    let replays (s' : State) : Prop := PartAndFlue p t s s' ∧ (s'.dev.part p).att.noticeReplay = true
      ∧ (x.att.live = true → (s'.dev.part p).att.doom.isSome)
    (∀ b, ok → x.receiverAny k = some b → b.2.dynamic = true ∨ inExtents b.2 k = true →
      (verdictPos k.hdr.aux = true → x.inAttempt n = false → exec (.verdict t p k) s = .next { s with now := n })
      ∧ (verdictPos k.hdr.aux = true → x.inAttempt n = true → Answers (.verdict t p k) s fun s' => PartOnly p t s s' ∧ s'.dev.rsp = s.dev.rsp
        ∧ (s'.dev.part p).att.verdicts.contains
            (b.1, k.hdr.src.toNat % 8192, k.hdr.rowTile.toNat, k.hdr.colTile.toNat, k.hdr.kPart.toNat) = true)
      ∧ (verdictPos k.hdr.aux = false → x.undecided n = true → Answers (.verdict t p k) s replays)
      ∧ (verdictPos k.hdr.aux = false → x.undecided n = false → Answers (.verdict t p k) s fun s' => (s'.dev.part p).sch.state = .halted))
    ∧ (ok → x.undecided n = true → Answers (.notice t p k) s replays)
    ∧ (ok → x.undecided n = false → Answers (.notice t p k) s fun s' => (s'.dev.part p).sch.state = .halted)
    ∧ (x.cfg.state ≠ .scrubbing → Answers (.unknownPacket t p k) s fun s' => PartOnly p t s s' ∧ s'.dev.rsp = s.dev.rsp
        ∧ s'.dev.part p = { x with tel := (s'.dev.part p).tel }
        ∧ tabGet 0 (s'.dev.part p).tel.counters 3 = min (2 ^ 48 - 1) (tabGet 0 x.tel.counters 3 + 1))

/-- AGREE words (R246 to R249, R263): a START is kept until every member's is there, and then equal ones fix the first epoch at the latest
proposed tick, and the partition is RUNNING (during a firmware activation it is held first, which is the model's reading, log entry 66); a WANT enters at its epoch; a HOLD before the decision beat makes a decided member hold, and from it on breaks the agreement;
a RESUME and a REPLACE are kept per member. -/
def Obligations.AgreementWords : Prop :=
  ∀ (t : Tick) (p : PartId) (k : Packet) (s : State),
    let x := s.dev.part p
    let n := max s.now t
    let m := k.hdr.src.toNat % 8192
    let l := pktLine k 0
    let w : StartWord := { readStart k with src := m }
    let ws := keepStart x.agree.starts w
    (s.dev.recvChecks n p k).2 = true →
    (w.join = 0 → x.sch.state = .ready → Answers (.agreeStart t p k) s fun s' =>
      PartOnly p t s s' ∧ s'.dev.rsp = s.dev.rsp ∧ s'.dev.part p = { x with agree := { x.agree with starts := ws } })
    ∧ (∀ own, w.join = 0 → x.sch.state = .starting → x.agree.joining = false →
        ((s.dev.memberIds p).all fun i => ws.any fun y => y.src == i) = true →
        ((ws.filter fun y => (s.dev.memberIds p).contains y.src).find? fun y => y.src == x.self) = some own →
        ((ws.filter fun y => (s.dev.memberIds p).contains y.src).all fun y =>
          y.timeline == own.timeline && y.logical == own.logical && y.epoch == own.epoch) = true →
        n < own.tick → Answers (.agreeStart t p k) s fun s' =>
      PartOnly p t s s' ∧ (s'.dev.part p).sch.state = (if s.dev.stk.activating then .held else .running)
      ∧ (s'.dev.part p).sch.nextAnchor = some own.epoch
      ∧ (s'.dev.part p).sch.timed = false ∧ (s'.dev.part p).sch.first = true
      ∧ (∀ y ∈ ws, (s.dev.memberIds p).contains y.src = true → y.tick ≤ (s'.dev.part p).sch.epochTick)
      ∧ ∃ y ∈ ws, (s'.dev.part p).sch.epochTick = y.tick)
    ∧ (x.lateWord n (fieldLE l 0 8) = false → Answers (.agreeWant t p k) s fun s' =>
      PartOnly p t s s' ∧ s'.dev.rsp = s.dev.rsp ∧ s'.dev.part p = { x with agree := { x.agree with
        wants := insertWant x.agree.wants ⟨m, fieldLE l 0 8, fieldLE l 8 1, fieldLE l 9 1⟩ } })
    ∧ (x.undecided n = false → Answers (.agreeHold t p k) s fun s' => (s'.dev.part p).sch.state = .halted)
    ∧ (x.undecided n = true → Answers (.agreeHold t p k) s fun s' =>
      UnitsAre t s s' { s.dev with ports := s'.dev.ports, parts := s'.dev.parts }
      ∧ OthersSame p s s' ∧ (s'.dev.part p).att.noticeHold = true
      ∧ (x.sch.state = .running → x.att.decision.isSome → (s'.dev.part p).sch.state = .held))
    ∧ (x.lateWord n (fieldLE l 0 8) = false → Answers (.agreeResume t p k) s fun s' =>
      PartOnly p t s s' ∧ s'.dev.rsp = s.dev.rsp
      ∧ (m, fieldLE l 0 8, (k.payload.getD 8 0).getLsbD 0) ∈ (s'.dev.part p).agree.resumes)
    ∧ (x.lateWord n (fieldLE l 0 8) = false → x.ldr.staged = none → Answers (.agreeReplace t p k) s fun s' =>
      PartOnly p t s s' ∧ s'.dev.rsp = s.dev.rsp
      ∧ (m, fieldLE l 0 8, BitVec.ofNat 64 (fieldLE l 8 8), BitVec.ofNat 64 (fieldLE l 16 8)) ∈ (s'.dev.part p).agree.replaces)

/-- STATE packets of one state are kept until all are there; then each of the 64 query rows within the tensor has its state at the node
(R156, R268). STATE_MERGE forms a node of the merge tree from its children, row by row, by R154, and the children are gone.
A residue failure of a row unit in the merge goes with the states it forms (R298). -/
def Obligations.StatesMerge : Prop :=
  ∀ (t : Tick) (p : PartId) (k : Packet) (s : State) (key : Nat) (rc : Receive) (b : Binding) (q kk v : Operand) (c : Chained)
      (ch : Option Nat) (out : Output) (bind rowTile level node : Nat),
    let x := s.dev.part p
    let lv := k.hdr.kPart.toNat / 2 ^ 24
    let nd := k.hdr.kPart.toNat % 2 ^ 24
    let all := k :: x.flu.chunks.filter fun y => sameState y k && y.hdr.aux != k.hdr.aux
    let whole := stateWhole all (ceilDiv (64 * ceilDiv (4 * (c.d + 2)) 512) 128)
    ((s.dev.recvChecks (max s.now t) p k).2 = true → x.receiverOf k tyState = some (key, rc) →
      (x.segBindings.find? fun b => match b.kind with
        | .chained _ _ _ c _ _ => c.pTid == k.hdr.tid.setWidth 24
        | _ => false) = some b → b.kind = .chained q kk v c ch out → k.hdr.rowTile.toNat < rc.rowTiles → lv ≤ rootLevel c →
      nd < levelNodes c lv → Answers (.state t p k) s fun s' =>
        PartOnly p t s s' ∧ s'.dev.rsp = s.dev.rsp ∧ (s'.dev.part p).att = x.att
        ∧ (whole = none → k ∈ (s'.dev.part p).flu.chunks)
        ∧ (whole.isSome → ∀ i < 64, 64 * k.hdr.rowTile.toNat + i < (operandTensor q).rows →
            ((s'.dev.part p).chState b.key (64 * k.hdr.rowTile.toNat + i) lv nd).isSome))
    ∧ ∀ (r : SlotRun) (j : Job),
      let rows := ((List.range 64).map (64 * rowTile + ·)).filter fun r => decide (r < (outShape j.img j.b.kind).1)
      let lone := decide (levelNodes c (level - 1) ≤ 2 * node + 1)
      (x.att.slots.find? fun r => match s.dev.jobOf p r.key with | some j => j.b.key == bind | none => false) = some r →
      s.dev.jobOf p r.key = some j → j.b.kind = .chained q kk v c ch out → c.sends = [] → 0 < level → level < 64 →
      node < levelNodes c level →
      (∀ r ∈ rows, (x.chState bind r (level - 1) (2 * node)).isSome
        ∧ (lone = true ∨ (x.chState bind r (level - 1) (2 * node + 1)).isSome)) →
      (Answers (.stateMerge t p bind rowTile level ⟨node, none⟩) s fun s' =>
        PartOnly p t s s' ∧ s'.dev.rsp = s.dev.rsp ∧ (s'.dev.part p).att = x.att
        ∧ ∀ r ∈ rows, ∀ a, x.chState bind r (level - 1) (2 * node) = some a →
          (s'.dev.part p).chState bind r (level - 1) (2 * node) = none
          ∧ (lone = true → (s'.dev.part p).chState bind r level node = some { a with level := level, node := node })
          ∧ ∀ z, lone = false → x.chState bind r (level - 1) (2 * node + 1) = some z →
              (s'.dev.part p).chState bind r level node = some (chMerge (actRec j.img c.expHandle) a z level node)
              ∧ (s'.dev.part p).chState bind r (level - 1) (2 * node + 1) = none)
      ∧ ∀ u : Fin 4, Answers (.stateMerge t p bind rowTile level ⟨node, some u⟩) s fun s' =>
        UnitsAre t s s' { s.dev with slices := s'.dev.slices, parts := s'.dev.parts } ∧ OthersSame p s s'
        ∧ ∀ r ∈ rows, ∃ z f, (s'.dev.part p).chState bind r level node = some z ∧ (f, unitOf (s.dev.jobSlice j) 3 u.val) ∈ z.fail

/-- SAMPLE: each of the 64 partial records within the tensor is merged into its row's best once (R193). COUNT and CREDIT of a
dynamic exchange (R280, R281): a member's count is kept, the first one standing; a source's grant only rises. -/
def Obligations.SamplesAndExchanges : Prop :=
  (∀ (t : Tick) (p : PartId) (k : Packet) (s : State) (key : Nat) (rc : Receive) (b : Binding) (q : Sampler),
     let x := s.dev.part p
     (s.dev.recvChecks (max s.now t) p k).2 = true → x.receiverOf k tySample = some (key, rc) → inExtents rc k = true →
     x.sampleBind (k.hdr.tid.setWidth 24) = some b → b.kind = .sampler q → Answers (.sample t p k) s fun s' =>
       PartOnly p t s s' ∧ s'.dev.rsp = s.dev.rsp ∧ (s'.dev.part p).att = x.att
       ∧ ∀ i < 64, 64 * k.hdr.rowTile.toNat + i < q.rows →
           let row := 64 * k.hdr.rowTile.toNat + i
           let old := x.bestOf b.key row
           let new := (s'.dev.part p).bestOf b.key row
           if old.parts.contains k.hdr.kPart.toNat then new = old
           else (new.z, new.v) = mergeBest (old.z, old.v)
                 (BitVec.ofNat 32 (fieldLE k.payload (8 * i) 4), fieldLE k.payload (8 * i + 4) 4)
               ∧ new.parts.contains k.hdr.kPart.toNat = true)
  ∧ (∀ (t : Tick) (p : PartId) (k : Packet) (s : State) (b : Binding) (rc : Receive) (c src : Nat × Nat),
       let x := s.dev.part p
       let m := k.hdr.src.toNat % 8192
       (s.dev.recvChecks (max s.now t) p k).2 = true → x.exchangeOf k = some (b, rc, c, src) →
       (Answers (.count t p k) s fun s' =>
         s'.pending = s.pending ∧ s'.now = max s.now t ∧ OthersSame p s s'
         ∧ ((s'.dev.part p).dyn b.key).counts.lookup m = some (((x.dyn b.key).counts.lookup m).getD k.hdr.aux.toNat))
       ∧ ∀ i, ((List.range (s.dev.groupIds p rc.group).length).find? fun i => (s.dev.groupIds p rc.group).getD i 0 == m) = some i →
         Answers (.credit t p k) s fun s' =>
           s'.pending = s.pending ∧ s'.now = max s.now t ∧ OthersSame p s s'
           ∧ ((s'.dev.part p).dyn b.key).credit.lookup i = some (max (((x.dyn b.key).credit.lookup i).getD 0) k.hdr.aux.toNat))

/-- LEASE_REFUSED before the window's epoch selects the other path without dooming the attempt; LEASE_CHOICE is kept (R244, R288, R291). That
each is kept for one use of the lease, a refusal for the use requested last and a choice for the first use not yet decided, is the model's
choice (log entry 56). DIGEST keeps a replica's digest of an identifier until the commit point's comparison (R320). -/
def Obligations.LeasesAndDigests : Prop :=
  ∀ (t : Tick) (p : PartId) (k : Packet) (s : State),
    let x := s.dev.part p
    let n := max s.now t
    let lease := k.hdr.aux.toNat % 2 ^ 28
    let l := pktLine k 0
    let ids := s.dev.groupIds p (k.hdr.group.toNat % 1024)
    (s.dev.recvChecks n p k).2 = true →
    (∀ img u, x.ldr.image = some img → x.refusedUse n lease = some u → x.before n (x.windowEpochs img u).1 = true → Answers (.leaseRefused t p k) s fun s' =>
      PartAndFlue p t s s' ∧ u.key ∈ (s'.dev.part p).att.refused ∧ (s'.dev.part p).att.doom = x.att.doom)
    ∧ (x.leaseUse lease = none → exec (.leaseChoice t p k) s = .next { s with now := n })
    ∧ (∀ u, x.leaseUse lease = some u → Answers (.leaseChoice t p k) s fun s' =>
      PartAndFlue p t s s' ∧ (s'.dev.part p).att.choices = x.att.choices
        ++ [(u.key, k.hdr.src.toNat % 8192, k.hdr.aux.toNat / 2 ^ 28 == 4)])
    ∧ ∀ rank, k.hdr.group.toNat % 1024 = x.chk.digGroup.toNat → x.inAttempt n = true →
        ((List.range ids.length).find? fun i => ids.getD i 0 == k.hdr.src.toNat % 8192) = some rank →
        Answers (.digest t p k) s fun s' =>
          PartOnly p t s s' ∧ s'.dev.rsp = s.dev.rsp ∧ s'.dev.part p = { x with chk := { x.chk with recv := (s'.dev.part p).chk.recv } }
          ∧ (⟨rank, fieldLE l 24 4 % 64, BitVec.ofNat 128 (fieldLE l 0 16), fieldLE l 32 8⟩ : DigestRec) ∈ (s'.dev.part p).chk.recv

/-! ## Records (R323 to R326, R349, R406, R427) -/

namespace Sys2Proof.Claims

/-- The records dropped or removed so far, by severity. -/
def dropsOf (q : Rpt) : Severity → Nat
  | .info => q.dropInfo
  | .correctable => q.dropCorr
  | .stepReplay => q.dropStep
  | .partFatal => q.dropPart
  | .engFatal => q.dropEng

end Sys2Proof.Claims

/-- R326: a record takes its SEQ when it is raised, whether it is then queued or dropped. A queued record stands behind every other but
those of its own tick that R26 puts after it, and SEQ rises along the queue as it did; that R26's order decides the place, and that the SEQ
of a tick's records are dealt anew by place, is the model's reading (log entry 14). Above 768 waiting
records a new INFO or CORRECTABLE one is dropped; of higher severity none is while there is space; at a full queue the oldest record of
the lowest severity makes room for one of higher severity, or the new record is dropped. Every record dropped or removed is counted by its
severity (a counter stops at 4,095, Table 16.9). -/
def Obligations.ReportQueueKeepsRecords : Prop :=
  (∀ (d : Dev) (t : Nat) (r : Report),
    (∀ p, r.part = some p → (d.part p).cfg.state ≠ .scrubbing ∧ (d.part p).cfg.state ≠ .free) →
    ∃ k, k.seq = d.rpt.seq ∧ k.code = r.code ∧ k.severity = r.severity
      ∧ d.raise t r = { d with rpt := { d.rpt.push k with seq := d.rpt.seq + 1 } })
  ∧ (∀ (q : Rpt) (c : Severity), dropsOf (q.drop c) c = min 4095 (dropsOf q c + 1) ∧ (q.drop c).queue = q.queue
      ∧ ∀ e, e ≠ c → dropsOf (q.drop c) e = dropsOf q e)
  ∧ ∀ (q : Rpt) (r : Rec), (q.queue.map fun y => y.seq).Nodup → q.queue.length ≤ 1024 →
      let queued : Rpt := q.enqueue r
      let later (y : Rec) : Prop := y.time = r.time ∧ y.rank > r.rank
      (∃ a b, q.queue = a ++ b ∧ insertRec r q.queue = a ++ r :: b ∧ (∀ y ∈ a, ¬ later y) ∧ ∀ y, b.head? = some y → later y)
      ∧ queued.queue.map (fun y => { y with seq := 0 }) = (insertRec r q.queue).map (fun y => { y with seq := 0 })
      ∧ queued.queue.map (fun y => y.seq) = q.queue.map (fun y => y.seq) ++ [r.seq]
      ∧ queued.seq = q.seq ∧ queued.out = q.out ∧ (∀ c, dropsOf queued c = dropsOf q c)
      ∧ (q.push r).queue.length ≤ 1024
      ∧ (r.severity.code ≤ 1 → 768 < q.queue.length → q.push r = q.drop r.severity)
      ∧ (r.severity.code ≤ 1 → q.queue.length ≤ 768 → q.push r = queued)
      ∧ (1 < r.severity.code → q.queue.length < 1024 → q.push r = queued)
      ∧ (∀ a x b, 1 < r.severity.code → q.queue.length = 1024 → q.queue = a ++ x :: b → x.severity.code < r.severity.code →
          (∀ y ∈ a, x.severity.code < y.severity.code) → (∀ y ∈ b, x.severity.code ≤ y.severity.code) →
          q.push r = { q.drop x.severity with queue := a ++ b }.enqueue r)
      ∧ (1 < r.severity.code → q.queue.length = 1024 → (∀ y ∈ q.queue, r.severity.code ≤ y.severity.code) →
          q.push r = q.drop r.severity)

/-! ## Register requests (R169, R198, R205, R273, R313, R400, R413 to R427, R434) -/

/-- In RESET and INIT every register request is answered with status 2 and changes nothing else; at an address that is no multiple
of 8 a read or write is answered with status 1 and changes nothing else (Table 15.4). A read changes the response and the
requester's latches at most (R416, R423): no table, register, buffer or counter. A read of the TEL port changes the response only: the
debug space answers the operator alone, for a partition opened to it, and no other address succeeds (R407, R430, R434). -/
def Obligations.RequestsAnswered : Prop :=
  (∀ (t : Tick) (r : Requester) (v : Requester) (addr : BitVec 24) (i : Nat) (data : Word) (s : State),
     let answer (st : Nat) : Host.Outcome State Fault Refusal := .next { s with now := max s.now t, dev := s.dev.respond 0 st }
     (s.dev.eng.phase = .reset ∨ s.dev.eng.phase = .init →
       exec (.loReadLatch t r addr) s = answer 2 ∧ exec (.registerWrite t r addr data) s = answer 2
       ∧ exec (.ledgerWord0Read t r i) s = answer 2 ∧ exec (.ledgerWord3Write t r i data) s = answer 2
       ∧ exec (.rngSeedHiWrite t v data) s = answer 2 ∧ exec (.probeStart t v) s = answer 2)
     ∧ (s.dev.eng.phase ≠ .reset → s.dev.eng.phase ≠ .init → addr.toNat % 8 ≠ 0 →
       exec (.loReadLatch t r addr) s = answer 1 ∧ exec (.registerWrite t r addr data) s = answer 1))
  ∧ (∀ (t : Tick) (r : Requester) (v : Fin 32) (addr : BitVec 24) (a : BitVec 32) (i : Nat) (s : State),
       (Answers (.loReadLatch t r addr) s fun s' =>
         UnitsAre t s s' { s.dev with views := s'.dev.views, rsp := s'.dev.rsp } ∧ s'.dev.rsp.isSome)
       ∧ (Answers (.ledgerWord0Read t r i) s fun s' =>
         UnitsAre t s s' { s.dev with views := s'.dev.views, rsp := s'.dev.rsp } ∧ s'.dev.rsp.isSome)
       ∧ ∀ space : Fin 2, exec (.debugRead t v ⟨space, a⟩) s = .next { s with now := max s.now t, dev :=
           (if s.dev.deaf then s.dev.respond 0 2
            else match (if space = 0 then (if h : v.val < 17 then s.dev.telPort ⟨v.val, h⟩ a.toNat else none)
                        else if v = 16 then debugWord s.sb s.dev a.toNat else none) with
              | some w => s.dev.respond w 0
              | none => s.dev.respond 0 1) })
  ∧ (∀ (sb : StageBufs) (d : Dev) (slice line off : Nat), slice < 16 → line < 65536 → off < 64 →
       let a := slice * 2 ^ 25 + line * 512 + 8 * off
       let opened := match d.ownerOf slice with | some p => (d.part p).cfg.opDebug | none => false
       (opened = true → debugWord sb d a = some (BitVec.ofNat 64 (fieldLE (sbRead sb slice line) (8 * off) 8)))
       ∧ (opened = false → debugWord sb d a = none))
  ∧ (∀ (d : Dev) (v : View) (a : Nat), a % 8 ≠ 0 ∨ a / 65536 ≠ 9 ∧ (a < 0x100000 ∨ 0x200000 ≤ a) → d.telPort v a = none)

/-- The ledger window (R205, R423): a read of word 0 answers it and latches the entry; words 0 to 2 are staged in the requester's view
alone; the write of word 3 puts the staged words and word 3 into the entry together, and leaves every other entry. While a step is in progress
the window refuses the write; that the TS32 of a two-pass quantise-out's single scale goes through in its host window is the model's choice
(log entry 44). -/
def Obligations.LedgerWindow : Prop :=
  ∀ (t : Tick) (r : Requester) (i n : Nat) (w : Fin 3) (data : Word) (s : State),
    let e := tabGet LedgerEntry.reset s.dev.ledger n
    s.dev.hears r = true → s.dev.entryOf r .ledger i = some n →
    (Answers (.ledgerWord0Read t r i) s fun s' =>
      s'.dev.rsp = some ⟨e.word 0, 0⟩ ∧ (s'.dev.latch r).snap = some (n, e) ∧ s'.dev.ledger = s.dev.ledger)
    ∧ (s.dev.lgrOpen n = true ∨ s.dev.scaleOpen n = true → Answers (.ledgerWordStage t r i w data) s fun s' =>
      UnitsOnly t s s' ∧ s'.dev.ledger = s.dev.ledger ∧ s'.dev.rsp = some ⟨0, 0⟩
      ∧ ∃ a b c, (s'.dev.latch r).staged = some (n, a, b, c) ∧ (if w = 0 then a else if w = 1 then b else c) = some data)
    ∧ (s.dev.lgrOpen n = true → Answers (.ledgerWord3Write t r i data) s fun s' =>
      let st := ((s.dev.latch r).staged.filter fun q => q.1 == n).getD (n, none, none, none)
      UnitsOnly t s s' ∧ s'.dev.rsp = some ⟨0, 0⟩ ∧ (s'.dev.latch r).staged = none
      ∧ tabGet LedgerEntry.reset s'.dev.ledger n
          = e.writeWords (st.2.1.getD (e.word 0)) (st.2.2.1.getD (e.word 1)) (st.2.2.2.getD (e.word 2)) data
      ∧ (∀ k, k ≠ n → tabGet LedgerEntry.reset s'.dev.ledger k = tabGet LedgerEntry.reset s.dev.ledger k)
      ∧ s'.dev.members = s.dev.members ∧ s'.dev.groups = s.dev.groups ∧ s'.dev.keys = s.dev.keys)
    ∧ (s.dev.lgrOpen n = false → s.dev.scaleOpen n = true → Answers (.ledgerWord3Write t r i data) s fun s' =>
      let st := ((s.dev.latch r).staged.filter fun q => q.1 == n).getD (n, none, none, none)
      let ts := (e.writeWords (st.2.1.getD (e.word 0)) (st.2.2.1.getD (e.word 1)) (st.2.2.2.getD (e.word 2)) data).ts32
      UnitsOnly t s s' ∧ s'.dev.rsp = some ⟨0, 0⟩ ∧ (s'.dev.latch r).staged = none
      ∧ tabGet LedgerEntry.reset s'.dev.ledger n = { e with ts32 := ts }
      ∧ (∀ p, s.dev.entryOwner .ledger n = some p →
          (s'.dev.part p).att.scales.lookup (n - (s.dev.part p).cfg.lgrBase) = some ts)
      ∧ ∀ k, k ≠ n → tabGet LedgerEntry.reset s'.dev.ledger k = tabGet LedgerEntry.reset s.dev.ledger k)
    ∧ (s.dev.lgrOpen n = false → s.dev.scaleOpen n = false → Answers (.ledgerWord3Write t r i data) s fun s' =>
      s'.dev.ledger = s.dev.ledger)

/-- The flue tables (R273, R424): a member entry that no group in use names is written. A group entry's write must name an epoch at least two
ahead, or it is refused with GRP_ERR. While a job starts or runs, and where it changes a valid group in force, it is pending; the first setup of
a group outside a job is in force at once, which is the model's choice (log entry 47). -/
def Obligations.FlueTableWrites : Prop :=
  ∀ (t : Tick) (r : Requester) (i n : Nat) (w1 : Word) (p : PartId) (s : State), s.dev.hears r = true →
    (s.dev.entryOf r .member i = some n → s.dev.entryOwner .member n = some p →
      (s.dev.memberUsed p (n - (s.dev.part p).cfg.membBase) = false → Answers (.tableEntryWrite t r false i w1) s fun s' =>
        UnitsOnly t s s' ∧ s'.dev.rsp = some ⟨0, 0⟩ ∧ s'.dev.groups = s.dev.groups ∧ s'.dev.ledger = s.dev.ledger
        ∧ tabGet 0 s'.dev.members n = twoWords 0 (memberFields (BitVec.ofNat 64 ((tabGet 0 s.dev.members n).toNat / 2 ^ 64)) w1)
        ∧ ∀ k, k ≠ n → tabGet 0 s'.dev.members k = tabGet 0 s.dev.members k)
      ∧ (s.dev.memberUsed p (n - (s.dev.part p).cfg.membBase) = true → Answers (.tableEntryWrite t r false i w1) s fun s' =>
        s'.dev.members = s.dev.members ∧ (s'.dev.part p).flu.grpErr = true))
    ∧ (s.dev.entryOf r .group i = some n → s.dev.entryOwner .group n = some p →
      let live := mayFlue (s.dev.part p).sch.state
      let g := tabGet GroupEntry.reset s.dev.groups n
      let old := BitVec.ofNat 64 g.written.toNat
      let new := twoWords (groupFields old (stagedOr (s.dev.latch r).grpStaged n old)) w1
      let refused := gEffective new < (s.dev.part p).sch.epoch.toNat + 2
      (¬ refused → Answers (.tableEntryWrite t r true i w1) s fun s' =>
        UnitsOnly t s s' ∧ s'.dev.members = s.dev.members
        ∧ tabGet GroupEntry.reset s'.dev.groups n 
            = (if live || s.dev.grpValid p g.inForce then { g with written := new, pending := true } else ⟨new, new, false⟩)
        ∧ ∀ k, k ≠ n → tabGet GroupEntry.reset s'.dev.groups k = tabGet GroupEntry.reset s.dev.groups k)
      ∧ (refused → Answers (.tableEntryWrite t r true i w1) s fun s' =>
        s'.dev.groups = s.dev.groups ∧ (s'.dev.part p).flu.grpErr = true))

/-- REGISTER_WRITE and LO_READ_LATCH (Tables 16.3 and 16.6): the operator's write of ENG_OPSEL selects the partition whose banked
registers its view shows; a write of LDR_ADDR keeps bits 63 to 9, reads back so in the same view, and touches nothing else. A LO read of
RNG_SEED latches the other half for the next HI read (R416). -/
def Obligations.RegisterWriteReadsBack : Prop :=
  ∀ (t t' : Tick) (v : View) (data : Word) (s : State),
    let p := s.dev.viewPart v
    let x := s.dev.part p
    s.dev.deaf = false →
    (data.toNat < 16 → exec (.registerWrite t (.cfg 16) 0x000080 data) s = .next { s with now := max s.now t, dev := { s.dev with
      eng := { s.dev.eng with opsel := Fin.ofNat 16 data.toNat }, rsp := some ⟨0, 0⟩ } })
    ∧ (x.cfg.state ≠ .free → Answers (.registerWrite t (.cfg v) 0x030000 data) s fun s' =>
        UnitsAre t s s' { s.dev with eng := { s.dev.eng with ignoredOp := s'.dev.eng.ignoredOp }, rsp := s'.dev.rsp,
                                     parts := s'.dev.parts }
        ∧ OthersSame p s s' ∧ s'.dev.rsp = some ⟨0, 0⟩ ∧ (s'.dev.part p).ldr.addr = data &&& ~~~0x1FF#64
        ∧ (s'.dev.part p).sch = x.sch
        ∧ Answers (.loReadLatch t' (.cfg v) 0x030000) s' fun s'' => s''.dev.rsp = some ⟨data &&& ~~~0x1FF#64, 0⟩)
    ∧ (x.cfg.state ≠ .free → Answers (.loReadLatch t (.cfg v) 0x050000) s fun s' =>
        s'.dev.rsp = some ⟨x.rng.seed.setWidth 64, 0⟩
        ∧ Answers (.loReadLatch t' (.cfg v) 0x050008) s' fun s'' =>
            s''.dev.rsp = some ⟨BitVec.ofNat 64 (x.rng.seed.toNat / 2 ^ 64), 0⟩)

/-- R425: PROBE START clears DONE and begins a probe, and one written while a probe runs is ignored. Probe registers written meanwhile leave
what the probe will write as it is: its end gives the mix of the words it began with under the seed it began with. The write of the seed's HI
half makes the staged seed pending, the last one staged standing, without changing the seed in force; a seed that takes effect, at an anchor
after a commit or at the first load, clears PENDING. -/
def Obligations.SeedAndProbe : Prop :=
  ∀ (t : Tick) (v : Requester) (p : PartId) (data : Word) (s : State),
    let x := s.dev.part (s.dev.reqPart v)
    (s.dev.hears v = true → x.cfg.state ≠ .free →
      (Answers (.rngSeedHiWrite t v data) s fun s' =>
        PartOnly (s.dev.reqPart v) t s s' ∧ s'.dev.rsp = some ⟨0, 0⟩
        ∧ s'.dev.part (s.dev.reqPart v) = { x with rng := (s'.dev.part (s.dev.reqPart v)).rng }
        ∧ (s'.dev.part (s.dev.reqPart v)).rng.seed = x.rng.seed
        ∧ (s'.dev.part (s.dev.reqPart v)).rng.pending = some (data ++ x.rng.stagedLo))
      ∧ (x.rng.probeBusy = none → Answers (.probeStart t v) s fun s' =>
        PartOnly (s.dev.reqPart v) t s s' ∧ (s'.dev.part (s.dev.reqPart v)).rng.probeDone = false
        ∧ (s'.dev.part (s.dev.reqPart v)).rng.probeBusy = some (mix x.rng.probeP0 x.rng.probeP1 (keySchedule x.rng.probeSeed)))
      ∧ (x.rng.probeBusy.isSome → Answers (.probeStart t v) s fun s' =>
        (s'.dev.part (s.dev.reqPart v)) = x))
    ∧ (∀ a : Fin 6, s.dev.hears v = true → x.cfg.state ≠ .free →
        Answers (.registerWrite t v (BitVec.ofNat 24 (0x050100 + 8 * a.val)) data) s fun s' =>
          PartOnly (s.dev.reqPart v) t s s' ∧ s'.dev.rsp = some ⟨0, 0⟩
          ∧ (s'.dev.part (s.dev.reqPart v)).rng.probeBusy = x.rng.probeBusy ∧ (s'.dev.part (s.dev.reqPart v)).rng.probeDone = x.rng.probeDone
          ∧ (s'.dev.part (s.dev.reqPart v)).rng.seed = x.rng.seed ∧ (s'.dev.part (s.dev.reqPart v)).rng.pending = x.rng.pending)
    ∧ (∀ w, (s.dev.part p).rng.probeBusy = some w → Answers (.probeDone t p) s fun s' =>
        PartOnly p t s s' ∧ s'.dev.rsp = s.dev.rsp ∧ (s'.dev.part p).rng.probeOut = w ∧ (s'.dev.part p).rng.probeDone = true
        ∧ (s'.dev.part p).rng.probeBusy = none)
    ∧ ∀ k, (s.dev.part p).rng.pending = some k →
        ((s.dev.part p).rng.ripe = true →
          ((s.dev.applySeed p).part p).rng.pending = none ∧ ((s.dev.applySeed p).part p).rng.seed = k)
        ∧ ((s.dev.part p).ldr.locked = false → ∀ img,
          ((s.dev.install p img).part p).rng.pending = none ∧ ((s.dev.install p img).part p).rng.seed = k)

/-- RECORD_EMIT: the oldest queued record leaves on RPT; if it names a partition that is not FREE and is not the operator's only,
its coarsened form enters that partition's ring, or is counted as dropped when the ring holds 64 (R349, R406, R427). RPT_TAIL takes
a value at most 64 behind HEAD and not beyond it; any other write of it changes nothing (R427). -/
def Obligations.RecordsAndRing : Prop :=
  (∀ (t : Tick) (s : State) (r : Rec) (q : List Rec), s.dev.rpt.queue = r :: q →
     (Answers (.recordEmit t) s fun s' =>
       UnitsAre t s s' { s.dev with rpt := s'.dev.rpt, parts := s'.dev.parts }
       ∧ s'.dev.rpt.queue = q ∧ s'.dev.rpt.out = s.dev.rpt.out ++ [r] ∧ s'.dev.rpt.seq = s.dev.rpt.seq
       ∧ (∀ p, r.part ≠ some p → s'.dev.part p = s.dev.part p)
       ∧ ∀ p, r.part = some p → r.opOnly = false → (s.dev.part p).cfg.state ≠ .free →
           let old := (s.dev.part p).ring
           let new := (s'.dev.part p).ring
           s'.dev.part p = { s.dev.part p with ring := new } ∧ new.tail = old.tail
           ∧ ((old.head - old.tail).toNat < 64 → new.head = old.head + 1 ∧ new.dropped = old.dropped
               ∧ new.slots.lookup (old.head.toNat % 64) = some r.coarsen)
           ∧ (64 ≤ (old.head - old.tail).toNat → new.head = old.head ∧ new.dropped = old.dropped + 1 ∧ new.slots = old.slots)))
  ∧ (∀ (t : Tick) (v : Requester) (data : BitVec 32) (s : State),
       let p := s.dev.reqPart v
       let x := s.dev.part p
       s.dev.hears v = true → x.cfg.state ≠ .free → Answers (.rptTailWrite t v data) s fun s' =>
         PartOnly p t s s' ∧ s'.dev.part p = { x with ring := (s'.dev.part p).ring }
         ∧ (s'.dev.part p).ring = (if (x.ring.head - data).toNat ≤ 64 then { x.ring with tail := data } else x.ring))

/-! ## Jobs and images (R247, R250, R259 to R263, R421, R422) -/

/-- START_GO and JOIN in READY with a valid job group: the partition is STARTING with its own START word, whose proposed tick is at least
2,097,152 ticks away and a base beat's; CANCEL takes STARTING back to READY and discards the words held (R247, R250, R421). -/
def Obligations.JobStarts : Prop :=
  ∀ (t : Tick) (v : Requester) (s : State),
    let p := s.dev.reqPart v
    let x := s.dev.part p
    let n := max s.now t
    s.dev.hears v = true →
    (x.sch.state = .ready → x.cfg.state = .assigned → s.dev.jobOk p = true →
      (2 ≤ (s.dev.memberIds p).eraseDups.length → x.agree.starts = [] → x.agree.joining = false →
        Answers (.startGo t v) s fun s' => PartAndFlue p t s s'
          ∧ s'.dev.rsp = some ⟨0, 0⟩ ∧ (s'.dev.part p).sch.state = .starting
          ∧ ∃ w, (s'.dev.part p).agree.starts = [w] ∧ w.src = x.self ∧ n + 2097152 ≤ w.tick ∧ w.tick < n + 2097168
              ∧ w.tick % 16 = 0 ∧ w.epoch = x.sch.epoch.toNat)
      ∧ Answers (.join t v) s fun s' => PartAndFlue p t s s' ∧ s'.dev.rsp = some ⟨0, 0⟩
          ∧ (s'.dev.part p).sch.state = .starting ∧ (s'.dev.part p).agree.joining = true ∧ (s'.dev.part p).agree.starts = [])
    ∧ (x.sch.state = .starting → Answers (.cancel t v) s fun s' => PartAndFlue p t s s' ∧ s'.dev.rsp = some ⟨0, 0⟩
        ∧ (s'.dev.part p).sch.state = .ready ∧ (s'.dev.part p).agree.starts = [] ∧ (s'.dev.part p).agree.joining = false
        ∧ ∀ k w, w ∈ (tabGet FluePort.reset s'.dev.ports k).waiting → w.part ≠ p)

/-- Loading (R260 to R262, R422): GO takes an EMPTY, READY or DONE partition to LOADING with RESULT 1, and the loader reads its lines from
LDR_ADDR on. The load does not end before every line has come. An image that passes every check of Table 9.9 is installed: READY, RESULT 2,
every line of the partition unwritten and its RWL fields locked; one that fails leaves the state it came from with RESULT 3. A patch that
passes is staged; WITHDRAW discards it. Which port each line is read through is the model's choice (log entry 16), as is the reading of
records that the command carries (log entry 5). -/
def Obligations.ImagesLoad : Prop :=
  ∀ (t : Tick) (v : Requester) (p : PartId) (img : Image) (memErr : Bool) (s : State),
    let q := s.dev.reqPart v
    let y := s.dev.part q
    let x := s.dev.part p
    let im := x.ldr.loaded img
    let bad := memErr || x.ldr.readErr
    let hears := s.dev.hears v = true
    (hears → y.ldr.result ≠ 1 → y.cfg.state = .assigned → y.sch.state = .empty ∨ y.sch.state = .ready ∨ y.sch.state = .done →
      Answers (.loadImage t v) s fun s' =>
        UnitsAre t s s' { s.dev with memReads := s'.dev.memReads, rsp := some ⟨0, 0⟩, parts := s'.dev.parts } ∧ OthersSame q s s'
        ∧ (∃ reads, s'.dev.memReads = s.dev.memReads ++ reads ∧ ∀ r ∈ reads, r.loader = true ∧ r.part = q
            ∧ r.index < y.ldr.lineCount ∧ r.addr = y.ldr.addr.toNat + 512 * r.index)
        ∧ (s'.dev.part q).ldr.result = 1 ∧ (s'.dev.part q).ldr.lines = [] ∧ (s'.dev.part q).ldr.readErr = false
        ∧ (s'.dev.part q).sch.state = .loading ∧ (s'.dev.part q).sch.before = y.sch.state)
    ∧ (x.sch.state = .loading → x.ldr.wholeRead = false →
      exec (.loadComplete t p img memErr) s = .next { s with now := max s.now t })
    ∧ (x.sch.state = .loading → x.ldr.wholeRead = true → fullCheck s.dev p im x.ldr.len.toNat bad = none →
      Answers (.loadComplete t p img memErr) s fun s' =>
        s' = { s with now := max s.now t, sb := s'.sb, dev := { s.dev with parts := s'.dev.parts } } ∧ OthersSame p s s'
        ∧ (s'.dev.part p).sch.state = .ready ∧ (s'.dev.part p).ldr.result = 2 ∧ (s'.dev.part p).ldr.image = some (readImage im)
        ∧ (s'.dev.part p).ldr.locked = true ∧ (s'.dev.part p).cfg = x.cfg ∧ s'.sb.mem = s.sb.mem
        ∧ ∀ sl line, line < 65536 → x.cfg.first ≤ sl → sl < x.cfg.first + x.cfg.size → sbValid s'.sb sl line = false)
    ∧ (∀ r, x.sch.state = .loading → x.ldr.wholeRead = true → fullCheck s.dev p im x.ldr.len.toNat bad = some r →
      Answers (.loadComplete t p img memErr) s fun s' => PartAndFlue p t s s'
        ∧ (s'.dev.part p).sch.state = x.sch.before ∧ (s'.dev.part p).ldr.result = 3 ∧ (s'.dev.part p).ldr.image = x.ldr.image)
    ∧ (∀ base, hears → y.ldr.result ≠ 1 → y.cfg.state = .assigned → y.ldr.image = some base →
      y.sch.state = .ready ∨ y.sch.state = .running ∨ y.sch.state = .held → patchCheck s.dev q base img memErr = none →
      y.running = false ∨ (∃ i ∈ s.dev.memberIds q, i ≠ y.self ∧ (y.agree.replaces.any fun z => z.1 == i) = false) →
      Answers (.stagePatch t v img memErr) s fun s' => PartAndFlue q t s s' ∧ s'.dev.rsp = some ⟨0, 0⟩
        ∧ (s'.dev.part q).ldr.staged = some (readImage img) ∧ (s'.dev.part q).ldr.result = 2 ∧ (s'.dev.part q).ldr.image = some base
        ∧ (s'.dev.part q).sch = y.sch)
    ∧ (hears → y.ldr.result ≠ 1 → Answers (.withdraw t v) s fun s' => PartOnly q t s s' ∧ s'.dev.rsp = some ⟨0, 0⟩
        ∧ (s'.dev.part q).ldr.staged = none ∧ (s'.dev.part q).ldr.patchFrom = none ∧ (s'.dev.part q).ldr.image = y.ldr.image
        ∧ (s'.dev.part q).sch = y.sch)

/-! ## The root of trust (R314, R342 to R347, R355 to R357, R381 to R389, R410, R420, R432, R433) -/

/-- The life of a partition (R343, R346, R347, R387, R419, R420, Table 13.2): FREE to ASSIGNED with every register at its reset value, to
RESETTING, cleared with its tables, ledger range, keys and validity bits, to SCRUBBING, and back to FREE. That the schedule is HALTED from the
start of the reset on, that DBG_SEEN is cleared and that the counters stand until the next assignment are the model's choice (log entry 32). -/
def Obligations.PartitionLife : Prop :=
  ∀ (t : Tick) (p : PartId) (s : State),
    let x := s.dev.part p
    let ok (s' : State) : Prop := s'.dev.rsp = some ⟨0, 0⟩
    (s.dev.eng.phase = .ready → s.dev.assignable p = true → Answers (.partitionAssign t p) s fun s' =>
      UnitsAre t s s' { s.dev with parts := s'.dev.parts, slices := s'.dev.slices, rsp := s'.dev.rsp }
      ∧ OthersSame p s s' ∧ ok s'
      ∧ s'.dev.part p = { Part.reset with cfg := { x.cfg with state := .assigned, resetDone := false, dbgSeen := false } })
    ∧ (s.dev.eng.phase = .ready → x.cfg.state = .assigned → Answers (.partitionReset t p) s fun s' =>
      UnitsAre t s s' { s.dev with memReads := s'.dev.memReads, memWrites := s'.dev.memWrites, ports := s'.dev.ports,
                                   rsp := s'.dev.rsp, parts := s'.dev.parts }
      ∧ OthersSame p s s' ∧ ok s' ∧ (s'.dev.part p).cfg.state = .resetting ∧ (s'.dev.part p).sch.state = .halted
      ∧ (s'.dev.part p).att.live = false ∧ (∀ r ∈ s'.dev.memReads, r.part = p → r.dropped = true)
      ∧ (∀ w ∈ s'.dev.memWrites, w.part = p → w.dropped = true ∧ w.id.isSome)
      ∧ ∀ k w, w ∈ (tabGet FluePort.reset s'.dev.ports k).waiting → w.part ≠ p)
    ∧ (x.cfg.state = .resetting → x.cfg.resetDone = false → (s.dev.memWrites.any fun y => y.part == p) = false →
      Answers (.partitionResetComplete t p) s fun s' =>
        s'.pending = s.pending ∧ s'.now = max s.now t ∧ OthersSame p s s' ∧ s'.sb.mem = s.sb.mem
        ∧ s'.dev.part p = { Part.reset with cfg := { x.cfg with resetDone := true, dbgSeen := false }, tel := x.tel.cleared }
        ∧ s'.dev.secOut = s.dev.secOut ++ [.resetDone p]
        ∧ (∀ i < x.cfg.lgrCount, s'.dev.lgr p i = LedgerEntry.reset)
        ∧ (∀ h < x.cfg.keyCount, s'.dev.key p h = KeySlot.reset)
        ∧ (∀ i < x.cfg.membCount, tabGet 0 s'.dev.members (x.cfg.membBase + i) = 0)
        ∧ (∀ i < x.cfg.grpCount, tabGet GroupEntry.reset s'.dev.groups (x.cfg.grpBase + i) = GroupEntry.reset)
        ∧ (∀ e, e < x.cfg.lgrBase ∨ x.cfg.lgrBase + x.cfg.lgrCount ≤ e →
            tabGet LedgerEntry.reset s'.dev.ledger e = tabGet LedgerEntry.reset s.dev.ledger e)
        ∧ ∀ sl line, line < 65536 → x.cfg.first ≤ sl → sl < x.cfg.first + x.cfg.size → sbValid s'.sb sl line = false)
    ∧ (s.dev.deaf = false → x.cfg.state = .resetting → x.cfg.resetDone = true → Answers (.scrubStart t p) s fun s' =>
      PartAndFlue p t s s' ∧ ok s' ∧ s'.dev.part p = { x with cfg := { x.cfg with state := .scrubbing } }
      ∧ s'.dev.rpt.seq = s.dev.rpt.seq + 1)
    ∧ (s.dev.deaf = false → x.cfg.state = .scrubbing → Answers (.partitionFree t p) s fun s' =>
      UnitsAre t s s' { s.dev with pwr := s'.dev.pwr, rsp := s'.dev.rsp, parts := s'.dev.parts }
      ∧ OthersSame p s s' ∧ ok s'
      ∧ s'.dev.part p = { x with cfg := { x.cfg with state := .free, resetDone := false, size := 0, first := 0 } })

/-- FENCE_CONFIRM sets bits of a slice's fence word and clears none; the supplies of fenced arrays go off, of all four when the slice is
fenced, and the arrays hold nothing any more and stay fenced until a burn has passed (R328, R338); a slice that becomes fenced halts its
partition; the requests it meets are over (R381 to R385). That it acts in every state but RESET, where it is answered with status 2, and that
the bits of both words count, are the model's choice (log entry 33). -/
def Obligations.FencesConfirmed : Prop :=
  ∀ (t : Tick) (sl : SliceId) (data : Word) (s : State), s.dev.eng.phase ≠ .reset →
    Answers (.fenceConfirm t sl data) s fun s' =>
      UnitsAre t s s' { s.dev with eng := s'.dev.eng, pwr := s'.dev.pwr, rpt := s'.dev.rpt, ports := s'.dev.ports,
                                   rsp := s'.dev.rsp, parts := s'.dev.parts, arrays := s'.dev.arrays }
      ∧ s'.dev.rsp = some ⟨0, 0⟩
      ∧ s'.dev.fence sl.val = s.dev.fence sl.val ||| data.setWidth 16
      ∧ (∀ k, k ≠ sl.val → s'.dev.fence k = s.dev.fence k)
      ∧ (∀ i < 4, (s'.dev.fence sl.val).getLsbD i = true ∨ sliceCond (s'.dev.fence sl.val) = 2 →
          s'.dev.pwr.en.getLsbD (4 * sl.val + i) = false ∧ s'.dev.array (4 * sl.val + i) = ArraySt.reset
          ∧ s'.dev.pwr.wasOff.contains (4 * sl.val + i) = true)
      ∧ (∀ p, s.dev.ownerOf sl.val = some p → (s.dev.part p).cfg.state = .assigned → sliceCond (s.dev.fence sl.val) ≠ 2 →
          sliceCond (s.dev.fence sl.val ||| data.setWidth 16) = 2 → (s'.dev.part p).sch.state = .halted)
      ∧ (s.dev.eng.phase = .ready → anyService (tabSet 0 s.dev.eng.fences sl.val (s.dev.fence sl.val ||| data.setWidth 16)) = false →
          s'.dev.eng.phase = .noService)

/-- Stoker firmware (R356, R357, R375 step 5, R432): a bank is measured and locked once, cleared unless it is the running one, started,
activated when staged, valid and locked, and swapped, once no partition runs or switches, so that the roles change and the former active bank
is empty. That the commands act in FIRMWARE, BUDGET, BURN and READY is the model's choice (log entry 33: Table 14.2 names none for BURN). -/
def Obligations.FirmwareCommands : Prop :=
  ∀ (t : Tick) (b : Fin 2) (ms : List Byte) (s : State),
    let only (s' : State) : Prop := UnitsAre t s s' { s.dev with stk := s'.dev.stk, rsp := some ⟨0, 0⟩ }
    (s.dev.fwOpen = true → (s.dev.stk.bank b).locked = false → Answers (.fwLock t b ms) s fun s' =>
      only s' ∧ (s'.dev.stk.bank b).locked = true ∧ (s'.dev.stk.bank b).measurement = ms
      ∧ (s'.dev.stk.bank b).version = (s.dev.stk.bank b).version ∧ ∀ c, c ≠ b → s'.dev.stk.bank c = s.dev.stk.bank c)
    ∧ (s.dev.fwOpen = true → s.dev.stk.isActive b = false ∨ s.dev.stk.running = false → Answers (.fwClear t b) s fun s' =>
      only s' ∧ s'.dev.stk.bank b = Bank.reset ∧ ∀ c, c ≠ b → s'.dev.stk.bank c = s.dev.stk.bank c)
    ∧ (s.dev.eng.phase = .firmware → Answers (.fwStart t) s fun s' => only s' ∧ s'.dev.stk = { s.dev.stk with running := true })
    ∧ (s.dev.eng.phase = .ready → s.dev.stk.stagedBank.valid = true → s.dev.stk.stagedBank.locked = true →
        (∀ p img, (s.dev.part p).ldr.image = some img → img.header.fwMin ≤ s.dev.stk.stagedBank.version.toNat) →
        Answers (.firmwareActivation t) s fun s' => only s' ∧ s'.dev.stk = { s.dev.stk with activating := true })
    ∧ (s.dev.fwOpen = true → s.dev.stk.stagedBank.valid = true → s.dev.stk.stagedBank.locked = true →
        (∀ p, (s.dev.part p).swapReady = true) →
        Answers (.fwSwap t) s fun s' =>
      only s' ∧ s'.dev.stk.active = !s.dev.stk.active ∧ s'.dev.stk.activeBank = s.dev.stk.stagedBank
      ∧ s'.dev.stk.stagedBank = Bank.reset ∧ s'.dev.stk.running = false ∧ s'.dev.stk.restarting = true)
    ∧ (s.dev.fwOpen = true → Answers (.fwResetRestart t) s fun s' =>
      only s' ∧ s'.dev.stk = { s.dev.stk with running := false, restarting := true })

/-- A loss of the time base once it is locked is engine-fatal: the engine and every assigned partition enter HALTED (R229).
STOKER_LOCKSTEP stops the pair and tells the root of trust; a second one within 64 start-up epochs of a restart in service is
engine-fatal (R27, R314). A restart whose firmware measures right runs again and is counted; another is engine-fatal. -/
def Obligations.TimebaseAndStokerLoss : Prop :=
  (∀ (t : Tick) (strobe : Bool) (s : State),
     s.dev.eng.phase ≠ .reset → (s.dev.eng.phase = .init → s.dev.eng.tbLocked = true) →
     Answers (.timebaseLoss t strobe) s fun s' =>
       UnitsAre t s s' { s.dev with eng := s'.dev.eng, rpt := s'.dev.rpt, ports := s'.dev.ports, parts := s'.dev.parts }
       ∧ s'.dev.eng.phase = (if s.dev.eng.phase = .noService then .noService else .halted) ∧ s'.dev.rpt.seq = s.dev.rpt.seq + 1
       ∧ (∀ p, (s.dev.part p).cfg.state = .assigned → (s'.dev.part p).sch.state = .halted)
       ∧ ∀ p, (s.dev.part p).cfg.state ≠ .assigned → s'.dev.part p = s.dev.part p)
  ∧ (∀ (t : Tick) (addr : BitVec 32) (s : State),
       let n := max s.now t
       let again : Bool := match s.dev.stk.lastRestart with | some r => decide (n < r + 67108864) | none => false
       (s.dev.stk.running = true → Answers (.stokerLockstep t addr) s fun s' =>
         UnitsAre t s s' { s.dev with eng := s'.dev.eng, stk := s'.dev.stk, secOut := s'.dev.secOut, rpt := s'.dev.rpt,
                                      ports := s'.dev.ports, parts := s'.dev.parts }
         ∧ s'.dev.stk.running = false ∧ s'.dev.secOut = s.dev.secOut ++ [.lockstep]
         ∧ s'.dev.rpt.seq = s.dev.rpt.seq + 1 ∧ (s.dev.eng.phase = .ready → again = true → s'.dev.eng.phase = .halted)
         ∧ (s.dev.eng.phase = .ready → again = false → s'.dev.eng.phase = .ready ∧ s'.dev.parts = s.dev.parts))
       ∧ (s.dev.stk.restarting = true → s.dev.stk.swapping = false → Answers (.stokerRestartComplete t true) s fun s' =>
         UnitsAre t s s' { s.dev with stk := s'.dev.stk, rpt := s'.dev.rpt, ports := s'.dev.ports, parts := s'.dev.parts }
         ∧ s'.dev.stk.running = true ∧ s'.dev.stk.restarting = false
         ∧ s'.dev.stk.restarts = min 255 (s.dev.stk.restarts + 1) ∧ s'.dev.stk.lastRestart = some n)
       ∧ (s.dev.stk.restarting = true → Answers (.stokerRestartComplete t false) s fun s' =>
         UnitsAre t s s' { s.dev with eng := s'.dev.eng, stk := s'.dev.stk, rpt := s'.dev.rpt, ports := s'.dev.ports,
                                      parts := s'.dev.parts }
         ∧ s'.dev.eng.phase = (if s.dev.eng.phase = .noService then .noService else .halted) ∧ s'.dev.stk.restarting = false))

/-- R433: an install writes the window's key, identifier, kind and purpose into the slot, sets it valid, and its nonce to RAND and a
count of zero; zeroise empties the slot; both are refused while R355 keeps what the slot holds, and then every slot is as before. After
every command, done or refused, the window's key and RAND are zero. -/
def Obligations.KeysInstalled : Prop :=
  ∀ (t : Tick) (cmd : Word) (s : State),
    let h := keySlotOf cmd
    let gone (s' : State) (refused : Bool) : Prop :=
      s' = { s with now := max s.now t, dev := { s.dev with keys := s'.dev.keys, rsp := some ⟨0, 0⟩,
                                                            keyWin := { s.dev.keyWin with data := 0, nonce := 0, refused := refused } } }
      ∧ ∀ k, k ≠ h → tabGet KeySlot.reset s'.dev.keys k = tabGet KeySlot.reset s.dev.keys k
    (s.dev.eng.phase = .ready → s.dev.keyFree h = true →
      (Answers (.keyInstall t cmd) s fun s' => gone s' false
        ∧ (tabGet KeySlot.reset s'.dev.keys h).key = s.dev.keyWin.data ∧ (tabGet KeySlot.reset s'.dev.keys h).rand = s.dev.keyWin.nonce
        ∧ (tabGet KeySlot.reset s'.dev.keys h).count = 0 ∧ (tabGet KeySlot.reset s'.dev.keys h).valid = true
        ∧ (tabGet KeySlot.reset s'.dev.keys h).keyId = cmd.extractLsb' 32 32
        ∧ (tabGet KeySlot.reset s'.dev.keys h).kind = cmd.extractLsb' 8 2
        ∧ (tabGet KeySlot.reset s'.dev.keys h).purpose = cmd.extractLsb' 12 2)
      ∧ (Answers (.keyZeroise t cmd) s fun s' => gone s' false ∧ tabGet KeySlot.reset s'.dev.keys h = KeySlot.reset))
    ∧ (s.dev.eng.phase = .ready → s.dev.keyFree h = false →
      (Answers (.keyInstall t cmd) s fun s' => gone s' true ∧ s'.dev.keys = s.dev.keys)
      ∧ (Answers (.keyZeroise t cmd) s fun s' => gone s' true ∧ s'.dev.keys = s.dev.keys))
end

