-- ==== Sys2Proof/Laws/State.lean ====
section
/-! SUPPORT. The fields each shared update of the units leaves alone, one lemma a field, so that no proof unfolds an update. -/

namespace Sys2Proof.Machine

@[simp] theorem Dev.setPart_eng (d : Dev) (p : PartId) (x : Part) : (d.setPart p x).eng = d.eng := rfl
@[simp] theorem Dev.setPart_straps (d : Dev) (p : PartId) (x : Part) : (d.setPart p x).straps = d.straps := rfl
@[simp] theorem Dev.setPart_pwr (d : Dev) (p : PartId) (x : Part) : (d.setPart p x).pwr = d.pwr := rfl
@[simp] theorem Dev.setPart_dmp (d : Dev) (p : PartId) (x : Part) : (d.setPart p x).dmp = d.dmp := rfl
@[simp] theorem Dev.setPart_stk (d : Dev) (p : PartId) (x : Part) : (d.setPart p x).stk = d.stk := rfl
@[simp] theorem Dev.setPart_rpt (d : Dev) (p : PartId) (x : Part) : (d.setPart p x).rpt = d.rpt := rfl
@[simp] theorem Dev.setPart_secOut (d : Dev) (p : PartId) (x : Part) : (d.setPart p x).secOut = d.secOut := rfl
@[simp] theorem Dev.setPart_rsp (d : Dev) (p : PartId) (x : Part) : (d.setPart p x).rsp = d.rsp := rfl
@[simp] theorem Dev.setPart_ledger (d : Dev) (p : PartId) (x : Part) : (d.setPart p x).ledger = d.ledger := rfl
@[simp] theorem Dev.setPart_ledgerBad (d : Dev) (p : PartId) (x : Part) : (d.setPart p x).ledgerBad = d.ledgerBad := rfl
@[simp] theorem Dev.setPart_members (d : Dev) (p : PartId) (x : Part) : (d.setPart p x).members = d.members := rfl
@[simp] theorem Dev.setPart_groups (d : Dev) (p : PartId) (x : Part) : (d.setPart p x).groups = d.groups := rfl
@[simp] theorem Dev.setPart_keys (d : Dev) (p : PartId) (x : Part) : (d.setPart p x).keys = d.keys := rfl
@[simp] theorem Dev.setPart_keyWin (d : Dev) (p : PartId) (x : Part) : (d.setPart p x).keyWin = d.keyWin := rfl
@[simp] theorem Dev.setPart_views (d : Dev) (p : PartId) (x : Part) : (d.setPart p x).views = d.views := rfl
@[simp] theorem Dev.setPart_arrays (d : Dev) (p : PartId) (x : Part) : (d.setPart p x).arrays = d.arrays := rfl
@[simp] theorem Dev.setPart_stations (d : Dev) (p : PartId) (x : Part) : (d.setPart p x).stations = d.stations := rfl
@[simp] theorem Dev.setPart_ports (d : Dev) (p : PartId) (x : Part) : (d.setPart p x).ports = d.ports := rfl
@[simp] theorem Dev.setPart_flueOut (d : Dev) (p : PartId) (x : Part) : (d.setPart p x).flueOut = d.flueOut := rfl
@[simp] theorem Dev.setPart_memReads (d : Dev) (p : PartId) (x : Part) : (d.setPart p x).memReads = d.memReads := rfl
@[simp] theorem Dev.setPart_memWrites (d : Dev) (p : PartId) (x : Part) : (d.setPart p x).memWrites = d.memWrites := rfl
@[simp] theorem Dev.setPart_slices (d : Dev) (p : PartId) (x : Part) : (d.setPart p x).slices = d.slices := rfl

@[simp] theorem Dev.modPart_eng (d : Dev) (p : PartId) (f : Part → Part) : (d.modPart p f).eng = d.eng := rfl
@[simp] theorem Dev.modPart_straps (d : Dev) (p : PartId) (f : Part → Part) : (d.modPart p f).straps = d.straps := rfl
@[simp] theorem Dev.modPart_pwr (d : Dev) (p : PartId) (f : Part → Part) : (d.modPart p f).pwr = d.pwr := rfl
@[simp] theorem Dev.modPart_dmp (d : Dev) (p : PartId) (f : Part → Part) : (d.modPart p f).dmp = d.dmp := rfl
@[simp] theorem Dev.modPart_stk (d : Dev) (p : PartId) (f : Part → Part) : (d.modPart p f).stk = d.stk := rfl
@[simp] theorem Dev.modPart_rpt (d : Dev) (p : PartId) (f : Part → Part) : (d.modPart p f).rpt = d.rpt := rfl
@[simp] theorem Dev.modPart_secOut (d : Dev) (p : PartId) (f : Part → Part) : (d.modPart p f).secOut = d.secOut := rfl
@[simp] theorem Dev.modPart_rsp (d : Dev) (p : PartId) (f : Part → Part) : (d.modPart p f).rsp = d.rsp := rfl
@[simp] theorem Dev.modPart_ledger (d : Dev) (p : PartId) (f : Part → Part) : (d.modPart p f).ledger = d.ledger := rfl
@[simp] theorem Dev.modPart_ledgerBad (d : Dev) (p : PartId) (f : Part → Part) : (d.modPart p f).ledgerBad = d.ledgerBad := rfl
@[simp] theorem Dev.modPart_members (d : Dev) (p : PartId) (f : Part → Part) : (d.modPart p f).members = d.members := rfl
@[simp] theorem Dev.modPart_groups (d : Dev) (p : PartId) (f : Part → Part) : (d.modPart p f).groups = d.groups := rfl
@[simp] theorem Dev.modPart_keys (d : Dev) (p : PartId) (f : Part → Part) : (d.modPart p f).keys = d.keys := rfl
@[simp] theorem Dev.modPart_keyWin (d : Dev) (p : PartId) (f : Part → Part) : (d.modPart p f).keyWin = d.keyWin := rfl
@[simp] theorem Dev.modPart_views (d : Dev) (p : PartId) (f : Part → Part) : (d.modPart p f).views = d.views := rfl
@[simp] theorem Dev.modPart_arrays (d : Dev) (p : PartId) (f : Part → Part) : (d.modPart p f).arrays = d.arrays := rfl
@[simp] theorem Dev.modPart_stations (d : Dev) (p : PartId) (f : Part → Part) : (d.modPart p f).stations = d.stations := rfl
@[simp] theorem Dev.modPart_ports (d : Dev) (p : PartId) (f : Part → Part) : (d.modPart p f).ports = d.ports := rfl
@[simp] theorem Dev.modPart_flueOut (d : Dev) (p : PartId) (f : Part → Part) : (d.modPart p f).flueOut = d.flueOut := rfl
@[simp] theorem Dev.modPart_memReads (d : Dev) (p : PartId) (f : Part → Part) : (d.modPart p f).memReads = d.memReads := rfl
@[simp] theorem Dev.modPart_memWrites (d : Dev) (p : PartId) (f : Part → Part) : (d.modPart p f).memWrites = d.memWrites := rfl
@[simp] theorem Dev.modPart_slices (d : Dev) (p : PartId) (f : Part → Part) : (d.modPart p f).slices = d.slices := rfl

@[simp] theorem Dev.modSch_eng (d : Dev) (p : PartId) (f : Sch → Sch) : (d.modSch p f).eng = d.eng := rfl
@[simp] theorem Dev.modSch_straps (d : Dev) (p : PartId) (f : Sch → Sch) : (d.modSch p f).straps = d.straps := rfl
@[simp] theorem Dev.modSch_pwr (d : Dev) (p : PartId) (f : Sch → Sch) : (d.modSch p f).pwr = d.pwr := rfl
@[simp] theorem Dev.modSch_dmp (d : Dev) (p : PartId) (f : Sch → Sch) : (d.modSch p f).dmp = d.dmp := rfl
@[simp] theorem Dev.modSch_stk (d : Dev) (p : PartId) (f : Sch → Sch) : (d.modSch p f).stk = d.stk := rfl
@[simp] theorem Dev.modSch_rpt (d : Dev) (p : PartId) (f : Sch → Sch) : (d.modSch p f).rpt = d.rpt := rfl
@[simp] theorem Dev.modSch_secOut (d : Dev) (p : PartId) (f : Sch → Sch) : (d.modSch p f).secOut = d.secOut := rfl
@[simp] theorem Dev.modSch_rsp (d : Dev) (p : PartId) (f : Sch → Sch) : (d.modSch p f).rsp = d.rsp := rfl
@[simp] theorem Dev.modSch_ledger (d : Dev) (p : PartId) (f : Sch → Sch) : (d.modSch p f).ledger = d.ledger := rfl
@[simp] theorem Dev.modSch_ledgerBad (d : Dev) (p : PartId) (f : Sch → Sch) : (d.modSch p f).ledgerBad = d.ledgerBad := rfl
@[simp] theorem Dev.modSch_members (d : Dev) (p : PartId) (f : Sch → Sch) : (d.modSch p f).members = d.members := rfl
@[simp] theorem Dev.modSch_groups (d : Dev) (p : PartId) (f : Sch → Sch) : (d.modSch p f).groups = d.groups := rfl
@[simp] theorem Dev.modSch_keys (d : Dev) (p : PartId) (f : Sch → Sch) : (d.modSch p f).keys = d.keys := rfl
@[simp] theorem Dev.modSch_keyWin (d : Dev) (p : PartId) (f : Sch → Sch) : (d.modSch p f).keyWin = d.keyWin := rfl
@[simp] theorem Dev.modSch_views (d : Dev) (p : PartId) (f : Sch → Sch) : (d.modSch p f).views = d.views := rfl
@[simp] theorem Dev.modSch_arrays (d : Dev) (p : PartId) (f : Sch → Sch) : (d.modSch p f).arrays = d.arrays := rfl
@[simp] theorem Dev.modSch_stations (d : Dev) (p : PartId) (f : Sch → Sch) : (d.modSch p f).stations = d.stations := rfl
@[simp] theorem Dev.modSch_ports (d : Dev) (p : PartId) (f : Sch → Sch) : (d.modSch p f).ports = d.ports := rfl
@[simp] theorem Dev.modSch_flueOut (d : Dev) (p : PartId) (f : Sch → Sch) : (d.modSch p f).flueOut = d.flueOut := rfl
@[simp] theorem Dev.modSch_memReads (d : Dev) (p : PartId) (f : Sch → Sch) : (d.modSch p f).memReads = d.memReads := rfl
@[simp] theorem Dev.modSch_memWrites (d : Dev) (p : PartId) (f : Sch → Sch) : (d.modSch p f).memWrites = d.memWrites := rfl
@[simp] theorem Dev.modSch_slices (d : Dev) (p : PartId) (f : Sch → Sch) : (d.modSch p f).slices = d.slices := rfl

@[simp] theorem Dev.modAtt_eng (d : Dev) (p : PartId) (f : Attempt → Attempt) : (d.modAtt p f).eng = d.eng := rfl
@[simp] theorem Dev.modAtt_straps (d : Dev) (p : PartId) (f : Attempt → Attempt) : (d.modAtt p f).straps = d.straps := rfl
@[simp] theorem Dev.modAtt_pwr (d : Dev) (p : PartId) (f : Attempt → Attempt) : (d.modAtt p f).pwr = d.pwr := rfl
@[simp] theorem Dev.modAtt_dmp (d : Dev) (p : PartId) (f : Attempt → Attempt) : (d.modAtt p f).dmp = d.dmp := rfl
@[simp] theorem Dev.modAtt_stk (d : Dev) (p : PartId) (f : Attempt → Attempt) : (d.modAtt p f).stk = d.stk := rfl
@[simp] theorem Dev.modAtt_rpt (d : Dev) (p : PartId) (f : Attempt → Attempt) : (d.modAtt p f).rpt = d.rpt := rfl
@[simp] theorem Dev.modAtt_secOut (d : Dev) (p : PartId) (f : Attempt → Attempt) : (d.modAtt p f).secOut = d.secOut := rfl
@[simp] theorem Dev.modAtt_rsp (d : Dev) (p : PartId) (f : Attempt → Attempt) : (d.modAtt p f).rsp = d.rsp := rfl
@[simp] theorem Dev.modAtt_ledger (d : Dev) (p : PartId) (f : Attempt → Attempt) : (d.modAtt p f).ledger = d.ledger := rfl
@[simp] theorem Dev.modAtt_ledgerBad (d : Dev) (p : PartId) (f : Attempt → Attempt) : (d.modAtt p f).ledgerBad = d.ledgerBad := rfl
@[simp] theorem Dev.modAtt_members (d : Dev) (p : PartId) (f : Attempt → Attempt) : (d.modAtt p f).members = d.members := rfl
@[simp] theorem Dev.modAtt_groups (d : Dev) (p : PartId) (f : Attempt → Attempt) : (d.modAtt p f).groups = d.groups := rfl
@[simp] theorem Dev.modAtt_keys (d : Dev) (p : PartId) (f : Attempt → Attempt) : (d.modAtt p f).keys = d.keys := rfl
@[simp] theorem Dev.modAtt_keyWin (d : Dev) (p : PartId) (f : Attempt → Attempt) : (d.modAtt p f).keyWin = d.keyWin := rfl
@[simp] theorem Dev.modAtt_views (d : Dev) (p : PartId) (f : Attempt → Attempt) : (d.modAtt p f).views = d.views := rfl
@[simp] theorem Dev.modAtt_arrays (d : Dev) (p : PartId) (f : Attempt → Attempt) : (d.modAtt p f).arrays = d.arrays := rfl
@[simp] theorem Dev.modAtt_stations (d : Dev) (p : PartId) (f : Attempt → Attempt) : (d.modAtt p f).stations = d.stations := rfl
@[simp] theorem Dev.modAtt_ports (d : Dev) (p : PartId) (f : Attempt → Attempt) : (d.modAtt p f).ports = d.ports := rfl
@[simp] theorem Dev.modAtt_flueOut (d : Dev) (p : PartId) (f : Attempt → Attempt) : (d.modAtt p f).flueOut = d.flueOut := rfl
@[simp] theorem Dev.modAtt_memReads (d : Dev) (p : PartId) (f : Attempt → Attempt) : (d.modAtt p f).memReads = d.memReads := rfl
@[simp] theorem Dev.modAtt_memWrites (d : Dev) (p : PartId) (f : Attempt → Attempt) : (d.modAtt p f).memWrites = d.memWrites := rfl
@[simp] theorem Dev.modAtt_slices (d : Dev) (p : PartId) (f : Attempt → Attempt) : (d.modAtt p f).slices = d.slices := rfl

@[simp] theorem Dev.modHeld_eng (d : Dev) (p : PartId) (f : Held → Held) : (d.modHeld p f).eng = d.eng := rfl
@[simp] theorem Dev.modHeld_straps (d : Dev) (p : PartId) (f : Held → Held) : (d.modHeld p f).straps = d.straps := rfl
@[simp] theorem Dev.modHeld_pwr (d : Dev) (p : PartId) (f : Held → Held) : (d.modHeld p f).pwr = d.pwr := rfl
@[simp] theorem Dev.modHeld_dmp (d : Dev) (p : PartId) (f : Held → Held) : (d.modHeld p f).dmp = d.dmp := rfl
@[simp] theorem Dev.modHeld_stk (d : Dev) (p : PartId) (f : Held → Held) : (d.modHeld p f).stk = d.stk := rfl
@[simp] theorem Dev.modHeld_rpt (d : Dev) (p : PartId) (f : Held → Held) : (d.modHeld p f).rpt = d.rpt := rfl
@[simp] theorem Dev.modHeld_secOut (d : Dev) (p : PartId) (f : Held → Held) : (d.modHeld p f).secOut = d.secOut := rfl
@[simp] theorem Dev.modHeld_rsp (d : Dev) (p : PartId) (f : Held → Held) : (d.modHeld p f).rsp = d.rsp := rfl
@[simp] theorem Dev.modHeld_ledger (d : Dev) (p : PartId) (f : Held → Held) : (d.modHeld p f).ledger = d.ledger := rfl
@[simp] theorem Dev.modHeld_ledgerBad (d : Dev) (p : PartId) (f : Held → Held) : (d.modHeld p f).ledgerBad = d.ledgerBad := rfl
@[simp] theorem Dev.modHeld_members (d : Dev) (p : PartId) (f : Held → Held) : (d.modHeld p f).members = d.members := rfl
@[simp] theorem Dev.modHeld_groups (d : Dev) (p : PartId) (f : Held → Held) : (d.modHeld p f).groups = d.groups := rfl
@[simp] theorem Dev.modHeld_keys (d : Dev) (p : PartId) (f : Held → Held) : (d.modHeld p f).keys = d.keys := rfl
@[simp] theorem Dev.modHeld_keyWin (d : Dev) (p : PartId) (f : Held → Held) : (d.modHeld p f).keyWin = d.keyWin := rfl
@[simp] theorem Dev.modHeld_views (d : Dev) (p : PartId) (f : Held → Held) : (d.modHeld p f).views = d.views := rfl
@[simp] theorem Dev.modHeld_arrays (d : Dev) (p : PartId) (f : Held → Held) : (d.modHeld p f).arrays = d.arrays := rfl
@[simp] theorem Dev.modHeld_stations (d : Dev) (p : PartId) (f : Held → Held) : (d.modHeld p f).stations = d.stations := rfl
@[simp] theorem Dev.modHeld_ports (d : Dev) (p : PartId) (f : Held → Held) : (d.modHeld p f).ports = d.ports := rfl
@[simp] theorem Dev.modHeld_flueOut (d : Dev) (p : PartId) (f : Held → Held) : (d.modHeld p f).flueOut = d.flueOut := rfl
@[simp] theorem Dev.modHeld_memReads (d : Dev) (p : PartId) (f : Held → Held) : (d.modHeld p f).memReads = d.memReads := rfl
@[simp] theorem Dev.modHeld_memWrites (d : Dev) (p : PartId) (f : Held → Held) : (d.modHeld p f).memWrites = d.memWrites := rfl
@[simp] theorem Dev.modHeld_slices (d : Dev) (p : PartId) (f : Held → Held) : (d.modHeld p f).slices = d.slices := rfl

@[simp] theorem Dev.bump_eng (d : Dev) (p : PartId) (c n : Nat) : (d.bump p c n).eng = d.eng := rfl
@[simp] theorem Dev.bump_straps (d : Dev) (p : PartId) (c n : Nat) : (d.bump p c n).straps = d.straps := rfl
@[simp] theorem Dev.bump_pwr (d : Dev) (p : PartId) (c n : Nat) : (d.bump p c n).pwr = d.pwr := rfl
@[simp] theorem Dev.bump_dmp (d : Dev) (p : PartId) (c n : Nat) : (d.bump p c n).dmp = d.dmp := rfl
@[simp] theorem Dev.bump_stk (d : Dev) (p : PartId) (c n : Nat) : (d.bump p c n).stk = d.stk := rfl
@[simp] theorem Dev.bump_rpt (d : Dev) (p : PartId) (c n : Nat) : (d.bump p c n).rpt = d.rpt := rfl
@[simp] theorem Dev.bump_secOut (d : Dev) (p : PartId) (c n : Nat) : (d.bump p c n).secOut = d.secOut := rfl
@[simp] theorem Dev.bump_rsp (d : Dev) (p : PartId) (c n : Nat) : (d.bump p c n).rsp = d.rsp := rfl
@[simp] theorem Dev.bump_ledger (d : Dev) (p : PartId) (c n : Nat) : (d.bump p c n).ledger = d.ledger := rfl
@[simp] theorem Dev.bump_ledgerBad (d : Dev) (p : PartId) (c n : Nat) : (d.bump p c n).ledgerBad = d.ledgerBad := rfl
@[simp] theorem Dev.bump_members (d : Dev) (p : PartId) (c n : Nat) : (d.bump p c n).members = d.members := rfl
@[simp] theorem Dev.bump_groups (d : Dev) (p : PartId) (c n : Nat) : (d.bump p c n).groups = d.groups := rfl
@[simp] theorem Dev.bump_keys (d : Dev) (p : PartId) (c n : Nat) : (d.bump p c n).keys = d.keys := rfl
@[simp] theorem Dev.bump_keyWin (d : Dev) (p : PartId) (c n : Nat) : (d.bump p c n).keyWin = d.keyWin := rfl
@[simp] theorem Dev.bump_views (d : Dev) (p : PartId) (c n : Nat) : (d.bump p c n).views = d.views := rfl
@[simp] theorem Dev.bump_arrays (d : Dev) (p : PartId) (c n : Nat) : (d.bump p c n).arrays = d.arrays := rfl
@[simp] theorem Dev.bump_stations (d : Dev) (p : PartId) (c n : Nat) : (d.bump p c n).stations = d.stations := rfl
@[simp] theorem Dev.bump_ports (d : Dev) (p : PartId) (c n : Nat) : (d.bump p c n).ports = d.ports := rfl
@[simp] theorem Dev.bump_flueOut (d : Dev) (p : PartId) (c n : Nat) : (d.bump p c n).flueOut = d.flueOut := rfl
@[simp] theorem Dev.bump_memReads (d : Dev) (p : PartId) (c n : Nat) : (d.bump p c n).memReads = d.memReads := rfl
@[simp] theorem Dev.bump_memWrites (d : Dev) (p : PartId) (c n : Nat) : (d.bump p c n).memWrites = d.memWrites := rfl
@[simp] theorem Dev.bump_slices (d : Dev) (p : PartId) (c n : Nat) : (d.bump p c n).slices = d.slices := rfl

@[simp] theorem Dev.hold_eng (d : Dev) (p : PartId) (c : HoldCause) : (d.hold p c).eng = d.eng := rfl
@[simp] theorem Dev.hold_straps (d : Dev) (p : PartId) (c : HoldCause) : (d.hold p c).straps = d.straps := rfl
@[simp] theorem Dev.hold_pwr (d : Dev) (p : PartId) (c : HoldCause) : (d.hold p c).pwr = d.pwr := rfl
@[simp] theorem Dev.hold_dmp (d : Dev) (p : PartId) (c : HoldCause) : (d.hold p c).dmp = d.dmp := rfl
@[simp] theorem Dev.hold_stk (d : Dev) (p : PartId) (c : HoldCause) : (d.hold p c).stk = d.stk := rfl
@[simp] theorem Dev.hold_rpt (d : Dev) (p : PartId) (c : HoldCause) : (d.hold p c).rpt = d.rpt := rfl
@[simp] theorem Dev.hold_secOut (d : Dev) (p : PartId) (c : HoldCause) : (d.hold p c).secOut = d.secOut := rfl
@[simp] theorem Dev.hold_rsp (d : Dev) (p : PartId) (c : HoldCause) : (d.hold p c).rsp = d.rsp := rfl
@[simp] theorem Dev.hold_ledger (d : Dev) (p : PartId) (c : HoldCause) : (d.hold p c).ledger = d.ledger := rfl
@[simp] theorem Dev.hold_ledgerBad (d : Dev) (p : PartId) (c : HoldCause) : (d.hold p c).ledgerBad = d.ledgerBad := rfl
@[simp] theorem Dev.hold_members (d : Dev) (p : PartId) (c : HoldCause) : (d.hold p c).members = d.members := rfl
@[simp] theorem Dev.hold_groups (d : Dev) (p : PartId) (c : HoldCause) : (d.hold p c).groups = d.groups := rfl
@[simp] theorem Dev.hold_keys (d : Dev) (p : PartId) (c : HoldCause) : (d.hold p c).keys = d.keys := rfl
@[simp] theorem Dev.hold_keyWin (d : Dev) (p : PartId) (c : HoldCause) : (d.hold p c).keyWin = d.keyWin := rfl
@[simp] theorem Dev.hold_views (d : Dev) (p : PartId) (c : HoldCause) : (d.hold p c).views = d.views := rfl
@[simp] theorem Dev.hold_arrays (d : Dev) (p : PartId) (c : HoldCause) : (d.hold p c).arrays = d.arrays := rfl
@[simp] theorem Dev.hold_stations (d : Dev) (p : PartId) (c : HoldCause) : (d.hold p c).stations = d.stations := rfl
@[simp] theorem Dev.hold_ports (d : Dev) (p : PartId) (c : HoldCause) : (d.hold p c).ports = d.ports := rfl
@[simp] theorem Dev.hold_flueOut (d : Dev) (p : PartId) (c : HoldCause) : (d.hold p c).flueOut = d.flueOut := rfl
@[simp] theorem Dev.hold_memReads (d : Dev) (p : PartId) (c : HoldCause) : (d.hold p c).memReads = d.memReads := rfl
@[simp] theorem Dev.hold_memWrites (d : Dev) (p : PartId) (c : HoldCause) : (d.hold p c).memWrites = d.memWrites := rfl
@[simp] theorem Dev.hold_slices (d : Dev) (p : PartId) (c : HoldCause) : (d.hold p c).slices = d.slices := rfl

@[simp] theorem Dev.bumpSlice_eng (d : Dev) (i c n : Nat) : (d.bumpSlice i c n).eng = d.eng := rfl
@[simp] theorem Dev.bumpSlice_straps (d : Dev) (i c n : Nat) : (d.bumpSlice i c n).straps = d.straps := rfl
@[simp] theorem Dev.bumpSlice_pwr (d : Dev) (i c n : Nat) : (d.bumpSlice i c n).pwr = d.pwr := rfl
@[simp] theorem Dev.bumpSlice_dmp (d : Dev) (i c n : Nat) : (d.bumpSlice i c n).dmp = d.dmp := rfl
@[simp] theorem Dev.bumpSlice_stk (d : Dev) (i c n : Nat) : (d.bumpSlice i c n).stk = d.stk := rfl
@[simp] theorem Dev.bumpSlice_rpt (d : Dev) (i c n : Nat) : (d.bumpSlice i c n).rpt = d.rpt := rfl
@[simp] theorem Dev.bumpSlice_secOut (d : Dev) (i c n : Nat) : (d.bumpSlice i c n).secOut = d.secOut := rfl
@[simp] theorem Dev.bumpSlice_rsp (d : Dev) (i c n : Nat) : (d.bumpSlice i c n).rsp = d.rsp := rfl
@[simp] theorem Dev.bumpSlice_ledger (d : Dev) (i c n : Nat) : (d.bumpSlice i c n).ledger = d.ledger := rfl
@[simp] theorem Dev.bumpSlice_ledgerBad (d : Dev) (i c n : Nat) : (d.bumpSlice i c n).ledgerBad = d.ledgerBad := rfl
@[simp] theorem Dev.bumpSlice_members (d : Dev) (i c n : Nat) : (d.bumpSlice i c n).members = d.members := rfl
@[simp] theorem Dev.bumpSlice_groups (d : Dev) (i c n : Nat) : (d.bumpSlice i c n).groups = d.groups := rfl
@[simp] theorem Dev.bumpSlice_keys (d : Dev) (i c n : Nat) : (d.bumpSlice i c n).keys = d.keys := rfl
@[simp] theorem Dev.bumpSlice_keyWin (d : Dev) (i c n : Nat) : (d.bumpSlice i c n).keyWin = d.keyWin := rfl
@[simp] theorem Dev.bumpSlice_views (d : Dev) (i c n : Nat) : (d.bumpSlice i c n).views = d.views := rfl
@[simp] theorem Dev.bumpSlice_arrays (d : Dev) (i c n : Nat) : (d.bumpSlice i c n).arrays = d.arrays := rfl
@[simp] theorem Dev.bumpSlice_stations (d : Dev) (i c n : Nat) : (d.bumpSlice i c n).stations = d.stations := rfl
@[simp] theorem Dev.bumpSlice_ports (d : Dev) (i c n : Nat) : (d.bumpSlice i c n).ports = d.ports := rfl
@[simp] theorem Dev.bumpSlice_flueOut (d : Dev) (i c n : Nat) : (d.bumpSlice i c n).flueOut = d.flueOut := rfl
@[simp] theorem Dev.bumpSlice_memReads (d : Dev) (i c n : Nat) : (d.bumpSlice i c n).memReads = d.memReads := rfl
@[simp] theorem Dev.bumpSlice_memWrites (d : Dev) (i c n : Nat) : (d.bumpSlice i c n).memWrites = d.memWrites := rfl
@[simp] theorem Dev.bumpSlice_parts (d : Dev) (i c n : Nat) : (d.bumpSlice i c n).parts = d.parts := rfl
@[simp] theorem Dev.bumpSlice_part (d : Dev) (i c n : Nat) (q : PartId) : (d.bumpSlice i c n).part q = d.part q := rfl

@[simp] theorem Dev.bumpOp_straps (d : Dev)  : (d.bumpOp).straps = d.straps := rfl
@[simp] theorem Dev.bumpOp_pwr (d : Dev)  : (d.bumpOp).pwr = d.pwr := rfl
@[simp] theorem Dev.bumpOp_dmp (d : Dev)  : (d.bumpOp).dmp = d.dmp := rfl
@[simp] theorem Dev.bumpOp_stk (d : Dev)  : (d.bumpOp).stk = d.stk := rfl
@[simp] theorem Dev.bumpOp_rpt (d : Dev)  : (d.bumpOp).rpt = d.rpt := rfl
@[simp] theorem Dev.bumpOp_secOut (d : Dev)  : (d.bumpOp).secOut = d.secOut := rfl
@[simp] theorem Dev.bumpOp_rsp (d : Dev)  : (d.bumpOp).rsp = d.rsp := rfl
@[simp] theorem Dev.bumpOp_ledger (d : Dev)  : (d.bumpOp).ledger = d.ledger := rfl
@[simp] theorem Dev.bumpOp_ledgerBad (d : Dev)  : (d.bumpOp).ledgerBad = d.ledgerBad := rfl
@[simp] theorem Dev.bumpOp_members (d : Dev)  : (d.bumpOp).members = d.members := rfl
@[simp] theorem Dev.bumpOp_groups (d : Dev)  : (d.bumpOp).groups = d.groups := rfl
@[simp] theorem Dev.bumpOp_keys (d : Dev)  : (d.bumpOp).keys = d.keys := rfl
@[simp] theorem Dev.bumpOp_keyWin (d : Dev)  : (d.bumpOp).keyWin = d.keyWin := rfl
@[simp] theorem Dev.bumpOp_views (d : Dev)  : (d.bumpOp).views = d.views := rfl
@[simp] theorem Dev.bumpOp_arrays (d : Dev)  : (d.bumpOp).arrays = d.arrays := rfl
@[simp] theorem Dev.bumpOp_stations (d : Dev)  : (d.bumpOp).stations = d.stations := rfl
@[simp] theorem Dev.bumpOp_ports (d : Dev)  : (d.bumpOp).ports = d.ports := rfl
@[simp] theorem Dev.bumpOp_flueOut (d : Dev)  : (d.bumpOp).flueOut = d.flueOut := rfl
@[simp] theorem Dev.bumpOp_memReads (d : Dev)  : (d.bumpOp).memReads = d.memReads := rfl
@[simp] theorem Dev.bumpOp_memWrites (d : Dev)  : (d.bumpOp).memWrites = d.memWrites := rfl
@[simp] theorem Dev.bumpOp_slices (d : Dev)  : (d.bumpOp).slices = d.slices := rfl
@[simp] theorem Dev.bumpOp_parts (d : Dev)  : (d.bumpOp).parts = d.parts := rfl
@[simp] theorem Dev.bumpOp_part (d : Dev)  (q : PartId) : (d.bumpOp).part q = d.part q := rfl

@[simp] theorem Dev.requestFence_straps (d : Dev) (t : Nat) (u : UnitCode) (r : Option Report) : (d.requestFence t u r).straps = d.straps := rfl
@[simp] theorem Dev.requestFence_pwr (d : Dev) (t : Nat) (u : UnitCode) (r : Option Report) : (d.requestFence t u r).pwr = d.pwr := rfl
@[simp] theorem Dev.requestFence_dmp (d : Dev) (t : Nat) (u : UnitCode) (r : Option Report) : (d.requestFence t u r).dmp = d.dmp := rfl
@[simp] theorem Dev.requestFence_stk (d : Dev) (t : Nat) (u : UnitCode) (r : Option Report) : (d.requestFence t u r).stk = d.stk := rfl
@[simp] theorem Dev.requestFence_rpt (d : Dev) (t : Nat) (u : UnitCode) (r : Option Report) : (d.requestFence t u r).rpt = d.rpt := rfl
@[simp] theorem Dev.requestFence_rsp (d : Dev) (t : Nat) (u : UnitCode) (r : Option Report) : (d.requestFence t u r).rsp = d.rsp := rfl
@[simp] theorem Dev.requestFence_ledger (d : Dev) (t : Nat) (u : UnitCode) (r : Option Report) : (d.requestFence t u r).ledger = d.ledger := rfl
@[simp] theorem Dev.requestFence_ledgerBad (d : Dev) (t : Nat) (u : UnitCode) (r : Option Report) : (d.requestFence t u r).ledgerBad = d.ledgerBad := rfl
@[simp] theorem Dev.requestFence_members (d : Dev) (t : Nat) (u : UnitCode) (r : Option Report) : (d.requestFence t u r).members = d.members := rfl
@[simp] theorem Dev.requestFence_groups (d : Dev) (t : Nat) (u : UnitCode) (r : Option Report) : (d.requestFence t u r).groups = d.groups := rfl
@[simp] theorem Dev.requestFence_keys (d : Dev) (t : Nat) (u : UnitCode) (r : Option Report) : (d.requestFence t u r).keys = d.keys := rfl
@[simp] theorem Dev.requestFence_keyWin (d : Dev) (t : Nat) (u : UnitCode) (r : Option Report) : (d.requestFence t u r).keyWin = d.keyWin := rfl
@[simp] theorem Dev.requestFence_views (d : Dev) (t : Nat) (u : UnitCode) (r : Option Report) : (d.requestFence t u r).views = d.views := rfl
@[simp] theorem Dev.requestFence_arrays (d : Dev) (t : Nat) (u : UnitCode) (r : Option Report) : (d.requestFence t u r).arrays = d.arrays := rfl
@[simp] theorem Dev.requestFence_stations (d : Dev) (t : Nat) (u : UnitCode) (r : Option Report) : (d.requestFence t u r).stations = d.stations := rfl
@[simp] theorem Dev.requestFence_ports (d : Dev) (t : Nat) (u : UnitCode) (r : Option Report) : (d.requestFence t u r).ports = d.ports := rfl
@[simp] theorem Dev.requestFence_flueOut (d : Dev) (t : Nat) (u : UnitCode) (r : Option Report) : (d.requestFence t u r).flueOut = d.flueOut := rfl
@[simp] theorem Dev.requestFence_memReads (d : Dev) (t : Nat) (u : UnitCode) (r : Option Report) : (d.requestFence t u r).memReads = d.memReads := rfl
@[simp] theorem Dev.requestFence_memWrites (d : Dev) (t : Nat) (u : UnitCode) (r : Option Report) : (d.requestFence t u r).memWrites = d.memWrites := rfl
@[simp] theorem Dev.requestFence_slices (d : Dev) (t : Nat) (u : UnitCode) (r : Option Report) : (d.requestFence t u r).slices = d.slices := rfl
@[simp] theorem Dev.requestFence_parts (d : Dev) (t : Nat) (u : UnitCode) (r : Option Report) : (d.requestFence t u r).parts = d.parts := rfl
@[simp] theorem Dev.requestFence_part (d : Dev) (t : Nat) (u : UnitCode) (r : Option Report) (q : PartId) : (d.requestFence t u r).part q = d.part q := rfl

@[simp] theorem Dev.respond_eng (d : Dev) (w : Word) (n : Nat) : (d.respond w n).eng = d.eng := rfl
@[simp] theorem Dev.respond_straps (d : Dev) (w : Word) (n : Nat) : (d.respond w n).straps = d.straps := rfl
@[simp] theorem Dev.respond_pwr (d : Dev) (w : Word) (n : Nat) : (d.respond w n).pwr = d.pwr := rfl
@[simp] theorem Dev.respond_dmp (d : Dev) (w : Word) (n : Nat) : (d.respond w n).dmp = d.dmp := rfl
@[simp] theorem Dev.respond_stk (d : Dev) (w : Word) (n : Nat) : (d.respond w n).stk = d.stk := rfl
@[simp] theorem Dev.respond_rpt (d : Dev) (w : Word) (n : Nat) : (d.respond w n).rpt = d.rpt := rfl
@[simp] theorem Dev.respond_secOut (d : Dev) (w : Word) (n : Nat) : (d.respond w n).secOut = d.secOut := rfl
@[simp] theorem Dev.respond_ledger (d : Dev) (w : Word) (n : Nat) : (d.respond w n).ledger = d.ledger := rfl
@[simp] theorem Dev.respond_ledgerBad (d : Dev) (w : Word) (n : Nat) : (d.respond w n).ledgerBad = d.ledgerBad := rfl
@[simp] theorem Dev.respond_members (d : Dev) (w : Word) (n : Nat) : (d.respond w n).members = d.members := rfl
@[simp] theorem Dev.respond_groups (d : Dev) (w : Word) (n : Nat) : (d.respond w n).groups = d.groups := rfl
@[simp] theorem Dev.respond_keys (d : Dev) (w : Word) (n : Nat) : (d.respond w n).keys = d.keys := rfl
@[simp] theorem Dev.respond_keyWin (d : Dev) (w : Word) (n : Nat) : (d.respond w n).keyWin = d.keyWin := rfl
@[simp] theorem Dev.respond_views (d : Dev) (w : Word) (n : Nat) : (d.respond w n).views = d.views := rfl
@[simp] theorem Dev.respond_arrays (d : Dev) (w : Word) (n : Nat) : (d.respond w n).arrays = d.arrays := rfl
@[simp] theorem Dev.respond_stations (d : Dev) (w : Word) (n : Nat) : (d.respond w n).stations = d.stations := rfl
@[simp] theorem Dev.respond_ports (d : Dev) (w : Word) (n : Nat) : (d.respond w n).ports = d.ports := rfl
@[simp] theorem Dev.respond_flueOut (d : Dev) (w : Word) (n : Nat) : (d.respond w n).flueOut = d.flueOut := rfl
@[simp] theorem Dev.respond_memReads (d : Dev) (w : Word) (n : Nat) : (d.respond w n).memReads = d.memReads := rfl
@[simp] theorem Dev.respond_memWrites (d : Dev) (w : Word) (n : Nat) : (d.respond w n).memWrites = d.memWrites := rfl
@[simp] theorem Dev.respond_slices (d : Dev) (w : Word) (n : Nat) : (d.respond w n).slices = d.slices := rfl
@[simp] theorem Dev.respond_parts (d : Dev) (w : Word) (n : Nat) : (d.respond w n).parts = d.parts := rfl
@[simp] theorem Dev.respond_part (d : Dev) (w : Word) (n : Nat) (q : PartId) : (d.respond w n).part q = d.part q := rfl

@[simp] theorem Dev.setPhase_straps (d : Dev) (ph : Phase) (c : Byte) : (d.setPhase ph c).straps = d.straps := rfl
@[simp] theorem Dev.setPhase_pwr (d : Dev) (ph : Phase) (c : Byte) : (d.setPhase ph c).pwr = d.pwr := rfl
@[simp] theorem Dev.setPhase_dmp (d : Dev) (ph : Phase) (c : Byte) : (d.setPhase ph c).dmp = d.dmp := rfl
@[simp] theorem Dev.setPhase_stk (d : Dev) (ph : Phase) (c : Byte) : (d.setPhase ph c).stk = d.stk := rfl
@[simp] theorem Dev.setPhase_rpt (d : Dev) (ph : Phase) (c : Byte) : (d.setPhase ph c).rpt = d.rpt := rfl
@[simp] theorem Dev.setPhase_secOut (d : Dev) (ph : Phase) (c : Byte) : (d.setPhase ph c).secOut = d.secOut := rfl
@[simp] theorem Dev.setPhase_rsp (d : Dev) (ph : Phase) (c : Byte) : (d.setPhase ph c).rsp = d.rsp := rfl
@[simp] theorem Dev.setPhase_ledger (d : Dev) (ph : Phase) (c : Byte) : (d.setPhase ph c).ledger = d.ledger := rfl
@[simp] theorem Dev.setPhase_ledgerBad (d : Dev) (ph : Phase) (c : Byte) : (d.setPhase ph c).ledgerBad = d.ledgerBad := rfl
@[simp] theorem Dev.setPhase_members (d : Dev) (ph : Phase) (c : Byte) : (d.setPhase ph c).members = d.members := rfl
@[simp] theorem Dev.setPhase_groups (d : Dev) (ph : Phase) (c : Byte) : (d.setPhase ph c).groups = d.groups := rfl
@[simp] theorem Dev.setPhase_keys (d : Dev) (ph : Phase) (c : Byte) : (d.setPhase ph c).keys = d.keys := rfl
@[simp] theorem Dev.setPhase_keyWin (d : Dev) (ph : Phase) (c : Byte) : (d.setPhase ph c).keyWin = d.keyWin := rfl
@[simp] theorem Dev.setPhase_views (d : Dev) (ph : Phase) (c : Byte) : (d.setPhase ph c).views = d.views := rfl
@[simp] theorem Dev.setPhase_arrays (d : Dev) (ph : Phase) (c : Byte) : (d.setPhase ph c).arrays = d.arrays := rfl
@[simp] theorem Dev.setPhase_stations (d : Dev) (ph : Phase) (c : Byte) : (d.setPhase ph c).stations = d.stations := rfl
@[simp] theorem Dev.setPhase_ports (d : Dev) (ph : Phase) (c : Byte) : (d.setPhase ph c).ports = d.ports := rfl
@[simp] theorem Dev.setPhase_flueOut (d : Dev) (ph : Phase) (c : Byte) : (d.setPhase ph c).flueOut = d.flueOut := rfl
@[simp] theorem Dev.setPhase_memReads (d : Dev) (ph : Phase) (c : Byte) : (d.setPhase ph c).memReads = d.memReads := rfl
@[simp] theorem Dev.setPhase_memWrites (d : Dev) (ph : Phase) (c : Byte) : (d.setPhase ph c).memWrites = d.memWrites := rfl
@[simp] theorem Dev.setPhase_slices (d : Dev) (ph : Phase) (c : Byte) : (d.setPhase ph c).slices = d.slices := rfl
@[simp] theorem Dev.setPhase_parts (d : Dev) (ph : Phase) (c : Byte) : (d.setPhase ph c).parts = d.parts := rfl
@[simp] theorem Dev.setPhase_part (d : Dev) (ph : Phase) (c : Byte) (q : PartId) : (d.setPhase ph c).part q = d.part q := rfl

@[simp] theorem Dev.idleFlue_eng (d : Dev) (p : PartId) : (d.idleFlue p).eng = d.eng := rfl
@[simp] theorem Dev.idleFlue_straps (d : Dev) (p : PartId) : (d.idleFlue p).straps = d.straps := rfl
@[simp] theorem Dev.idleFlue_pwr (d : Dev) (p : PartId) : (d.idleFlue p).pwr = d.pwr := rfl
@[simp] theorem Dev.idleFlue_dmp (d : Dev) (p : PartId) : (d.idleFlue p).dmp = d.dmp := rfl
@[simp] theorem Dev.idleFlue_stk (d : Dev) (p : PartId) : (d.idleFlue p).stk = d.stk := rfl
@[simp] theorem Dev.idleFlue_rpt (d : Dev) (p : PartId) : (d.idleFlue p).rpt = d.rpt := rfl
@[simp] theorem Dev.idleFlue_secOut (d : Dev) (p : PartId) : (d.idleFlue p).secOut = d.secOut := rfl
@[simp] theorem Dev.idleFlue_rsp (d : Dev) (p : PartId) : (d.idleFlue p).rsp = d.rsp := rfl
@[simp] theorem Dev.idleFlue_ledger (d : Dev) (p : PartId) : (d.idleFlue p).ledger = d.ledger := rfl
@[simp] theorem Dev.idleFlue_ledgerBad (d : Dev) (p : PartId) : (d.idleFlue p).ledgerBad = d.ledgerBad := rfl
@[simp] theorem Dev.idleFlue_members (d : Dev) (p : PartId) : (d.idleFlue p).members = d.members := rfl
@[simp] theorem Dev.idleFlue_groups (d : Dev) (p : PartId) : (d.idleFlue p).groups = d.groups := rfl
@[simp] theorem Dev.idleFlue_keys (d : Dev) (p : PartId) : (d.idleFlue p).keys = d.keys := rfl
@[simp] theorem Dev.idleFlue_keyWin (d : Dev) (p : PartId) : (d.idleFlue p).keyWin = d.keyWin := rfl
@[simp] theorem Dev.idleFlue_views (d : Dev) (p : PartId) : (d.idleFlue p).views = d.views := rfl
@[simp] theorem Dev.idleFlue_arrays (d : Dev) (p : PartId) : (d.idleFlue p).arrays = d.arrays := rfl
@[simp] theorem Dev.idleFlue_stations (d : Dev) (p : PartId) : (d.idleFlue p).stations = d.stations := rfl
@[simp] theorem Dev.idleFlue_flueOut (d : Dev) (p : PartId) : (d.idleFlue p).flueOut = d.flueOut := rfl
@[simp] theorem Dev.idleFlue_memReads (d : Dev) (p : PartId) : (d.idleFlue p).memReads = d.memReads := rfl
@[simp] theorem Dev.idleFlue_memWrites (d : Dev) (p : PartId) : (d.idleFlue p).memWrites = d.memWrites := rfl
@[simp] theorem Dev.idleFlue_slices (d : Dev) (p : PartId) : (d.idleFlue p).slices = d.slices := rfl
@[simp] theorem Dev.idleFlue_parts (d : Dev) (p : PartId) : (d.idleFlue p).parts = d.parts := rfl
@[simp] theorem Dev.idleFlue_part (d : Dev) (p : PartId) (q : PartId) : (d.idleFlue p).part q = d.part q := rfl

@[simp] theorem Dev.cutFlue_eng (d : Dev) (t : Nat) (p : PartId) : (d.cutFlue t p).eng = d.eng := rfl
@[simp] theorem Dev.cutFlue_straps (d : Dev) (t : Nat) (p : PartId) : (d.cutFlue t p).straps = d.straps := rfl
@[simp] theorem Dev.cutFlue_pwr (d : Dev) (t : Nat) (p : PartId) : (d.cutFlue t p).pwr = d.pwr := rfl
@[simp] theorem Dev.cutFlue_dmp (d : Dev) (t : Nat) (p : PartId) : (d.cutFlue t p).dmp = d.dmp := rfl
@[simp] theorem Dev.cutFlue_stk (d : Dev) (t : Nat) (p : PartId) : (d.cutFlue t p).stk = d.stk := rfl
@[simp] theorem Dev.cutFlue_rpt (d : Dev) (t : Nat) (p : PartId) : (d.cutFlue t p).rpt = d.rpt := rfl
@[simp] theorem Dev.cutFlue_secOut (d : Dev) (t : Nat) (p : PartId) : (d.cutFlue t p).secOut = d.secOut := rfl
@[simp] theorem Dev.cutFlue_rsp (d : Dev) (t : Nat) (p : PartId) : (d.cutFlue t p).rsp = d.rsp := rfl
@[simp] theorem Dev.cutFlue_ledger (d : Dev) (t : Nat) (p : PartId) : (d.cutFlue t p).ledger = d.ledger := rfl
@[simp] theorem Dev.cutFlue_ledgerBad (d : Dev) (t : Nat) (p : PartId) : (d.cutFlue t p).ledgerBad = d.ledgerBad := rfl
@[simp] theorem Dev.cutFlue_members (d : Dev) (t : Nat) (p : PartId) : (d.cutFlue t p).members = d.members := rfl
@[simp] theorem Dev.cutFlue_groups (d : Dev) (t : Nat) (p : PartId) : (d.cutFlue t p).groups = d.groups := rfl
@[simp] theorem Dev.cutFlue_keys (d : Dev) (t : Nat) (p : PartId) : (d.cutFlue t p).keys = d.keys := rfl
@[simp] theorem Dev.cutFlue_keyWin (d : Dev) (t : Nat) (p : PartId) : (d.cutFlue t p).keyWin = d.keyWin := rfl
@[simp] theorem Dev.cutFlue_views (d : Dev) (t : Nat) (p : PartId) : (d.cutFlue t p).views = d.views := rfl
@[simp] theorem Dev.cutFlue_arrays (d : Dev) (t : Nat) (p : PartId) : (d.cutFlue t p).arrays = d.arrays := rfl
@[simp] theorem Dev.cutFlue_stations (d : Dev) (t : Nat) (p : PartId) : (d.cutFlue t p).stations = d.stations := rfl
@[simp] theorem Dev.cutFlue_flueOut (d : Dev) (t : Nat) (p : PartId) : (d.cutFlue t p).flueOut = d.flueOut := rfl
@[simp] theorem Dev.cutFlue_memReads (d : Dev) (t : Nat) (p : PartId) : (d.cutFlue t p).memReads = d.memReads := rfl
@[simp] theorem Dev.cutFlue_memWrites (d : Dev) (t : Nat) (p : PartId) : (d.cutFlue t p).memWrites = d.memWrites := rfl
@[simp] theorem Dev.cutFlue_slices (d : Dev) (t : Nat) (p : PartId) : (d.cutFlue t p).slices = d.slices := rfl
@[simp] theorem Dev.cutFlue_parts (d : Dev) (t : Nat) (p : PartId) : (d.cutFlue t p).parts = d.parts := rfl
@[simp] theorem Dev.cutFlue_part (d : Dev) (t : Nat) (p : PartId) (q : PartId) : (d.cutFlue t p).part q = d.part q := rfl

@[simp] theorem Dev.dropStaged_eng (d : Dev) (p : PartId) : (d.dropStaged p).eng = d.eng := rfl
@[simp] theorem Dev.dropStaged_straps (d : Dev) (p : PartId) : (d.dropStaged p).straps = d.straps := rfl
@[simp] theorem Dev.dropStaged_pwr (d : Dev) (p : PartId) : (d.dropStaged p).pwr = d.pwr := rfl
@[simp] theorem Dev.dropStaged_dmp (d : Dev) (p : PartId) : (d.dropStaged p).dmp = d.dmp := rfl
@[simp] theorem Dev.dropStaged_stk (d : Dev) (p : PartId) : (d.dropStaged p).stk = d.stk := rfl
@[simp] theorem Dev.dropStaged_rpt (d : Dev) (p : PartId) : (d.dropStaged p).rpt = d.rpt := rfl
@[simp] theorem Dev.dropStaged_secOut (d : Dev) (p : PartId) : (d.dropStaged p).secOut = d.secOut := rfl
@[simp] theorem Dev.dropStaged_rsp (d : Dev) (p : PartId) : (d.dropStaged p).rsp = d.rsp := rfl
@[simp] theorem Dev.dropStaged_ledger (d : Dev) (p : PartId) : (d.dropStaged p).ledger = d.ledger := rfl
@[simp] theorem Dev.dropStaged_ledgerBad (d : Dev) (p : PartId) : (d.dropStaged p).ledgerBad = d.ledgerBad := rfl
@[simp] theorem Dev.dropStaged_members (d : Dev) (p : PartId) : (d.dropStaged p).members = d.members := rfl
@[simp] theorem Dev.dropStaged_groups (d : Dev) (p : PartId) : (d.dropStaged p).groups = d.groups := rfl
@[simp] theorem Dev.dropStaged_keys (d : Dev) (p : PartId) : (d.dropStaged p).keys = d.keys := rfl
@[simp] theorem Dev.dropStaged_keyWin (d : Dev) (p : PartId) : (d.dropStaged p).keyWin = d.keyWin := rfl
@[simp] theorem Dev.dropStaged_arrays (d : Dev) (p : PartId) : (d.dropStaged p).arrays = d.arrays := rfl
@[simp] theorem Dev.dropStaged_stations (d : Dev) (p : PartId) : (d.dropStaged p).stations = d.stations := rfl
@[simp] theorem Dev.dropStaged_ports (d : Dev) (p : PartId) : (d.dropStaged p).ports = d.ports := rfl
@[simp] theorem Dev.dropStaged_flueOut (d : Dev) (p : PartId) : (d.dropStaged p).flueOut = d.flueOut := rfl
@[simp] theorem Dev.dropStaged_memReads (d : Dev) (p : PartId) : (d.dropStaged p).memReads = d.memReads := rfl
@[simp] theorem Dev.dropStaged_memWrites (d : Dev) (p : PartId) : (d.dropStaged p).memWrites = d.memWrites := rfl
@[simp] theorem Dev.dropStaged_slices (d : Dev) (p : PartId) : (d.dropStaged p).slices = d.slices := rfl
@[simp] theorem Dev.dropStaged_parts (d : Dev) (p : PartId) : (d.dropStaged p).parts = d.parts := rfl
@[simp] theorem Dev.dropStaged_part (d : Dev) (p : PartId) (q : PartId) : (d.dropStaged p).part q = d.part q := rfl
end Sys2Proof.Machine
end

