-- ==== Sys2Proof/Laws/Tables.lean ====
section
/-! SUPPORT. The laws of tables and of the stage buffers: a read after a write, what a write leaves alone, and the canonical form. -/

namespace Sys2Proof.Machine

/-! ## Reading a table after changing it -/

section
variable {α : Type}

theorem tabGet_tabErase (d : α) (t : Tab α) (i j : Nat) :
    tabGet d (tabErase t i) j = if j = i then d else tabGet d t j := by
  induction t with
  | nil => simp [tabErase, tabGet]
  | cons kv t ih =>
    obtain ⟨k, v⟩ := kv
    by_cases hk : k = i
    · subst hk
      by_cases hj : j = k
      · subst hj; simp [tabErase, ih]
      · simp [tabErase, tabGet, ih, hj, Ne.symm hj]
    · by_cases hj : j = i
      · subst hj; simp [tabErase, tabGet, hk, ih]
      · simp only [tabErase, if_neg hk, tabGet, ih, if_neg hj]

theorem tabGet_tabPut (d : α) (t : Tab α) (i j : Nat) (x : α) :
    tabGet d (tabPut t i x) j = if j = i then x else tabGet d t j := by
  induction t with
  | nil =>
    by_cases h : j = i
    · subst h; simp [tabPut, tabGet]
    · simp [tabPut, tabGet, h, Ne.symm h]
  | cons kv t ih =>
    obtain ⟨k, v⟩ := kv
    by_cases h1 : i < k
    · by_cases h : j = i
      · subst h; simp [tabPut, tabGet, h1]
      · simp [tabPut, tabGet, h1, h, Ne.symm h]
    · by_cases h2 : i = k
      · subst h2
        by_cases h : j = i
        · subst h; simp [tabPut, tabGet]
        · simp [tabPut, tabGet, h, Ne.symm h]
      · by_cases h : j = i
        · subst h; simp [tabPut, tabGet, h1, h2, Ne.symm h2, ih]
        · simp only [tabPut, if_neg h1, if_neg h2, tabGet, ih, if_neg h]

variable [DecidableEq α]

/-- A set key reads as set and every other key as before, whatever the table. -/
theorem tabGet_tabSet (d : α) (t : Tab α) (i j : Nat) (x : α) :
    tabGet d (tabSet d t i x) j = if j = i then x else tabGet d t j := by
  unfold tabSet
  split
  · next h => subst h; exact tabGet_tabErase x t i j
  · exact tabGet_tabPut d t i j x

@[simp] theorem tabGet_tabSet_self (d : α) (t : Tab α) (i : Nat) (x : α) : tabGet d (tabSet d t i x) i = x := by
  simp [tabGet_tabSet]

theorem tabGet_tabSet_ne (d : α) (t : Tab α) {i j : Nat} (x : α) (h : j ≠ i) :
    tabGet d (tabSet d t i x) j = tabGet d t j := by
  simp [tabGet_tabSet, h]

theorem tabGet_tabMod (d : α) (t : Tab α) (i j : Nat) (f : α → α) :
    tabGet d (tabMod d t i f) j = if j = i then f (tabGet d t i) else tabGet d t j := by
  simp [tabMod, tabGet_tabSet]

/-! ## Canonical form -/

theorem tabWfFrom_mono (d : α) : ∀ (t : Tab α) {lo lo' : Nat}, lo' ≤ lo → tabWfFrom d lo t = true → tabWfFrom d lo' t = true
  | [], _, _, _, _ => rfl
  | (k, v) :: t, lo, lo', h, hw => by
    simp only [tabWfFrom, Bool.and_eq_true, decide_eq_true_eq] at hw ⊢
    exact ⟨⟨Nat.le_trans h hw.1.1, hw.1.2⟩, hw.2⟩

theorem tabWfFrom_filter (d : α) (q : Nat × α → Bool) :
    ∀ (t : Tab α) {lo : Nat}, tabWfFrom d lo t = true → tabWfFrom d lo (t.filter q) = true
  | [], _, _ => rfl
  | (k, v) :: t, lo, hw => by
    simp only [tabWfFrom, Bool.and_eq_true, decide_eq_true_eq] at hw
    have ht := tabWfFrom_filter d q t hw.2
    by_cases hq : q (k, v)
    · simp [hq, tabWfFrom, hw.1.1, hw.1.2, ht]
    · simpa [hq] using tabWfFrom_mono d _ (Nat.le_trans hw.1.1 (Nat.le_succ k)) ht

omit [DecidableEq α] in
theorem tabErase_eq_filter (t : Tab α) (i : Nat) : tabErase t i = t.filter fun x => decide (x.1 ≠ i) := by
  induction t with
  | nil => rfl
  | cons kv t ih => obtain ⟨k, v⟩ := kv; by_cases h : k = i <;> simp [tabErase, h, ih]

theorem tabWfFrom_tabErase (d : α) (t : Tab α) (i lo : Nat) (hw : tabWfFrom d lo t = true) :
    tabWfFrom d lo (tabErase t i) = true := by
  rw [tabErase_eq_filter]; exact tabWfFrom_filter d _ t hw

theorem tabWfFrom_tabPut (d : α) {x : α} (hx : x ≠ d) :
    ∀ (t : Tab α) (i lo : Nat), lo ≤ i → tabWfFrom d lo t = true → tabWfFrom d lo (tabPut t i x) = true
  | [], i, lo, hi, _ => by simp [tabPut, tabWfFrom, hi, hx]
  | (k, v) :: t, i, lo, hi, hw => by
    simp only [tabWfFrom, Bool.and_eq_true, decide_eq_true_eq] at hw
    by_cases h1 : i < k
    · simp [tabPut, h1, tabWfFrom, hi, hx, hw.1.2, hw.2, Nat.succ_le_of_lt h1]
    · by_cases h2 : i = k
      · subst h2; simp [tabPut, tabWfFrom, hi, hx, hw.2]
      · have := tabWfFrom_tabPut d hx t i (k + 1) (by omega) hw.2
        simp [tabPut, h1, h2, tabWfFrom, hw.1.1, hw.1.2, this]

/-- Setting a key keeps the canonical form. -/
theorem tabWf_tabSet (d : α) (t : Tab α) (i : Nat) (x : α) (hw : tabWf d t = true) : tabWf d (tabSet d t i x) = true := by
  unfold tabSet
  split
  · exact tabWfFrom_tabErase d t i 0 hw
  · next h => exact tabWfFrom_tabPut d h t i 0 (Nat.zero_le i) hw

theorem tabWf_filter (d : α) (t : Tab α) (q : Nat × α → Bool) (hw : tabWf d t = true) : tabWf d (t.filter q) = true :=
  tabWfFrom_filter d q t hw

theorem tabWf_tabClear (d : α) (t : Tab α) (lo n : Nat) (hw : tabWf d t = true) : tabWf d (tabClear lo n t) = true :=
  tabWf_filter d t _ hw

end

/-! ## Bytes of the stage buffers -/

theorem memGet_memSet (m : Memory) (a b : Nat) (x : Byte) : memGet (memSet m a x) b = if b = a then x else memGet m b :=
  tabGet_tabSet 0 m a b x

/-- A write of bytes changes no byte outside its range. -/
theorem memGet_memWrite_outside (bs : List Byte) :
    ∀ (m : Memory) (a b : Nat), b < a ∨ a + bs.length ≤ b → memGet (memWrite m a bs) b = memGet m b := by
  induction bs with
  | nil => intro m a b _; rfl
  | cons x bs ih =>
    intro m a b h
    simp only [List.length_cons] at h
    rw [memWrite, ih _ _ _ (by omega), memGet_memSet, if_neg (by omega)]

/-- A byte written reads as written. -/
theorem memGet_memWrite_inside (bs : List Byte) :
    ∀ (m : Memory) (a i : Nat) (h : i < bs.length), memGet (memWrite m a bs) (a + i) = bs[i] := by
  induction bs with
  | nil => intro m a i h; exact absurd h (Nat.not_lt_zero i)
  | cons x bs ih =>
    intro m a i h
    cases i with
    | zero => rw [memWrite, memGet_memWrite_outside _ _ _ _ (by omega), Nat.add_zero, memGet_memSet, if_pos rfl]; rfl
    | succ i =>
      have := ih (memSet m a x) (a + 1) i (by simpa using h)
      rw [memWrite, show a + (i + 1) = a + 1 + i by omega, this]; rfl

theorem memSet_wf (m : Memory) (a : Nat) (x : Byte) (h : m.wf = true) : (memSet m a x).wf = true := tabWf_tabSet 0 m a x h

theorem memWrite_wf (bs : List Byte) : ∀ (m : Memory) (a : Nat), m.wf = true → (memWrite m a bs).wf = true := by
  induction bs with
  | nil => intro m a h; exact h
  | cons x bs ih => intro m a h; exact ih _ _ (memSet_wf m a x h)

/-! ## The stage buffers -/

theorem StageBufs.wf_iff (sb : StageBufs) :
    sb.wf = true ↔ sb.mem.wf = true ∧ tabWf false sb.valid = true ∧ tabWf 0 sb.tag = true ∧ tabWf false sb.bad = true := by
  simp [StageBufs.wf, and_assoc]

theorem StageBufs.reset_wf : StageBufs.reset.wf = true := rfl

theorem sbWrite_wf (sb : StageBufs) (slice line off : Nat) (bs : List Byte) (tag : Option (BitVec 16)) (h : sb.wf = true) :
    (sbWrite sb slice line off bs tag).wf = true := by
  rw [StageBufs.wf_iff] at h ⊢
  obtain ⟨hm, hv, ht, hb⟩ := h
  simp only [sbWrite]
  refine ⟨?_, tabWf_tabSet _ _ _ _ hv, tabWf_tabSet _ _ _ _ ht, tabWf_filter _ _ _ hb⟩
  apply memWrite_wf
  split
  · exact memWrite_wf _ _ _ hm
  · exact hm

theorem sbWriteSpan_wf : ∀ (n : Nat) (sb : StageBufs) (slice at_ : Nat) (bs : List Byte), sb.wf = true →
    (sbWriteSpan n sb slice at_ bs).wf = true
  | 0, _, _, _, _, h => h
  | n + 1, sb, slice, at_, bs, h => by
    simp only [sbWriteSpan]
    split
    · exact h
    · exact sbWriteSpan_wf n _ _ _ _ (sbWrite_wf _ _ _ _ _ _ h)

theorem sbClearValid_wf (sb : StageBufs) (first size : Nat) (h : sb.wf = true) : (sbClearValid sb first size).wf = true := by
  rw [StageBufs.wf_iff] at h ⊢
  exact ⟨h.1, tabWf_tabClear _ _ _ _ h.2.1, h.2.2.1, h.2.2.2⟩

end Sys2Proof.Machine
end

