-- ==== Sys2Proof/Laws/Ops.lean ====
section
/-! SUPPORT. What each shared operation does: partitions read back, what raising a record, sending, dooming, halting and reporting
change, each said once and cited instead of unfolding the operation. -/

namespace Sys2Proof.Machine

/-! ## Partitions read back -/

@[simp] theorem Dev.part_setPart_self (d : Dev) (p : PartId) (x : Part) : (d.setPart p x).part p = x :=
  tabGet_tabSet_self _ _ _ _

theorem Dev.part_setPart_ne (d : Dev) {p q : PartId} (x : Part) (h : q ≠ p) : (d.setPart p x).part q = d.part q :=
  tabGet_tabSet_ne _ _ _ fun e => h (Fin.ext e)

theorem Dev.part_setPart (d : Dev) (p q : PartId) (x : Part) : (d.setPart p x).part q = if q = p then x else d.part q := by
  split
  · next h => subst h; simp
  · next h => exact d.part_setPart_ne x h

@[simp] theorem Dev.part_modPart_self (d : Dev) (p : PartId) (f : Part → Part) : (d.modPart p f).part p = f (d.part p) := by
  simp [Dev.modPart]

theorem Dev.part_modPart_ne (d : Dev) {p q : PartId} (f : Part → Part) (h : q ≠ p) : (d.modPart p f).part q = d.part q :=
  d.part_setPart_ne _ h

theorem Dev.part_modPart (d : Dev) (p q : PartId) (f : Part → Part) :
    (d.modPart p f).part q = if q = p then f (d.part p) else d.part q := d.part_setPart p q _

@[simp] theorem Dev.part_modSch_self (d : Dev) (p : PartId) (f : Sch → Sch) :
    (d.modSch p f).part p = { d.part p with sch := f (d.part p).sch } := by simp [Dev.modSch]

theorem Dev.part_modSch_ne (d : Dev) {p q : PartId} (f : Sch → Sch) (h : q ≠ p) : (d.modSch p f).part q = d.part q :=
  d.part_modPart_ne _ h

@[simp] theorem Dev.part_modAtt_self (d : Dev) (p : PartId) (f : Attempt → Attempt) :
    (d.modAtt p f).part p = { d.part p with att := f (d.part p).att } := by simp [Dev.modAtt]

theorem Dev.part_modAtt_ne (d : Dev) {p q : PartId} (f : Attempt → Attempt) (h : q ≠ p) : (d.modAtt p f).part q = d.part q :=
  d.part_modPart_ne _ h

@[simp] theorem Dev.part_modHeld_self (d : Dev) (p : PartId) (f : Held → Held) :
    (d.modHeld p f).part p = { d.part p with held := f (d.part p).held } := by simp [Dev.modHeld]

theorem Dev.part_modHeld_ne (d : Dev) {p q : PartId} (f : Held → Held) (h : q ≠ p) : (d.modHeld p f).part q = d.part q :=
  d.part_modPart_ne _ h

theorem Dev.part_bump_ne (d : Dev) {p q : PartId} (c n : Nat) (h : q ≠ p) : (d.bump p c n).part q = d.part q :=
  d.part_modPart_ne _ h

/-- A bumped partition differs in its telemetry only. -/
theorem Dev.part_bump_self (d : Dev) (p : PartId) (c n : Nat) :
    (d.bump p c n).part p = { d.part p with tel := ((d.bump p c n).part p).tel } := by
  simp only [Dev.bump, Dev.part_modPart_self]; split <;> rfl

theorem Dev.part_hold_ne (d : Dev) {p q : PartId} (c : HoldCause) (h : q ≠ p) : (d.hold p c).part q = d.part q :=
  d.part_modPart_ne _ h

/-- A hold changes the schedule's state, its causes and the epoch it began in. -/
theorem Dev.part_hold_self (d : Dev) (p : PartId) (c : HoldCause) :
    (d.hold p c).part p = { d.part p with sch := { (d.part p).sch with
      state := ((d.hold p c).part p).sch.state, holds := ((d.hold p c).part p).sch.holds,
      heldSince := ((d.hold p c).part p).sch.heldSince } } := by
  simp only [Dev.hold, Dev.part_modSch_self]; split <;> rfl

theorem Dev.hold_state (d : Dev) (p : PartId) (c : HoldCause) (h : (d.part p).sch.state ≠ .halted) :
    ((d.hold p c).part p).sch.state = .held := by simp [Dev.hold, h]

theorem Dev.hold_holds (d : Dev) (p : PartId) (c : HoldCause) (h : (d.part p).sch.state ≠ .halted) :
    c ∈ ((d.hold p c).part p).sch.holds := by
  simp only [Dev.hold, Dev.part_modSch_self, h, if_false]
  by_cases hc : c ∈ (d.part p).sch.holds <;> simp [hc]

/-! ## Records -/

theorem Rpt.drop_queue (q : Rpt) (v : Severity) : (q.drop v).queue = q.queue := by cases v <;> rfl
theorem Rpt.drop_out (q : Rpt) (v : Severity) : (q.drop v).out = q.out := by cases v <;> rfl
theorem Rpt.drop_seq (q : Rpt) (v : Severity) : (q.drop v).seq = q.seq := by cases v <;> rfl

/-- No push takes a record off the link. -/
theorem Rpt.push_out (q : Rpt) (r : Rec) : (q.push r).out = q.out := by
  unfold Rpt.push Rpt.enqueue; repeat' split
  all_goals simp [Rpt.drop_out]

theorem Dev.raise_frame (d : Dev) (t : Nat) (r : Report) : d.raise t r = { d with rpt := (d.raise t r).rpt } := by
  cases h : r.part with
  | none => simp only [Dev.raise, h]; rfl
  | some p => simp only [Dev.raise, h]; cases (d.part p).cfg.state == .scrubbing || (d.part p).cfg.state == .free <;> rfl

@[simp] theorem Dev.raise_eng (d : Dev) (t : Nat) (r : Report) : (d.raise t r).eng = d.eng := (congrArg Dev.eng (Dev.raise_frame d t r) :)
@[simp] theorem Dev.raise_straps (d : Dev) (t : Nat) (r : Report) : (d.raise t r).straps = d.straps := (congrArg Dev.straps (Dev.raise_frame d t r) :)
@[simp] theorem Dev.raise_pwr (d : Dev) (t : Nat) (r : Report) : (d.raise t r).pwr = d.pwr := (congrArg Dev.pwr (Dev.raise_frame d t r) :)
@[simp] theorem Dev.raise_dmp (d : Dev) (t : Nat) (r : Report) : (d.raise t r).dmp = d.dmp := (congrArg Dev.dmp (Dev.raise_frame d t r) :)
@[simp] theorem Dev.raise_stk (d : Dev) (t : Nat) (r : Report) : (d.raise t r).stk = d.stk := (congrArg Dev.stk (Dev.raise_frame d t r) :)
@[simp] theorem Dev.raise_secOut (d : Dev) (t : Nat) (r : Report) : (d.raise t r).secOut = d.secOut := (congrArg Dev.secOut (Dev.raise_frame d t r) :)
@[simp] theorem Dev.raise_rsp (d : Dev) (t : Nat) (r : Report) : (d.raise t r).rsp = d.rsp := (congrArg Dev.rsp (Dev.raise_frame d t r) :)
@[simp] theorem Dev.raise_ledger (d : Dev) (t : Nat) (r : Report) : (d.raise t r).ledger = d.ledger := (congrArg Dev.ledger (Dev.raise_frame d t r) :)
@[simp] theorem Dev.raise_ledgerBad (d : Dev) (t : Nat) (r : Report) : (d.raise t r).ledgerBad = d.ledgerBad := (congrArg Dev.ledgerBad (Dev.raise_frame d t r) :)
@[simp] theorem Dev.raise_members (d : Dev) (t : Nat) (r : Report) : (d.raise t r).members = d.members := (congrArg Dev.members (Dev.raise_frame d t r) :)
@[simp] theorem Dev.raise_groups (d : Dev) (t : Nat) (r : Report) : (d.raise t r).groups = d.groups := (congrArg Dev.groups (Dev.raise_frame d t r) :)
@[simp] theorem Dev.raise_keys (d : Dev) (t : Nat) (r : Report) : (d.raise t r).keys = d.keys := (congrArg Dev.keys (Dev.raise_frame d t r) :)
@[simp] theorem Dev.raise_keyWin (d : Dev) (t : Nat) (r : Report) : (d.raise t r).keyWin = d.keyWin := (congrArg Dev.keyWin (Dev.raise_frame d t r) :)
@[simp] theorem Dev.raise_views (d : Dev) (t : Nat) (r : Report) : (d.raise t r).views = d.views := (congrArg Dev.views (Dev.raise_frame d t r) :)
@[simp] theorem Dev.raise_arrays (d : Dev) (t : Nat) (r : Report) : (d.raise t r).arrays = d.arrays := (congrArg Dev.arrays (Dev.raise_frame d t r) :)
@[simp] theorem Dev.raise_stations (d : Dev) (t : Nat) (r : Report) : (d.raise t r).stations = d.stations := (congrArg Dev.stations (Dev.raise_frame d t r) :)
@[simp] theorem Dev.raise_ports (d : Dev) (t : Nat) (r : Report) : (d.raise t r).ports = d.ports := (congrArg Dev.ports (Dev.raise_frame d t r) :)
@[simp] theorem Dev.raise_flueOut (d : Dev) (t : Nat) (r : Report) : (d.raise t r).flueOut = d.flueOut := (congrArg Dev.flueOut (Dev.raise_frame d t r) :)
@[simp] theorem Dev.raise_memReads (d : Dev) (t : Nat) (r : Report) : (d.raise t r).memReads = d.memReads := (congrArg Dev.memReads (Dev.raise_frame d t r) :)
@[simp] theorem Dev.raise_memWrites (d : Dev) (t : Nat) (r : Report) : (d.raise t r).memWrites = d.memWrites := (congrArg Dev.memWrites (Dev.raise_frame d t r) :)
@[simp] theorem Dev.raise_slices (d : Dev) (t : Nat) (r : Report) : (d.raise t r).slices = d.slices := (congrArg Dev.slices (Dev.raise_frame d t r) :)
@[simp] theorem Dev.raise_parts (d : Dev) (t : Nat) (r : Report) : (d.raise t r).parts = d.parts := (congrArg Dev.parts (Dev.raise_frame d t r) :)
@[simp] theorem Dev.raise_part (d : Dev) (t : Nat) (r : Report) (q : PartId) : (d.raise t r).part q = d.part q := (congrArg (fun e => Dev.part e q) (Dev.raise_frame d t r) :)

/-- A raised record takes a sequence number and queues; a partition in SCRUBBING or FREE raises none (R326, R347). -/
theorem Dev.raise_seq (d : Dev) (t : Nat) (r : Report) :
    (d.raise t r).rpt.seq = d.rpt.seq + 1
    ∨ (∃ p, r.part = some p ∧ ((d.part p).cfg.state = .scrubbing ∨ (d.part p).cfg.state = .free) ∧ d.raise t r = d) := by
  rcases h : r.part with _ | p
  · left; simp [Dev.raise, h]
  · by_cases hs : (d.part p).cfg.state = .scrubbing ∨ (d.part p).cfg.state = .free
    · right; exact ⟨p, rfl, hs, by simp [Dev.raise, h, hs]⟩
    · left; simp [Dev.raise, h, hs]

theorem Dev.raise_out (d : Dev) (t : Nat) (r : Report) : (d.raise t r).rpt.out = d.rpt.out := by
  cases h : r.part with
  | none => simp only [Dev.raise, h]; exact Rpt.push_out _ _
  | some p =>
    simp only [Dev.raise, h]
    cases (d.part p).cfg.state == .scrubbing || (d.part p).cfg.state == .free <;> first | rfl | exact Rpt.push_out _ _

/-! ## Folds over the units -/

/-- A field that each step of a fold keeps, the fold keeps. -/
theorem foldl_keeps {α β γ : Type} (g : β → γ) (f : β → α → β) (h : ∀ b a, g (f b a) = g b) :
    ∀ (l : List α) (b : β), g (l.foldl f b) = g b
  | [], _ => rfl
  | a :: l, b => (foldl_keeps g f h l (f b a)).trans (h b a)

/-- What holds of a value and is kept by each step of a fold, the fold keeps. -/
theorem foldl_invariant {α β : Type} (P : β → Prop) (f : β → α → β) :
    ∀ (l : List α) (b : β), P b → (∀ b, ∀ a ∈ l, P b → P (f b a)) → P (l.foldl f b)
  | [], _, h, _ => h
  | a :: l, b, h, hs =>
    foldl_invariant P f l (f b a) (hs b a (List.mem_cons_self ..) h) fun b x hx => hs b x (List.mem_cons_of_mem _ hx)

/-! ## Sending -/

theorem Dev.sendAt_frame (d : Dev) (p : PartId) (i : Nat) (w : Waiting) :
    d.sendAt p i w = { d with ports := (d.sendAt p i w).ports } := by
  unfold Dev.sendAt; split <;> rfl

@[simp] theorem Dev.sendAt_eng (d : Dev) (p : PartId) (i : Nat) (w : Waiting) : (d.sendAt p i w).eng = d.eng := (congrArg Dev.eng (Dev.sendAt_frame d p i w) :)
@[simp] theorem Dev.sendAt_straps (d : Dev) (p : PartId) (i : Nat) (w : Waiting) : (d.sendAt p i w).straps = d.straps := (congrArg Dev.straps (Dev.sendAt_frame d p i w) :)
@[simp] theorem Dev.sendAt_pwr (d : Dev) (p : PartId) (i : Nat) (w : Waiting) : (d.sendAt p i w).pwr = d.pwr := (congrArg Dev.pwr (Dev.sendAt_frame d p i w) :)
@[simp] theorem Dev.sendAt_dmp (d : Dev) (p : PartId) (i : Nat) (w : Waiting) : (d.sendAt p i w).dmp = d.dmp := (congrArg Dev.dmp (Dev.sendAt_frame d p i w) :)
@[simp] theorem Dev.sendAt_stk (d : Dev) (p : PartId) (i : Nat) (w : Waiting) : (d.sendAt p i w).stk = d.stk := (congrArg Dev.stk (Dev.sendAt_frame d p i w) :)
@[simp] theorem Dev.sendAt_rpt (d : Dev) (p : PartId) (i : Nat) (w : Waiting) : (d.sendAt p i w).rpt = d.rpt := (congrArg Dev.rpt (Dev.sendAt_frame d p i w) :)
@[simp] theorem Dev.sendAt_secOut (d : Dev) (p : PartId) (i : Nat) (w : Waiting) : (d.sendAt p i w).secOut = d.secOut := (congrArg Dev.secOut (Dev.sendAt_frame d p i w) :)
@[simp] theorem Dev.sendAt_rsp (d : Dev) (p : PartId) (i : Nat) (w : Waiting) : (d.sendAt p i w).rsp = d.rsp := (congrArg Dev.rsp (Dev.sendAt_frame d p i w) :)
@[simp] theorem Dev.sendAt_ledger (d : Dev) (p : PartId) (i : Nat) (w : Waiting) : (d.sendAt p i w).ledger = d.ledger := (congrArg Dev.ledger (Dev.sendAt_frame d p i w) :)
@[simp] theorem Dev.sendAt_ledgerBad (d : Dev) (p : PartId) (i : Nat) (w : Waiting) : (d.sendAt p i w).ledgerBad = d.ledgerBad := (congrArg Dev.ledgerBad (Dev.sendAt_frame d p i w) :)
@[simp] theorem Dev.sendAt_members (d : Dev) (p : PartId) (i : Nat) (w : Waiting) : (d.sendAt p i w).members = d.members := (congrArg Dev.members (Dev.sendAt_frame d p i w) :)
@[simp] theorem Dev.sendAt_groups (d : Dev) (p : PartId) (i : Nat) (w : Waiting) : (d.sendAt p i w).groups = d.groups := (congrArg Dev.groups (Dev.sendAt_frame d p i w) :)
@[simp] theorem Dev.sendAt_keys (d : Dev) (p : PartId) (i : Nat) (w : Waiting) : (d.sendAt p i w).keys = d.keys := (congrArg Dev.keys (Dev.sendAt_frame d p i w) :)
@[simp] theorem Dev.sendAt_keyWin (d : Dev) (p : PartId) (i : Nat) (w : Waiting) : (d.sendAt p i w).keyWin = d.keyWin := (congrArg Dev.keyWin (Dev.sendAt_frame d p i w) :)
@[simp] theorem Dev.sendAt_views (d : Dev) (p : PartId) (i : Nat) (w : Waiting) : (d.sendAt p i w).views = d.views := (congrArg Dev.views (Dev.sendAt_frame d p i w) :)
@[simp] theorem Dev.sendAt_arrays (d : Dev) (p : PartId) (i : Nat) (w : Waiting) : (d.sendAt p i w).arrays = d.arrays := (congrArg Dev.arrays (Dev.sendAt_frame d p i w) :)
@[simp] theorem Dev.sendAt_stations (d : Dev) (p : PartId) (i : Nat) (w : Waiting) : (d.sendAt p i w).stations = d.stations := (congrArg Dev.stations (Dev.sendAt_frame d p i w) :)
@[simp] theorem Dev.sendAt_flueOut (d : Dev) (p : PartId) (i : Nat) (w : Waiting) : (d.sendAt p i w).flueOut = d.flueOut := (congrArg Dev.flueOut (Dev.sendAt_frame d p i w) :)
@[simp] theorem Dev.sendAt_memReads (d : Dev) (p : PartId) (i : Nat) (w : Waiting) : (d.sendAt p i w).memReads = d.memReads := (congrArg Dev.memReads (Dev.sendAt_frame d p i w) :)
@[simp] theorem Dev.sendAt_memWrites (d : Dev) (p : PartId) (i : Nat) (w : Waiting) : (d.sendAt p i w).memWrites = d.memWrites := (congrArg Dev.memWrites (Dev.sendAt_frame d p i w) :)
@[simp] theorem Dev.sendAt_slices (d : Dev) (p : PartId) (i : Nat) (w : Waiting) : (d.sendAt p i w).slices = d.slices := (congrArg Dev.slices (Dev.sendAt_frame d p i w) :)
@[simp] theorem Dev.sendAt_parts (d : Dev) (p : PartId) (i : Nat) (w : Waiting) : (d.sendAt p i w).parts = d.parts := (congrArg Dev.parts (Dev.sendAt_frame d p i w) :)
@[simp] theorem Dev.sendAt_part (d : Dev) (p : PartId) (i : Nat) (w : Waiting) (q : PartId) : (d.sendAt p i w).part q = d.part q := (congrArg (fun e => Dev.part e q) (Dev.sendAt_frame d p i w) :)

theorem Dev.sendTo_frame (d : Dev) (p : PartId) (i : Nat) (c : Bool) (a : PktArgs) (m : BitVec 128) :
    d.sendTo p i c a m = { d with ports := (d.sendTo p i c a m).ports } := d.sendAt_frame p i _

@[simp] theorem Dev.sendTo_eng (d : Dev) (p : PartId) (i : Nat) (c : Bool) (a : PktArgs) (m : BitVec 128) : (d.sendTo p i c a m).eng = d.eng := (congrArg Dev.eng (Dev.sendTo_frame d p i c a m) :)
@[simp] theorem Dev.sendTo_straps (d : Dev) (p : PartId) (i : Nat) (c : Bool) (a : PktArgs) (m : BitVec 128) : (d.sendTo p i c a m).straps = d.straps := (congrArg Dev.straps (Dev.sendTo_frame d p i c a m) :)
@[simp] theorem Dev.sendTo_pwr (d : Dev) (p : PartId) (i : Nat) (c : Bool) (a : PktArgs) (m : BitVec 128) : (d.sendTo p i c a m).pwr = d.pwr := (congrArg Dev.pwr (Dev.sendTo_frame d p i c a m) :)
@[simp] theorem Dev.sendTo_dmp (d : Dev) (p : PartId) (i : Nat) (c : Bool) (a : PktArgs) (m : BitVec 128) : (d.sendTo p i c a m).dmp = d.dmp := (congrArg Dev.dmp (Dev.sendTo_frame d p i c a m) :)
@[simp] theorem Dev.sendTo_stk (d : Dev) (p : PartId) (i : Nat) (c : Bool) (a : PktArgs) (m : BitVec 128) : (d.sendTo p i c a m).stk = d.stk := (congrArg Dev.stk (Dev.sendTo_frame d p i c a m) :)
@[simp] theorem Dev.sendTo_rpt (d : Dev) (p : PartId) (i : Nat) (c : Bool) (a : PktArgs) (m : BitVec 128) : (d.sendTo p i c a m).rpt = d.rpt := (congrArg Dev.rpt (Dev.sendTo_frame d p i c a m) :)
@[simp] theorem Dev.sendTo_secOut (d : Dev) (p : PartId) (i : Nat) (c : Bool) (a : PktArgs) (m : BitVec 128) : (d.sendTo p i c a m).secOut = d.secOut := (congrArg Dev.secOut (Dev.sendTo_frame d p i c a m) :)
@[simp] theorem Dev.sendTo_rsp (d : Dev) (p : PartId) (i : Nat) (c : Bool) (a : PktArgs) (m : BitVec 128) : (d.sendTo p i c a m).rsp = d.rsp := (congrArg Dev.rsp (Dev.sendTo_frame d p i c a m) :)
@[simp] theorem Dev.sendTo_ledger (d : Dev) (p : PartId) (i : Nat) (c : Bool) (a : PktArgs) (m : BitVec 128) : (d.sendTo p i c a m).ledger = d.ledger := (congrArg Dev.ledger (Dev.sendTo_frame d p i c a m) :)
@[simp] theorem Dev.sendTo_ledgerBad (d : Dev) (p : PartId) (i : Nat) (c : Bool) (a : PktArgs) (m : BitVec 128) : (d.sendTo p i c a m).ledgerBad = d.ledgerBad := (congrArg Dev.ledgerBad (Dev.sendTo_frame d p i c a m) :)
@[simp] theorem Dev.sendTo_members (d : Dev) (p : PartId) (i : Nat) (c : Bool) (a : PktArgs) (m : BitVec 128) : (d.sendTo p i c a m).members = d.members := (congrArg Dev.members (Dev.sendTo_frame d p i c a m) :)
@[simp] theorem Dev.sendTo_groups (d : Dev) (p : PartId) (i : Nat) (c : Bool) (a : PktArgs) (m : BitVec 128) : (d.sendTo p i c a m).groups = d.groups := (congrArg Dev.groups (Dev.sendTo_frame d p i c a m) :)
@[simp] theorem Dev.sendTo_keys (d : Dev) (p : PartId) (i : Nat) (c : Bool) (a : PktArgs) (m : BitVec 128) : (d.sendTo p i c a m).keys = d.keys := (congrArg Dev.keys (Dev.sendTo_frame d p i c a m) :)
@[simp] theorem Dev.sendTo_keyWin (d : Dev) (p : PartId) (i : Nat) (c : Bool) (a : PktArgs) (m : BitVec 128) : (d.sendTo p i c a m).keyWin = d.keyWin := (congrArg Dev.keyWin (Dev.sendTo_frame d p i c a m) :)
@[simp] theorem Dev.sendTo_views (d : Dev) (p : PartId) (i : Nat) (c : Bool) (a : PktArgs) (m : BitVec 128) : (d.sendTo p i c a m).views = d.views := (congrArg Dev.views (Dev.sendTo_frame d p i c a m) :)
@[simp] theorem Dev.sendTo_arrays (d : Dev) (p : PartId) (i : Nat) (c : Bool) (a : PktArgs) (m : BitVec 128) : (d.sendTo p i c a m).arrays = d.arrays := (congrArg Dev.arrays (Dev.sendTo_frame d p i c a m) :)
@[simp] theorem Dev.sendTo_stations (d : Dev) (p : PartId) (i : Nat) (c : Bool) (a : PktArgs) (m : BitVec 128) : (d.sendTo p i c a m).stations = d.stations := (congrArg Dev.stations (Dev.sendTo_frame d p i c a m) :)
@[simp] theorem Dev.sendTo_flueOut (d : Dev) (p : PartId) (i : Nat) (c : Bool) (a : PktArgs) (m : BitVec 128) : (d.sendTo p i c a m).flueOut = d.flueOut := (congrArg Dev.flueOut (Dev.sendTo_frame d p i c a m) :)
@[simp] theorem Dev.sendTo_memReads (d : Dev) (p : PartId) (i : Nat) (c : Bool) (a : PktArgs) (m : BitVec 128) : (d.sendTo p i c a m).memReads = d.memReads := (congrArg Dev.memReads (Dev.sendTo_frame d p i c a m) :)
@[simp] theorem Dev.sendTo_memWrites (d : Dev) (p : PartId) (i : Nat) (c : Bool) (a : PktArgs) (m : BitVec 128) : (d.sendTo p i c a m).memWrites = d.memWrites := (congrArg Dev.memWrites (Dev.sendTo_frame d p i c a m) :)
@[simp] theorem Dev.sendTo_slices (d : Dev) (p : PartId) (i : Nat) (c : Bool) (a : PktArgs) (m : BitVec 128) : (d.sendTo p i c a m).slices = d.slices := (congrArg Dev.slices (Dev.sendTo_frame d p i c a m) :)
@[simp] theorem Dev.sendTo_parts (d : Dev) (p : PartId) (i : Nat) (c : Bool) (a : PktArgs) (m : BitVec 128) : (d.sendTo p i c a m).parts = d.parts := (congrArg Dev.parts (Dev.sendTo_frame d p i c a m) :)
@[simp] theorem Dev.sendTo_part (d : Dev) (p : PartId) (i : Nat) (c : Bool) (a : PktArgs) (m : BitVec 128) (q : PartId) : (d.sendTo p i c a m).part q = d.part q := (congrArg (fun e => Dev.part e q) (Dev.sendTo_frame d p i c a m) :)

theorem Dev.sendSwitch_frame (d : Dev) (p : PartId) (c : BitVec 32) (a : PktArgs) :
    d.sendSwitch p c a = { d with ports := (d.sendSwitch p c a).ports } := d.sendAt_frame p 0 _

@[simp] theorem Dev.sendSwitch_eng (d : Dev) (p : PartId) (c : BitVec 32) (a : PktArgs) : (d.sendSwitch p c a).eng = d.eng := (congrArg Dev.eng (Dev.sendSwitch_frame d p c a) :)
@[simp] theorem Dev.sendSwitch_straps (d : Dev) (p : PartId) (c : BitVec 32) (a : PktArgs) : (d.sendSwitch p c a).straps = d.straps := (congrArg Dev.straps (Dev.sendSwitch_frame d p c a) :)
@[simp] theorem Dev.sendSwitch_pwr (d : Dev) (p : PartId) (c : BitVec 32) (a : PktArgs) : (d.sendSwitch p c a).pwr = d.pwr := (congrArg Dev.pwr (Dev.sendSwitch_frame d p c a) :)
@[simp] theorem Dev.sendSwitch_dmp (d : Dev) (p : PartId) (c : BitVec 32) (a : PktArgs) : (d.sendSwitch p c a).dmp = d.dmp := (congrArg Dev.dmp (Dev.sendSwitch_frame d p c a) :)
@[simp] theorem Dev.sendSwitch_stk (d : Dev) (p : PartId) (c : BitVec 32) (a : PktArgs) : (d.sendSwitch p c a).stk = d.stk := (congrArg Dev.stk (Dev.sendSwitch_frame d p c a) :)
@[simp] theorem Dev.sendSwitch_rpt (d : Dev) (p : PartId) (c : BitVec 32) (a : PktArgs) : (d.sendSwitch p c a).rpt = d.rpt := (congrArg Dev.rpt (Dev.sendSwitch_frame d p c a) :)
@[simp] theorem Dev.sendSwitch_secOut (d : Dev) (p : PartId) (c : BitVec 32) (a : PktArgs) : (d.sendSwitch p c a).secOut = d.secOut := (congrArg Dev.secOut (Dev.sendSwitch_frame d p c a) :)
@[simp] theorem Dev.sendSwitch_rsp (d : Dev) (p : PartId) (c : BitVec 32) (a : PktArgs) : (d.sendSwitch p c a).rsp = d.rsp := (congrArg Dev.rsp (Dev.sendSwitch_frame d p c a) :)
@[simp] theorem Dev.sendSwitch_ledger (d : Dev) (p : PartId) (c : BitVec 32) (a : PktArgs) : (d.sendSwitch p c a).ledger = d.ledger := (congrArg Dev.ledger (Dev.sendSwitch_frame d p c a) :)
@[simp] theorem Dev.sendSwitch_ledgerBad (d : Dev) (p : PartId) (c : BitVec 32) (a : PktArgs) : (d.sendSwitch p c a).ledgerBad = d.ledgerBad := (congrArg Dev.ledgerBad (Dev.sendSwitch_frame d p c a) :)
@[simp] theorem Dev.sendSwitch_members (d : Dev) (p : PartId) (c : BitVec 32) (a : PktArgs) : (d.sendSwitch p c a).members = d.members := (congrArg Dev.members (Dev.sendSwitch_frame d p c a) :)
@[simp] theorem Dev.sendSwitch_groups (d : Dev) (p : PartId) (c : BitVec 32) (a : PktArgs) : (d.sendSwitch p c a).groups = d.groups := (congrArg Dev.groups (Dev.sendSwitch_frame d p c a) :)
@[simp] theorem Dev.sendSwitch_keys (d : Dev) (p : PartId) (c : BitVec 32) (a : PktArgs) : (d.sendSwitch p c a).keys = d.keys := (congrArg Dev.keys (Dev.sendSwitch_frame d p c a) :)
@[simp] theorem Dev.sendSwitch_keyWin (d : Dev) (p : PartId) (c : BitVec 32) (a : PktArgs) : (d.sendSwitch p c a).keyWin = d.keyWin := (congrArg Dev.keyWin (Dev.sendSwitch_frame d p c a) :)
@[simp] theorem Dev.sendSwitch_views (d : Dev) (p : PartId) (c : BitVec 32) (a : PktArgs) : (d.sendSwitch p c a).views = d.views := (congrArg Dev.views (Dev.sendSwitch_frame d p c a) :)
@[simp] theorem Dev.sendSwitch_arrays (d : Dev) (p : PartId) (c : BitVec 32) (a : PktArgs) : (d.sendSwitch p c a).arrays = d.arrays := (congrArg Dev.arrays (Dev.sendSwitch_frame d p c a) :)
@[simp] theorem Dev.sendSwitch_stations (d : Dev) (p : PartId) (c : BitVec 32) (a : PktArgs) : (d.sendSwitch p c a).stations = d.stations := (congrArg Dev.stations (Dev.sendSwitch_frame d p c a) :)
@[simp] theorem Dev.sendSwitch_flueOut (d : Dev) (p : PartId) (c : BitVec 32) (a : PktArgs) : (d.sendSwitch p c a).flueOut = d.flueOut := (congrArg Dev.flueOut (Dev.sendSwitch_frame d p c a) :)
@[simp] theorem Dev.sendSwitch_memReads (d : Dev) (p : PartId) (c : BitVec 32) (a : PktArgs) : (d.sendSwitch p c a).memReads = d.memReads := (congrArg Dev.memReads (Dev.sendSwitch_frame d p c a) :)
@[simp] theorem Dev.sendSwitch_memWrites (d : Dev) (p : PartId) (c : BitVec 32) (a : PktArgs) : (d.sendSwitch p c a).memWrites = d.memWrites := (congrArg Dev.memWrites (Dev.sendSwitch_frame d p c a) :)
@[simp] theorem Dev.sendSwitch_slices (d : Dev) (p : PartId) (c : BitVec 32) (a : PktArgs) : (d.sendSwitch p c a).slices = d.slices := (congrArg Dev.slices (Dev.sendSwitch_frame d p c a) :)
@[simp] theorem Dev.sendSwitch_parts (d : Dev) (p : PartId) (c : BitVec 32) (a : PktArgs) : (d.sendSwitch p c a).parts = d.parts := (congrArg Dev.parts (Dev.sendSwitch_frame d p c a) :)
@[simp] theorem Dev.sendSwitch_part (d : Dev) (p : PartId) (c : BitVec 32) (a : PktArgs) (q : PartId) : (d.sendSwitch p c a).part q = d.part q := (congrArg (fun e => Dev.part e q) (Dev.sendSwitch_frame d p c a) :)

/-- A fold whose every step changes the ports alone changes the ports alone. -/
theorem ports_frame_foldl {α : Type} (f : Dev → α → Dev) (h : ∀ d a, f d a = { d with ports := (f d a).ports }) :
    ∀ (l : List α) (d : Dev), l.foldl f d = { d with ports := (l.foldl f d).ports }
  | [], _ => rfl
  | a :: l, d => by
    have ih := ports_frame_foldl f h l (f d a)
    rw [List.foldl_cons, ih, h d a]

theorem Dev.sendJob_frame (d : Dev) (p : PartId) (a : PktArgs) : d.sendJob p a = { d with ports := (d.sendJob p a).ports } :=
  ports_frame_foldl _ (fun d _ => d.sendTo_frame p 0 true _ _) _ d

@[simp] theorem Dev.sendJob_eng (d : Dev) (p : PartId) (a : PktArgs) : (d.sendJob p a).eng = d.eng := (congrArg Dev.eng (Dev.sendJob_frame d p a) :)
@[simp] theorem Dev.sendJob_straps (d : Dev) (p : PartId) (a : PktArgs) : (d.sendJob p a).straps = d.straps := (congrArg Dev.straps (Dev.sendJob_frame d p a) :)
@[simp] theorem Dev.sendJob_pwr (d : Dev) (p : PartId) (a : PktArgs) : (d.sendJob p a).pwr = d.pwr := (congrArg Dev.pwr (Dev.sendJob_frame d p a) :)
@[simp] theorem Dev.sendJob_dmp (d : Dev) (p : PartId) (a : PktArgs) : (d.sendJob p a).dmp = d.dmp := (congrArg Dev.dmp (Dev.sendJob_frame d p a) :)
@[simp] theorem Dev.sendJob_stk (d : Dev) (p : PartId) (a : PktArgs) : (d.sendJob p a).stk = d.stk := (congrArg Dev.stk (Dev.sendJob_frame d p a) :)
@[simp] theorem Dev.sendJob_rpt (d : Dev) (p : PartId) (a : PktArgs) : (d.sendJob p a).rpt = d.rpt := (congrArg Dev.rpt (Dev.sendJob_frame d p a) :)
@[simp] theorem Dev.sendJob_secOut (d : Dev) (p : PartId) (a : PktArgs) : (d.sendJob p a).secOut = d.secOut := (congrArg Dev.secOut (Dev.sendJob_frame d p a) :)
@[simp] theorem Dev.sendJob_rsp (d : Dev) (p : PartId) (a : PktArgs) : (d.sendJob p a).rsp = d.rsp := (congrArg Dev.rsp (Dev.sendJob_frame d p a) :)
@[simp] theorem Dev.sendJob_ledger (d : Dev) (p : PartId) (a : PktArgs) : (d.sendJob p a).ledger = d.ledger := (congrArg Dev.ledger (Dev.sendJob_frame d p a) :)
@[simp] theorem Dev.sendJob_ledgerBad (d : Dev) (p : PartId) (a : PktArgs) : (d.sendJob p a).ledgerBad = d.ledgerBad := (congrArg Dev.ledgerBad (Dev.sendJob_frame d p a) :)
@[simp] theorem Dev.sendJob_members (d : Dev) (p : PartId) (a : PktArgs) : (d.sendJob p a).members = d.members := (congrArg Dev.members (Dev.sendJob_frame d p a) :)
@[simp] theorem Dev.sendJob_groups (d : Dev) (p : PartId) (a : PktArgs) : (d.sendJob p a).groups = d.groups := (congrArg Dev.groups (Dev.sendJob_frame d p a) :)
@[simp] theorem Dev.sendJob_keys (d : Dev) (p : PartId) (a : PktArgs) : (d.sendJob p a).keys = d.keys := (congrArg Dev.keys (Dev.sendJob_frame d p a) :)
@[simp] theorem Dev.sendJob_keyWin (d : Dev) (p : PartId) (a : PktArgs) : (d.sendJob p a).keyWin = d.keyWin := (congrArg Dev.keyWin (Dev.sendJob_frame d p a) :)
@[simp] theorem Dev.sendJob_views (d : Dev) (p : PartId) (a : PktArgs) : (d.sendJob p a).views = d.views := (congrArg Dev.views (Dev.sendJob_frame d p a) :)
@[simp] theorem Dev.sendJob_arrays (d : Dev) (p : PartId) (a : PktArgs) : (d.sendJob p a).arrays = d.arrays := (congrArg Dev.arrays (Dev.sendJob_frame d p a) :)
@[simp] theorem Dev.sendJob_stations (d : Dev) (p : PartId) (a : PktArgs) : (d.sendJob p a).stations = d.stations := (congrArg Dev.stations (Dev.sendJob_frame d p a) :)
@[simp] theorem Dev.sendJob_flueOut (d : Dev) (p : PartId) (a : PktArgs) : (d.sendJob p a).flueOut = d.flueOut := (congrArg Dev.flueOut (Dev.sendJob_frame d p a) :)
@[simp] theorem Dev.sendJob_memReads (d : Dev) (p : PartId) (a : PktArgs) : (d.sendJob p a).memReads = d.memReads := (congrArg Dev.memReads (Dev.sendJob_frame d p a) :)
@[simp] theorem Dev.sendJob_memWrites (d : Dev) (p : PartId) (a : PktArgs) : (d.sendJob p a).memWrites = d.memWrites := (congrArg Dev.memWrites (Dev.sendJob_frame d p a) :)
@[simp] theorem Dev.sendJob_slices (d : Dev) (p : PartId) (a : PktArgs) : (d.sendJob p a).slices = d.slices := (congrArg Dev.slices (Dev.sendJob_frame d p a) :)
@[simp] theorem Dev.sendJob_parts (d : Dev) (p : PartId) (a : PktArgs) : (d.sendJob p a).parts = d.parts := (congrArg Dev.parts (Dev.sendJob_frame d p a) :)
@[simp] theorem Dev.sendJob_part (d : Dev) (p : PartId) (a : PktArgs) (q : PartId) : (d.sendJob p a).part q = d.part q := (congrArg (fun e => Dev.part e q) (Dev.sendJob_frame d p a) :)

theorem Dev.sendNotice_frame (d : Dev) (p : PartId) (u : UnitCode) (c : Byte) :
    d.sendNotice p u c = { d with ports := (d.sendNotice p u c).ports } := d.sendJob_frame p _

@[simp] theorem Dev.sendNotice_eng (d : Dev) (p : PartId) (u : UnitCode) (c : Byte) : (d.sendNotice p u c).eng = d.eng := (congrArg Dev.eng (Dev.sendNotice_frame d p u c) :)
@[simp] theorem Dev.sendNotice_straps (d : Dev) (p : PartId) (u : UnitCode) (c : Byte) : (d.sendNotice p u c).straps = d.straps := (congrArg Dev.straps (Dev.sendNotice_frame d p u c) :)
@[simp] theorem Dev.sendNotice_pwr (d : Dev) (p : PartId) (u : UnitCode) (c : Byte) : (d.sendNotice p u c).pwr = d.pwr := (congrArg Dev.pwr (Dev.sendNotice_frame d p u c) :)
@[simp] theorem Dev.sendNotice_dmp (d : Dev) (p : PartId) (u : UnitCode) (c : Byte) : (d.sendNotice p u c).dmp = d.dmp := (congrArg Dev.dmp (Dev.sendNotice_frame d p u c) :)
@[simp] theorem Dev.sendNotice_stk (d : Dev) (p : PartId) (u : UnitCode) (c : Byte) : (d.sendNotice p u c).stk = d.stk := (congrArg Dev.stk (Dev.sendNotice_frame d p u c) :)
@[simp] theorem Dev.sendNotice_rpt (d : Dev) (p : PartId) (u : UnitCode) (c : Byte) : (d.sendNotice p u c).rpt = d.rpt := (congrArg Dev.rpt (Dev.sendNotice_frame d p u c) :)
@[simp] theorem Dev.sendNotice_secOut (d : Dev) (p : PartId) (u : UnitCode) (c : Byte) : (d.sendNotice p u c).secOut = d.secOut := (congrArg Dev.secOut (Dev.sendNotice_frame d p u c) :)
@[simp] theorem Dev.sendNotice_rsp (d : Dev) (p : PartId) (u : UnitCode) (c : Byte) : (d.sendNotice p u c).rsp = d.rsp := (congrArg Dev.rsp (Dev.sendNotice_frame d p u c) :)
@[simp] theorem Dev.sendNotice_ledger (d : Dev) (p : PartId) (u : UnitCode) (c : Byte) : (d.sendNotice p u c).ledger = d.ledger := (congrArg Dev.ledger (Dev.sendNotice_frame d p u c) :)
@[simp] theorem Dev.sendNotice_ledgerBad (d : Dev) (p : PartId) (u : UnitCode) (c : Byte) : (d.sendNotice p u c).ledgerBad = d.ledgerBad := (congrArg Dev.ledgerBad (Dev.sendNotice_frame d p u c) :)
@[simp] theorem Dev.sendNotice_members (d : Dev) (p : PartId) (u : UnitCode) (c : Byte) : (d.sendNotice p u c).members = d.members := (congrArg Dev.members (Dev.sendNotice_frame d p u c) :)
@[simp] theorem Dev.sendNotice_groups (d : Dev) (p : PartId) (u : UnitCode) (c : Byte) : (d.sendNotice p u c).groups = d.groups := (congrArg Dev.groups (Dev.sendNotice_frame d p u c) :)
@[simp] theorem Dev.sendNotice_keys (d : Dev) (p : PartId) (u : UnitCode) (c : Byte) : (d.sendNotice p u c).keys = d.keys := (congrArg Dev.keys (Dev.sendNotice_frame d p u c) :)
@[simp] theorem Dev.sendNotice_keyWin (d : Dev) (p : PartId) (u : UnitCode) (c : Byte) : (d.sendNotice p u c).keyWin = d.keyWin := (congrArg Dev.keyWin (Dev.sendNotice_frame d p u c) :)
@[simp] theorem Dev.sendNotice_views (d : Dev) (p : PartId) (u : UnitCode) (c : Byte) : (d.sendNotice p u c).views = d.views := (congrArg Dev.views (Dev.sendNotice_frame d p u c) :)
@[simp] theorem Dev.sendNotice_arrays (d : Dev) (p : PartId) (u : UnitCode) (c : Byte) : (d.sendNotice p u c).arrays = d.arrays := (congrArg Dev.arrays (Dev.sendNotice_frame d p u c) :)
@[simp] theorem Dev.sendNotice_stations (d : Dev) (p : PartId) (u : UnitCode) (c : Byte) : (d.sendNotice p u c).stations = d.stations := (congrArg Dev.stations (Dev.sendNotice_frame d p u c) :)
@[simp] theorem Dev.sendNotice_flueOut (d : Dev) (p : PartId) (u : UnitCode) (c : Byte) : (d.sendNotice p u c).flueOut = d.flueOut := (congrArg Dev.flueOut (Dev.sendNotice_frame d p u c) :)
@[simp] theorem Dev.sendNotice_memReads (d : Dev) (p : PartId) (u : UnitCode) (c : Byte) : (d.sendNotice p u c).memReads = d.memReads := (congrArg Dev.memReads (Dev.sendNotice_frame d p u c) :)
@[simp] theorem Dev.sendNotice_memWrites (d : Dev) (p : PartId) (u : UnitCode) (c : Byte) : (d.sendNotice p u c).memWrites = d.memWrites := (congrArg Dev.memWrites (Dev.sendNotice_frame d p u c) :)
@[simp] theorem Dev.sendNotice_slices (d : Dev) (p : PartId) (u : UnitCode) (c : Byte) : (d.sendNotice p u c).slices = d.slices := (congrArg Dev.slices (Dev.sendNotice_frame d p u c) :)
@[simp] theorem Dev.sendNotice_parts (d : Dev) (p : PartId) (u : UnitCode) (c : Byte) : (d.sendNotice p u c).parts = d.parts := (congrArg Dev.parts (Dev.sendNotice_frame d p u c) :)
@[simp] theorem Dev.sendNotice_part (d : Dev) (p : PartId) (u : UnitCode) (c : Byte) (q : PartId) : (d.sendNotice p u c).part q = d.part q := (congrArg (fun e => Dev.part e q) (Dev.sendNotice_frame d p u c) :)

theorem Dev.releaseLeases_frame (d : Dev) (p : PartId) : d.releaseLeases p = { d with ports := (d.releaseLeases p).ports } := by
  unfold Dev.releaseLeases
  dsimp only
  split
  · rfl
  · refine ports_frame_foldl _ (fun e r => ?_) _ d
    split
    · split
      · exact e.sendSwitch_frame p _ _
      · rfl
    · rfl

@[simp] theorem Dev.releaseLeases_eng (d : Dev) (p : PartId) : (d.releaseLeases p).eng = d.eng := (congrArg Dev.eng (Dev.releaseLeases_frame d p) :)
@[simp] theorem Dev.releaseLeases_straps (d : Dev) (p : PartId) : (d.releaseLeases p).straps = d.straps := (congrArg Dev.straps (Dev.releaseLeases_frame d p) :)
@[simp] theorem Dev.releaseLeases_pwr (d : Dev) (p : PartId) : (d.releaseLeases p).pwr = d.pwr := (congrArg Dev.pwr (Dev.releaseLeases_frame d p) :)
@[simp] theorem Dev.releaseLeases_dmp (d : Dev) (p : PartId) : (d.releaseLeases p).dmp = d.dmp := (congrArg Dev.dmp (Dev.releaseLeases_frame d p) :)
@[simp] theorem Dev.releaseLeases_stk (d : Dev) (p : PartId) : (d.releaseLeases p).stk = d.stk := (congrArg Dev.stk (Dev.releaseLeases_frame d p) :)
@[simp] theorem Dev.releaseLeases_rpt (d : Dev) (p : PartId) : (d.releaseLeases p).rpt = d.rpt := (congrArg Dev.rpt (Dev.releaseLeases_frame d p) :)
@[simp] theorem Dev.releaseLeases_secOut (d : Dev) (p : PartId) : (d.releaseLeases p).secOut = d.secOut := (congrArg Dev.secOut (Dev.releaseLeases_frame d p) :)
@[simp] theorem Dev.releaseLeases_rsp (d : Dev) (p : PartId) : (d.releaseLeases p).rsp = d.rsp := (congrArg Dev.rsp (Dev.releaseLeases_frame d p) :)
@[simp] theorem Dev.releaseLeases_ledger (d : Dev) (p : PartId) : (d.releaseLeases p).ledger = d.ledger := (congrArg Dev.ledger (Dev.releaseLeases_frame d p) :)
@[simp] theorem Dev.releaseLeases_ledgerBad (d : Dev) (p : PartId) : (d.releaseLeases p).ledgerBad = d.ledgerBad := (congrArg Dev.ledgerBad (Dev.releaseLeases_frame d p) :)
@[simp] theorem Dev.releaseLeases_members (d : Dev) (p : PartId) : (d.releaseLeases p).members = d.members := (congrArg Dev.members (Dev.releaseLeases_frame d p) :)
@[simp] theorem Dev.releaseLeases_groups (d : Dev) (p : PartId) : (d.releaseLeases p).groups = d.groups := (congrArg Dev.groups (Dev.releaseLeases_frame d p) :)
@[simp] theorem Dev.releaseLeases_keys (d : Dev) (p : PartId) : (d.releaseLeases p).keys = d.keys := (congrArg Dev.keys (Dev.releaseLeases_frame d p) :)
@[simp] theorem Dev.releaseLeases_keyWin (d : Dev) (p : PartId) : (d.releaseLeases p).keyWin = d.keyWin := (congrArg Dev.keyWin (Dev.releaseLeases_frame d p) :)
@[simp] theorem Dev.releaseLeases_views (d : Dev) (p : PartId) : (d.releaseLeases p).views = d.views := (congrArg Dev.views (Dev.releaseLeases_frame d p) :)
@[simp] theorem Dev.releaseLeases_arrays (d : Dev) (p : PartId) : (d.releaseLeases p).arrays = d.arrays := (congrArg Dev.arrays (Dev.releaseLeases_frame d p) :)
@[simp] theorem Dev.releaseLeases_stations (d : Dev) (p : PartId) : (d.releaseLeases p).stations = d.stations := (congrArg Dev.stations (Dev.releaseLeases_frame d p) :)
@[simp] theorem Dev.releaseLeases_flueOut (d : Dev) (p : PartId) : (d.releaseLeases p).flueOut = d.flueOut := (congrArg Dev.flueOut (Dev.releaseLeases_frame d p) :)
@[simp] theorem Dev.releaseLeases_memReads (d : Dev) (p : PartId) : (d.releaseLeases p).memReads = d.memReads := (congrArg Dev.memReads (Dev.releaseLeases_frame d p) :)
@[simp] theorem Dev.releaseLeases_memWrites (d : Dev) (p : PartId) : (d.releaseLeases p).memWrites = d.memWrites := (congrArg Dev.memWrites (Dev.releaseLeases_frame d p) :)
@[simp] theorem Dev.releaseLeases_slices (d : Dev) (p : PartId) : (d.releaseLeases p).slices = d.slices := (congrArg Dev.slices (Dev.releaseLeases_frame d p) :)
@[simp] theorem Dev.releaseLeases_parts (d : Dev) (p : PartId) : (d.releaseLeases p).parts = d.parts := (congrArg Dev.parts (Dev.releaseLeases_frame d p) :)
@[simp] theorem Dev.releaseLeases_part (d : Dev) (p : PartId) (q : PartId) : (d.releaseLeases p).part q = d.part q := (congrArg (fun e => Dev.part e q) (Dev.releaseLeases_frame d p) :)

/-! ## Dooming, halting and reporting -/

/-- Noting an own record for triage changes the partition's attempt (R324). -/
theorem Dev.noted_frame (d : Dev) (p : PartId) (c : Byte) (y : Nat) (own : Bool) :
    ∃ ps, (if own = true then d.modAtt p fun a => a.own c y else d) = { d with parts := ps } := by
  split
  · exact ⟨_, rfl⟩
  · exact ⟨d.parts, rfl⟩

theorem Dev.part_noted_ne (d : Dev) {p q : PartId} (c : Byte) (y : Nat) (own : Bool) (h : q ≠ p) :
    Dev.part (if own = true then d.modAtt p fun a => a.own c y else d) q = d.part q := by
  split
  · exact d.part_modAtt_ne _ h
  · rfl

/-- It adds to the causes, if anything. -/
theorem Dev.part_noted_self (d : Dev) (p : PartId) (c : Byte) (y : Nat) (own : Bool) :
    ∃ cs, Dev.part (if own = true then d.modAtt p fun a => a.own c y else d) p
      = { d.part p with att := { (d.part p).att with causes := cs } } := by
  split
  · rw [Dev.part_modAtt_self]
    unfold Attempt.own
    split <;> exact ⟨_, rfl⟩
  · exact ⟨_, rfl⟩

/-- Dooming changes the attempt of its partition and the waiting packets, nothing else (R300, R301). -/
theorem Dev.doom_frame (d : Dev) (t : Nat) (p : PartId) (c : Byte) (y : Nat) (own : Bool) (u : UnitCode) :
    d.doom t p c y own u = { d with ports := (d.doom t p c y own u).ports, parts := (d.doom t p c y own u).parts } := by
  obtain ⟨ps, he⟩ := d.noted_frame p c y own
  simp only [Dev.doom, he]
  split
  · rfl
  · split
    · split <;> rfl
    · split
      · rw [Dev.sendNotice_frame, Dev.releaseLeases_frame]; rfl
      · rw [Dev.releaseLeases_frame]; rfl

@[simp] theorem Dev.doom_eng (d : Dev) (t : Nat) (p : PartId) (c : Byte) (y : Nat) (own : Bool) (u : UnitCode) : (d.doom t p c y own u).eng = d.eng := (congrArg Dev.eng (Dev.doom_frame d t p c y own u) :)
@[simp] theorem Dev.doom_straps (d : Dev) (t : Nat) (p : PartId) (c : Byte) (y : Nat) (own : Bool) (u : UnitCode) : (d.doom t p c y own u).straps = d.straps := (congrArg Dev.straps (Dev.doom_frame d t p c y own u) :)
@[simp] theorem Dev.doom_pwr (d : Dev) (t : Nat) (p : PartId) (c : Byte) (y : Nat) (own : Bool) (u : UnitCode) : (d.doom t p c y own u).pwr = d.pwr := (congrArg Dev.pwr (Dev.doom_frame d t p c y own u) :)
@[simp] theorem Dev.doom_dmp (d : Dev) (t : Nat) (p : PartId) (c : Byte) (y : Nat) (own : Bool) (u : UnitCode) : (d.doom t p c y own u).dmp = d.dmp := (congrArg Dev.dmp (Dev.doom_frame d t p c y own u) :)
@[simp] theorem Dev.doom_stk (d : Dev) (t : Nat) (p : PartId) (c : Byte) (y : Nat) (own : Bool) (u : UnitCode) : (d.doom t p c y own u).stk = d.stk := (congrArg Dev.stk (Dev.doom_frame d t p c y own u) :)
@[simp] theorem Dev.doom_rpt (d : Dev) (t : Nat) (p : PartId) (c : Byte) (y : Nat) (own : Bool) (u : UnitCode) : (d.doom t p c y own u).rpt = d.rpt := (congrArg Dev.rpt (Dev.doom_frame d t p c y own u) :)
@[simp] theorem Dev.doom_secOut (d : Dev) (t : Nat) (p : PartId) (c : Byte) (y : Nat) (own : Bool) (u : UnitCode) : (d.doom t p c y own u).secOut = d.secOut := (congrArg Dev.secOut (Dev.doom_frame d t p c y own u) :)
@[simp] theorem Dev.doom_rsp (d : Dev) (t : Nat) (p : PartId) (c : Byte) (y : Nat) (own : Bool) (u : UnitCode) : (d.doom t p c y own u).rsp = d.rsp := (congrArg Dev.rsp (Dev.doom_frame d t p c y own u) :)
@[simp] theorem Dev.doom_ledger (d : Dev) (t : Nat) (p : PartId) (c : Byte) (y : Nat) (own : Bool) (u : UnitCode) : (d.doom t p c y own u).ledger = d.ledger := (congrArg Dev.ledger (Dev.doom_frame d t p c y own u) :)
@[simp] theorem Dev.doom_ledgerBad (d : Dev) (t : Nat) (p : PartId) (c : Byte) (y : Nat) (own : Bool) (u : UnitCode) : (d.doom t p c y own u).ledgerBad = d.ledgerBad := (congrArg Dev.ledgerBad (Dev.doom_frame d t p c y own u) :)
@[simp] theorem Dev.doom_members (d : Dev) (t : Nat) (p : PartId) (c : Byte) (y : Nat) (own : Bool) (u : UnitCode) : (d.doom t p c y own u).members = d.members := (congrArg Dev.members (Dev.doom_frame d t p c y own u) :)
@[simp] theorem Dev.doom_groups (d : Dev) (t : Nat) (p : PartId) (c : Byte) (y : Nat) (own : Bool) (u : UnitCode) : (d.doom t p c y own u).groups = d.groups := (congrArg Dev.groups (Dev.doom_frame d t p c y own u) :)
@[simp] theorem Dev.doom_keys (d : Dev) (t : Nat) (p : PartId) (c : Byte) (y : Nat) (own : Bool) (u : UnitCode) : (d.doom t p c y own u).keys = d.keys := (congrArg Dev.keys (Dev.doom_frame d t p c y own u) :)
@[simp] theorem Dev.doom_keyWin (d : Dev) (t : Nat) (p : PartId) (c : Byte) (y : Nat) (own : Bool) (u : UnitCode) : (d.doom t p c y own u).keyWin = d.keyWin := (congrArg Dev.keyWin (Dev.doom_frame d t p c y own u) :)
@[simp] theorem Dev.doom_views (d : Dev) (t : Nat) (p : PartId) (c : Byte) (y : Nat) (own : Bool) (u : UnitCode) : (d.doom t p c y own u).views = d.views := (congrArg Dev.views (Dev.doom_frame d t p c y own u) :)
@[simp] theorem Dev.doom_arrays (d : Dev) (t : Nat) (p : PartId) (c : Byte) (y : Nat) (own : Bool) (u : UnitCode) : (d.doom t p c y own u).arrays = d.arrays := (congrArg Dev.arrays (Dev.doom_frame d t p c y own u) :)
@[simp] theorem Dev.doom_stations (d : Dev) (t : Nat) (p : PartId) (c : Byte) (y : Nat) (own : Bool) (u : UnitCode) : (d.doom t p c y own u).stations = d.stations := (congrArg Dev.stations (Dev.doom_frame d t p c y own u) :)
@[simp] theorem Dev.doom_flueOut (d : Dev) (t : Nat) (p : PartId) (c : Byte) (y : Nat) (own : Bool) (u : UnitCode) : (d.doom t p c y own u).flueOut = d.flueOut := (congrArg Dev.flueOut (Dev.doom_frame d t p c y own u) :)
@[simp] theorem Dev.doom_memReads (d : Dev) (t : Nat) (p : PartId) (c : Byte) (y : Nat) (own : Bool) (u : UnitCode) : (d.doom t p c y own u).memReads = d.memReads := (congrArg Dev.memReads (Dev.doom_frame d t p c y own u) :)
@[simp] theorem Dev.doom_memWrites (d : Dev) (t : Nat) (p : PartId) (c : Byte) (y : Nat) (own : Bool) (u : UnitCode) : (d.doom t p c y own u).memWrites = d.memWrites := (congrArg Dev.memWrites (Dev.doom_frame d t p c y own u) :)
@[simp] theorem Dev.doom_slices (d : Dev) (t : Nat) (p : PartId) (c : Byte) (y : Nat) (own : Bool) (u : UnitCode) : (d.doom t p c y own u).slices = d.slices := (congrArg Dev.slices (Dev.doom_frame d t p c y own u) :)

theorem Dev.part_doom_ne (d : Dev) (t : Nat) {p q : PartId} (c : Byte) (y : Nat) (own : Bool) (u : UnitCode) (h : q ≠ p) :
    (d.doom t p c y own u).part q = d.part q := by
  simp only [Dev.doom]
  split
  · rfl
  · rw [← d.part_noted_ne c y own h]
    split
    · split
      · exact Dev.part_modAtt_ne _ _ h
      · rfl
    · split <;> simp [Dev.part_modAtt_ne _ _ h]

/-- Of its partition, dooming changes in the attempt the doom, its causes, the suppression, and what is owed to it. -/
theorem Dev.part_doom_self (d : Dev) (t : Nat) (p : PartId) (c : Byte) (y : Nat) (own : Bool) (u : UnitCode) :
    let a := ((d.doom t p c y own u).part p).att
    (d.doom t p c y own u).part p = { d.part p with att := { (d.part p).att with
      doom := a.doom, causes := a.causes, suppressFrom := a.suppressFrom, commitAgain := a.commitAgain,
      noticeReplay := a.noticeReplay } } := by
  obtain ⟨cs, hc⟩ := d.part_noted_self p c y own
  simp only [Dev.doom]
  generalize (if own = true then d.modAtt p fun a => a.own c y else d) = e at hc ⊢
  split
  · rfl
  · split
    · split <;> simp [hc]
    · split <;> simp [hc]

theorem Dev.doom_isSome (d : Dev) (t : Nat) (p : PartId) (c : Byte) (y : Nat) (own : Bool) (u : UnitCode)
    (h : (d.part p).att.live = true) : ((d.doom t p c y own u).part p).att.doom.isSome := by
  obtain ⟨cs, hc⟩ := d.part_noted_self p c y own
  simp only [Dev.doom, h, Bool.not_true, if_false, Bool.false_eq_true]
  generalize (if own = true then d.modAtt p fun a => a.own c y else d) = e at hc ⊢
  rw [hc]
  cases hd : (d.part p).att.doom with
  | some m => by_cases hm : (own && !m.own) = true <;> simp [hm, hd, hc]
  | none => cases own <;> simp

/-- Dooming a dead attempt does nothing. -/
theorem Dev.doom_dead (d : Dev) (t : Nat) (p : PartId) (c : Byte) (y : Nat) (own : Bool) (u : UnitCode)
    (h : (d.part p).att.live = false) : d.doom t p c y own u = d := by simp [Dev.doom, h]

theorem Dev.haltPart_frame (d : Dev) (t : Nat) (p : PartId) :
    d.haltPart t p = { d with ports := (d.haltPart t p).ports, parts := (d.haltPart t p).parts } := rfl

@[simp] theorem Dev.haltPart_eng (d : Dev) (t : Nat) (p : PartId) : (d.haltPart t p).eng = d.eng := (congrArg Dev.eng (Dev.haltPart_frame d t p) :)
@[simp] theorem Dev.haltPart_straps (d : Dev) (t : Nat) (p : PartId) : (d.haltPart t p).straps = d.straps := (congrArg Dev.straps (Dev.haltPart_frame d t p) :)
@[simp] theorem Dev.haltPart_pwr (d : Dev) (t : Nat) (p : PartId) : (d.haltPart t p).pwr = d.pwr := (congrArg Dev.pwr (Dev.haltPart_frame d t p) :)
@[simp] theorem Dev.haltPart_dmp (d : Dev) (t : Nat) (p : PartId) : (d.haltPart t p).dmp = d.dmp := (congrArg Dev.dmp (Dev.haltPart_frame d t p) :)
@[simp] theorem Dev.haltPart_stk (d : Dev) (t : Nat) (p : PartId) : (d.haltPart t p).stk = d.stk := (congrArg Dev.stk (Dev.haltPart_frame d t p) :)
@[simp] theorem Dev.haltPart_rpt (d : Dev) (t : Nat) (p : PartId) : (d.haltPart t p).rpt = d.rpt := (congrArg Dev.rpt (Dev.haltPart_frame d t p) :)
@[simp] theorem Dev.haltPart_secOut (d : Dev) (t : Nat) (p : PartId) : (d.haltPart t p).secOut = d.secOut := (congrArg Dev.secOut (Dev.haltPart_frame d t p) :)
@[simp] theorem Dev.haltPart_rsp (d : Dev) (t : Nat) (p : PartId) : (d.haltPart t p).rsp = d.rsp := (congrArg Dev.rsp (Dev.haltPart_frame d t p) :)
@[simp] theorem Dev.haltPart_ledger (d : Dev) (t : Nat) (p : PartId) : (d.haltPart t p).ledger = d.ledger := (congrArg Dev.ledger (Dev.haltPart_frame d t p) :)
@[simp] theorem Dev.haltPart_ledgerBad (d : Dev) (t : Nat) (p : PartId) : (d.haltPart t p).ledgerBad = d.ledgerBad := (congrArg Dev.ledgerBad (Dev.haltPart_frame d t p) :)
@[simp] theorem Dev.haltPart_members (d : Dev) (t : Nat) (p : PartId) : (d.haltPart t p).members = d.members := (congrArg Dev.members (Dev.haltPart_frame d t p) :)
@[simp] theorem Dev.haltPart_groups (d : Dev) (t : Nat) (p : PartId) : (d.haltPart t p).groups = d.groups := (congrArg Dev.groups (Dev.haltPart_frame d t p) :)
@[simp] theorem Dev.haltPart_keys (d : Dev) (t : Nat) (p : PartId) : (d.haltPart t p).keys = d.keys := (congrArg Dev.keys (Dev.haltPart_frame d t p) :)
@[simp] theorem Dev.haltPart_keyWin (d : Dev) (t : Nat) (p : PartId) : (d.haltPart t p).keyWin = d.keyWin := (congrArg Dev.keyWin (Dev.haltPart_frame d t p) :)
@[simp] theorem Dev.haltPart_views (d : Dev) (t : Nat) (p : PartId) : (d.haltPart t p).views = d.views := (congrArg Dev.views (Dev.haltPart_frame d t p) :)
@[simp] theorem Dev.haltPart_arrays (d : Dev) (t : Nat) (p : PartId) : (d.haltPart t p).arrays = d.arrays := (congrArg Dev.arrays (Dev.haltPart_frame d t p) :)
@[simp] theorem Dev.haltPart_stations (d : Dev) (t : Nat) (p : PartId) : (d.haltPart t p).stations = d.stations := (congrArg Dev.stations (Dev.haltPart_frame d t p) :)
@[simp] theorem Dev.haltPart_flueOut (d : Dev) (t : Nat) (p : PartId) : (d.haltPart t p).flueOut = d.flueOut := (congrArg Dev.flueOut (Dev.haltPart_frame d t p) :)
@[simp] theorem Dev.haltPart_memReads (d : Dev) (t : Nat) (p : PartId) : (d.haltPart t p).memReads = d.memReads := (congrArg Dev.memReads (Dev.haltPart_frame d t p) :)
@[simp] theorem Dev.haltPart_memWrites (d : Dev) (t : Nat) (p : PartId) : (d.haltPart t p).memWrites = d.memWrites := (congrArg Dev.memWrites (Dev.haltPart_frame d t p) :)
@[simp] theorem Dev.haltPart_slices (d : Dev) (t : Nat) (p : PartId) : (d.haltPart t p).slices = d.slices := (congrArg Dev.slices (Dev.haltPart_frame d t p) :)

theorem Dev.part_haltPart_ne (d : Dev) (t : Nat) {p q : PartId} (h : q ≠ p) : (d.haltPart t p).part q = d.part q := by
  rw [Dev.haltPart, Dev.idleFlue_part, Dev.cutFlue_part, Dev.part_modPart_ne _ _ h]

/-- A halted partition (R260, R266). -/
theorem Dev.part_haltPart_self (d : Dev) (t : Nat) (p : PartId) : (d.haltPart t p).part p = (d.part p).halt := by
  rw [Dev.haltPart, Dev.idleFlue_part, Dev.cutFlue_part, Dev.part_modPart_self]

theorem mem_allParts (p : PartId) : p ∈ allParts := by
  simp only [allParts, List.mem_map, List.mem_range]
  exact ⟨p.val, p.isLt, by ext; simp [Fin.ofNat, Nat.mod_eq_of_lt p.isLt]⟩

theorem nodup_allParts : allParts.Nodup := by decide

/-- A fold over partitions whose step changes each partition alone leaves at each what its own step makes of it. -/
theorem Dev.part_foldl (g : Dev → PartId → Dev) (F : PartId → Part → Part)
    (self : ∀ d p, (g d p).part p = F p (d.part p)) (ne : ∀ d p q, q ≠ p → (g d p).part q = d.part q) (q : PartId) :
    ∀ (l : List PartId) (d : Dev), l.Nodup → (l.foldl g d).part q = if q ∈ l then F q (d.part q) else d.part q
  | [], _, _ => by simp
  | p :: l, d, hn => by
    rw [List.foldl_cons, Dev.part_foldl g F self ne q l _ (List.nodup_cons.mp hn).2]
    by_cases h : q = p
    · subst h
      simp [(List.nodup_cons.mp hn).1, self]
    · simp [h, ne d p q h]

/-- A change of every partition that passes a test, when the change touches that partition alone (R229, R324). -/
theorem Dev.part_eachPart (d : Dev) (c : PartId → Part → Bool) (f : PartId → Dev → Dev) (F : PartId → Part → Part)
    (self : ∀ d p, (f p d).part p = F p (d.part p)) (ne : ∀ d p q, q ≠ p → (f p d).part q = d.part q) (q : PartId) :
    (d.eachPart c f).part q = if c q (d.part q) then F q (d.part q) else d.part q := by
  unfold Dev.eachPart
  rw [Dev.part_foldl (fun d p => if c p (d.part p) then f p d else d) (fun p x => if c p x then F p x else x) ?_ ?_ q _ _
    nodup_allParts, if_pos (mem_allParts q)]
  · intro d p; split <;> simp [*]
  · intro d p q h; split
    · exact ne d p q h
    · rfl

theorem Dev.eachPart_keeps {γ : Type} (g : Dev → γ) (d : Dev) (c : PartId → Part → Bool) (f : PartId → Dev → Dev)
    (h : ∀ p d, g (f p d) = g d) : g (d.eachPart c f) = g d :=
  foldl_keeps g _ (fun d p => by split <;> simp [h]) _ d

/-- What each step of a fold keeps between the units before and after, the fold keeps. -/
theorem foldl_rel {α β : Type} (R : β → β → Prop) (f : β → α → β) (refl : ∀ b, R b b) (trans : ∀ {a b c}, R a b → R b c → R a c)
    (h : ∀ b a, R b (f b a)) : ∀ (l : List α) (b : β), R b (l.foldl f b)
  | [], b => refl b
  | a :: l, b => trans (h b a) (foldl_rel R f refl trans h l (f b a))

/-- Only partitions and waiting packets differ. -/
def PortsParts (d e : Dev) : Prop := ∃ ports parts, e = { d with ports := ports, parts := parts }

theorem PortsParts.refl (d : Dev) : PortsParts d d := ⟨_, _, rfl⟩

theorem PortsParts.trans {a b c : Dev} (h : PortsParts a b) (k : PortsParts b c) : PortsParts a c := by
  obtain ⟨_, _, rfl⟩ := h; obtain ⟨_, _, rfl⟩ := k; exact ⟨_, _, rfl⟩

theorem Dev.eachPart_portsParts (d : Dev) (c : PartId → Part → Bool) (f : PartId → Dev → Dev)
    (h : ∀ p e, PortsParts e (f p e)) : PortsParts d (d.eachPart c f) :=
  foldl_rel PortsParts _ PortsParts.refl PortsParts.trans (fun e p => by split <;> first | exact h p e | exact PortsParts.refl e) _ d

/-- The phase a halted engine is in: NO_SERVICE is left by a reset alone (R374). -/
def Eng.stop (e : Eng) : Eng := { e with phase := if e.phase = .noService then .noService else .halted }

/-- A halted engine: beside the phase, only partitions and waiting packets change. -/
theorem Dev.haltEngine_exists (d : Dev) (t : Nat) : PortsParts { d with eng := d.eng.stop } (d.haltEngine t) :=
  Dev.eachPart_portsParts _ (fun _ x => x.cfg.state == .assigned) (fun p d => d.haltPart t p) fun p e => ⟨_, _, e.haltPart_frame t p⟩

/-- Every assigned partition is halted with the engine (R229, Table 14.2). -/
theorem Dev.part_haltEngine (d : Dev) (t : Nat) (q : PartId) :
    (d.haltEngine t).part q = if (d.part q).cfg.state == .assigned then (d.part q).halt else d.part q :=
  Dev.part_eachPart _ (fun _ x => x.cfg.state == .assigned) (fun p d => d.haltPart t p) (fun _ x => x.halt)
    (fun d p => d.part_haltPart_self t p) (fun d _ _ h => d.part_haltPart_ne t h) q

theorem Dev.haltEngine_eng (d : Dev) (t : Nat) : (d.haltEngine t).eng = d.eng.stop := by
  obtain ⟨a, b, h⟩ := d.haltEngine_exists t; rw [h]

/-- A report changes the report queue, and by its severity partitions, waiting packets and the engine's phase (R300, R324). -/
theorem Dev.report_exists (d : Dev) (t : Nat) (r : Report) :
    ∃ eng ports parts, d.report t r = { d.raise t r with eng := eng, ports := ports, parts := parts } := by
  unfold Dev.report
  generalize r.severity = v
  cases v with
  | info => exact ⟨_, _, _, rfl⟩
  | correctable => exact ⟨_, _, _, rfl⟩
  | stepReplay =>
    cases r.part with
    | none => exact ⟨_, _, _, rfl⟩
    | some p =>
      by_cases hc : r.code = 0x0A
      · simp only [hc, if_true]; exact ⟨_, _, _, rfl⟩
      · simp only [hc, if_false]; rw [Dev.doom_frame]; exact ⟨_, _, _, rfl⟩
  | partFatal =>
    cases r.part with
    | none => exact ⟨_, _, _, rfl⟩
    | some p => exact ⟨_, _, _, (d.raise t r).haltPart_frame t p⟩
  | engFatal => obtain ⟨a, b, h⟩ := (d.raise t r).haltEngine_exists t; exact ⟨_, _, _, h⟩

theorem Dev.report_frame (d : Dev) (t : Nat) (r : Report) :
    d.report t r = { d with rpt := (d.raise t r).rpt, eng := (d.report t r).eng, ports := (d.report t r).ports,
                            parts := (d.report t r).parts } := by
  obtain ⟨a, b, c, h⟩ := d.report_exists t r
  rw [h, Dev.raise_frame]

@[simp] theorem Dev.report_straps (d : Dev) (t : Nat) (r : Report) : (d.report t r).straps = d.straps := (congrArg Dev.straps (Dev.report_frame d t r) :)
@[simp] theorem Dev.report_pwr (d : Dev) (t : Nat) (r : Report) : (d.report t r).pwr = d.pwr := (congrArg Dev.pwr (Dev.report_frame d t r) :)
@[simp] theorem Dev.report_dmp (d : Dev) (t : Nat) (r : Report) : (d.report t r).dmp = d.dmp := (congrArg Dev.dmp (Dev.report_frame d t r) :)
@[simp] theorem Dev.report_stk (d : Dev) (t : Nat) (r : Report) : (d.report t r).stk = d.stk := (congrArg Dev.stk (Dev.report_frame d t r) :)
@[simp] theorem Dev.report_secOut (d : Dev) (t : Nat) (r : Report) : (d.report t r).secOut = d.secOut := (congrArg Dev.secOut (Dev.report_frame d t r) :)
@[simp] theorem Dev.report_rsp (d : Dev) (t : Nat) (r : Report) : (d.report t r).rsp = d.rsp := (congrArg Dev.rsp (Dev.report_frame d t r) :)
@[simp] theorem Dev.report_ledger (d : Dev) (t : Nat) (r : Report) : (d.report t r).ledger = d.ledger := (congrArg Dev.ledger (Dev.report_frame d t r) :)
@[simp] theorem Dev.report_ledgerBad (d : Dev) (t : Nat) (r : Report) : (d.report t r).ledgerBad = d.ledgerBad := (congrArg Dev.ledgerBad (Dev.report_frame d t r) :)
@[simp] theorem Dev.report_members (d : Dev) (t : Nat) (r : Report) : (d.report t r).members = d.members := (congrArg Dev.members (Dev.report_frame d t r) :)
@[simp] theorem Dev.report_groups (d : Dev) (t : Nat) (r : Report) : (d.report t r).groups = d.groups := (congrArg Dev.groups (Dev.report_frame d t r) :)
@[simp] theorem Dev.report_keys (d : Dev) (t : Nat) (r : Report) : (d.report t r).keys = d.keys := (congrArg Dev.keys (Dev.report_frame d t r) :)
@[simp] theorem Dev.report_keyWin (d : Dev) (t : Nat) (r : Report) : (d.report t r).keyWin = d.keyWin := (congrArg Dev.keyWin (Dev.report_frame d t r) :)
@[simp] theorem Dev.report_views (d : Dev) (t : Nat) (r : Report) : (d.report t r).views = d.views := (congrArg Dev.views (Dev.report_frame d t r) :)
@[simp] theorem Dev.report_arrays (d : Dev) (t : Nat) (r : Report) : (d.report t r).arrays = d.arrays := (congrArg Dev.arrays (Dev.report_frame d t r) :)
@[simp] theorem Dev.report_stations (d : Dev) (t : Nat) (r : Report) : (d.report t r).stations = d.stations := (congrArg Dev.stations (Dev.report_frame d t r) :)
@[simp] theorem Dev.report_flueOut (d : Dev) (t : Nat) (r : Report) : (d.report t r).flueOut = d.flueOut := (congrArg Dev.flueOut (Dev.report_frame d t r) :)
@[simp] theorem Dev.report_memReads (d : Dev) (t : Nat) (r : Report) : (d.report t r).memReads = d.memReads := (congrArg Dev.memReads (Dev.report_frame d t r) :)
@[simp] theorem Dev.report_memWrites (d : Dev) (t : Nat) (r : Report) : (d.report t r).memWrites = d.memWrites := (congrArg Dev.memWrites (Dev.report_frame d t r) :)
@[simp] theorem Dev.report_slices (d : Dev) (t : Nat) (r : Report) : (d.report t r).slices = d.slices := (congrArg Dev.slices (Dev.report_frame d t r) :)

@[simp] theorem Dev.report_rpt (d : Dev) (t : Nat) (r : Report) : (d.report t r).rpt = (d.raise t r).rpt :=
  (congrArg Dev.rpt (d.report_frame t r) :)

/-- Only an engine-fatal report changes the engine's registers. -/
theorem Dev.report_eng (d : Dev) (t : Nat) (r : Report) (h : r.severity ≠ .engFatal) : (d.report t r).eng = d.eng := by
  unfold Dev.report
  cases hs : r.severity with
  | info => simp
  | correctable => simp
  | stepReplay => dsimp only; split <;> (try split) <;> simp
  | partFatal => dsimp only; split <;> simp
  | engFatal => exact absurd hs h

/-- A report leaves every partition it does not name, unless it is engine-fatal. -/
theorem Dev.part_report_ne (d : Dev) (t : Nat) (r : Report) (q : PartId) (h : r.severity ≠ .engFatal) (hq : r.part ≠ some q) :
    (d.report t r).part q = d.part q := by
  unfold Dev.report
  cases hs : r.severity with
  | info => simp
  | correctable => simp
  | stepReplay =>
    dsimp only
    split
    · next p hp =>
      split
      · simp
      · rw [Dev.part_doom_ne _ _ _ _ _ _ (fun e => hq (by rw [hp, e]))]; simp
    · simp
  | partFatal =>
    dsimp only
    split
    · next p hp => rw [Dev.part_haltPart_ne _ _ (fun e => hq (by rw [hp, e]))]; simp
    · simp
  | engFatal => exact absurd hs h

/-- Of any partition, a report changes the attempt, the schedule, CHK and LGR_HOLD at most. -/
theorem Dev.part_report_exists (d : Dev) (t : Nat) (r : Report) (q : PartId) :
    ∃ att sch chk hold, (d.report t r).part q = { d.part q with att := att, sch := sch, chk := chk, lgrHold := hold } := by
  have self : ∀ x : Part, ∃ att sch chk hold, x = { x with att := att, sch := sch, chk := chk, lgrHold := hold } :=
    fun x => ⟨x.att, x.sch, x.chk, x.lgrHold, rfl⟩
  have halted : ∀ x : Part, ∃ att sch chk hold, x.halt = { x with att := att, sch := sch, chk := chk, lgrHold := hold } :=
    fun x => ⟨_, _, _, _, rfl⟩
  unfold Dev.report
  cases r.severity with
  | info => simpa using self _
  | correctable => simpa using self _
  | stepReplay =>
    cases hp : r.part with
    | none => simpa using self _
    | some p =>
      dsimp only
      split
      · simpa using self _
      · by_cases hq : q = p
        · subst hq
          have h := (d.raise t r).part_doom_self t q r.code r.synd true r.unit
          rw [Dev.raise_part] at h
          exact ⟨_, _, _, _, h⟩
        · rw [Dev.part_doom_ne _ _ _ _ _ _ hq]; simpa using self _
  | partFatal =>
    cases hp : r.part with
    | none => simpa using self _
    | some p =>
      by_cases hq : q = p
      · subst hq
        show ∃ att sch chk hold, ((d.raise t r).haltPart t q).part q = _
        rw [Dev.part_haltPart_self, Dev.raise_part]; exact halted _
      · show ∃ att sch chk hold, ((d.raise t r).haltPart t p).part q = _
        rw [Dev.part_haltPart_ne _ _ hq, Dev.raise_part]; exact self _
  | engFatal =>
    show ∃ att sch chk hold, ((d.raise t r).haltEngine t).part q = _
    rw [Dev.part_haltEngine, Dev.raise_part]
    split
    · exact halted _
    · exact self _

@[simp] theorem Dev.report_mode (d : Dev) (t : Nat) (r : Report) (q : PartId) : ((d.report t r).part q).mode = (d.part q).mode := by
  obtain ⟨_, _, _, _, h⟩ := d.part_report_exists t r q; rw [h]

@[simp] theorem Dev.report_cfg (d : Dev) (t : Nat) (r : Report) (q : PartId) : ((d.report t r).part q).cfg = (d.part q).cfg := by
  obtain ⟨_, _, _, _, h⟩ := d.part_report_exists t r q; rw [h]

@[simp] theorem Dev.report_ldr (d : Dev) (t : Nat) (r : Report) (q : PartId) : ((d.report t r).part q).ldr = (d.part q).ldr := by
  obtain ⟨_, _, _, _, h⟩ := d.part_report_exists t r q; rw [h]

/-- A report of a step-replay severity dooms the live attempt of the partition it names. -/
theorem Dev.report_stepReplay (d : Dev) (t : Nat) (r : Report) (p : PartId) (hs : r.severity = .stepReplay)
    (hp : r.part = some p) (hc : r.code ≠ 0x0A) : d.report t r = (d.raise t r).doom t p r.code r.synd true r.unit := by
  simp only [Dev.report, hs, hp, if_neg hc]

/-- A partition-fatal report halts the partition it names. -/
theorem Dev.report_partFatal (d : Dev) (t : Nat) (r : Report) (p : PartId) (hs : r.severity = .partFatal)
    (hp : r.part = some p) : d.report t r = (d.raise t r).haltPart t p := by simp [Dev.report, hs, hp]

/-- An informational or correctable report only queues its record. -/
theorem Dev.report_low (d : Dev) (t : Nat) (r : Report) (hs : r.severity = .info ∨ r.severity = .correctable) :
    d.report t r = d.raise t r := by rcases hs with hs | hs <;> simp [Dev.report, hs]

/-- An engine-fatal report halts the engine. -/
theorem Dev.report_engFatal (d : Dev) (t : Nat) (r : Report) (hs : r.severity = .engFatal) :
    d.report t r = (d.raise t r).haltEngine t := by simp [Dev.report, hs]

end Sys2Proof.Machine
end

