-- ==== Sys2Proof/Laws/Touches.lean ====
section
/-! SUPPORT. What a command on one partition may touch: the report queue, the waiting packets and its own partition. The shared
operations of commit points, holds and agreements keep to it, and a fold of such operations does. -/

namespace Sys2Proof.Machine

/-- Only the report queue, the waiting packets and partition p differ. -/
def Touches (p : PartId) (d e : Dev) : Prop :=
  (∃ rpt ports parts, e = { d with rpt := rpt, ports := ports, parts := parts }) ∧ ∀ q, q ≠ p → e.part q = d.part q

namespace Touches

variable {p : PartId} {a b c d e : Dev}

theorem refl (p : PartId) (d : Dev) : Touches p d d := ⟨⟨_, _, _, rfl⟩, fun _ _ => rfl⟩

theorem trans (h : Touches p a b) (k : Touches p b c) : Touches p a c := by
  obtain ⟨⟨_, _, _, rfl⟩, h⟩ := h
  obtain ⟨⟨_, _, _, rfl⟩, k⟩ := k
  exact ⟨⟨_, _, _, rfl⟩, fun q hq => (k q hq).trans (h q hq)⟩

theorem eng (h : Touches p d e) : e.eng = d.eng := by obtain ⟨⟨_, _, _, rfl⟩, -⟩ := h; rfl
theorem pwr (h : Touches p d e) : e.pwr = d.pwr := by obtain ⟨⟨_, _, _, rfl⟩, -⟩ := h; rfl
theorem dmp (h : Touches p d e) : e.dmp = d.dmp := by obtain ⟨⟨_, _, _, rfl⟩, -⟩ := h; rfl
theorem stk (h : Touches p d e) : e.stk = d.stk := by obtain ⟨⟨_, _, _, rfl⟩, -⟩ := h; rfl
theorem rsp (h : Touches p d e) : e.rsp = d.rsp := by obtain ⟨⟨_, _, _, rfl⟩, -⟩ := h; rfl
theorem secOut (h : Touches p d e) : e.secOut = d.secOut := by obtain ⟨⟨_, _, _, rfl⟩, -⟩ := h; rfl
theorem ledger (h : Touches p d e) : e.ledger = d.ledger := by obtain ⟨⟨_, _, _, rfl⟩, -⟩ := h; rfl
theorem ledgerBad (h : Touches p d e) : e.ledgerBad = d.ledgerBad := by obtain ⟨⟨_, _, _, rfl⟩, -⟩ := h; rfl
theorem members (h : Touches p d e) : e.members = d.members := by obtain ⟨⟨_, _, _, rfl⟩, -⟩ := h; rfl
theorem groups (h : Touches p d e) : e.groups = d.groups := by obtain ⟨⟨_, _, _, rfl⟩, -⟩ := h; rfl
theorem keys (h : Touches p d e) : e.keys = d.keys := by obtain ⟨⟨_, _, _, rfl⟩, -⟩ := h; rfl
theorem arrays (h : Touches p d e) : e.arrays = d.arrays := by obtain ⟨⟨_, _, _, rfl⟩, -⟩ := h; rfl
theorem stations (h : Touches p d e) : e.stations = d.stations := by obtain ⟨⟨_, _, _, rfl⟩, -⟩ := h; rfl
theorem memReads (h : Touches p d e) : e.memReads = d.memReads := by obtain ⟨⟨_, _, _, rfl⟩, -⟩ := h; rfl
theorem memWrites (h : Touches p d e) : e.memWrites = d.memWrites := by obtain ⟨⟨_, _, _, rfl⟩, -⟩ := h; rfl
theorem slices (h : Touches p d e) : e.slices = d.slices := by obtain ⟨⟨_, _, _, rfl⟩, -⟩ := h; rfl
theorem others (h : Touches p d e) {q : PartId} (hq : q ≠ p) : e.part q = d.part q := h.2 q hq

theorem setPart (p : PartId) (d : Dev) (x : Part) : Touches p d (d.setPart p x) :=
  ⟨⟨_, _, _, rfl⟩, fun _ h => d.part_setPart_ne x h⟩
theorem modPart (p : PartId) (d : Dev) (f : Part → Part) : Touches p d (d.modPart p f) := setPart p d _
theorem modSch (p : PartId) (d : Dev) (f : Sch → Sch) : Touches p d (d.modSch p f) := setPart p d _
theorem modAtt (p : PartId) (d : Dev) (f : Attempt → Attempt) : Touches p d (d.modAtt p f) := setPart p d _
theorem modHeld (p : PartId) (d : Dev) (f : Held → Held) : Touches p d (d.modHeld p f) := setPart p d _
theorem bump (p : PartId) (d : Dev) (c n : Nat) : Touches p d (d.bump p c n) := setPart p d _
theorem hold (p : PartId) (d : Dev) (c : HoldCause) : Touches p d (d.hold p c) := setPart p d _

/-- What changes the report queue alone touches nothing of any partition. -/
theorem of_rpt (p : PartId) {d e : Dev} (h : e = { d with rpt := e.rpt }) : Touches p d e := by
  rw [h]; exact ⟨⟨_, _, _, rfl⟩, fun _ _ => rfl⟩

/-- What changes the waiting packets alone touches nothing of any partition. -/
theorem of_ports (p : PartId) {d e : Dev} (h : e = { d with ports := e.ports }) : Touches p d e := by
  rw [h]; exact ⟨⟨_, _, _, rfl⟩, fun _ _ => rfl⟩

theorem raise (p : PartId) (d : Dev) (t : Nat) (r : Report) : Touches p d (d.raise t r) := of_rpt p (d.raise_frame t r)
theorem idleFlue (p q : PartId) (d : Dev) : Touches p d (d.idleFlue q) := of_ports p rfl
theorem sendAt (p q : PartId) (d : Dev) (i : Nat) (w : Waiting) : Touches p d (d.sendAt q i w) := of_ports p (d.sendAt_frame q i w)
theorem sendTo (p q : PartId) (d : Dev) (i : Nat) (c : Bool) (a : PktArgs) (m : BitVec 128) : Touches p d (d.sendTo q i c a m) :=
  of_ports p (d.sendTo_frame q i c a m)
theorem sendSwitch (p q : PartId) (d : Dev) (c : BitVec 32) (a : PktArgs) : Touches p d (d.sendSwitch q c a) :=
  of_ports p (d.sendSwitch_frame q c a)
theorem sendJob (p q : PartId) (d : Dev) (a : PktArgs) : Touches p d (d.sendJob q a) := of_ports p (d.sendJob_frame q a)
theorem sendNotice (p q : PartId) (d : Dev) (u : UnitCode) (c : Byte) : Touches p d (d.sendNotice q u c) :=
  of_ports p (d.sendNotice_frame q u c)
theorem releaseLeases (p q : PartId) (d : Dev) : Touches p d (d.releaseLeases q) := of_ports p (d.releaseLeases_frame q)

theorem doom (p : PartId) (d : Dev) (t : Nat) (c : Byte) (y : Nat) (own : Bool) (u : UnitCode) :
    Touches p d (d.doom t p c y own u) := by
  refine ⟨?_, fun q h => d.part_doom_ne t c y own u h⟩
  rw [d.doom_frame]; exact ⟨_, _, _, rfl⟩

theorem haltPart (p : PartId) (d : Dev) (t : Nat) : Touches p d (d.haltPart t p) :=
  ⟨⟨_, _, _, d.haltPart_frame t p⟩, fun _ h => d.part_haltPart_ne t h⟩

/-- A report of a partition, short of an engine-fatal one, touches that partition. -/
theorem report {p : PartId} {r : Report} (d : Dev) (t : Nat) (h : r.severity ≠ .engFatal) (hp : r.part = some p) :
    Touches p d (d.report t r) := by
  refine (raise p d t r).trans ?_
  unfold Dev.report
  rw [hp]
  cases hs : r.severity with
  | info => exact refl p _
  | correctable => exact refl p _
  | stepReplay =>
    dsimp only
    by_cases hc : r.code = 0x0A
    · rw [if_pos hc]; exact refl p _
    · rw [if_neg hc]; exact doom p _ _ _ _ _ _
  | partFatal => exact haltPart p _ t
  | engFatal => exact absurd hs h

/-- A choice of two operations that keep to a partition keeps to it. -/
theorem ite {q : Prop} [Decidable q] (h : q → Touches p d a) (k : ¬q → Touches p d b) : Touches p d (if q then a else b) := by
  split
  · next hq => exact h hq
  · next hq => exact k hq

/-- An operation, and then perhaps another. -/
theorem thenIte {q : Prop} [Decidable q] (h : Touches p d a) (k : Touches p a b) : Touches p d (if q then b else a) :=
  ite (fun _ => h.trans k) fun _ => h

/-- A fold of operations that keep to a partition keeps to it. -/
theorem foldl {α : Type} (f : Dev → α → Dev) (h : ∀ d x, Touches p d (f d x)) (l : List α) (d : Dev) : Touches p d (l.foldl f d) :=
  foldl_rel (Touches p) f (refl p) trans h l d

end Touches

end Sys2Proof.Machine
end

