-- ==== Sys2Proof/Laws/Commit.lean ====
section
/-! SUPPORT. The operations of commit points, holds and agreements keep to their partition: lemmas over `Touches`, and what each does
to the fields that statements name. -/

namespace Sys2Proof.Machine

namespace Touches

theorem modCtx (p : PartId) (d : Dev) (f : Ctx → Ctx) : Touches p d (d.modCtx p f) := setPart p d _
theorem causeOf (p : PartId) (d : Dev) (t : Nat) (c : Byte) (y : Nat) : Touches p d (d.causeOf t p c y) := setPart p d _
theorem decided (p : PartId) (d : Dev) (c : Decision) : Touches p d (d.decided p c) := setPart p d _
theorem chkShow (p : PartId) (d : Dev) (c : Byte) (a l : Bool) : Touches p d (d.chkShow p c a l) := setPart p d _
theorem sendAgree (p q : PartId) (d : Dev) (w : Nat) (l : List Byte) : Touches p d (d.sendAgree q w l) := sendJob p q d _
theorem reject (p q : PartId) (d : Dev) (t a b k : Nat) : Touches p d (d.reject t q a b k) := raise p d t _
theorem beginUpdate (p : PartId) (d : Dev) (f c : Bool) : Touches p d (d.beginUpdate p f c) := setPart p d _
theorem calRecord (p q : PartId) (d : Dev) (t : Nat) (v : Severity) (i : Nat) : Touches p d (d.calRecord t q v i) := by
  unfold Dev.calRecord; exact raise p d t _
theorem broken (p : PartId) (d : Dev) (t m : Nat) : Touches p d (d.broken t p m) :=
  report d t (fun h => Severity.noConfusion h) rfl

theorem atLimit (p : PartId) (d : Dev) (t : Nat) : Touches p d (d.atLimit t p) := by
  unfold Dev.atLimit
  dsimp only
  split
  · exact refl p d
  · exact ((raise p d t _).trans (chkShow p _ _ _ _)).trans (hold p _ _)

theorem decideReplay (p : PartId) (d : Dev) (t : Nat) : Touches p d (d.decideReplay t p) := by
  unfold Dev.decideReplay
  refine Touches.trans ?_ (atLimit p _ t)
  have shown (e : Dev) (c : Byte) (b : Bool) (h : HoldCause) : Touches p e ((e.chkShow p c b false).hold p h) :=
    (chkShow p _ _ _ _).trans (hold p _ _)
  refine thenIte ?_ (shown _ _ _ _)
  have h : Touches p d (if ((d.part p).mode.getLsbD 2 && !(d.part p).chk.list.isEmpty) = true then
        ((d.decided p .replay).chkShow p 0x02 true false).hold p .arbitration
      else if ((d.part p).att.arb && (d.arbItems p).any fun i => i.arbiter.isSome && !i.done) = true then
        ((d.decided p .replay).chkShow p 0x02 false false).hold p .arbitration
      else d.decided p .replay) :=
    Touches.trans (decided p d .replay) (ite (fun _ => shown _ _ _ _) fun _ => ite (fun _ => shown _ _ _ _) fun _ => refl p _)
  split
  · exact h.trans (shown _ _ _ _)
  · exact h

theorem decideLedger (p : PartId) (d : Dev) (t : Nat) : Touches p d (d.decideLedger t p) := by
  unfold Dev.decideLedger
  dsimp only
  refine ite (fun _ => ?_) fun _ => ?_
  · refine thenIte (((?_ : Touches p d _).trans (beginUpdate p _ _ _)).trans (decided p _ _)) ((modCtx p _ _).trans (hold p _ _))
    exact foldl _ (fun e i => calRecord p p e t _ i) _ d
  · have h : ∀ y l, Touches p d ((List.foldl (fun (e : Dev) i => e.calRecord t p .stepReplay i) d l).causeOf t p 0x0F y) := fun y l =>
      (foldl (p := p) (fun (e : Dev) i => e.calRecord t p .stepReplay i) (fun e i => calRecord p p e t _ i) l d).trans (causeOf p _ t _ y)
    refine ite (fun _ => ?_) fun _ => ?_
    · exact Touches.trans (Touches.trans (Touches.trans (h _ _) (beginUpdate p _ _ _)) (decided p _ _)) (atLimit p _ t)
    · exact Touches.trans (Touches.trans (Touches.trans (Touches.trans (h _ _) (beginUpdate p _ _ _)) (decided p _ _)) (modPart p _ _)) (hold p _ _)

/-- The digests of an attempt compared. -/
theorem compareDigests (p : PartId) (d : Dev) (t : Nat) : Touches p d (d.compareDigests t p).1 := by
  unfold Dev.compareDigests
  dsimp only
  split
  · exact refl p d
  · refine foldl_rel (fun (a b : Dev × Option Nat) => Touches p a.1 b.1) _ (fun _ => refl p _) (fun h k => Touches.trans h k) ?_ _ _
    intro a m
    have hr : ∀ r, Touches p a.1 (a.1.raise t r) := fun r => raise p a.1 t r
    have hf : ∀ i k j, Touches p a.1 (a.1.report t (divergence p .partFatal i k j)) :=
      fun _ _ _ => report a.1 t (fun h => Severity.noConfusion h) rfl
    repeat' split
    all_goals try dsimp only
    all_goals first | exact refl p a.1 | exact hr _ | exact hf _ _ _

theorem digestHold (p : PartId) (d : Dev) (t y : Nat) : Touches p d (d.digestHold t p y) := by
  unfold Dev.digestHold
  exact ite (fun _ => refl p d) fun _ =>
    ((((causeOf p d t _ y).trans (decided p _ _)).trans (chkShow p _ _ _ _)).trans (hold p _ _)).trans (atLimit p _ t)

/-- A decision, unless digests are delivered to the host. -/
theorem takeDecision (p : PartId) (d : Dev) (t : Nat) (hm : (d.part p).mode.getLsbD 3 = false) :
    Touches p d (d.takeDecision t p) := by
  have hr : ∀ e : Dev, Touches p e (e.report t { code := 0x0D, severity := .stepReplay, unit := (d.part p).port0, part := some p, synd := 0 }) :=
    fun e => report e t (fun h => Severity.noConfusion h) rfl
  unfold Dev.takeDecision
  dsimp only
  generalize (!(d.part p).att.exchangeDone && !(d.part p).touched.isEmpty && ((d.part p).att.doom.isNone || (d.part p).att.pointSent)) = q
  have h0 : Touches p d (if q = true then d.report t { code := 0x0D, severity := .stepReplay, unit := (d.part p).port0, part := some p, synd := 0 } else d) :=
    ite (fun _ => hr d) fun _ => refl p d
  have hmode : ((if q = true then d.report t { code := 0x0D, severity := .stepReplay, unit := (d.part p).port0, part := some p, synd := 0 } else d).part p).mode.getLsbD 3 = false := by
    split
    · rw [Dev.report_mode]; exact hm
    · exact hm
  generalize (if q = true then d.report t { code := 0x0D, severity := .stepReplay, unit := (d.part p).port0, part := some p, synd := 0 } else d) = e at h0 hmode ⊢
  refine ite (fun _ => h0.trans (decideReplay p e t)) fun _ => ite (fun _ => ?_) fun _ => h0.trans (decideLedger p e t)
  rw [hmode, if_neg Bool.false_ne_true]
  have hc := h0.trans (compareDigests p e t)
  split
  · exact hc.trans (digestHold p _ t _)
  · exact hc.trans (decideLedger p _ t)

end Touches

end Sys2Proof.Machine
end

