-- ==== Sys2Proof/Laws/Crypt.lean ====
section
/-! SUPPORT. Laws of the counter stream: a text encrypted twice under one key and nonce is the text again, at its length;
so a context image opens to the body that was sealed. And of CRC-32C: a fault within one byte changes the check. -/

namespace Sys2Proof.Machine

theorem length_bytesLE (n v : Nat) : (bytesLE n v).length = n := by
  induction n generalizing v with
  | zero => rfl
  | succ n ih => simp [bytesLE, ih]

theorem length_bytesBE (n v : Nat) : (bytesBE n v).length = n := by simp [bytesBE, length_bytesLE]

theorem length_xorBytes (a b : List Byte) : (xorBytes a b).length = min a.length b.length := List.length_zipWith

theorem xorBytes_xorBytes (a k : List Byte) (h : a.length ≤ k.length) : xorBytes (xorBytes a k) k = a := by
  induction a generalizing k with
  | nil => rfl
  | cons x a ih =>
    cases k with
    | nil => simp at h
    | cons y k =>
      have := ih k (by simpa using h)
      simp only [xorBytes] at this ⊢
      simp [this, BitVec.xor_assoc]

theorem length_aesRounds (ks : List (List Byte)) (b : List Byte) (hb : b.length = 16) (h : ∀ k ∈ ks, k.length = 16) :
    (aesRounds ks b).length = 16 := by
  induction ks generalizing b with
  | nil => exact hb
  | cons k ks ih =>
    have hk : k.length = 16 := h k (by simp)
    cases ks with
    | nil => simp [aesRounds, length_xorBytes, aesShift, hk]
    | cons k' ks =>
      refine ih _ ?_ fun q hq => h q (by simp [hq])
      rw [length_xorBytes, hk]
      rfl

theorem length_aesEnc (ks : List (List Byte)) (b : List Byte) (hb : b.length = 16) (hne : ks ≠ []) (h : ∀ k ∈ ks, k.length = 16) :
    (aesEnc ks b).length = 16 := by
  cases ks with
  | nil => exact absurd rfl hne
  | cons k ks =>
    refine length_aesRounds _ _ ?_ fun q hq => h q (by simp at hq; simp [hq])
    simp [length_xorBytes, hb, h k (by simp)]

theorem length_gctr (ks : List (List Byte)) (nonce : List Byte) (n c : Nat) (t : List Byte) (hn : nonce.length = 12) (hne : ks ≠ [])
    (h : ∀ k ∈ ks, k.length = 16) : (gctr ks nonce n c t).length = min t.length (16 * n) := by
  induction n generalizing c t with
  | zero => simp [gctr]
  | succ n ih =>
    have he := length_aesEnc ks (nonce ++ bytesBE 4 c) (by simp [hn, length_bytesBE]) hne h
    simp only [gctr, List.length_append, length_xorBytes, he, ih, List.length_take, List.length_drop]
    omega

theorem gctr_gctr (ks : List (List Byte)) (nonce : List Byte) (n c : Nat) (t : List Byte) (hn : nonce.length = 12) (hne : ks ≠ [])
    (h : ∀ k ∈ ks, k.length = 16) (ht : t.length ≤ 16 * n) : gctr ks nonce n c (gctr ks nonce n c t) = t := by
  induction n generalizing c t with
  | zero => simp at ht; simp [gctr, ht]
  | succ n ih =>
    have he := length_aesEnc ks (nonce ++ bytesBE 4 c) (by simp [hn, length_bytesBE]) hne h
    have hx : (xorBytes (t.take 16) (aesEnc ks (nonce ++ bytesBE 4 c))).length = min 16 t.length := by
      simp [length_xorBytes, he]
    have hd := ih (c + 1) (t.drop 16) (by simp; omega)
    rw [gctr, gctr]
    by_cases hl : 16 ≤ t.length
    · have h16 := Eq.trans hx (Nat.min_eq_left hl)
      rw [List.take_append_of_le_length (by omega), List.take_of_length_le (by omega), List.drop_append_of_le_length (by omega),
        List.drop_of_length_le (by omega), List.nil_append, hd, xorBytes_xorBytes _ _ (by rw [List.length_take, he]; omega), List.take_append_drop]
    · have hnil : t.drop 16 = [] := List.drop_of_length_le (by omega)
      have hg : gctr ks nonce n (c + 1) (t.drop 16) = [] :=
        List.length_eq_zero_iff.1 (by rw [length_gctr _ _ _ _ _ hn hne h, hnil]; simp)
      rw [hg, List.append_nil, List.take_of_length_le (by omega), xorBytes_xorBytes _ _ (by rw [List.length_take, he]; omega),
        List.drop_of_length_le (by omega), List.take_of_length_le (by omega)]
      rw [hnil] at hg
      rw [hg, List.append_nil]

/-- Encryption keeps the length of a text. -/
theorem length_gcmCrypt (key nonce t : List Byte) (hn : nonce.length = 12) (hk : ∀ k ∈ aesRoundKeys key, k.length = 16) :
    (gcmCrypt key nonce t).length = t.length := by
  rw [gcmCrypt, length_gctr _ _ _ _ _ hn (by simp [aesRoundKeys]) hk, ceilDiv]
  omega

/-- A text encrypted twice is the text (R362). -/
theorem gcmCrypt_gcmCrypt (key nonce t : List Byte) (hn : nonce.length = 12) (hk : ∀ k ∈ aesRoundKeys key, k.length = 16) :
    gcmCrypt key nonce (gcmCrypt key nonce t) = t := by
  rw [gcmCrypt, length_gcmCrypt _ _ _ hn hk, gcmCrypt]
  exact gctr_gctr _ _ _ _ _ hn (by simp [aesRoundKeys]) hk (by rw [ceilDiv]; omega)

/-- A slot whose checks all pass opens to its body in clear (Table 13.12). -/
theorem Dev.openSlot_clear {d : Dev} {p : PartId} {ds : Descriptor} {c : CtxImage} {k : KeySlot} {n : Nat} {b : List Byte} {img : Image}
    (hkey : d.key p ds.key = k) (hn : fieldLE c.header 8 4 = n) (himg : (d.part p).ldr.image = some img)
    (hform : (fieldLE c.header 0 4 == 0x58544346 && fieldLE c.header 4 2 == 1 && fieldLE c.header 6 2 == 0xF4
      && decide (32 + n + 16 ≤ ds.slotLen) && decide (256 ≤ n)) = true) (hlen : c.body.length = n)
    (hvalid : (k.valid && (k.purpose == 1 || k.purpose == 2) && k.kind.toNat == fieldLE c.header 12 1
      && k.keyId.toNat == fieldLE c.header 16 4) = true)
    (hclear : gcmCrypt k.bytes (c.header.drop 20) c.body = b)
    (htag : gcmTag k.bytes (c.header.drop 20) c.header c.body = c.tag)
    (hbody : (n == 256 + 64 * fieldLE b 92 4 + 32 * fieldLE b 96 4 && b.take 48 == img.header.logicalDigest
      && fieldLE c.header 13 3 == 0) = true)
    (hcheck : bodyCheck n ds.slotLen (d.part p).cfg.lgrCount b = none) :
    d.openSlot p ds c = .inr ⟨fieldLE b 48 8, fieldLE b 92 4, fieldLE b 96 4, b⟩ := by
  simp only [Bool.and_eq_true, beq_iff_eq, decide_eq_true_eq] at hform hbody
  unfold Dev.openSlot
  simp only [hkey, hn, himg, hlen, hvalid, hclear, htag, hform, hbody]
  rw [if_neg (by omega)]
  simp only [← hbody.1.1, bne_self_eq_false, Bool.false_eq_true, if_false, ne_eq, not_true_eq_false, Bool.not_true, hcheck]

/-! ## CRC-32C -/

theorem crcBit_injective {a b : BitVec 32} (h : crcBit a = crcBit b) : a = b := by
  have hb (i : Nat) : (crcBit a).getLsbD i = (crcBit b).getLsbD i := by rw [h]
  have e (c : BitVec 32) (i : Nat) : (crcBit c).getLsbD i = ((c.getLsbD (1 + i)) ^^ (c.getLsbD 0 && (0x82F63B78#32).getLsbD i)) := by
    unfold crcBit; cases hc : c.getLsbD 0 <;> simp
  have h0 : a.getLsbD 0 = b.getLsbD 0 := by
    have := hb 31
    rw [e, e] at this
    simpa using this
  refine BitVec.eq_of_getLsbD_eq fun i hi => ?_
  cases i with
  | zero => exact h0
  | succ i =>
    have := hb i
    rw [e, e, h0] at this
    simpa [Nat.add_comm] using this

theorem crcByte_injective {c d : BitVec 32} {x y : Byte} (h : crcByte c x = crcByte d y) :
    c ^^^ x.setWidth 32 = d ^^^ y.setWidth 32 := by
  unfold crcByte at h
  iterate 8 replace h := crcBit_injective h
  exact h

theorem crcFold_ne {c d : BitVec 32} (h : c ≠ d) (l : List Byte) : l.foldl crcByte c ≠ l.foldl crcByte d := by
  induction l generalizing c d with
  | nil => exact h
  | cons x l ih => exact ih fun e => h ((BitVec.xor_left_inj _).mp (crcByte_injective e))

/-- A CRC-32C shows every fault that stays within one byte. -/
theorem crc32c_set_ne {l : List Byte} {i : Nat} {x : Byte} (hi : i < l.length) (hx : l.getD i 0 ≠ x) : crc32c (l.set i x) ≠ crc32c l := by
  have hf : ∀ c : BitVec 32, (l.set i x).foldl crcByte c ≠ l.foldl crcByte c := by
    induction l generalizing i with
    | nil => simp at hi
    | cons y l ih =>
      intro c
      cases i with
      | zero =>
        simp only [List.set_cons_zero, List.foldl_cons]
        refine crcFold_ne (fun e => ?_) l
        have := (BitVec.xor_right_inj _).mp (crcByte_injective e)
        have := congrArg (BitVec.setWidth 8) this
        simp at this
        exact hx (by simpa using this.symm)
      | succ i =>
        simp only [List.set_cons_succ, List.foldl_cons]
        exact ih (by simpa using hi) (by simpa using hx) _
  unfold crc32c
  exact fun e => hf _ ((BitVec.xor_left_inj _).mp e)

/-- A station or row unit with one byte wrong fails its start-up test. -/
theorem UnitBurn.fails_one {u : UnitCode} {i : Nat} {b : Byte} (hb : b ≠ 0) (hi : i < (unitAnswer (unitKind u)).length) :
    UnitBurn.fails ⟨u, [(i, b)]⟩ = true := by
  have : crc32c (flipBytes (unitAnswer (unitKind u)) [(i, b)]) ≠ crc32c (unitAnswer (unitKind u)) := by
    refine crc32c_set_ne hi fun e => hb ?_
    exact (BitVec.xor_right_inj _).mp (e.symm.trans BitVec.xor_zero.symm)
  have hb : (b != 0) = true := bne_iff_ne.mpr hb
  simp only [UnitBurn.fails, List.any_cons, hb, Bool.true_or, Bool.true_and]
  exact bne_iff_ne.mpr this

end Sys2Proof.Machine
end

