-- ==== Sys2Proof/Laws/Loader.lean ====
section
/-! SUPPORT. What the loader's reads may do (R422): new reads of its own lines, and nothing else but the count of those asked for. -/

namespace Sys2Proof.Machine

/-- Only the loader's reads differ, each of a line of the image, and the count of the lines that partition p's loader has asked for. -/
def LoaderOnly (p : PartId) (d e : Dev) : Prop :=
  e = { d with memReads := e.memReads, parts := e.parts } ∧ (∀ q, q ≠ p → e.part q = d.part q)
    ∧ (∃ n, e.part p = { d.part p with ldr := { (d.part p).ldr with asked := n } })
    ∧ ∃ reads, e.memReads = d.memReads ++ reads ∧ ∀ r ∈ reads, r.loader = true ∧ r.part = p ∧ r.index < (d.part p).ldr.lineCount
        ∧ r.addr = (d.part p).ldr.addr.toNat + 512 * r.index

theorem LoaderOnly.refl (p : PartId) (d : Dev) : LoaderOnly p d d := ⟨rfl, fun _ _ => rfl, ⟨_, rfl⟩, [], by simp⟩

theorem LoaderOnly.trans {p : PartId} {a b c : Dev} (h : LoaderOnly p a b) (k : LoaderOnly p b c) : LoaderOnly p a c := by
  obtain ⟨hd, ho, ⟨n, hn⟩, rs, hr, hs⟩ := h
  obtain ⟨kd, ko, ⟨m, hm⟩, qs, hq, ht⟩ := k
  refine ⟨by rw [kd, hd], fun q hne => (ko q hne).trans (ho q hne), ⟨m, by rw [hm, hn]⟩, rs ++ qs, by rw [hq, hr, List.append_assoc], ?_⟩
  intro r hmem
  rcases List.mem_append.mp hmem with h | h
  · exact hs r h
  · simpa [hn, Ldr.lineCount] using ht r h

theorem Dev.loaderAsks_only (d : Dev) (p : PartId) : LoaderOnly p d (d.loaderAsks p) := by
  unfold Dev.loaderAsks
  dsimp only
  split
  · split
    · next h =>
      refine ⟨rfl, fun q hne => Dev.part_modPart_ne _ _ hne, ⟨_, Dev.part_modPart_self ..⟩, [_], rfl, fun r hr => ?_⟩
      rw [List.mem_singleton] at hr
      subst hr
      exact ⟨rfl, rfl, h.2.1, rfl⟩
    · exact .refl p d
  · exact .refl p d

theorem Dev.loaderReads_only (d : Dev) (p : PartId) : LoaderOnly p d (d.loaderReads p) := by
  have h (l : List Nat) (d : Dev) : LoaderOnly p d (l.foldl (fun d _ => d.loaderAsks p) d) := by
    induction l generalizing d with
    | nil => exact .refl p d
    | cons _ l ih =>
      rw [List.foldl_cons]
      exact (d.loaderAsks_only p).trans (ih _)
  exact h _ d

end Sys2Proof.Machine
end

