-- ==== Sys2Proof/Laws/PerInstr.lean ====
section
/-! SUPPORT. Facts about every command as syntax, one lemma per constructor. -/

namespace Sys2Proof.Laws.Stamp
open Sys2Proof

/-- Stamping sets the tick and changes neither well-formedness nor, with its own tick, the command (R226). -/
def Statement (i : Instr) : Prop := ∀ t, (i.atTick t).tick = t ∧ (i.atTick t).wf = i.wf ∧ i.atTick i.tick = i

theorem powerGoodRise (t0 : Tick) : Statement (.powerGoodRise t0) := fun _ => ⟨rfl, rfl, rfl⟩
theorem powerGoodFall (t0 : Tick) (dom : Fin 65) : Statement (.powerGoodFall t0 dom) := fun _ => ⟨rfl, rfl, rfl⟩
theorem engineReset (t0 : Tick) : Statement (.engineReset t0) := fun _ => ⟨rfl, rfl, rfl⟩
theorem resetRelease (t0 : Tick) : Statement (.resetRelease t0) := fun _ => ⟨rfl, rfl, rfl⟩
theorem timeBaseLock (t0 : Tick) : Statement (.timeBaseLock t0) := fun _ => ⟨rfl, rfl, rfl⟩
theorem timeBaseLockTimeout (t0 : Tick) : Statement (.timeBaseLockTimeout t0) := fun _ => ⟨rfl, rfl, rfl⟩
theorem initialisation (t0 : Tick) (f : InitFindings) : Statement (.initialisation t0 f) := fun _ => ⟨rfl, rfl, rfl⟩
theorem stokerFirstInstructions (t0 : Tick) : Statement (.stokerFirstInstructions t0) := fun _ => ⟨rfl, rfl, rfl⟩
theorem startupEpoch (t0 : Tick) (m : List Measure) : Statement (.startupEpoch t0 m) := fun _ => ⟨rfl, rfl, rfl⟩
theorem startupBurnComplete (t0 : Tick) (f : BurnFindings) : Statement (.startupBurnComplete t0 f) := fun _ => ⟨rfl, rfl, rfl⟩
theorem timebaseLoss (t0 : Tick) (strobe : Bool) : Statement (.timebaseLoss t0 strobe) := fun _ => ⟨rfl, rfl, rfl⟩
theorem epochBoundary (t0 : Tick) (p : PartId) (m : List Measure) : Statement (.epochBoundary t0 p m) := fun _ => ⟨rfl, rfl, rfl⟩
theorem grantMessage (t0 : Tick) (m : GrantMsg) : Statement (.grantMessage t0 m) := fun _ => ⟨rfl, rfl, rfl⟩
theorem grantLoss (t0 : Tick) : Statement (.grantLoss t0) := fun _ => ⟨rfl, rfl, rfl⟩
theorem emergencyThrottle (t0 : Tick) : Statement (.emergencyThrottle t0) := fun _ => ⟨rfl, rfl, rfl⟩
theorem throttleRelease (t0 : Tick) : Statement (.throttleRelease t0) := fun _ => ⟨rfl, rfl, rfl⟩
theorem sensorSample (t0 : Tick) (l : List Sample) : Statement (.sensorSample t0 l) := fun _ => ⟨rfl, rfl, rfl⟩
theorem attemptAnchor (t0 : Tick) (p : PartId) : Statement (.attemptAnchor t0 p) := fun _ => ⟨rfl, rfl, rfl⟩
theorem slotLaunch (t0 : Tick) (p : PartId) (slot : Nat) : Statement (.slotLaunch t0 p slot) := fun _ => ⟨rfl, rfl, rfl⟩
theorem variantSelect (t0 : Tick) (p : PartId) (variant : Nat) : Statement (.variantSelect t0 p variant) := fun _ => ⟨rfl, rfl, rfl⟩
theorem handshake (t0 : Tick) (s : SliceId) (w : Work) (c : Check) : Statement (.handshake t0 s w c) := fun _ => ⟨rfl, rfl, rfl⟩
theorem tileComplete (t0 : Tick) (a : ArrayId) : Statement (.tileComplete t0 a) := fun _ => ⟨rfl, rfl, rfl⟩
theorem drainComplete (t0 : Tick) (a : DrainEnd) : Statement (.drainComplete t0 a) := fun _ => ⟨rfl, rfl, rfl⟩
theorem tileVerdict (t0 : Tick) (a : ArrayId) : Statement (.tileVerdict t0 a) := fun _ => ⟨rfl, rfl, rfl⟩
theorem ashPacketWrite (t0 : Tick) (p : PartId) (bind : Nat) : Statement (.ashPacketWrite t0 p bind) := fun _ => ⟨rfl, rfl, rfl⟩
theorem sendLaunch (t0 : Tick) (port : PortId) : Statement (.sendLaunch t0 port) := fun _ => ⟨rfl, rfl, rfl⟩
theorem slotComplete (t0 : Tick) (p : PartId) (slot : Nat) : Statement (.slotComplete t0 p slot) := fun _ => ⟨rfl, rfl, rfl⟩
theorem slotEndCheck (t0 : Tick) (p : PartId) (slot : Nat) : Statement (.slotEndCheck t0 p slot) := fun _ => ⟨rfl, rfl, rfl⟩
theorem unitHangCheck (t0 : Tick) (p : PartId) (slot : Nat) (unit : UnitCode) (idle : Bool) : Statement (.unitHangCheck t0 p slot unit idle) := fun _ => ⟨rfl, rfl, rfl⟩
theorem hostWindowStart (t0 : Tick) (p : PartId) (slot : Nat) : Statement (.hostWindowStart t0 p slot) := fun _ => ⟨rfl, rfl, rfl⟩
theorem hostWindowEnd (t0 : Tick) (p : PartId) (slot : Nat) : Statement (.hostWindowEnd t0 p slot) := fun _ => ⟨rfl, rfl, rfl⟩
theorem ledgerPoint (t0 : Tick) (p : PartId) : Statement (.ledgerPoint t0 p) := fun _ => ⟨rfl, rfl, rfl⟩
theorem commitPoint (t0 : Tick) (p : PartId) : Statement (.commitPoint t0 p) := fun _ => ⟨rfl, rfl, rfl⟩
theorem decisionBeat (t0 : Tick) (p : PartId) : Statement (.decisionBeat t0 p) := fun _ => ⟨rfl, rfl, rfl⟩
theorem contextSaveComplete (t0 : Tick) (p : PartId) (e : SaveFound) (next : List NextCtx) :
    Statement (.contextSaveComplete t0 p e next) := fun _ => ⟨rfl, rfl, rfl⟩
theorem ledgerUpdateComplete (t0 : Tick) (p : PartId) : Statement (.ledgerUpdateComplete t0 p) := fun _ => ⟨rfl, rfl, rfl⟩
theorem holdLimitExpiry (t0 : Tick) (p : PartId) : Statement (.holdLimitExpiry t0 p) := fun _ => ⟨rfl, rfl, rfl⟩
theorem arbitrationRerun (t0 : Tick) (p : PartId) : Statement (.arbitrationRerun t0 p) := fun _ => ⟨rfl, rfl, rfl⟩
theorem arbitrationResult (t0 : Tick) (p : PartId) (item : Nat) (d3 : Option (List (Fin 128 × BitVec 128))) : Statement (.arbitrationResult t0 p item d3) := fun _ => ⟨rfl, rfl, rfl⟩
theorem inServiceBurn (t0 : Tick) (a : BurnRun) (b : BurnRun) : Statement (.inServiceBurn t0 a b) := fun _ => ⟨rfl, rfl, rfl⟩
theorem provingFail (t0 : Tick) (f : Option BurnRun) : Statement (.provingFail t0 f) := fun _ => ⟨rfl, rfl, rfl⟩
theorem ledgerSweep (t0 : Tick) (l : List EccFinding) : Statement (.ledgerSweep t0 l) := fun _ => ⟨rfl, rfl, rfl⟩
theorem stokerLockstep (t0 : Tick) (addr : BitVec 32) : Statement (.stokerLockstep t0 addr) := fun _ => ⟨rfl, rfl, rfl⟩
theorem stokerRestartComplete (t0 : Tick) (measured : Bool) : Statement (.stokerRestartComplete t0 measured) := fun _ => ⟨rfl, rfl, rfl⟩
theorem firmwareActivation (t0 : Tick) : Statement (.firmwareActivation t0) := fun _ => ⟨rfl, rfl, rfl⟩
theorem memReadResponse (t0 : Tick) (port : PortId) (id : Fin 1024) (data : List Byte) (tag : BitVec 16) (err : Fin 4) : Statement (.memReadResponse t0 port id data tag err) := fun _ => ⟨rfl, rfl, rfl⟩
theorem memWriteAck (t0 : Tick) (port : PortId) (id : Fin 1024) (err : Fin 4) : Statement (.memWriteAck t0 port id err) := fun _ => ⟨rfl, rfl, rfl⟩
theorem linkDown (t0 : Tick) (port : PortId) : Statement (.linkDown t0 port) := fun _ => ⟨rfl, rfl, rfl⟩
theorem linkUp (t0 : Tick) (port : PortId) : Statement (.linkUp t0 port) := fun _ => ⟨rfl, rfl, rfl⟩
theorem tileCode (t0 : Tick) (p : PartId) (k : Packet) : Statement (.tileCode t0 p k) := fun _ => ⟨rfl, rfl, rfl⟩
theorem tileWide (t0 : Tick) (p : PartId) (k : Packet) : Statement (.tileWide t0 p k) := fun _ => ⟨rfl, rfl, rfl⟩
theorem tileP128 (t0 : Tick) (p : PartId) (k : Packet) : Statement (.tileP128 t0 p k) := fun _ => ⟨rfl, rfl, rfl⟩
theorem tilePf32 (t0 : Tick) (p : PartId) (k : Packet) : Statement (.tilePf32 t0 p k) := fun _ => ⟨rfl, rfl, rfl⟩
theorem stream (t0 : Tick) (p : PartId) (k : Packet) : Statement (.stream t0 p k) := fun _ => ⟨rfl, rfl, rfl⟩
theorem verdict (t0 : Tick) (p : PartId) (k : Packet) : Statement (.verdict t0 p k) := fun _ => ⟨rfl, rfl, rfl⟩
theorem notice (t0 : Tick) (p : PartId) (k : Packet) : Statement (.notice t0 p k) := fun _ => ⟨rfl, rfl, rfl⟩
theorem agreeStart (t0 : Tick) (p : PartId) (k : Packet) : Statement (.agreeStart t0 p k) := fun _ => ⟨rfl, rfl, rfl⟩
theorem agreeWant (t0 : Tick) (p : PartId) (k : Packet) : Statement (.agreeWant t0 p k) := fun _ => ⟨rfl, rfl, rfl⟩
theorem agreeHold (t0 : Tick) (p : PartId) (k : Packet) : Statement (.agreeHold t0 p k) := fun _ => ⟨rfl, rfl, rfl⟩
theorem agreeResume (t0 : Tick) (p : PartId) (k : Packet) : Statement (.agreeResume t0 p k) := fun _ => ⟨rfl, rfl, rfl⟩
theorem agreeReplace (t0 : Tick) (p : PartId) (k : Packet) : Statement (.agreeReplace t0 p k) := fun _ => ⟨rfl, rfl, rfl⟩
theorem ledger (t0 : Tick) (p : PartId) (k : Packet) : Statement (.ledger t0 p k) := fun _ => ⟨rfl, rfl, rfl⟩
theorem ledgerRepairRequest (t0 : Tick) (p : PartId) (k : Packet) : Statement (.ledgerRepairRequest t0 p k) := fun _ => ⟨rfl, rfl, rfl⟩
theorem ledgerRepairAnswer (t0 : Tick) (p : PartId) (k : Packet) : Statement (.ledgerRepairAnswer t0 p k) := fun _ => ⟨rfl, rfl, rfl⟩
theorem state (t0 : Tick) (p : PartId) (k : Packet) : Statement (.state t0 p k) := fun _ => ⟨rfl, rfl, rfl⟩
theorem stateMerge (t0 : Tick) (p : PartId) (bind : Nat) (rowTile : Nat) (level : Nat) (node : MergeNode) : Statement (.stateMerge t0 p bind rowTile level node) := fun _ => ⟨rfl, rfl, rfl⟩
theorem sample (t0 : Tick) (p : PartId) (k : Packet) : Statement (.sample t0 p k) := fun _ => ⟨rfl, rfl, rfl⟩
theorem count (t0 : Tick) (p : PartId) (k : Packet) : Statement (.count t0 p k) := fun _ => ⟨rfl, rfl, rfl⟩
theorem credit (t0 : Tick) (p : PartId) (k : Packet) : Statement (.credit t0 p k) := fun _ => ⟨rfl, rfl, rfl⟩
theorem leaseRefused (t0 : Tick) (p : PartId) (k : Packet) : Statement (.leaseRefused t0 p k) := fun _ => ⟨rfl, rfl, rfl⟩
theorem leaseChoice (t0 : Tick) (p : PartId) (k : Packet) : Statement (.leaseChoice t0 p k) := fun _ => ⟨rfl, rfl, rfl⟩
theorem digest (t0 : Tick) (p : PartId) (k : Packet) : Statement (.digest t0 p k) := fun _ => ⟨rfl, rfl, rfl⟩
theorem unknownPacket (t0 : Tick) (p : PartId) (k : Packet) : Statement (.unknownPacket t0 p k) := fun _ => ⟨rfl, rfl, rfl⟩
theorem recordEmit (t0 : Tick) : Statement (.recordEmit t0) := fun _ => ⟨rfl, rfl, rfl⟩
theorem startGo (t0 : Tick) (v : Requester) : Statement (.startGo t0 v) := fun _ => ⟨rfl, rfl, rfl⟩
theorem join (t0 : Tick) (v : Requester) : Statement (.join t0 v) := fun _ => ⟨rfl, rfl, rfl⟩
theorem cancel (t0 : Tick) (v : Requester) : Statement (.cancel t0 v) := fun _ => ⟨rfl, rfl, rfl⟩
theorem hostGo (t0 : Tick) (v : Requester) : Statement (.hostGo t0 v) := fun _ => ⟨rfl, rfl, rfl⟩
theorem loadImage (t0 : Tick) (v : Requester) : Statement (.loadImage t0 v) := fun _ => ⟨rfl, rfl, rfl⟩
theorem loadComplete (t0 : Tick) (p : PartId) (img : Image) (memErr : Bool) : Statement (.loadComplete t0 p img memErr) := fun _ => ⟨rfl, rfl, rfl⟩
theorem stagePatch (t0 : Tick) (v : Requester) (img : Image) (memErr : Bool) : Statement (.stagePatch t0 v img memErr) := fun _ => ⟨rfl, rfl, rfl⟩
theorem withdraw (t0 : Tick) (v : Requester) : Statement (.withdraw t0 v) := fun _ => ⟨rfl, rfl, rfl⟩
theorem lgrHoldReplay (t0 : Tick) (v : Requester) : Statement (.lgrHoldReplay t0 v) := fun _ => ⟨rfl, rfl, rfl⟩
theorem lgrHoldCommit (t0 : Tick) (v : Requester) : Statement (.lgrHoldCommit t0 v) := fun _ => ⟨rfl, rfl, rfl⟩
theorem chkHoldReplay (t0 : Tick) (v : Requester) : Statement (.chkHoldReplay t0 v) := fun _ => ⟨rfl, rfl, rfl⟩
theorem chkHoldRegroup (t0 : Tick) (v : Requester) : Statement (.chkHoldRegroup t0 v) := fun _ => ⟨rfl, rfl, rfl⟩
theorem chkArbGo (t0 : Tick) (v : Requester) (seq : BitVec 32) (arbiter : UnitCode) : Statement (.chkArbGo t0 v seq arbiter) := fun _ => ⟨rfl, rfl, rfl⟩
theorem ctxRegister (t0 : Tick) (v : Requester) (index : Fin 8) (d : Descriptor) (img : Option Image) : Statement (.ctxRegister t0 v index d img) := fun _ => ⟨rfl, rfl, rfl⟩
theorem ctxDeregister (t0 : Tick) (v : Requester) (index : Fin 8) : Statement (.ctxDeregister t0 v index) := fun _ => ⟨rfl, rfl, rfl⟩
theorem ctxSave (t0 : Tick) (v : Requester) (index : Fin 8) (d : Descriptor) : Statement (.ctxSave t0 v index d) := fun _ => ⟨rfl, rfl, rfl⟩
theorem ctxRestore (t0 : Tick) (v : Requester) (index : Fin 8) (d : Descriptor) : Statement (.ctxRestore t0 v index d) := fun _ => ⟨rfl, rfl, rfl⟩
theorem ctxRestoreComplete (t0 : Tick) (p : PartId) (slot0 : CtxImage) (slot1 : CtxImage) : Statement (.ctxRestoreComplete t0 p slot0 slot1) := fun _ => ⟨rfl, rfl, rfl⟩
theorem ctxSeal (t0 : Tick) (v : Requester) (index : Fin 8) (d : Descriptor) (slots : CtxSlots) : Statement (.ctxSeal t0 v index d slots) := fun _ => ⟨rfl, rfl, rfl⟩
theorem rngSeedHiWrite (t0 : Tick) (v : Requester) (data : Word) : Statement (.rngSeedHiWrite t0 v data) := fun _ => ⟨rfl, rfl, rfl⟩
theorem probeStart (t0 : Tick) (v : Requester) : Statement (.probeStart t0 v) := fun _ => ⟨rfl, rfl, rfl⟩
theorem probeDone (t0 : Tick) (p : PartId) : Statement (.probeDone t0 p) := fun _ => ⟨rfl, rfl, rfl⟩
theorem rptTailWrite (t0 : Tick) (v : Requester) (data : BitVec 32) : Statement (.rptTailWrite t0 v data) := fun _ => ⟨rfl, rfl, rfl⟩
theorem ledgerWord0Read (t0 : Tick) (r : Requester) (index : Nat) : Statement (.ledgerWord0Read t0 r index) := fun _ => ⟨rfl, rfl, rfl⟩
theorem ledgerWordStage (t0 : Tick) (r : Requester) (index : Nat) (word : Fin 3) (data : Word) : Statement (.ledgerWordStage t0 r index word data) := fun _ => ⟨rfl, rfl, rfl⟩
theorem ledgerWord3Write (t0 : Tick) (r : Requester) (index : Nat) (data : Word) : Statement (.ledgerWord3Write t0 r index data) := fun _ => ⟨rfl, rfl, rfl⟩
theorem tableEntryWrite (t0 : Tick) (r : Requester) (isGroup : Bool) (index : Nat) (word1 : Word) : Statement (.tableEntryWrite t0 r isGroup index word1) := fun _ => ⟨rfl, rfl, rfl⟩
theorem loReadLatch (t0 : Tick) (r : Requester) (addr : BitVec 24) : Statement (.loReadLatch t0 r addr) := fun _ => ⟨rfl, rfl, rfl⟩
theorem registerWrite (t0 : Tick) (r : Requester) (addr : BitVec 24) (data : Word) : Statement (.registerWrite t0 r addr data) := fun _ => ⟨rfl, rfl, rfl⟩
theorem debugRead (t0 : Tick) (v : Fin 32) (addr : TelAddr) : Statement (.debugRead t0 v addr) := fun _ => ⟨rfl, rfl, rfl⟩
theorem partitionAssign (t0 : Tick) (p : PartId) : Statement (.partitionAssign t0 p) := fun _ => ⟨rfl, rfl, rfl⟩
theorem partitionReset (t0 : Tick) (p : PartId) : Statement (.partitionReset t0 p) := fun _ => ⟨rfl, rfl, rfl⟩
theorem partitionResetComplete (t0 : Tick) (p : PartId) : Statement (.partitionResetComplete t0 p) := fun _ => ⟨rfl, rfl, rfl⟩
theorem scrubStart (t0 : Tick) (p : PartId) : Statement (.scrubStart t0 p) := fun _ => ⟨rfl, rfl, rfl⟩
theorem partitionFree (t0 : Tick) (p : PartId) : Statement (.partitionFree t0 p) := fun _ => ⟨rfl, rfl, rfl⟩
theorem fenceConfirm (t0 : Tick) (s : SliceId) (data : Word) : Statement (.fenceConfirm t0 s data) := fun _ => ⟨rfl, rfl, rfl⟩
theorem fwLock (t0 : Tick) (bank : Fin 2) (measurement : List Byte) : Statement (.fwLock t0 bank measurement) := fun _ => ⟨rfl, rfl, rfl⟩
theorem fwClear (t0 : Tick) (bank : Fin 2) : Statement (.fwClear t0 bank) := fun _ => ⟨rfl, rfl, rfl⟩
theorem fwStart (t0 : Tick) : Statement (.fwStart t0) := fun _ => ⟨rfl, rfl, rfl⟩
theorem fwSwap (t0 : Tick) : Statement (.fwSwap t0) := fun _ => ⟨rfl, rfl, rfl⟩
theorem fwResetRestart (t0 : Tick) : Statement (.fwResetRestart t0) := fun _ => ⟨rfl, rfl, rfl⟩
theorem keyInstall (t0 : Tick) (cmd : Word) : Statement (.keyInstall t0 cmd) := fun _ => ⟨rfl, rfl, rfl⟩
theorem keyZeroise (t0 : Tick) (cmd : Word) : Statement (.keyZeroise t0 cmd) := fun _ => ⟨rfl, rfl, rfl⟩
theorem testInstruction (t0 : Tick) (secTestEn : Bool) (code : TestInstr) : Statement (.testInstruction t0 secTestEn code) := fun _ => ⟨rfl, rfl, rfl⟩
theorem ledgerClearComplete (t0 : Tick) (p : PartId) : Statement (.ledgerClearComplete t0 p) := fun _ => ⟨rfl, rfl, rfl⟩

end Sys2Proof.Laws.Stamp
end

