-- ==== Sys2Proof/Laws/Recv.lean ====
section
/-! SUPPORT. The receive checks of Table 10.6: when they let a packet in, they leave the units as they are, and when that is. -/

namespace Sys2Proof.Machine

/-- A sealed packet passes check 1. -/
theorem pktCrcOk_pktSeal (k : Packet) : pktCrcOk (pktSeal k) = true := by
  simp [pktCrcOk, pktSeal, pktCrc, hdrBytes60]

/-- Checks 2 to 4 of Table 10.6 as one test: the packet is meant for the partition, is of its attempt, and its group is in force. -/
def Dev.admits (d : Dev) (p : PartId) (k : Packet) : Bool :=
  let x := d.part p
  k.hdr.job == x.flu.tag && k.hdr.dst.toNat % 8192 == x.self && x.mayReceive k && (skipsAttempt x k || x.attemptOf k == 0)
    && match d.grp p (k.hdr.group.toNat % 1024) with | some g => gGen g == k.hdr.gen.toNat | none => false

/-- A packet that passes every check leaves the units as they are. -/
theorem Dev.recvChecks_ok {d : Dev} {t : Nat} {p : PartId} {k : Packet} (h : (d.recvChecks t p k).2 = true) :
    (d.recvChecks t p k).1 = d := by
  unfold Dev.recvChecks at h ⊢
  dsimp only at h ⊢
  split at h
  · contradiction
  · next h1 =>
    rw [if_neg h1]
    split at h
    · contradiction
    · next h2 =>
      rw [if_neg h2]
      split at h
      · contradiction
      · next h3 =>
        rw [if_neg h3]
        split at h
        · contradiction
        · next h4 =>
          rw [if_neg h4]
          split at h
          · split at h
            · next hg => simp [hg]
            · contradiction
          · contradiction

/-- A packet whose check word is right and that is admitted passes. -/
theorem Dev.recvChecks_pass {d : Dev} {t : Nat} {p : PartId} {k : Packet} (hc : pktCrcOk k = true) (h : d.admits p k = true) :
    d.recvChecks t p k = (d, true) := by
  simp only [Dev.admits, Bool.and_eq_true, beq_iff_eq, Bool.or_eq_true] at h
  obtain ⟨⟨⟨⟨h1, h2⟩, h3⟩, h4⟩, h5⟩ := h
  unfold Dev.recvChecks
  dsimp only
  rw [if_neg (by simp [hc]), if_neg (by simp [h1, h2, h3])]
  have ha : (!skipsAttempt (d.part p) k && (d.part p).attemptOf k == 1) = false
      ∧ (!skipsAttempt (d.part p) k && (d.part p).attemptOf k == 2) = false := by
    rcases h4 with h4 | h4 <;> simp [h4]
  rw [if_neg (by simp [ha.1]), if_neg (by simp [ha.2])]
  revert h5
  cases hg : d.grp p (k.hdr.group.toNat % 1024) with
  | none => intro h5; cases h5
  | some g => intro h5; simpa using h5

/-- Checks 5 and 6 for an admitted tile packet that a receiving binding of the segment takes. -/
theorem Dev.tileChecks_pass {d : Dev} {t : Nat} {p : PartId} {k : Packet} {ref : Bool} {b : Nat × Receive} (hc : pktCrcOk k = true)
    (h : d.admits p k = true) (hb : (d.part p).receiverOf k k.hdr.type = some b) (hr : (ref && k.hdr.ref != b.2.ref) = false)
    (he : inExtents b.2 k = true) : d.tileChecks t p k ref = (d, some b) := by
  unfold Dev.tileChecks
  rw [d.recvChecks_pass hc h]
  simp only [Bool.not_true, Bool.false_eq_true, if_false, Dev.placeChecks, hb]
  rw [if_neg (by simp [hr]), if_neg (by simp [he])]

end Sys2Proof.Machine
end

