-- ==== Sys2Proof/Safety.lean ====
section
/-! DEFINITION. What a safe run is: a run no step of which stops. -/

namespace Sys2Proof.Machine

/-- A step answers a next state. -/
def State.goesOn (s : State) : Prop := ∃ t, step s = .next t

/-- The first `n` steps all answer next states. -/
def State.runs : Nat → State → Prop
  | 0, _ => True
  | n + 1, s => ∃ t, step s = .next t ∧ t.runs n

end Sys2Proof.Machine
end

