-- ==== Sys2Proof/Tests/Slice0.lean ====
section
/-! SUPPORT. Tests: ill-formed commands that `Instr.wf` refuses, a witness for the hypotheses of every statement (of every clause
where a statement has several), and a few results worked from the spec's own figures. -/

namespace Sys2Proof.Tests

open Sys2Proof Sys2Proof.Machine Sys2Proof.Claims

-- Each theorem is checked before the next begins: many checks at once would each hold a thread.
set_option Elab.async false

/-! ## Small states -/

/-- Reset with the engine READY and a change of the units. -/
def st (f : Dev → Dev) : State :=
  { State.reset with dev := f { State.reset.dev with eng := { State.reset.dev.eng with phase := .ready } } }

/-- Reset with a change of the engine registers. -/
def boot (f : Eng → Eng) : State := { State.reset with dev := { State.reset.dev with eng := f State.reset.dev.eng } }

/-- A narrow tensor of one group of 64 rows, at line 4000 of slice 0. -/
def tens (tid : BitVec 24) : TensorRef :=
  ⟨tid, .e2m1, 32, 64, 32, 0, none, .rne, ⟨0, false⟩, false, none, false, .buf 0 4000, .buf 0 4010, .buf 0 4020, 4⟩

/-- A wide tensor of 64 by 64 F32 values at a line of slice 0. -/
def wide (tid : BitVec 24) (line : Nat) : WideRef :=
  ⟨tid, .wide .f32, 64, 64, 256, false, .rne, ⟨0, false⟩, .buf 0 line, .buf 0 0⟩

/-- A receiving binding's fields: group 0, one tile, landing from line 1000 of slice 0. -/
def rcv (tid : BitVec 24) (type : Byte) : Receive :=
  ⟨0, tid, type, 1, 1, 1, 128, 0, 0, 1000, 128, some { tens tid with code := .buf 0 5000, scale := .buf 0 5010, ash := .buf 0 5020 }, some (wide tid 2000), 1, false, 0⟩

/-- The chained product of the tests: 512 keys, a span to each key tile. -/
def chn : Chained := ⟨64, 512, 0x3F800000, none, none, none, 0, .e2m1, .rne, 0, 7, 0, none, []⟩

/-- The sampler of the tests. -/
def smp : Sampler := ⟨wide 21 3000, 64, 64, 0x3F800000, true, none, .buf 0 3500, 9, .buf 0 3600, none, none, none, 0, 64, none⟩

/-- A slot of segment 1 with its binding, of 100 beats from beat 0. -/
def slot (key kind bind : Nat) (units : Byte) : Slot :=
  ⟨key, false, false, kind, units, 0, [100, 100, 100], [0, 0, 0], 1, 0, bind, 1⟩

/-- A binding. -/
def bnd (key : Nat) (k : BindKind) : Binding := ⟨key, [], [], [], none, k⟩

/-- An image whose segment 1 has one slot of each kind; segment 2 is the last. -/
def img0 : Image :=
  { raw := [], header := ⟨0, [], [], 0, 0, false, 1, 0, 0xF4, 1, 0⟩, sections := [], heads := [],
    segments := [⟨1, [8, 8, 8], [65536, 65536, 65536], 1, 2⟩, ⟨2, [0, 0, 0], [0, 0, 0], 0, Config.noKey⟩],
    slots := [slot 10 0 100 0x1, slot 11 6 100 0, { slot 12 1 101 0x41 with counting := true }, slot 13 3 102 0x1, slot 14 4 103 0x1, slot 15 5 104 0,
              slot 16 5 105 0, slot 17 5 106 0, slot 18 5 107 0, slot 19 5 108 0, slot 20 5 109 0, slot 21 5 110 0, slot 22 5 111 0],
    variants := [⟨7, [0, 0, 0], [20, 20, 20], [4, 4, 4], [0], 0, 1⟩,
                 ⟨8, [0, 0, 0], [131080, 131080, 131080], [131072, 131072, 131072], [3], 1, 1⟩],
    bindings := [bnd 100 (.product (.pass (tens 1)) (.pass (tens 2)) 1 1 1 none (.p128 (wide 3 512))),
                 bnd 101 (.copy none (some (wide 4 600)) (some 50) .viaQuant),
                 bnd 102 (.chained (.pass (tens 5)) (.pass (tens 6)) (.pass (tens 8)) chn none (.wide (wide 7 700))),
                 bnd 103 (.sampler smp), bnd 104 (.receive (rcv 30 tyTileP128)), bnd 105 (.exchange
                   { rcv 31 tyStream with dynamic := true, tMax := 8, lines := 64 } (0, 900) (0, 910)),
                 bnd 106 (.receive (rcv 32 tyTileCode)), bnd 107 (.receive (rcv 33 tyTileWide)), bnd 108 (.receive (rcv 34 tyTilePf32)),
                 bnd 109 (.receive (rcv 35 tyStream)), bnd 110 (.receive (rcv 7 tyState)), bnd 111 (.receive (rcv 9 tySample))],
    chains := [⟨50, [], ⟨[.quantOut (.code (tens 40)) true none none none .f32], [], false, .f32, .rne, 0, ⟨0, false⟩⟩⟩],
    codebooks := [], actTables := [], streams := [], ledgerLists := [(1, [0, 2])], regions := [], routes := [],
    leases := [⟨3, 0, 0, 4⟩], base := [] }

/-- Partition 0 at the first beat of epoch 5: RUNNING segment 1, at attempt 0 of step 0, anchored at epoch 5. -/
def part0 : Part :=
  { Part.reset with
    cfg := { PCfg.reset with state := .assigned, size := 1, lgrCount := 4, membCount := 4, grpCount := 2, keyCount := 1 }
    sch := { Sch.reset with state := .running, epoch := 5, epochTick := 2097152, timed := true, stretch := 64, seg := 1 }
    att := { Attempt.none_ with live := true, grade := 3, anchorEpoch := 5, anchorTick := 2097152 }
    ldr := { Ldr.reset with image := some img0, locked := true }
    flu := { Flu.reset with tag := 5 } }

/-- A group entry: valid, rank 0 of two members from entry 0, generation 1. -/
def grp2 : BitVec 128 := BitVec.ofNat 128 (1 + 2 * 2 ^ 21 + 2 ^ 48)

/-- The entry of member i on chip i. -/
def memb (i : Nat) : BitVec 128 := BitVec.ofNat 128 (2 ^ 64 + i * 2 ^ 83 + i * 2 ^ 96)

/-- Units with partition 0 so, a job group of members 0 and 1, and a change. -/
def dev0 (f : Part → Part) (d : Dev) : Dev :=
  { d with parts := [(0, f part0)], members := [(0, memb 0), (1, memb 1)],
           groups := [(0, ⟨grp2, grp2, false⟩)], stk := { d.stk with running := true } }

/-- The state of a running partition 0. -/
def run (f : Part → Part) : State := st (dev0 f)

/-- The same at the first beat of epoch 6, where the commit point of segment 1 lies. -/
def atCommit (f : Part → Part) : State :=
  run fun x => f { x with sch := { x.sch with epoch := 6, epochTick := 3145728, commitEpoch := 6 } }

/-- A run of a slot. -/
def ran (key : Nat) : SlotRun := ⟨key, 2097152, none, false, 0, 0, false, [], [], [], [], [], []⟩

/-- A packet from member 1 to member 0 in group 0, with its fields from TYPE on; `tile` gives ROW_TILE and K_PART. -/
def pktAt (type : Byte) (tid aux : BitVec 32) (tile : BitVec 32 × BitVec 32) (payload : List Byte) : Packet :=
  pktSeal ⟨⟨0, aux, 0, tile.2, 0, tile.1, 0, 5, tid, 0, 0, 0, BitVec.ofNat 16 (payload.length / 512), 0, 5, 1, 0, 0, 1, 0, type⟩, payload⟩

/-- A packet for the first tile. -/
def pkt (type : Byte) (tid aux : BitVec 32) (payload : List Byte) : Packet := pktAt type tid aux (0, 0) payload

/-- What lets a sealed packet pass the receive checks. -/
theorem recv_pkt {s : State} {type : Byte} {tid aux : BitVec 32} {tile : BitVec 32 × BitVec 32} {payload : List Byte} (t : Nat)
    (h : s.dev.admits 0 (pktAt type tid aux tile payload) = true) :
    (s.dev.recvChecks t 0 (pktAt type tid aux tile payload)).2 = true := by
  rw [show s.dev.recvChecks t 0 (pktAt type tid aux tile payload) = (s.dev, true) from Dev.recvChecks_pass (pktCrcOk_pktSeal _) h]

/-- A line of zeros. -/
def line0 : List Byte := List.replicate 512 0

theorem test_witness_image : (part0.segment.map fun g => g.key) = some 1 ∧ part0.touched = [0, 2] ∧ part0.receivers.length = 8 := by
  decide +kernel

theorem test_recv_checks_pass : ((run id).dev.recvChecks 2097152 0 (pkt tyNotice 0 0 [])).2 = true := recv_pkt _ (by decide +kernel)

/-- Segment 1 of the tests' image. -/
def seg1 : Segment := ⟨1, [8, 8, 8], [65536, 65536, 65536], 1, 2⟩

/-! ## Well-formedness: a term for each check, which it refuses, beside one it takes -/

theorem test_wf_burn_accumulators : (Instr.startupBurnComplete 0 ⟨[⟨0, [0]⟩], [], [], [], []⟩).wf = false
    ∧ (Instr.startupBurnComplete 0 ⟨[], [(0, ⟨1, []⟩)], [], [], []⟩).wf = false ∧ (Instr.startupBurnComplete 0 ⟨[], [], [], [], []⟩).wf = true := by decide
theorem test_wf_grant_domains : (Instr.grantMessage 0 ⟨0, 0, [(0, 0)]⟩).wf = false
    ∧ (Instr.grantMessage 0 ⟨0, 0, List.replicate 65 (0, 0)⟩).wf = true := by decide
theorem test_wf_sample_range : (Instr.sensorSample 0 [⟨0, 65536, 0⟩]).wf = false ∧ (Instr.sensorSample 0 [⟨0, 0, 32768⟩]).wf = false
    ∧ (Instr.sensorSample 0 [⟨0, 0, -32769⟩]).wf = false ∧ (Instr.sensorSample 0 [⟨0, 65535, -32768⟩]).wf = true := by decide
theorem test_wf_context_image : (Instr.ctxRestoreComplete 0 0 ⟨[], [], []⟩ ⟨[], [], []⟩).wf = false
    ∧ (Instr.ctxRestoreComplete 0 0 ⟨List.replicate 32 0, [], List.replicate 16 0⟩ ⟨List.replicate 32 0, [], List.replicate 15 0⟩).wf = false := by
  decide

/-- A well-formed descriptor and a slot's bytes as the commands give them. -/
def descWf : Descriptor := ⟨true, true, 255, 1, 0, 0, 0, 0, 0, 0⟩
def slotWf : CtxImage := ⟨List.replicate 32 0, [], List.replicate 16 0⟩

theorem test_wf_next_contexts : (Instr.contextSaveComplete 0 0 ⟨.done, descWf, slotWf, slotWf⟩ [⟨0, descWf, img0, slotWf, ⟨[], [], []⟩⟩]).wf = false
    ∧ (Instr.contextSaveComplete 0 0 ⟨.done, descWf, slotWf, ⟨[], [], []⟩⟩ []).wf = false
    ∧ (Instr.contextSaveComplete 0 0 ⟨.done, descWf, slotWf, slotWf⟩ []).wf = true := by decide
theorem test_wf_ecc_finding : (Instr.ledgerSweep 0 [⟨32768, 0, 0, false⟩]).wf = false ∧ (Instr.ledgerSweep 0 [⟨0, 8, 0, false⟩]).wf = false
    ∧ (Instr.ledgerSweep 0 [⟨0, 0, 256, false⟩]).wf = false ∧ (Instr.ledgerSweep 0 [⟨32767, 7, 63, true⟩]).wf = true := by decide
theorem test_wf_memory_line : (Instr.memReadResponse 0 0 0 [0] 0 0).wf = false ∧ (Instr.memReadResponse 0 0 0 line0 0 0).wf = true := by
  decide +kernel
theorem test_wf_packet_lines : (Instr.tileCode 0 0 ⟨(pkt tyTileCode 0 0 line0).hdr, []⟩).wf = false
    ∧ (Instr.tileCode 0 0 (pkt tyTileCode 0 0 line0)).wf = true := by decide +kernel
theorem test_wf_image_length : (Instr.loadComplete 0 0 { img0 with raw := [0] } false).wf = false
    ∧ (Instr.stagePatch 0 (.cfg 0) { img0 with raw := [0] } false).wf = false ∧ (Instr.loadComplete 0 0 img0 false).wf = true := by decide
theorem test_wf_descriptor : (Instr.ctxSave 0 (.cfg 0) 0 ⟨true, true, 256, 1, 0, 0, 0, 0, 0, 0⟩).wf = false
    ∧ (Instr.ctxSeal 0 (.cfg 0) 0 ⟨true, true, 0, 2 ^ 32, 0, 0, 0, 0, 0, 0⟩ ⟨slotWf, slotWf⟩).wf = false
    ∧ (Instr.ctxSeal 0 (.cfg 0) 0 descWf ⟨slotWf, ⟨[], [], []⟩⟩).wf = false ∧ (Instr.ctxSeal 0 (.cfg 0) 0 descWf ⟨slotWf, slotWf⟩).wf = true
    ∧ (Instr.ctxRestore 0 (.cfg 0) 0 ⟨true, true, 0, 1, 2 ^ 32, 0, 0, 0, 0, 0⟩).wf = false
    ∧ (Instr.ctxRegister 0 (.cfg 0) 0 ⟨true, true, 0, 1, 0, 0, 2 ^ 64, 0, 0, 0⟩ none).wf = false
    ∧ (Instr.ctxSave 0 (.cfg 0) 0 ⟨true, true, 255, 1, 0, 0, 0, 0, 0, 0⟩).wf = true := by decide
theorem test_wf_entry_index : (Instr.ledgerWord0Read 0 .sec 32768).wf = false ∧ (Instr.ledgerWordStage 0 .sec 32768 0 0).wf = false
    ∧ (Instr.ledgerWord3Write 0 .sec 32768 0).wf = false ∧ (Instr.ledgerWord3Write 0 .sec 32767 0).wf = true
    ∧ (Instr.tableEntryWrite 0 .sec true Config.groupEntries 0).wf = false
    ∧ (Instr.tableEntryWrite 0 .sec false Config.memberEntries 0).wf = false := by decide
theorem test_wf_register_address : (Instr.registerWrite 0 .sec 4 0).wf = false ∧ (Instr.loReadLatch 0 .sec 1).wf = false
    ∧ (Instr.registerWrite 0 .sec 8 0).wf = true := by decide
theorem test_wf_measurement : (Instr.fwLock 0 0 [0]).wf = false ∧ (Instr.fwLock 0 0 (List.replicate 48 0)).wf = true := by decide

/-! ## Witnesses: start-up, epochs, attempts -/

theorem test_stepRunsFront : State.reset.pending = [] := by decide
theorem test_stepKeepsCanonical : State.reset.sb.wf = true ∧ ∃ s', step State.reset = .next s' := ⟨by decide, _, rfl⟩
theorem test_stageBufferLines : (0 ≤ 0 ∧ 0 < 0 + 1 ∧ 65535 < 65536) ∧ 511 + [(7 : Byte)].length ≤ 512 := by decide

/-- An array whose registers hold groups of 32 elements, one of them escaped, the others multiples of 512. -/
def readyArray : ArraySt :=
  let g : OpGroup := ⟨-8388607 :: List.replicate 31 512, true :: List.replicate 31 false, false, 0x78⟩
  { ArraySt.reset with rowOp := (List.range 64).map fun i => (i, g), colOp := (List.range 64).map fun i => (i, g) }

theorem test_groupReady : groupReady 1 false false readyArray := by
  refine ⟨by decide, by decide, rfl, rfl, rfl, rfl, ?_, ?_⟩
  all_goals
    unfold regOk
    decide +kernel

theorem test_checkerAgrees :
    (List.range 64).map (fun i => tabGet 0 readyArray.tapRow i) ++ (List.range 64).map (fun i => tabGet 0 readyArray.tapCol i)
      = tileSums readyArray.acc := by decide +kernel

theorem test_powerFall : State.reset.dev.pwr.en.getLsbD 63 = true ∧ (st id).dev.pwr.en.getLsbD 0 = true
    ∧ (st id).dev.eng.phase ≠ .reset := by decide
theorem test_testInstruction : State.reset.dev.eng.phase = .reset ∧ TestInstr.wsExtest ≠ wsBypass := by decide
theorem test_startupAdvances :
    (let s := { State.reset with dev := { State.reset.dev with pwr := { State.reset.dev.pwr with good := BitVec.allOnes 65 } } }
     s.dev.eng.phase = .reset ∧ s.dev.pwr.good = BitVec.allOnes 65 ∧ s.dev.eng.awaitCycle = false ∧ s.dev.eng.testMode = false)
    ∧ (let s := boot fun e => { e with phase := .init, releasedAt := 100 }
       (s.dev.eng.phase = .init ∧ s.dev.eng.releasedAt + 4096 ≤ max s.now 4196 ∧ max s.now 4196 < s.dev.eng.releasedAt + 10000000)
       ∧ s.dev.eng.tbLocked = false ∧ s.dev.eng.releasedAt + 10000000 ≤ max s.now 10000100)
    ∧ (let s := st fun d => { d with eng := { d.eng with phase := .firmware }, stk := { d.stk with running := true } }
       s.dev.eng.phase = .firmware ∧ s.dev.stk.running = true)
    ∧ let s := boot fun e => { e with phase := .init, tbLocked := true }
      s.dev.eng.phase = .init ∧ s.dev.eng.tbLocked = true := by decide
theorem test_startupBurnRuns :
    (let s := boot fun e => { e with phase := .budget, burn := ⟨some 1, none, false⟩ }
     max s.now 68157440 % 1048576 = 0 ∧ s.dev.eng.phase = .budget ∧ s.dev.dmp.throttle = false ∧ s.dev.eng.burn.granted = none
     ∧ (s.dev.eng.burn.firstReq = some 2 → False) ∧ 64 < 1 + 64)
    ∧ (let s := boot fun e => { e with phase := .budget, burn := ⟨some 1, some 3, false⟩ }
       max s.now 3145728 % 1048576 = 0 ∧ s.dev.eng.phase = .budget ∧ s.dev.dmp.throttle = false
       ∧ s.dev.eng.burn.granted = some (max s.now 3145728 / 1048576))
    ∧ (let s := boot fun e => { e with phase := .burn, burn := ⟨some 1, some 3, true⟩ }
       max s.now 4194304 % 1048576 = 0 ∧ s.dev.eng.phase = .burn ∧ s.dev.eng.burn.judged = true ∧ s.dev.eng.fenceReqs = []
       ∧ s.dev.minService = false)
    ∧ (let s := st fun d => { d with eng := { d.eng with phase := .burn, burn := ⟨some 1, some 3, true⟩ }, stk := { d.stk with running := true } }
       max s.now 4194304 % 1048576 = 0 ∧ s.dev.eng.phase = .burn ∧ s.dev.eng.burn.judged = true ∧ s.dev.eng.fenceReqs = []
       ∧ s.dev.minService = true)
    ∧ let s := boot fun e => { e with phase := .burn }
      s.dev.eng.phase = .burn ∧ s.dev.eng.burn.judged = false ∧ s.dev.fenceSet (arrayUnit 5) = false := by decide
/-- A checker that misses the flipped sum, an ingress station and a row unit whose results differ, and a broken unit of each kind. -/
def burnFound : BurnFindings :=
  ⟨[], [], [⟨2, [], true⟩], [⟨unitOf 1 1 0, [(0, 1)]⟩, ⟨unitOf 1 3 2, [(5, 4)]⟩], [unitOf 3 7 1, sharedUnit 2]⟩

theorem test_burnFound :
    checkerFails burnFound ⟨2, [], true⟩ = true ∧ unitKind (unitOf 3 7 1) ≠ 15 ∧ unitKind (sharedUnit 2) = 15
    ∧ burnFence (unitOf 1 3 2) = unitOf 1 0 2 ∧ UnitBurn.fails ⟨unitOf 1 3 2, [(5, 4)]⟩ = true := by
  refine ⟨by decide, by decide, by decide, by decide, UnitBurn.fails_one (by decide) ?_⟩
  have h (n : Nat) (f : Nat → BitVec 32) : 5 < (((List.range (n + 2)).map f).flatMap fun x => bytesLE 4 x.toNat).length := by
    rw [List.range_succ_eq_map, List.range_succ_eq_map]
    simp [length_bytesLE]
    omega
  exact h 4094 _
/-- Of two burns of an array with different sums one is not the known answer. -/
theorem test_burnJudged : ∃ f : BurnFindings, (judgeArray f 5).isSome := by
  let f (l : List (BitVec 128)) : BurnFindings := ⟨[⟨5, l⟩], [], [], [], []⟩
  have hs : burnSums [] ≠ burnSums [1] := by decide +kernel
  have hm (l : List (BitVec 128)) : burnMatches (f l) 5 = (burnSums l == burnKnown 0 0) := rfl
  have hj (l : List (BitVec 128)) (h : burnMatches (f l) 5 = false) : (judgeArray (f l) 5).isSome := by
    rw [judgeArray, show burnOf (f l) 5 = some l from rfl]
    simp [h]
  cases h : burnMatches (f []) 5 with
  | false => exact ⟨_, hj _ h⟩
  | true =>
    refine ⟨_, hj [1] ?_⟩
    rw [hm, beq_iff_eq] at h
    rw [hm, beq_eq_false_iff_ne, ← h]
    exact hs.symm
theorem test_epochBoundary :
    ((run id).dev.part 0).boundaryAt (max (run id).now 3145728) = true ∧ ((run id).dev.part 0).sch.timed = true
    ∧ (let s := run fun x => { x with sch := { x.sch with timed := false } }
       (s.dev.part 0).boundaryAt (max s.now 2097152) = true ∧ (s.dev.part 0).agree.joining = false) := by decide +kernel

/-- A grant for every domain. -/
def grant0 : GrantMsg := ⟨2097152, 0, List.replicate 65 (10, 20)⟩

/-- The request it answers. -/
def req0 : DmpReq := ⟨2097152, 1048576, 0xFF, [], [], 1⟩

/-- A grant that answers a request, before its START or at it, and one without a request. -/
theorem test_grantsTaken :
    (let s := st fun d => { d with dmp := { d.dmp with reqs := [req0] } }
     let found (n : Nat) := s.dev.dmp.reqs.find? fun r => r.start == grant0.start && decide (s.dev.reqEpoch r n ≤ r.sentEpoch + 4)
     (found (max s.now 2097151)).isSome ∧ max s.now 2097151 < grant0.start
     ∧ (found (max s.now 2097152)).isSome ∧ grant0.start ≤ max s.now 2097152)
    ∧ (State.reset.dev.dmp.reqs.find? fun r => r.start == grant0.start) = none := by decide +kernel
/-- A grant message and the loss of grants in the two cases of each. -/
theorem test_grantOutcomes :
    (let s := st fun d => { d with dmp := { d.dmp with reqs := [req0], wait := 16 } }
     (match exec (.grantMessage 2097151 grant0) s with
       | .next s' => decide (s'.dev.dmp.wait = 0 ∧ tabGet 0 s'.dev.dmp.grant 64 = 10 ∧ tabGet 0xFFFF s'.dev.dmp.ceil 64 = 20)
       | _ => false) = true
     ∧ (match exec (.grantMessage 2097152 grant0) s with
       | .next s' => decide (s'.dev.dmp.wait = 16 ∧ tabGet 0 s'.dev.dmp.grant 64 = 0 ∧ (s'.dev.domTel 64).late = 1)
       | _ => false) = true)
    ∧ ∀ w ∈ [15, 16], (match exec (.grantLoss 5) (st fun d => { d with dmp := { d.dmp with wait := w } }) with
       | .next s' => s'.dev.dmp.loss
       | _ => false) = decide (w = 16) := by decide +kernel
theorem test_throttlePauses :
    (boot fun e => { e with phase := .budget }).dev.eng.phase = .budget ∧ (boot fun e => { e with phase := .burn }).dev.eng.phase = .burn
    ∧ ((run id).dev.eng.phase ≠ .budget ∧ (run id).dev.eng.phase ≠ .burn ∧ ((run id).dev.part 0).cfg.state = .assigned
       ∧ ((run id).dev.part 0).sch.state = .running ∧ ((run id).dev.part 0).att.live = true)
    ∧ (st fun d => { d with dmp := { d.dmp with throttle := true } }).dev.dmp.throttle = true := by decide

/-- A partition whose next attempt begins at its present epoch. -/
def anchored (replay first : Bool) : State :=
  run fun x => { x with sch := { x.sch with nextAnchor := some 5, outcomeReplay := replay, first := first } }

theorem test_attemptAnchor : ∀ replay first : Bool,
    let s := anchored replay first
    s.dev.eng.phase = .ready ∧ (s.dev.part 0).running = true ∧ (s.dev.part 0).sch.nextAnchor = some (s.dev.part 0).sch.epoch.toNat
    ∧ (s.dev.part 0).ctx.switching = false ∧ (s.dev.part 0).sch.outcomeReplay = replay ∧ (s.dev.part 0).sch.first = first
    ∧ s.dev.stk.activating = false := by decide
/-- The anchor of the last segment, which has no slot: the program ends, or a registered context has its turn. -/
theorem test_anchorEnds : ∀ reg ∈ [(0 : Byte), 7],
    (match exec (.attemptAnchor 2097152 0) (run fun x => { x with
        sch := { x.sch with nextAnchor := some 5, outcomeReplay := true, first := true, seg := 2 }, ctx := { x.ctx with reg := reg } }) with
      | .next s' => let y := s'.dev.part 0
        decide ((y.segment.any segIsLast && y.timeline.isEmpty) = true ∧ (y.sch.state = .done ↔ reg = 0) ∧ (y.ctx.switching = true ↔ reg ≠ 0))
      | _ => false) = true := by decide +kernel
/-- A partition that is held for a firmware activation when its anchor comes. -/
theorem test_anchorPutOff :
    let s := st fun d => dev0 (fun x => { x with sch := { x.sch with state := .held, nextAnchor := some 5, first := true }, att := { x.att with live := false } })
      { d with stk := { d.stk with activating := true } }
    s.dev.eng.phase = .ready ∧ (s.dev.part 0).running = true ∧ (s.dev.part 0).sch.nextAnchor = some (s.dev.part 0).sch.epoch.toNat
    ∧ (s.dev.part 0).ctx.switching = false ∧ s.dev.stk.activating = true ∧ (s.dev.part 0).sch.state = .held := by decide
theorem test_slotLaunch :
    let s := run id
    let l := slot 10 0 100 0x1
    let b := bnd 100 (.product (.pass (tens 1)) (.pass (tens 2)) 1 1 1 none (.p128 (wide 3 512)))
    (s.dev.part 0).ldr.image = some img0 ∧ slotOf img0 10 = some l ∧ bindOf img0 l.bind = some b ∧ l.kind ≠ 6
    ∧ s.dev.launches 0 (max s.now 2097152) l = true ∧ (s.dev.part 0).att.onTimeline img0 (s.dev.part 0).sch.seg.toNat l = true
    ∧ (s.dev.part 0).beatTick ((s.dev.part 0).att.startOf img0 l) = some (max s.now 2097152) ∧ (s.dev.part 0).att.run 10 = none
    ∧ ((s.dev.part 0).unitsOf l).any s.dev.fenced = false ∧ s.dev.repairDue 0 = false ∧ (s.dev.firstLaunch 0).ledgerLate 0 l = false
    ∧ (s.dev.firstLaunch 0).badEntry 0 (bindEntries img0 b) = none := by
  decide +kernel
/-- A counting slot that is the first of its attempt is due before the clear of its entries is complete. -/
theorem test_slotLaunchLate :
    let s := run id
    let l := { slot 12 1 101 0x41 with counting := true }
    let b := bnd 101 (.copy none (some (wide 4 600)) (some 50) .viaQuant)
    slotOf img0 12 = some l ∧ bindOf img0 l.bind = some b ∧ l.kind ≠ 6
    ∧ s.dev.launches 0 (max s.now 2097152) l = true ∧ (s.dev.part 0).att.onTimeline img0 (s.dev.part 0).sch.seg.toNat l = true
    ∧ (s.dev.part 0).beatTick ((s.dev.part 0).att.startOf img0 l) = some (max s.now 2097152) ∧ (s.dev.part 0).att.run 12 = none
    ∧ ((s.dev.part 0).unitsOf l).any s.dev.fenced = false ∧ s.dev.repairDue 0 = false
    ∧ (s.dev.firstLaunch 0).ledgerLate 0 l = true := by
  decide +kernel
theorem test_variantSelect :
    let s := run id
    let v : Variant := ⟨7, [0, 0, 0], [20, 20, 20], [4, 4, 4], [0], 0, 1⟩
    (s.dev.part 0).ldr.image = some img0 ∧ (s.dev.part 0).segment = some seg1 ∧ variantOf img0 7 = some v
    ∧ (s.dev.part 0).sch.state = .running ∧ (s.dev.part 0).att.live = true ∧ v.seg = seg1.key
    ∧ ((s.dev.part 0).att.variants.any fun y => y.1 == 7) = false
    ∧ (s.dev.part 0).beatTick ((s.dev.part 0).att.window img0 v).1 = some (max s.now 2097216) ∧ (s.dev.part 0).lgrUpdate = none := by
  decide +kernel

/-- Slot 10 running, its array's work over. -/
def slotRun (f : SlotRun → SlotRun) : State :=
  run fun x => { x with att := { x.att with launched := true, slots := [f { ran 10 with finished := [0] }] } }

theorem test_sensorSample :
    let s := slotRun id
    let l : List Sample := [⟨0, 649, 200⟩, ⟨63, 700, 400⟩, ⟨64, 800, 0⟩]
    (l.map fun x => x.dom).Nodup ∧ (⟨0, 649, 200⟩ : Sample) ∈ l ∧ s.dev.pwr.en.getLsbD 0 = true ∧ s.dev.ownerOf 0 = some 0
    ∧ (s.dev.part 0).uses (arrayUnit 0) = true ∧ (s.dev.part 0).att.live = true ∧ (0 : Nat) ∉ (s.dev.part 0).att.low := by decide +kernel
theorem test_slotComplete :
    let s := slotRun id
    (s.dev.part 0).att.run 10 = some { ran 10 with finished := [0] } ∧ (s.dev.part 0).att.isRunning 10 = true
    ∧ workOver s.dev 0 img0 (slot 10 0 100 0x1)
        (bnd 100 (.product (.pass (tens 1)) (.pass (tens 2)) 1 1 1 none (.p128 (wide 3 512)))) = true
    ∧ s.dev.memPending 0 10 = none
    ∧ s.dev.waitingPort 0 img0 (bnd 100 (.product (.pass (tens 1)) (.pass (tens 2)) 1 1 1 none (.p128 (wide 3 512)))) = none := by
  decide +kernel
theorem test_slotEndCheck :
    let l := slot 10 0 100 0x1
    (let s := slotRun id
     (s.dev.part 0).running = true ∧ (s.dev.part 0).att.live = true ∧ l.kind ≠ 6 ∧ (s.dev.part 0).att.onTimeline img0 seg1.key l = true
     ∧ (s.dev.part 0).beatTick ((s.dev.part 0).att.endOf img0 l) = some (max s.now 2098752)
     ∧ (((s.dev.part 0).att.run 10).map fun r => (r.aborted, r.done)) = some (false, none))
    ∧ ((slotRun fun r => { r with done := some 2098751 }).dev.part 0).att.run 10 = some { ran 10 with finished := [0], done := some 2098751 }
    ∧ 2098751 < 2098752 := by decide +kernel
theorem test_unitHang :
    let s := slotRun fun r => { r with aborted := true }
    let l := slot 10 0 100 0x1
    (s.dev.part 0).running = true ∧ (((s.dev.part 0).att.run 10).map fun r => r.aborted) = some true
    ∧ (s.dev.part 0).beatTick ((s.dev.part 0).att.endOf img0 l + 64) = some (max s.now 2099776)
    ∧ ((s.dev.part 0).unitsOf l).contains (unitOf 0 0 0) = true ∧ unitKind (unitOf 0 0 0) ≠ 3
    ∧ unitKind (unitOf 0 3 0) = 3 ∧ unitOf (unitSlice (unitOf 0 3 0)) 0 (unitIdx (unitOf 0 3 0)) = unitOf 0 0 0 := by decide +kernel
/-- A row unit that hangs after the last slot of a program. -/
theorem test_rowUnitHangs :
    let s := run fun x => { x with sch := { x.sch with state := .done }, att := { x.att with launched := true, slots := [{ ran 10 with aborted := true }] } }
    (match exec (.unitHangCheck 2099776 0 10 (unitOf 0 3 0) false) s with
      | .next s' => decide ((s'.dev.part 0).sch.state = .halted ∧ s'.dev.secOut = [.fence (unitOf 0 3 0)])
      | _ => false) = true := by decide +kernel
theorem test_hostWindow :
    let l := slot 11 6 100 0
    slotOf img0 11 = some l ∧ l.kind = 6
    ∧ (let s := run id
       s.dev.launches 0 (max s.now 2097152) l = true ∧ (s.dev.part 0).att.onTimeline img0 (s.dev.part 0).sch.seg.toNat l = true
       ∧ (s.dev.part 0).beatTick ((s.dev.part 0).att.startOf img0 l) = some (max s.now 2097152))
    ∧ let s := run fun x => { x with sch := { x.sch with hostPending := true, hostSlot := 11 } }
      (s.dev.part 0).sch.hostPending = true ∧ (s.dev.part 0).sch.hostSlot.toNat = 11 ∧ (s.dev.part 0).running = true
      ∧ (s.dev.part 0).att.live = true ∧ (s.dev.part 0).att.onTimeline img0 (s.dev.part 0).sch.seg.toNat l = true
      ∧ (s.dev.part 0).beatTick ((s.dev.part 0).att.endOf img0 l) = some (max s.now 2098752) ∧ s.dev.reqPart (.cfg 0) = 0
      ∧ s.dev.hears (.cfg 0) = true
      ∧ max s.now 2098751 < 2098752 := by decide +kernel

/-! ## Witnesses: arrays and tiles -/

/-- The product binding of slot 10. -/
def prod0 : Binding := bnd 100 (.product (.pass (tens 1)) (.pass (tens 2)) 1 1 1 none (.p128 (wide 3 512)))

/-- The job of slot 10. -/
def job0 : Job := ⟨0, img0, slot 10 0 100 0x1, prod0⟩

/-- Its one tile. -/
def tile0 : Tile := ⟨0, 10, 100, 0, 0, 0, 0, 0, 0⟩

/-- Slot 10 running with its tile in array 0, and the head lines of both operands in a station. -/
def inTile (f : ArraySt → ArraySt) : State :=
  st fun d => { dev0 (fun x => { x with att := { x.att with launched := true, openTiles := 1, slots := [ran 10] } }) d with
    arrays := [(0, f { readyArray with tile := some tile0 })],
    stations := [(0, ⟨[⟨0, 10, 0, .head, 0, line0, 0, []⟩, ⟨0, 10, 1, .head, 0, line0, 0, []⟩],
                      [⟨0, 10, 0, 0, 0, ⟨List.replicate 32 512, List.replicate 32 false, false, 0x78⟩, []⟩]⟩)] }

theorem test_handshakeDots :
    let s := inTile id
    (s.dev.array 0).tile = some tile0 ∧ s.dev.job 0 tile0.slot (unitOf 0 0 0) = some job0
    ∧ (s.dev.part 0).waitsFor img0 prod0 = [] ∧ (s.dev.array 0).grp < (tileRange prod0.kind tile0).2
    ∧ regsFull (s.dev.array 0).rowOp = true ∧ regsFull (s.dev.array 0).colOp = true := by decide +kernel
theorem test_handshakeLoad :
    let s := inTile fun x => { x with rowOp := [], colOp := [] }
    (s.dev.array 0).limbI = 0 ∧ (s.dev.array 0).limbJ = 0 ∧ (s.dev.array 0).part = 0
    ∧ s.dev.groupFor job0 tile0 true 0 (s.dev.array 0).grp
        = some (⟨List.replicate 32 512, List.replicate 32 false, false, 0x78⟩, []) := by decide +kernel
theorem test_tileComplete :
    let s := inTile fun x => { x with grp := 1 }
    (s.dev.array 0).tile = some tile0 ∧ s.dev.job 0 tile0.slot (arrayUnit 0) = some job0 ∧ (s.dev.array 0).drained = none
    ∧ (tileRange prod0.kind tile0).2 ≤ (s.dev.array 0).grp := by decide +kernel
theorem test_drainP128 :
    let s := inTile fun x => { x with tile := none, drained := some tile0 }
    (s.dev.array 0).drained = some tile0 ∧ s.dev.job 0 tile0.slot (arrayUnit 0) = some job0
    ∧ job0.b.kind = .product (.pass (tens 1)) (.pass (tens 2)) 1 1 1 none (.p128 (wide 3 512)) ∧ job0.out = .p128 (wide 3 512)
    ∧ (wide 3 512).place = .buf 0 512 ∧ sendOf job0.chain = none ∧ s.dev.partials job0 tile0 = some [] ∧ s.dev.egressFenced job0 = false
    ∧ (∀ i < 64,
        (64 * tile0.row + i < sideRows job0.b.kind tile0 true → (s.dev.operandTs (s.dev.jobEnv s.sb job0) job0 0 (64 * tile0.row + i)).isSome)
        ∧ (64 * tile0.col + i < sideRows job0.b.kind tile0 false → (s.dev.operandTs (s.dev.jobEnv s.sb job0) job0 1 (64 * tile0.col + i)).isSome))
    ∧ ((s.dev.array 0).judges.any fun q => q.tile.tag == tile0.tag && q.cause == some 0x10) = false := by decide +kernel

/-- What waits for the verdict of the tile, with given sums and a cause of its own. -/
def judge0 (c1 : BitVec 128) (cause : Option Byte) : Judge := ⟨tile0, some ([1], [c1]), [1], cause, []⟩

/-- The tile of slot 10 waits for its verdict; `low` lists arrays that fell below 0.65 V. -/
def judged (q : Judge) (low : List Nat) : State :=
  st fun d => { dev0 (fun x => { x with att := { x.att with launched := true, openTiles := 1, slots := [ran 10], low := low } }) d with
    arrays := [(0, { ArraySt.reset with judges := [q] })] }

theorem test_tileVerdict :
    (∀ (c1 : BitVec 128) (cause : Option Byte) (low : List Nat),
      let s := judged (judge0 c1 cause) low
      (s.dev.array 0).judges = [judge0 c1 cause] ∧ (s.dev.array 0).drained = none ∧ (s.dev.part 0).att.low = low
      ∧ (judge0 c1 cause).sums = some ([1], [c1]) ∧ (judge0 c1 cause).failure = [] ∧ (s.dev.part 0).att.live = true
      ∧ s.dev.fenced (unitOf (0 / 4) 4 0) = false)
    ∧ (let s := judged (judge0 1 none) []
       s.dev.tileJob tile0 = some job0 ∧ (s.dev.part 0).ashLost job0 tile0 = false
       ∧ (s.dev.part 0).inAttempt (max s.now 2097152) = true ∧ (s.dev.part 0).inAttempt (max s.now 3145728) = false)
    ∧ (judged (judge0 1 none) [0]).dev.tileJob tile0 = some job0
    ∧ ((judged (judge0 1 none) [0]).dev.part 0).inAttempt (max 0 2097152) = true := by
  refine ⟨fun c1 cause low => ⟨rfl, rfl, rfl, rfl, rfl, rfl, by rw [show (judged (judge0 c1 cause) low).dev.fenced = (st id).dev.fenced from rfl]; decide +kernel⟩,
    by decide +kernel⟩

/-- The job of slot 12, whose output is quantised; its ash region is full after group 7. -/
def job1 : Job := ⟨0, img0, { slot 12 1 101 0x41 with counting := true }, bnd 101 (.copy none (some (wide 4 600)) (some 50) .viaQuant)⟩

/-- Its row block, and a state in which the block waits for a verdict with sums that agree. -/
def block0 : Tile := ⟨0, 12, 101, 0, 0, 0, 0, 0, 3⟩
def ashFull : State :=
  st fun d => { dev0 (fun x => { x with
      att := { x.att with launched := true, openTiles := 1, slots := [ran 12] }
      held := { x.held with asms := [{ (x.asm 101) with nextAsh := 8, overflow := true }] } }) d with
    arrays := [(0, { ArraySt.reset with judges := [⟨block0, some ([1], [1]), [1], none, []⟩] })] }

theorem test_tileOfLostAsh :
    (ashFull.dev.array 0).judges = [⟨block0, some ([1], [1]), [1], none, []⟩] ∧ (ashFull.dev.array 0).drained = none
    ∧ ashFull.dev.tileJob block0 = some job1 ∧ (ashFull.dev.part 0).ashLost job1 block0 = true := by decide +kernel

/-- A copy whose output groups are quantised, with so many ash packets written already. -/
def ashReady (packets : Nat) : State :=
  run fun x => { x with
    att := { x.att with launched := true, slots := [ran 12], judged := [((101, 0, 0, 0), 0)] }
    held := { x.held with asms := [{ (x.asm 101) with ashPackets := packets }], groups := (List.range 256).map fun g => ⟨101, g, List.replicate 32 0, 0x78, [0]⟩ } }

theorem test_ashPacket :
    let s := ashReady 0
    let x := s.dev.part 0
    let j := job1
    (x.att.slots.find? fun r => match s.dev.jobOf 0 r.key with | some j => j.b.key == 101 | none => false) = some (ran 12)
    ∧ s.dev.jobOf 0 (ran 12).key = some j
    ∧ quantStage j.chain = some (0, .quantOut (.code (tens 40)) true none none none .f32) ∧ (tens 40).ash = .buf 0 4020
    ∧ (x.asm j.b.key).ashPackets < (tens 40).ashCap ∧ (x.ashDue j.b.key (tens 40)).isSome = true ∧ s.dev.egressFenced j = false := by decide +kernel

theorem test_ashRegionFull :
    let s := ashReady (tens 40).ashCap
    let x := s.dev.part 0
    (x.att.slots.find? fun r => match s.dev.jobOf 0 r.key with | some j => j.b.key == 101 | none => false) = some (ran 12)
    ∧ s.dev.jobOf 0 (ran 12).key = some job1 ∧ (tens 40).ashCap ≤ (x.asm 101).ashPackets
    ∧ (x.ashDue 101 (tens 40)).isSome = true ∧ x.att.live = true ∧ s.dev.egressFenced job1 = false := by decide +kernel

/-! ## Witnesses: ports and memory -/

/-- A packet that waits at a port of partition 0. -/
def wait0 (control : Bool) : Waiting := ⟨0, pkt tyNotice 0 0 [], 1, 0, 0, false, control⟩

/-- Port 0 up with two packets waiting, the context of data packets busy but the last. -/
def portUp : State :=
  st fun d => { dev0 id d with ports := [(0, ⟨true, false, List.replicate 12 5000000 ++ [0], [wait0 false, wait0 true], [], []⟩)] }

theorem test_linkDown :
    (tabGet FluePort.reset portUp.dev.ports 0).up = true ∧ portUp.dev.ownerOf 0 = some 0 ∧ (portUp.dev.part 0).cfg.state = .assigned
    ∧ mayFlue (portUp.dev.part 0).sch.state = true ∧ (portUp.dev.part 0).att.live = true := by decide

/-- Port 0 in the middle of a send. -/
def portSends : State := st fun d => { dev0 id d with ports := [(0, ⟨true, false, List.replicate 13 5000000, [], [(5000000, wait0 false)], []⟩)] }

theorem test_linkDownCuts :
    let q := tabGet FluePort.reset portSends.dev.ports 0
    q.up = true ∧ portSends.dev.ownerOf 0 = some 0 ∧ (portSends.dev.part 0).cfg.state = .assigned
    ∧ mayFlue (portSends.dev.part 0).sch.state = true ∧ (5000000, wait0 false) ∈ q.sending ∧ max portSends.now 2097152 < 5000000
    ∧ (wait0 false).part = 0 := by decide +kernel
theorem test_sendLaunch :
    let q := tabGet FluePort.reset portUp.dev.ports 0
    q.up = true ∧ q.stopped = false ∧ portUp.dev.fenced (unitOf 0 7 0) = false ∧ q.next = some (wait0 true)
    ∧ q.freeContext (max portUp.now 2097152) true = some 12 ∧ q.contexts.length = 13 ∧ (portUp.dev.part 0).maySend = true
    ∧ (st fun d => { dev0 (fun x => { x with sch := { x.sch with state := .ready } }) d with ports := portUp.dev.ports }).dev.ports = portUp.dev.ports
    ∧ ({ part0 with sch := { part0.sch with state := .ready } } : Part).maySend = false := by decide +kernel

/-- A read of slot 10 outstanding, one of the loader, and a write. -/
def memBusy : State :=
  st fun d => { dev0 (fun x => { x with att := { x.att with slots := [ran 10] } }) d with
    memReads := [⟨0, 7, 0, 0, 10, 0, .code, 0, 0, false, false⟩, ⟨0, 8, 0, 0, 0, 0, .code, 0, 0, false, true⟩], memWrites := [⟨0, some 7, 0, 10, 0, line0, 0, 0, false⟩] }

theorem test_memory :
    (memBusy.dev.memReads.find? fun r => r.port == 0 && r.id == 7) = some ⟨0, 7, 0, 0, 10, 0, .code, 0, 0, false, false⟩
    ∧ (memBusy.dev.memReads.find? fun r => r.port == 0 && r.id == 8) = some ⟨0, 8, 0, 0, 0, 0, .code, 0, 0, false, true⟩
    ∧ memBusy.dev.fenced (unitOf (0 / 2) 1 (0 % 2)) = false
    ∧ (memBusy.dev.memWrites.find? fun w => w.port == 0 && w.id == some 7) = some ⟨0, some 7, 0, 10, 0, line0, 0, 0, false⟩
    ∧ (∀ y ∈ memBusy.dev.memWrites, y.port = 0 → y.id.isSome) ∧ (3 : Fin 4) ≠ 0
    ∧ (memBusy.dev.part 0).sch.state ≠ .loading := by decide +kernel

/-! ## Witnesses: the ledger, commit points, holds, contexts -/

theorem test_ledgerPoint :
    ((run id).dev.part 0).ldr.image = some img0 ∧ ((run id).dev.part 0).segment = some seg1
    ∧ ((run id).dev.part 0).sch.state = .running ∧ ((run id).dev.part 0).att.live = true ∧ segIsLast seg1 = false
    ∧ ((run id).dev.part 0).att.pointSent = false ∧ ((run id).dev.part 0).att.doom = none
    ∧ ((run id).dev.part 0).beatTick (((run id).dev.part 0).att.ledgerOff img0 seg1) = some (max (run id).now 2097280)
    ∧ ((slotRun id).dev.part 0).att.launched = true := by decide +kernel

/-- A LEDGER packet whose records name list positions from `pos` on; record 0 names an entry. -/
def ledgerPkt (entry : Byte) (pos : BitVec 32) : Packet :=
  pkt tyLedger 0 pos (List.replicate 38 0 ++ [entry] ++ List.replicate 473 0)

/-- The records of a packet that the receiver reads, and whether one differs from its list. -/
def recsOf (x : Part) (k : Packet) : List ExRec :=
  ((List.range (8 * k.hdr.nLines.toNat)).map (readExRec (k.hdr.src.toNat % 8192) (k.hdr.aux.toNat % 2 ^ 31) k.payload)).filter fun e =>
    decide (e.pos < x.touched.length) || !e.blank
def differs (d : Dev) (e : ExRec) : Bool :=
  let l := (d.part 0).touched
  decide (l.length ≤ e.pos) || e.entry != l.getD e.pos 0 || e.tid != (d.lgr 0 (l.getD e.pos 0)).tid

theorem test_ledgerRecordsAgree :
    let s := run id
    let x := s.dev.part 0
    let k := ledgerPkt 2 1
    (s.dev.recvChecks (max s.now 2097152) 0 k).2 = true ∧ k.hdr.aux.toNat % 2 ^ 31 = 1 ∧ (recsOf x k).length = 1
    ∧ (recsOf x k).find? (differs s.dev) = none
    ∧ x.inAttempt (max s.now 2097152) = true ∧ x.inAttempt (max s.now 3145728) = false ∧ x.att.pointSent = false := by
  refine ⟨recv_pkt _ (by decide +kernel), by decide +kernel⟩
theorem test_ledgerRecordsDiffer :
    let s := run id
    let x := s.dev.part 0
    let k := ledgerPkt 3 1
    (s.dev.recvChecks (max s.now 2097152) 0 k).2 = true ∧ ((recsOf x k).find? (differs s.dev)).isSome
    ∧ ((recsOf x (ledgerPkt 2 2)).find? (differs s.dev)).isSome ∧ x.att.live = true := by
  refine ⟨recv_pkt _ (by decide +kernel), by decide +kernel⟩
theorem test_ledgerUpdate :
    let s := run fun x => { x with lgrUpdate := some ⟨[0, 2], [(0, 0), (0, 1)], [], false, true, true⟩ }
    (s.dev.part 0).lgrUpdate = some ⟨[0, 2], [(0, 0), (0, 1)], [], false, true, true⟩ ∧ ([0, 2] : List Nat).Nodup := by decide +kernel
theorem test_ledgerSweep :
    (⟨3, 7, 0, true⟩ : EccFinding).bad = true ∧ (run id).dev.lgrOwner 3 = some (0, 3)
    ∧ ((run id).dev.part 0).att.eccEntries.any (fun e => e.1 == 3) = false := by decide +kernel
theorem test_ledgerRepairRequest :
    let s := run id
    let k := pkt tyLedger 0 2 []
    (s.dev.recvChecks (max s.now 2097152) 0 k).2 = true ∧ (s.dev.part 0).touched.contains (k.hdr.aux.toNat % 2 ^ 15) = true
    ∧ tabGet false s.dev.ledgerBad ((s.dev.part 0).cfg.lgrBase + 2) = false
    ∧ ((s.dev.peers 0).find? fun m => mIndex m == k.hdr.src.toNat % 8192) = some (memb 1)
    ∧ (s.dev.part 0).cfg.state = .assigned ∧ mayFlue (s.dev.part 0).sch.state = true := by
  refine ⟨recv_pkt _ (by decide +kernel), by decide +kernel⟩
theorem test_ledgerRepairAnswer :
    let s := st fun d => { dev0 id d with ledgerBad := [(3, true)] }
    let k := pkt tyLedger 0 3 line0
    (s.dev.recvChecks (max s.now 2097152) 0 k).2 = true ∧ k.hdr.aux.toNat % 2 ^ 15 < (s.dev.part 0).cfg.lgrCount
    ∧ tabGet false s.dev.ledgerBad ((s.dev.part 0).cfg.lgrBase + 3) = true := by
  refine ⟨recv_pkt _ (by decide +kernel), by decide +kernel⟩
theorem test_countersSaturate : 0 < (exRecOf 0 0 0 LedgerEntry.reset).counts.length ∧ 6 < (exRecOf 0 0 0 LedgerEntry.reset).counts.length := by
  decide

/-- Nothing left for a commit: exchange done, receiving slots off the timeline's list of what is missing. -/
def clean (x : Part) : Part :=
  { x with
    att := { x.att with exchangeDone := true, verdicts := ([104, 106, 107, 108, 110, 111].map fun b => (b, 1, 0, 0, 0)) ++ (List.range 16).map fun i => (109, 1, 0, i, 0) }
    flu := { x.flu with dyn := [⟨105, [], 0, [], [], []⟩] } }

theorem test_commitPoint :
    (let s := atCommit id
     let x := s.dev.part 0
     x.ldr.image = some img0 ∧ x.segment = some seg1 ∧ x.sch.state = .running ∧ x.att.live = true ∧ segIsLast seg1 = false
     ∧ x.att.decision = none ∧ x.sch.holds = [] ∧ x.beatTick (x.att.commitOff img0 seg1) = some (max s.now 3145728)
     ∧ s.dev.dmp.throttle = false ∧ x.att.noticeHold = false ∧ x.mode = 0)
    ∧ (let s := atCommit fun x => { x with att := { x.att with doom := some ⟨2, 0, true, 0⟩, number := 2 } }
       let x := s.dev.part 0
       s.dev.stk.running = true ∧ s.dev.stk.activating = false ∧ x.att.doom.isSome ∧ x.att.arb = false ∧ s.dev.unrepaired 0 = none
       ∧ x.att.number < x.att.limit)
    ∧ (let s := atCommit clean
       let x := s.dev.part 0
       s.dev.stk.running = true ∧ s.dev.stk.activating = false ∧ x.att.arb = false ∧ x.att.doom = none ∧ x.att.noticeReplay = false
       ∧ x.att.rewind = none ∧ x.missingVerdict = false ∧ x.att.exchangeDone = true ∧ x.digestsDue = false
       ∧ (x.touched.all fun i => (s.dev.lgr 0 i).failCause == 0) = true)
    ∧ (∀ r ∈ ((atCommit clean).dev.part 0).agree.resumes, r.2.2 = false)
    ∧ (st fun d => { dev0 id d with stk := d.stk }).dev.stk.running = false := by decide +kernel
/-- The same where the member has decided commit before in the attempt, and a notice has undone it (R180, R240). -/
theorem test_commitPointAgain :
    let s := atCommit fun x => { clean x with att := { (clean x).att with rewind := some [⟨9, 5, 3⟩] } }
    let x := s.dev.part 0
    x.att.rewind.isSome ∧ x.att.decision = none ∧ x.att.arb = false ∧ x.att.doom = none ∧ x.missingVerdict = false
    ∧ x.att.exchangeDone = true ∧ x.digestsDue = false := by decide +kernel
/-- At the decision beat with streams taken forward by the member's own commit, which a notice takes back. -/
theorem test_rewind : ∀ notice : Bool,
    let s := atCommit fun x => { x with att := { x.att with decision := some .commit, noticeReplay := notice, rewind := some [⟨9, 5, 3⟩] }
                                        rng := { x.rng with streams := [⟨9, 5, 5⟩] } }
    (match exec (.decisionBeat 3276800 0) s with
      | .next s' => (s'.dev.part 0).rng.streams
      | _ => []) = if notice then [⟨9, 3, 3⟩] else [⟨9, 5, 5⟩] := by decide +kernel

/-- At the decision beat with a decision taken. -/
def decidedAs (c : Decision) (notice : Bool) : State :=
  atCommit fun x => { x with att := { x.att with decision := some c, noticeReplay := notice } }

theorem test_decisionBeat : ∀ notice : Bool, ∀ c ∈ [Decision.commit, .replay],
    let s := decidedAs c notice
    let x := s.dev.part 0
    x.ldr.image = some img0 ∧ x.segment = some seg1 ∧ x.sch.state = .running ∧ x.att.live = true ∧ x.att.final = false
    ∧ segIsLast seg1 = false ∧ x.beatTick (x.att.commitOff img0 seg1 + 8192) = some (max s.now 3276800)
    ∧ x.att.decision = some c ∧ x.att.noticeReplay = notice := by decide +kernel

/-- Partition 0 held. -/
def held (f : Part → Part) : State :=
  atCommit fun x => f { x with sch := { x.sch with state := .held, holds := [.fallback] } }

/-- A held partition whose commit releases its hold, with a context to seal or not. -/
def heldLgr (save : Bool) : State :=
  held fun x => { x with lgrHold := true, mode := 256, ctx := { x.ctx with request := save } }

/-- A held partition whose hold CHK_HOLD shows. -/
def heldChk : State :=
  held fun x => { x with sch := { x.sch with holds := [.triage 3] }, chk := { x.chk with pending := true } }

theorem test_holdsEnd :
    (let s := held fun x => { x with chk := { x.chk with holdEp := 5 } }
     (s.dev.part 0).sch.state = .held ∧ (s.dev.part 0).sch.heldSince + (s.dev.part 0).chk.holdEp < (s.dev.part 0).sch.epoch.toNat
     ∧ (s.dev.part 0).cfg.state ≠ .scrubbing ∧ (s.dev.part 0).cfg.state ≠ .free)
    ∧ (∀ save : Bool, let s := heldLgr save
       let x := s.dev.part (s.dev.reqPart (.cfg 0))
       s.dev.hears (.cfg 0) = true ∧ x.lgrHold = true ∧ x.att.number < x.att.limit ∧ NamesSelf s.dev 0
       ∧ (x.sch.state = .held ∧ x.agree.ownResume = false ∧ ∀ c ∈ x.sch.holds, c = .peer ∨ (c == .fallback) = true)
       ∧ (∀ r ∈ x.agree.resumes, r.2.2 = false) ∧ x.att.noticeReplay = false
       ∧ (x.mode.getLsbD 8 = true ∧ (x.saveDue = true ∨ x.turnEnds = true) ↔ save = true))
    ∧ (let s := heldChk
       let x := s.dev.part (s.dev.reqPart (.cfg 0))
       s.dev.hears (.cfg 0) = true ∧ x.chk.pending = true ∧ x.att.number < 255 ∧ NamesSelf s.dev 0
       ∧ x.sch.state = .held ∧ x.agree.ownResume = false
       ∧ ∀ c ∈ x.sch.holds, c = .peer ∨ (c.viaChk || c == .arbitration && x.mode.getLsbD 2) = true)
    ∧ (run id).dev.hears (.cfg 0) = true
    ∧ ((run id).dev.part ((run id).dev.reqPart (.cfg 0))).lgrHold = false ∧ ((run id).dev.part 0).chk.pending = false := by
  unfold NamesSelf
  decide +kernel
/-- The commit that ends the fall-back hold: RESUME is sent, or the hold goes on for the seal. -/
theorem test_lgrHoldCommit : ∀ save : Bool,
    (match exec (.lgrHoldCommit 3145728 (.cfg 0)) (heldLgr save) with
      | .next s' => decide ((s'.dev.part 0).att.decision = some .commit ∧ (s'.dev.part 0).agree.ownResume = !save
          ∧ (s'.dev.part 0).sch.holds = (if save then [.seal] else []))
      | _ => false) = true := by decide +kernel
/-- The replay that ends it, and that which CHK_HOLD orders. -/
theorem test_holdReplays :
    (match exec (.lgrHoldReplay 3145728 (.cfg 0)) (heldLgr false) with
      | .next s' => decide ((0, 8, true) ∈ (s'.dev.part 0).agree.resumes ∧ (s'.dev.part 0).att.fb = true)
      | _ => false) = true
    ∧ (match exec (.chkHoldRegroup 3145728 (.cfg 0)) heldChk with
      | .next s' => decide ((0, 8, true) ∈ (s'.dev.part 0).agree.resumes ∧ (s'.dev.part 0).chk.regroup = true)
      | _ => false) = true := by decide +kernel

/-! ## A whole image and a patch of it -/

/-- The bytes of a header (Table 9.4). -/
def headBytes (h : ImgHeader) : List Byte :=
  bytesLE 4 h.magic ++ bytesLE 2 h.version ++ bytesLE 2 h.part ++ bytesLE 4 h.fwMin ++ bytesLE 1 h.slices
    ++ [if h.patch then 1 else 0] ++ bytesLE 2 h.nSections ++ bytesLE 4 h.length ++ bytesLE 4 0 ++ h.imageDigest ++ h.logicalDigest
    ++ bytesLE 8 h.timeline.toNat

/-- The bytes of a section table (R253). -/
def tableBytes (l : List SectionEntry) : List Byte :=
  l.flatMap fun s => bytesLE 2 s.type ++ bytesLE 2 0 ++ bytesLE 4 s.count ++ bytesLE 4 s.offset ++ bytesLE 4 s.length

/-- The one segment of the image below, which ends the program, as its record (Table 9.6). -/
def segBytes : List Byte := bytesLE 2 1 ++ bytesLE 2 0 ++ bytesLE 4 1 ++ bytesLE 4 4 ++ bytesLE 4 32 ++ bytesLE 8 (2 ^ 64 - 1) ++ bytesLE 24 0

/-- Section table of the image below. -/
def secs1 : List SectionEntry := [⟨1, 1, 208, 48⟩, ⟨2, 0, 256, 0⟩, ⟨4, 0, 256, 0⟩, ⟨10, 0, 256, 0⟩, ⟨11, 0, 256, 0⟩]

/-- The header of the image below with its digests. -/
def hdr1 (d l t : Nat) : ImgHeader := ⟨BitVec.ofNat 64 t, bytesBE 48 l, bytesBE 48 d, 256, 5, false, 1, 0, 0xF4, 1, 0x49445846⟩

/-- The image of one segment under a header. -/
def img1of (h : ImgHeader) : Image :=
  { raw := headBytes h ++ tableBytes secs1 ++ segBytes, header := h, sections := secs1, heads := [⟨1, 1, 4, 32, true⟩],
    segments := [⟨1, [0, 0, 0], [0, 0, 0], Config.noKey, Config.noKey⟩], slots := [], variants := [], bindings := [], chains := [],
    codebooks := [], actTables := [], streams := [], ledgerLists := [], regions := [], routes := [], leases := [], base := [] }

/-- An image of one segment, with the digests of its bytes and records. -/
def img1 : Image :=
  img1of (hdr1 15819359647664697954799914518973803775323101863341152711694884648336778313961373183204883706304200829555480193429738
    1152397627983992601212672444295629143671337050557500852557641041146225229188304949182470601162354558357569221728145
    15678457923235876605)

/-- Section table of the patch. -/
def secs2 : List SectionEntry := [⟨15, 1, 144, 64⟩]

/-- Its one record: the digest of the image patched. -/
def baseBytes : List Byte := bytesLE 2 15 ++ bytesLE 2 0 ++ bytesLE 4 1 ++ bytesLE 4 48 ++ bytesLE 4 48 ++ img1.header.imageDigest

/-- The patch's header. -/
def hdr2 (d : Nat) : ImgHeader := ⟨img1.header.timeline, img1.header.logicalDigest, bytesBE 48 d, 208, 1, true, 1, 0, 0xF4, 1, 0x49445846⟩

/-- A patch that replaces no section, under a header. -/
def patOf (h : ImgHeader) : Image :=
  { img1 with raw := headBytes h ++ tableBytes secs2 ++ baseBytes, header := h, sections := secs2, heads := [⟨15, 1, 48, 48, true⟩], segments := [], base := img1.header.imageDigest }

/-- The patch with the digest of its bytes. -/
def pat1 : Image :=
  patOf (hdr2 16058193354972737615280086289253093764766782628855961126360187386897099179468382363447676354331425947652668410729042)

/-- Partition 0 loading an image of 256 bytes, whose one line has come. -/
def loading : State := run fun x => { x with sch := { x.sch with state := .loading, before := .ready }, ldr := { x.ldr with len := 256, asked := 1, lines := [(0, img1.raw ++ List.replicate 256 0)] } }

/-- Partition 0 READY with the image loaded and a patch of 208 bytes to stage. -/
def staging : State := run fun x => { x with sch := { x.sch with state := .ready }, ldr := { x.ldr with len := 208, image := some img1 } }

theorem test_imagesLoad :
    (loading.dev.part 0).sch.state = .loading ∧ (loading.dev.part 0).ldr.wholeRead = true ∧ (loading.dev.part 0).ldr.readErr = false
    ∧ (loading.dev.part 0).ldr.loaded img1 = img1
    ∧ fullCheck loading.dev 0 ((loading.dev.part 0).ldr.loaded img1) (loading.dev.part 0).ldr.len.toNat false = none
    ∧ fullCheck loading.dev 0 ((loading.dev.part 0).ldr.loaded img0) (loading.dev.part 0).ldr.len.toNat true = some (1, 0, 0)
    ∧ ((run fun x => { x with sch := { x.sch with state := .loading }, ldr := { x.ldr with len := 256 } }).dev.part 0).ldr.wholeRead = false := by
  decide +kernel
theorem test_patchStaged :
    let s := staging
    let y := s.dev.part (s.dev.reqPart (.cfg 0))
    s.dev.hears (.cfg 0) = true ∧ y.ldr.result ≠ 1 ∧ y.cfg.state = .assigned ∧ y.ldr.image = some img1 ∧ y.sch.state = .ready
    ∧ patchCheck s.dev (s.dev.reqPart (.cfg 0)) img1 pat1 false = none ∧ y.running = false
    ∧ (∃ i ∈ s.dev.memberIds (s.dev.reqPart (.cfg 0)), i ≠ y.self ∧ (y.agree.replaces.any fun z => z.1 == i) = false) := by decide +kernel

/-! ## Witnesses: contexts, arbitration, proving burns -/

/-- A descriptor of the image above: key slot 0, a turn of one step, slots of 64 KiB. -/
def desc0 : Descriptor := ⟨true, true, 0, 1, 0, 0, 65536, 0, 256, 0⟩

/-- A sealing key in slot 0. -/
def key0 : KeySlot := { KeySlot.reset with valid := true, purpose := 1, key := 7, rand := 5, count := 3 }

/-- Partition 0 with the image loaded, a change, and the sealing key. -/
def ctx0 (f : Part → Part) : State :=
  st fun d => dev0 (fun x => f { x with ldr := { x.ldr with image := some img1 } }) { d with keys := [(0, key0)] }

/-- A save in progress. -/
def save0 : SaveJob := ⟨0, 9, List.replicate 256 0⟩

theorem test_contextRequests :
    (ctx0 id).dev.registerCheck 0 (0 : Fin 8).val desc0 (some img1) = none
    ∧ ((ctx0 fun x => { x with ctx := { x.ctx with reg := 2 } }).dev.part 0).ctx.reg.getLsbD (1 : Fin 8).val = true
    ∧ (let s := ctx0 fun x => { x with ctx := { x.ctx with saving := some save0 } }
       s.dev.hears (.cfg 0) = true ∧ s.dev.reqPart (.cfg 0) = 0
       ∧ (s.dev.part 0).ctx.saving = some save0 ∧ (s.dev.part 0).ctx.switching = false
       ∧ s.dev.maySeal 0 desc0.key = true ∧ s.dev.maySeal 0 1 = false) := by
  decide +kernel

/-- A context body with no ledger entry and no ember: the image's logical digest, STEP 6, epoch 40. -/
def body0 : List Byte := img1.header.logicalDigest ++ bytesLE 8 6 ++ bytesLE 8 40 ++ List.replicate 192 0

/-- Partition 0 restoring context 2. -/
def restoring0 : State :=
  ctx0 fun x => { x with sch := { x.sch with state := .ready }, ctx := { x.ctx with restoring := some 2, descs := [(2, desc0)] } }

theorem test_opened : restoring0.dev.openSlot 0 desc0 (sealBody key0 body0) = .inr ⟨6, 0, 0, body0⟩ := by
  have hk : ∀ k ∈ aesRoundKeys key0.bytes, k.length = 16 := by decide +kernel
  have hn : ((ctxHeader key0 256).drop 20).length = 12 := by decide +kernel
  have hb : body0.length = 256 := by decide +kernel
  have hh : (sealBody key0 body0).header = ctxHeader key0 256 := by simp only [sealBody, hb]
  have hc : (sealBody key0 body0).body = gcmCrypt key0.bytes ((ctxHeader key0 256).drop 20) body0 := by simp only [sealBody, hb]
  refine Dev.openSlot_clear (n := 256) (b := body0) (img := img1) (k := key0) (by decide +kernel) ?_ (by decide +kernel) ?_ ?_ ?_ ?_ ?_ ?_
    (by decide +kernel)
  · rw [hh]; decide +kernel
  · rw [hh]; decide +kernel
  · rw [hc, length_gcmCrypt _ _ _ hn hk, hb]
  · rw [hh]; decide +kernel
  · rw [hh, hc, gcmCrypt_gcmCrypt _ _ _ hn hk]
  · simp only [sealBody]
  · rw [hh]; decide +kernel

theorem test_contextRestore :
    (let x := restoring0.dev.part (restoring0.dev.reqPart (.cfg 0))
     restoring0.dev.hears (.cfg 0) = true ∧ x.ctx.restoring = some 2 ∧ x.ctx.descs.lookup 2 = some desc0)
    ∧ newerSlot (restoring0.dev.openSlot (restoring0.dev.reqPart (.cfg 0)) desc0 (sealBody key0 body0))
        (restoring0.dev.openSlot (restoring0.dev.reqPart (.cfg 0)) desc0 (sealBody key0 body0)) = some (0, ⟨6, 0, 0, body0⟩)
    ∧ let x := (ctx0 fun x => { x with sch := { x.sch with state := .ready } }).dev.part 0
      x.sch.state = .ready ∧ x.ctx.saving = none ∧ x.ctx.restoring = none := by
  refine ⟨by decide +kernel, ?_, by decide +kernel⟩
  rw [show restoring0.dev.reqPart (.cfg 0) = 0 by decide, test_opened]
  decide +kernel
/-- A slot that the runtime has filled with the body in clear, and its length in the header. -/
def clear0 : CtxImage := ⟨List.replicate 8 0 ++ bytesLE 4 256 ++ List.replicate 20 0, body0, List.replicate 16 0⟩

theorem test_contextSeal :
    let s := ctx0 fun x => { x with sch := { x.sch with state := .held, holds := [.seal] }, mode := 256,
                                    att := { x.att with decision := some .commit } }
    let p := s.dev.reqPart (.cfg 0)
    let x := s.dev.part p
    let at_ := if s.dev.slotFor p desc0 clear0 clear0 = 0 then clear0 else clear0
    let body := at_.body.take (fieldLE at_.header 8 4)
    s.dev.hears (.cfg 0) = true ∧ HoldCause.seal ∈ x.sch.holds ∧ x.mode.getLsbD 8 = true
    ∧ bodyCheck body.length desc0.slotLen x.cfg.lgrCount body = none
    ∧ s.dev.maySeal p desc0.key = true ∧ s.dev.slotFor p desc0 clear0 clear0 = 0
    ∧ x.sch.state = .held ∧ x.agree.ownResume = false ∧ x.att.decision.isSome ∧ (∀ c ∈ x.sch.holds, c = .peer ∨ c = .seal) := by decide +kernel

/-- A listed tile, with its re-run's arbiter. -/
def item0 (arbiter : Option UnitCode) : ArbItem := ⟨tile0, 0, 0, 77, [1], [2], [1], arbiter, 0, false⟩

/-- An arbitration attempt under way, its slot over. -/
def arb0 (arbiter : Option UnitCode) : State :=
  run fun x => { x with att := { x.att with number := 1, arb := true, launched := true, slots := [{ ran 10 with done := some 2098752 }] },
                        chk := { x.chk with list := [item0 arbiter] } }

theorem test_arbitration :
    (run id).dev.hears (.cfg 0) = true
    ∧ (let x := (run fun x => { x with mode := 4, chk := { x.chk with list := [item0 none] } }).dev.part 0
     x.mode.getLsbD 2 = true ∧ (x.chk.list.any fun i => i.seq == 77) = true ∧ x.cfg.covers (unitSlice (unitOf 0 0 0)) = true)
    ∧ (let s := arb0 none
       (s.dev.part 0).ldr.image = some img0 ∧ (s.dev.part 0).running = true ∧ (s.dev.part 0).att.live = true
       ∧ (s.dev.part 0).att.arb = true ∧ s.dev.stk.running = true ∧ (s.dev.part 0).mode = 0
       ∧ ((s.dev.arbBeat 0 img0).bind (s.dev.part 0).beatTick) = some (max s.now 2098752)
       ∧ ((s.dev.arbItems 0).all fun i => i.arbiter.isNone && !i.done) = true)
    ∧ (let s := arb0 (some (unitOf 0 0 1))
       let i := item0 (some (unitOf 0 0 1))
       let x := s.dev.part 0
       x.chk.list[0]? = some i ∧ i.done = false ∧ i.arbiter.isSome ∧ x.att.arb = true ∧ x.mode.getLsbD 2 = false
       ∧ (x.att.slots.any fun r => r.done.isNone && !r.aborted) = false
       ∧ i.tries < 2 ∧ ((s.dev.arbiters 0 i.array).filter fun u => some u != i.arbiter)[0]? = some (unitOf 0 0 2)
       ∧ rerunSums i [] = i.d1 ∧ rerunSums i [(0, 3)] = i.c1 ∧ rerunSums i [(0, 3)] ≠ i.d1
       ∧ rerunSums i [(0, 2)] ≠ i.d1 ∧ rerunSums i [(0, 2)] ≠ i.c1) := by decide +kernel

/-- A run of an array without a fault, and one whose first accumulator differs and whose checker missed the flipped sum. -/
def burnOk (a : ArrayId) : BurnRun := ⟨a, [], [], false⟩
def burnBad (a : ArrayId) : BurnRun := ⟨a, [(0, 1)], [], true⟩

theorem test_provingBurns :
    (run id).dev.eng.phase = .ready ∧ (run id).dev.stk.running = true ∧ (run id).dev.burnPair (max (run id).now 2097152) 1 2 = true
    ∧ (slotRun id).dev.burnPair (max (slotRun id).now 2097552) 0 1 = false ∧ (run id).dev.burnPair (max (run id).now 2097152) 4 63 = true
    ∧ (let s := st fun d => { dev0 id d with eng := { d.eng with phase := .ready, burnFails := [⟨burnBad 1, burnOk 2, 0x100, 0⟩] } }
       s.dev.eng.phase = .ready ∧ s.dev.stk.running = true ∧ s.dev.eng.burnFails = [⟨burnBad 1, burnOk 2, 0x100, 0⟩]
       ∧ s.dev.fenced (arrayUnit (3 : ArrayId).val) = false)
    ∧ burnAgrees (burnBad 1) (burnOk 2) = false ∧ burnAgrees (burnOk 3) (burnBad 1) = false ∧ burnAgrees (burnOk 3) (burnOk 2) = true
    ∧ burnAgrees { burnBad 3 with flips := [(0, 2)] } (burnOk 2) = false := by decide +kernel

/-! ## Witnesses: packets -/

theorem test_receiveChecks :
    let x := (run id).dev.part 0
    let k := pkt tyNotice 0 0 []
    let older := { pkt tyNotice 0 0 [] with hdr := { (pkt tyNotice 0 0 []).hdr with step := 0xFFFFFFFF } }
    let newer := { pkt tyNotice 0 0 [] with hdr := { (pkt tyNotice 0 0 []).hdr with attempt := 1 } }
    ((x.mayReceive k = true ∧ k.hdr.job = x.flu.tag ∧ k.hdr.dst.toNat % 8192 = x.self)
      ∧ skipsAttempt x k = false ∧ x.attemptOf k = 0)
    ∧ (skipsAttempt x older = false ∧ x.attemptOf older = 1) ∧ (skipsAttempt x newer = false ∧ x.attemptOf newer = 2)
    ∧ skipsAttempt x (pkt tyLease 0 0 []) = true
    ∧ (run id).dev.grp 0 0 = some grp2 ∧ gGen grp2 = (pkt tyNotice 0 0 []).hdr.gen.toNat := by decide +kernel
theorem test_wrongCheckWord : pktCrcOk { pkt tyNotice 0 0 [] with hdr := { (pkt tyNotice 0 0 []).hdr with pcrc := 0 } } = false := by
  decide +kernel

/-- What lets a sealed tile packet pass all its checks. -/
theorem tile_pkt {s : State} {type : Byte} {tid aux : BitVec 32} {tile : BitVec 32 × BitVec 32} {payload : List Byte} {b : Nat × Receive}
    (t : Nat) (ref : Bool) (h : s.dev.admits 0 (pktAt type tid aux tile payload) = true)
    (hb : (s.dev.part 0).receiverOf (pktAt type tid aux tile payload) type = some b)
    (hr : (ref && (pktAt type tid aux tile payload).hdr.ref != b.2.ref) = false) (he : inExtents b.2 (pktAt type tid aux tile payload) = true) :
    (s.dev.tileChecks t 0 (pktAt type tid aux tile payload) ref).2 = some b :=
  congrArg Prod.snd (Dev.tileChecks_pass (pktCrcOk_pktSeal _) h hb hr he)

/-- The payload of a TILE_P128. -/
def zeros65536 : List Byte := List.replicate 65536 0

theorem test_tileP128 :
    let s := run id
    let k := pkt tyTileP128 30 0 zeros65536
    k.hdr.type = tyTileP128 ∧ k.payload.length = 65536
    ∧ (s.dev.tileChecks (max s.now 2097152) 0 k true).2 = some (104, rcv 30 tyTileP128)
    ∧ (s.dev.part 0).landFits 104 (rcv 30 tyTileP128) k = true ∧ k.hdr.flags.getLsbD 1 = false ∧ (s.dev.part 0).ldr.image = some img0 := by
  refine ⟨by decide +kernel, List.length_replicate, tile_pkt _ _ (by decide +kernel) (by decide +kernel) (by decide +kernel) (by decide +kernel),
    by decide +kernel, by decide +kernel, by decide +kernel⟩
theorem test_tilesLand :
    let s := run id
    (s.dev.part 0).ldr.image = some img0
    ∧ ((s.dev.tileChecks (max s.now 2097152) 0 (pkt tyTileCode 32 0 line0) false).2 = some (106, rcv 32 tyTileCode)
        ∧ (s.dev.part 0).landFits 106 (rcv 32 tyTileCode) (pkt tyTileCode 32 0 line0) = true)
    ∧ ((s.dev.tileChecks (max s.now 2097152) 0 (pkt tyTileWide 33 0 line0) false).2 = some (107, rcv 33 tyTileWide)
        ∧ (s.dev.part 0).landFits 107 (rcv 33 tyTileWide) (pkt tyTileWide 33 0 line0) = true)
    ∧ ((s.dev.tileChecks (max s.now 2097152) 0 (pkt tyStream 35 0 line0) false).2 = some (109, rcv 35 tyStream)
        ∧ (s.dev.part 0).landFits 109 (rcv 35 tyStream) (pkt tyStream 35 0 line0) = true ∧ (rcv 35 tyStream).dynamic = false)
    ∧ (s.dev.tileChecks (max s.now 2097152) 0 (pkt tyTilePf32 34 0 line0) true).2 = some (108, rcv 34 tyTilePf32) := by
  refine ⟨by decide +kernel, ⟨tile_pkt _ _ ?_ ?_ ?_ ?_, ?_⟩, ⟨tile_pkt _ _ ?_ ?_ ?_ ?_, ?_⟩, ⟨tile_pkt _ _ ?_ ?_ ?_ ?_, ?_⟩, tile_pkt _ _ ?_ ?_ ?_ ?_⟩
    <;> decide +kernel
theorem test_verdicts :
    let s := run id
    let x := s.dev.part 0
    ((s.dev.recvChecks (max s.now 2097152) 0 (pkt tyVerdict 30 1 [])).2 = true
      ∧ (x.receiverAny (pkt tyVerdict 30 1 [])).map (·.1) = some 104 ∧ inExtents (rcv 30 tyTileP128) (pkt tyVerdict 30 1 []) = true
      ∧ verdictPos (pkt tyVerdict 30 1 []).hdr.aux = true ∧ x.inAttempt (max s.now 2097152) = true ∧ x.inAttempt (max s.now 3145728) = false)
    ∧ ((s.dev.recvChecks (max s.now 2097152) 0 (pkt tyVerdict 30 2 [])).2 = true ∧ verdictPos (pkt tyVerdict 30 2 []).hdr.aux = false
      ∧ x.undecided (max s.now 2097152) = true)
    ∧ (let s := run fun x => { x with att := { x.att with final := true } }
       (s.dev.recvChecks (max s.now 2097152) 0 (pkt tyNotice 0 0 [])).2 = true
       ∧ (s.dev.recvChecks (max s.now 2097152) 0 (pkt tyVerdict 30 2 [])).2 = true ∧ (s.dev.part 0).undecided (max s.now 2097152) = false)
    ∧ x.cfg.state ≠ .scrubbing := by
  refine ⟨⟨recv_pkt _ (by decide +kernel), by decide +kernel⟩, ⟨recv_pkt _ (by decide +kernel), by decide +kernel⟩,
    ⟨recv_pkt _ (by decide +kernel), recv_pkt _ (by decide +kernel), by decide +kernel⟩, by decide +kernel⟩

/-- An AGREE packet of a word. -/
def agree (aux : BitVec 32) : Packet := pkt tyAgree 0 aux line0

/-- The own START word that agrees with one of zeros. -/
def start0 : StartWord := ⟨0, 0, 4194304, 0, List.replicate 48 0, 0, 0, 0, 0, 0, 0⟩

/-- Partition 0 STARTING with its own word sent. -/
def starting0 : State := run fun x => { x with sch := { x.sch with state := .starting, timed := false }, agree := { x.agree with starts := [start0] } }

theorem test_agreeStart :
    (let s := run fun x => { x with sch := { x.sch with state := .ready } }
     (s.dev.recvChecks (max s.now 2097152) 0 (agree 0)).2 = true ∧ (readStart (agree 0)).join = 0 ∧ (s.dev.part 0).sch.state = .ready)
    ∧ (let s := starting0
       let ws := keepStart (s.dev.part 0).agree.starts { readStart (agree 0) with src := 1 }
       (s.dev.recvChecks (max s.now 2097152) 0 (agree 0)).2 = true ∧ (s.dev.part 0).sch.state = .starting
       ∧ (s.dev.part 0).agree.joining = false ∧ ((s.dev.memberIds 0).all fun i => ws.any fun y => y.src == i) = true
       ∧ ((ws.filter fun y => (s.dev.memberIds 0).contains y.src).find? fun y => y.src == (s.dev.part 0).self) = some start0
       ∧ ((ws.filter fun y => (s.dev.memberIds 0).contains y.src).all fun y =>
            y.timeline == start0.timeline && y.logical == start0.logical && y.epoch == start0.epoch) = true
       ∧ max s.now 2097152 < start0.tick) := by
  refine ⟨⟨recv_pkt _ (by decide +kernel), by decide +kernel⟩, recv_pkt _ (by decide +kernel), by decide +kernel⟩
theorem test_agreeWords :
    let s := run fun x => { x with sch := { x.sch with timed := false } }
    ((s.dev.recvChecks (max s.now 2097152) 0 (agree 1)).2 = true ∧ (s.dev.part 0).lateWord (max s.now 2097152) (fieldLE (pktLine (agree 1) 0) 0 8) = false)
    ∧ (let s := atCommit fun x => { x with att := { x.att with decision := some .commit } }
       let x := s.dev.part 0
       (s.dev.recvChecks (max s.now 3145730) 0 (agree 2)).2 = true ∧ x.sch.state = .running ∧ x.att.decision.isSome
       ∧ x.undecided (max s.now 3145730) = true ∧ x.undecided (max s.now 3276800) = false)
    ∧ (s.dev.part 0).ldr.staged = none
    ∧ (s.dev.recvChecks (max s.now 2097152) 0 (agree 3)).2 = true ∧ (s.dev.recvChecks (max s.now 2097152) 0 (agree 4)).2 = true := by
  refine ⟨⟨recv_pkt _ (by decide +kernel), by decide +kernel⟩, ⟨recv_pkt _ (by decide +kernel), by decide +kernel⟩, by decide +kernel,
    recv_pkt _ (by decide +kernel), recv_pkt _ (by decide +kernel)⟩

/-- The chained binding of the tests. -/
def chained0 : Binding := bnd 102 (.chained (.pass (tens 5)) (.pass (tens 6)) (.pass (tens 8)) chn none (.wide (wide 7 700)))

theorem test_state :
    let s := run id
    let x := s.dev.part 0
    let k (i : Nat) : Packet := pktAt tyState 7 (BitVec.ofNat 32 i) (0, 0) (List.replicate 16896 0)
    (s.dev.recvChecks (max s.now 2097152) 0 (k 0)).2 = true ∧ x.receiverOf (k 0) tyState = some (110, rcv 7 tyState)
    ∧ ((x.segBindings.find? fun b => match b.kind with
        | .chained _ _ _ c _ _ => c.pTid == (k 0).hdr.tid.setWidth 24
        | _ => false).map (·.key)) = some 102
    ∧ (k 0).hdr.rowTile.toNat < (rcv 7 tyState).rowTiles ∧ 0 < levelNodes chn 0 ∧ rootLevel chn = 2
    ∧ (stateWhole [k 0] (ceilDiv (64 * ceilDiv (4 * (chn.d + 2)) 512) 128)).isSome
    ∧ stateWhole [k 1] (ceilDiv (64 * ceilDiv (4 * (chn.d + 2)) 512) 128) = none := by
  refine ⟨recv_pkt _ (by decide +kernel), by decide +kernel, by decide +kernel, by decide +kernel, by decide +kernel, by decide +kernel, ?_, ?_⟩
  · rw [show ceilDiv (64 * ceilDiv (4 * (chn.d + 2)) 512) 128 = 1 by decide]
    decide +kernel
  · rw [show ceilDiv (64 * ceilDiv (4 * (chn.d + 2)) 512) 128 = 1 by decide]
    decide +kernel

/-- The states of every row of the chained product at the nodes of level 0. -/
def states0 : State :=
  run fun x => { x with
    att := { x.att with launched := true, slots := [ran 13] }
    flu := { x.flu with states := (List.range 64).flatMap fun r => [0, 1].map fun n => ⟨102, r, 0, n, 0, 0x3F800000, List.replicate 64 0, false, []⟩ } }

theorem test_stateMerge :
    let s := states0
    let x := s.dev.part 0
    (x.att.slots.find? fun r => match s.dev.jobOf 0 r.key with | some j => j.b.key == 102 | none => false) = some (ran 13)
    ∧ s.dev.jobOf 0 (ran 13).key = some ⟨0, img0, slot 13 3 102 1, chained0⟩ ∧ chn.sends = [] ∧ 0 < levelNodes chn 1
    ∧ ∀ r ∈ ((List.range 64).map (64 * 0 + ·)).filter (fun r => decide (r < (outShape img0 chained0.kind).1)),
        (x.chState 102 r (1 - 1) (2 * 0)).isSome ∧ (x.chState 102 r (1 - 1) (2 * 0 + 1)).isSome := by decide +kernel

theorem test_sample :
    let s := run id
    let x := s.dev.part 0
    let k := pkt tySample 9 0 line0
    (s.dev.recvChecks (max s.now 2097152) 0 k).2 = true ∧ x.receiverOf k tySample = some (111, rcv 9 tySample)
    ∧ inExtents (rcv 9 tySample) k = true
    ∧ x.sampleBind (k.hdr.tid.setWidth 24) = some (bnd 103 (.sampler smp)) := by
  refine ⟨recv_pkt _ (by decide +kernel), by decide +kernel⟩
theorem test_exchange :
    let s := run id
    let x := s.dev.part 0
    let rc : Receive := { rcv 31 tyStream with dynamic := true, tMax := 8, lines := 64 }
    let b := bnd 105 (.exchange rc (0, 900) (0, 910))
    (s.dev.recvChecks (max s.now 2097152) 0 (pkt tyCount 31 5 [])).2 = true ∧ x.exchangeOf (pkt tyCount 31 5 []) = some (b, rc, (0, 900), (0, 910))
    ∧ (s.dev.recvChecks (max s.now 2097152) 0 (pkt tyCredit 31 5 [])).2 = true ∧ x.exchangeOf (pkt tyCredit 31 5 []) = some (b, rc, (0, 900), (0, 910))
    ∧ ((List.range (s.dev.groupIds 0 rc.group).length).find? fun i => (s.dev.groupIds 0 rc.group).getD i 0 == 1) = some 1 := by
  refine ⟨recv_pkt _ (by decide +kernel), by decide +kernel, recv_pkt _ (by decide +kernel), by decide +kernel⟩
theorem test_leases :
    let s := run id
    let x := s.dev.part 0
    let k := pkt tyLease 0 3 []
    (s.dev.recvChecks (max s.now 2097152) 0 k).2 = true
    ∧ (x.refusedUse (max s.now 2097152) (k.hdr.aux.toNat % 2 ^ 28)).map (fun u => (u.key, (x.windowEpochs img0 u).1)) = some (8, 7)
    ∧ (x.leaseUse 3).map (·.key) = some 8 ∧ x.leaseUse 4 = none ∧ x.before (max s.now 2097152) 7 = true
    ∧ (s.dev.recvChecks (max s.now 2097152) 0 (pkt tyLease 0 0x40000003 [])).2 = true := by
  refine ⟨recv_pkt _ (by decide +kernel), by decide +kernel, by decide +kernel, by decide +kernel, by decide +kernel, recv_pkt _ (by decide +kernel)⟩
theorem test_digest :
    let s := run id
    let k := pkt tyDigest 0 0 line0
    let ids := s.dev.groupIds 0 (k.hdr.group.toNat % 1024)
    (s.dev.recvChecks (max s.now 2097152) 0 k).2 = true ∧ k.hdr.group.toNat % 1024 = (s.dev.part 0).chk.digGroup.toNat
    ∧ (s.dev.part 0).inAttempt (max s.now 2097152) = true
    ∧ ((List.range ids.length).find? fun i => ids.getD i 0 == k.hdr.src.toNat % 8192) = some 1 := by
  refine ⟨recv_pkt _ (by decide +kernel), by decide +kernel⟩

/-- The image with slot 12's quantise-out under the mode's row policy and entry 3. -/
def imgPass : Image :=
  { img0 with chains := [⟨50, [], ⟨[.quantOut (.code { tens 40 with entry := some 3 }) true none none none .f32], [], false, .f32, .rne, 0, ⟨0, false⟩⟩⟩] }

/-! ## Witnesses: records and register requests -/

/-- A record of a severity. -/
def rec0 (c : Severity) (seq : Nat) : Rec := ⟨0, 0, 0, 0, 0, 0, none, none, 0, 0, 0, 0, some 0, 3, c, 0x10, false, false, false, false, BitVec.ofNat 32 seq⟩

/-- A queue of n records of severity STEP_REPLAY, with one of another at the front. -/
def queue0 (c : Severity) (n : Nat) : Rpt :=
  { State.reset.dev.rpt with queue := rec0 c 0 :: (List.range n).map fun i => rec0 .stepReplay (i + 1) }

theorem test_reportQueue :
    (((queue0 .info 800).queue.map fun y => y.seq).Nodup ∧ (queue0 .info 800).queue.length = 801 ∧ 768 < 801)
    ∧ (rec0 .info 9).severity.code ≤ 1 ∧ (rec0 .correctable 9).severity.code ≤ 1 ∧ 1 < (rec0 .stepReplay 9).severity.code
    ∧ ((queue0 .info 1023).queue.map fun y => y.seq).Nodup ∧ (queue0 .info 1023).queue.length = 1024
    ∧ (queue0 .info 1023).queue = [] ++ rec0 .info 0 :: (List.range 1023).map (fun i => rec0 .stepReplay (i + 1))
    ∧ (∀ y ∈ (List.range 1023).map (fun i => rec0 .stepReplay (i + 1)), (rec0 .info 0).severity.code ≤ y.severity.code)
    ∧ (rec0 .info 0).severity.code < (rec0 .stepReplay 9).severity.code
    ∧ (∀ y ∈ (queue0 .partFatal 1023).queue, (rec0 .stepReplay 9).severity.code ≤ y.severity.code) := by
  have hn (c : Severity) (n : Nat) (h : n < 2000) : ((queue0 c n).queue.map fun y => y.seq).Nodup := by
    have : (queue0 c n).queue.map (fun y => y.seq) = (List.range (n + 1)).map fun i => BitVec.ofNat 32 i := by
      rw [List.range_succ_eq_map]
      simp [queue0, rec0, Function.comp_def]
    rw [this, List.Nodup, List.pairwise_map]
    refine List.pairwise_lt_range.imp_of_mem fun {i j} hi hj hij e => ?_
    have := congrArg BitVec.toNat e
    simp only [List.mem_range, BitVec.toNat_ofNat] at hi hj this
    omega
  refine ⟨⟨hn _ _ (by omega), by simp [queue0], by omega⟩, by decide, by decide, by decide, hn _ _ (by omega), by simp [queue0], rfl, ?_, by decide, ?_⟩
  · simp [rec0, Severity.code]
  · simp [queue0, rec0, Severity.code]
theorem test_requests : State.reset.dev.eng.phase = .reset ∧ (boot fun e => { e with phase := .init }).dev.eng.phase = .init
    ∧ ((run id).dev.eng.phase ≠ .reset ∧ (run id).dev.eng.phase ≠ .init ∧ (4 : BitVec 24).toNat % 8 ≠ 0) := by decide
/-- A raised record takes its place before one of its own tick that belongs to a later unit (R26). -/
theorem test_recordOrder :
    let late : Rec := { rec0 .stepReplay 1 with time := 7, unit := 0x3000 }
    let own : Rec := { rec0 .stepReplay 2 with time := 7, unit := 0x1000 }
    insertRec own [rec0 .stepReplay 0, late] = [rec0 .stepReplay 0, own, late]
    ∧ ((run id).dev.part 0).cfg.state ≠ .scrubbing ∧ ((run id).dev.part 0).cfg.state ≠ .free := by decide
/-- The TEL port: the operator reads a slice of a partition opened to it, a tenant reads its telemetry, and nothing else answers. -/
theorem test_debugReads :
    let s := run fun x => { x with cfg := { x.cfg with opDebug := true }, tel := { x.tel with power := 12 } }
    (s.dev.ownerOf 0 = some 0 ∧ (s.dev.part 0).cfg.opDebug = true ∧ debugWord s.sb s.dev 8 = some 0)
    ∧ ((run id).dev.ownerOf 0 = some 0 ∧ debugWord s.sb (run id).dev 8 = none ∧ s.dev.ownerOf 1 = none)
    ∧ s.dev.deaf = false ∧ State.reset.dev.deaf = true ∧ (s.dev.telPort 0 0x090008).isSome ∧ s.dev.telPort 0 0x030000 = none := by decide
/-- A step in progress, the host window between its two passes open. -/
def slotWindow : State :=
  run fun x => { x with mode := 128, ldr := { x.ldr with image := some imgPass }, sch := { x.sch with hostPending := true, hostSlot := 11 },
                        att := { x.att with launched := true, slots := [ran 10] } }

theorem test_ledgerWindow :
    (run id).dev.hears (.cfg 0) = true ∧ (run id).dev.hears .sec = true ∧ (run id).dev.entryOf (.cfg 0) .ledger 3 = some 3 ∧ (run id).dev.entryOf .sec .ledger 32767 = some 32767
    ∧ (run id).dev.entryOf (.cfg 0) .ledger 4 = none ∧ (run id).dev.lgrOpen 3 = true ∧ (slotRun id).dev.lgrOpen 3 = false ∧ (slotRun id).dev.scaleOpen 3 = false
    ∧ (let s := slotWindow
       s.dev.hears (.cfg 0) = true ∧ s.dev.entryOf (.cfg 0) .ledger 3 = some 3 ∧ s.dev.lgrOpen 3 = false ∧ s.dev.scaleOpen 3 = true
       ∧ s.dev.entryOwner .ledger 3 = some 0) := by decide +kernel

/-- A group word 0 of generation 2, and a word 1 with an epoch. -/
def group0 (epoch : Nat) : State × Word :=
  (st fun d => dev0 id { d with views := [(0, { ViewLatch.reset with grpStaged := some (0, BitVec.ofNat 64 (1 + 2 * 2 ^ 21 + 2 * 2 ^ 48)) })] },
   BitVec.ofNat 64 epoch)

theorem test_flueTables :
    (run id).dev.hears (.cfg 0) = true ∧ (run id).dev.entryOf (.cfg 0) .member 3 = some 3 ∧ (run id).dev.entryOwner .member 3 = some 0
    ∧ (run id).dev.memberUsed 0 (3 - ((run id).dev.part 0).cfg.membBase) = false ∧ (run id).dev.memberUsed 0 1 = true
    ∧ (run id).dev.entryOf (.cfg 0) .group 0 = some 0 ∧ (run id).dev.entryOwner .group 0 = some 0
    ∧ mayFlue ((run id).dev.part 0).sch.state = true := by decide +kernel
theorem test_groupWrite : ∀ e ∈ [6, 7],
    let s := (group0 e).1
    let g := tabGet GroupEntry.reset s.dev.groups 0
    let new := twoWords (groupFields (BitVec.ofNat 64 g.written.toNat) (stagedOr (s.dev.latch (.cfg 0)).grpStaged 0 (BitVec.ofNat 64 g.written.toNat))) (group0 e).2
    mayFlue (s.dev.part 0).sch.state = true ∧ s.dev.grpValid 0 g.inForce = true
    ∧ (gEffective new < (s.dev.part 0).sch.epoch.toNat + 2 ↔ e = 6) := by decide +kernel
/-- Before the job, with no group in force, the write of a group that takes effect two epochs ahead. -/
theorem test_groupSetup :
    let s : State := { (group0 7).1 with dev := dev0 (fun x => { x with sch := { x.sch with state := .ready } }) (group0 7).1.dev }
    let s : State := { s with dev := { s.dev with groups := [] } }
    let old := BitVec.ofNat 64 (tabGet GroupEntry.reset s.dev.groups 0).written.toNat
    mayFlue (s.dev.part 0).sch.state = false ∧ s.dev.grpValid 0 (tabGet GroupEntry.reset s.dev.groups 0).inForce = false
    ∧ s.dev.hears (.cfg 0) = true ∧ s.dev.entryOf (.cfg 0) .group 0 = some 0 ∧ s.dev.entryOwner .group 0 = some 0
    ∧ ¬ gEffective (twoWords (groupFields old (stagedOr (s.dev.latch (.cfg 0)).grpStaged 0 old)) (group0 7).2)
        < (s.dev.part 0).sch.epoch.toNat + 2 := by decide +kernel
theorem test_registers : (run id).dev.deaf = false ∧ ((run id).dev.part ((run id).dev.viewPart 0)).cfg.state ≠ .free ∧ (15 : Word).toNat < 16 := by
  decide
theorem test_probe :
    let s := run fun x => { x with rng := { x.rng with probeBusy := some 5 } }
    ((run id).dev.part 0).rng.probeBusy = none ∧ (s.dev.part (s.dev.reqPart (.cfg 0))).rng.probeBusy = some 5
    ∧ s.dev.hears (.cfg 0) = true ∧ (s.dev.part 0).cfg.state ≠ .free
    ∧ (let y := (run fun x => { x with rng := { x.rng with pending := some 7, ripe := true }, ldr := { x.ldr with locked := false } }).dev.part 0
       y.rng.pending = some 7 ∧ y.rng.ripe = true ∧ y.ldr.locked = false) := by decide
theorem test_records :
    (st fun d => { dev0 id d with rpt := queue0 .info 1 }).dev.rpt.queue = rec0 .info 0 :: [rec0 .stepReplay 1]
    ∧ (rec0 .info 0).part = some 0 ∧ (rec0 .info 0).opOnly = false ∧ ((run id).dev.part 0).cfg.state ≠ .free ∧ (run id).dev.hears (.cfg 0) = true
    ∧ ((run id).dev.part 0).ring.head - ((run id).dev.part 0).ring.tail = 0
    ∧ (64 ≤ ((run fun x => { x with ring := { x.ring with head := 64 } }).dev.part 0).ring.head.toNat) := by decide

/-! ## Witnesses: jobs, loading, the root of trust -/

theorem test_jobStarts :
    let s := run fun x => { x with sch := { x.sch with state := .ready } }
    let x := s.dev.part (s.dev.reqPart (.cfg 0))
    s.dev.hears (.cfg 0) = true ∧ starting0.dev.hears (.cfg 0) = true ∧ (x.sch.state = .ready ∧ x.cfg.state = .assigned ∧ s.dev.jobOk (s.dev.reqPart (.cfg 0)) = true
      ∧ 2 ≤ (s.dev.memberIds (s.dev.reqPart (.cfg 0))).eraseDups.length ∧ x.agree.starts = [] ∧ x.agree.joining = false)
    ∧ (starting0.dev.part 0).sch.state = .starting := by decide +kernel
theorem test_loadStarts : ∀ c ∈ [Sched.empty, .ready, .done],
    let y := (run fun x => { x with sch := { x.sch with state := c } }).dev.part 0
    (run fun x => { x with sch := { x.sch with state := c } }).dev.hears (.cfg 0) = true ∧ y.ldr.result ≠ 1 ∧ y.cfg.state = .assigned ∧ (y.sch.state = .empty ∨ y.sch.state = .ready ∨ y.sch.state = .done) := by decide

/-- Partition 0 in a partition-table state. -/
def life (c : PState) (done : Bool) : State := run fun x => { x with cfg := { x.cfg with state := c, resetDone := done } }

theorem test_partitionLife :
    (life .resetting true).dev.deaf = false ∧ (life .scrubbing true).dev.deaf = false ∧
    (run id).dev.eng.phase = .ready ∧ (life .free false).dev.assignable 0 = true ∧ ((run id).dev.part 0).cfg.state = .assigned
    ∧ (((life .resetting false).dev.part 0).cfg.state = .resetting ∧ ((life .resetting false).dev.part 0).cfg.resetDone = false
        ∧ ((life .resetting false).dev.memWrites.any fun y => y.part == 0) = false)
    ∧ ((life .resetting true).dev.part 0).cfg.resetDone = true ∧ ((life .scrubbing true).dev.part 0).cfg.state = .scrubbing := by decide +kernel
theorem test_fences :
    (run id).dev.eng.phase ≠ .reset ∧ (run id).dev.ownerOf (0 : SliceId).val = some 0 ∧ sliceCond ((run id).dev.fence 0) ≠ 2
    ∧ sliceCond ((run id).dev.fence 0 ||| (0x100 : Word).setWidth 16) = 2
    ∧ (let s := st fun d => { d with eng := { d.eng with fences := (List.range 15).map fun i => (i + 1, 0x100) } }
       s.dev.eng.phase = .ready
       ∧ anyService (tabSet 0 s.dev.eng.fences (0 : SliceId).val (s.dev.fence 0 ||| (0x100 : Word).setWidth 16)) = false) := by decide +kernel

/-- The staged firmware bank valid and locked. -/
def staged0 : State := st fun d => { d with stk := { d.stk with running := true, bank1 := { Bank.reset with valid := true, locked := true, version := 4 } } }

theorem test_firmware :
    staged0.dev.fwOpen = true ∧ (staged0.dev.stk.bank 0).locked = false ∧ staged0.dev.stk.isActive 1 = false
    ∧ (boot fun e => { e with phase := .firmware }).dev.eng.phase = .firmware
    ∧ staged0.dev.eng.phase = .ready ∧ staged0.dev.stk.stagedBank.valid = true ∧ staged0.dev.stk.stagedBank.locked = true
    ∧ (∀ p, (staged0.dev.part p).ldr.image = none) ∧ (∀ p, (staged0.dev.part p).swapReady = true) := by decide +kernel
theorem test_losses :
    ((run id).dev.eng.phase = .ready ∧ ((run id).dev.part 0).cfg.state = .assigned ∧ ((run id).dev.part 1).cfg.state ≠ .assigned)
    ∧ ((run id).dev.stk.running = true ∧ (run id).dev.stk.lastRestart = none)
    ∧ (let s := st fun d => { d with stk := { d.stk with running := true, lastRestart := some 0 } }
       s.dev.stk.lastRestart = some 0 ∧ max s.now 2097152 < 0 + 67108864)
    ∧ (let s := st fun d => { d with stk := { d.stk with restarting := true } }
       s.dev.stk.restarting = true ∧ s.dev.stk.swapping = false)
    ∧ (let s := boot fun e => { e with phase := .noService }
       s.dev.eng.phase ≠ .reset ∧ s.dev.eng.phase ≠ .init)
    ∧ (boot fun e => { e with phase := .init, tbLocked := true }).dev.eng.tbLocked = true := by decide
theorem test_keys :
    (run id).dev.eng.phase = .ready ∧ (run id).dev.keyFree 0 = true
    ∧ (st fun d => dev0 id { d with keys := [(0, key0)] }).dev.keyFree 0 = false := by decide +kernel

/-! ## Results worked from the spec's own figures -/

/-- Spec 02, worked example: element (10, 401) of an E2M1 tensor of K 4,096 (R58, R59, R64). -/
theorem test_streamPlaces :
    elemIndex 4096 10 401 = 41361 ∧ blockOf .e2m1 4096 10 401 = 35 ∧ byteInBlock .e2m1 10 (401 % 128) = 136
    ∧ groupOf .e2m1 32 4096 10 401 = 1128 ∧ codeTag 0x001234 35 = 0x1217 ∧ scaleTag 0x001234 2 = 0x9236
    ∧ ashWord 17 true 272630 = 0x230428F6#32 := by decide +kernel
/-- Table 2.13: −3.584 and 5.12 in the four-bit formats (R43). -/
theorem test_encodings :
    [bookE2m1, bookI4].map (fun b => b.nearest (-3584 / 1000)) = [0xE, 0xC]
    ∧ [bookE2m1, bookI4].map (fun b => b.nearest (512 / 100)) = [0x7, 0x5] := by decide +kernel

/-- The group of Tables 3.6 and 3.7. -/
def group1 : List (Option (FVal × Word)) :=
  (List.range 32).map fun i => some (.fin ((([(20, -111875), (3, 30937.5), (9, -5156.25), (25, 3007.8125), (14, 2343.75), (7, -937.5), (31, -625),
    (0, 468.75)] : List (Nat × Rat)).lookup i).getD 0 / 10000), 0)

/-- Spec 03, worked example: a group with two outliers (R82 to R86, R49, R58). -/
theorem test_quantise :
    let g := quantGroup bookE2m1 2 .rne (1 / 64) group1
    (List.range 16).map (fun i => g.codes.getD (2 * i) 0 + 16 * g.codes.getD (2 * i + 1) 0)
      = [0x01, 0x80, 0x00, 0xA0, 0xF0, 0x00, 0x00, 0x05, 0x00, 0x00, 0x08, 0x00, 0x60, 0x00, 0x00, 0x90]
    ∧ g.gs8 = 0xD3 ∧ ashWords g.ash = [0x06024000#32, 0x29F7DD17#32] ∧ g.stats.elements = 32 ∧ g.stats.groups = 1 ∧ g.stats.ashUsed = 2
    ∧ g.stats.amax = 0x41330000#32 := by decide +kernel
/-- The same group without escapes: GS8 0x77, and −33/120 takes the nearer −0.5. -/
theorem test_quantiseNoEscape :
    let g := quantGroup bookE2m1 0 .rne (1 / 64) group1
    g.gs8 = 0x77 ∧ [0, 3, 7, 9, 14, 20, 25, 31].map (fun i => g.codes.getD i 0) = [0, 3, 0, 9, 0, 15, 0, 0] := by decide +kernel
/-- Spec 02, worked example: MX import with a flush (R68). -/
theorem test_mxImport :
    mxTs32 .fp4 (some 133) = (0x3F000000#32, -1)
    ∧ (mxImport .fp4 (-1) 133 [0x7, 0x8, 0xB, 0x1]).codes = [0x7, 0x0, 0xB, 0x1] ∧ (mxImport .fp4 (-1) 133 [0x7]).gs8 = 0x78
    ∧ (mxImport .fp4 (-1) 126 [0x7]).gs8 = 0x40 ∧ (mxImport .fp4 (-1) 118 [0x7]).gs8 = 0 ∧ (mxImport .fp4 (-1) 118 [0x7]).stats.flushed = 1 := by
  decide +kernel

/-- Group 0 and group 1 of both operands in Tables 4.5 and 4.6. -/
def groupA (i : Nat) : OpGroup :=
  if i = 0 then opGroup bookE2m1 false ([2, 7, 13, 0, 0, 1] ++ List.replicate 26 0) 0x40 []
  else opGroup bookE2m1 false ([8, 4] ++ List.replicate 30 0) 0xC4 [0x0100C350#32]
def groupB (i : Nat) : OpGroup :=
  if i = 0 then opGroup bookE2m1 false ([5, 15, 12, 0, 0, 6, 0, 3] ++ List.replicate 24 0) 0x42 []
  else opGroup bookE2m1 false ([2, 11] ++ List.replicate 30 0) 0x3A []

/-- Spec 04, worked example: one element of a tile, from codes to F32, BF16 and F16 (R101, R109, R111). -/
theorem test_element :
    contribution (groupA 0) (groupB 0) = -125 * 2 ^ 44 ∧ contribution (groupA 1) (groupB 1) = 35355 * 2 ^ 34
    ∧ (let v := (Val.exact (BitVec.ofInt 128 (-92645 * 2 ^ 34)) 0x3C800000 0x3B400000).real
       [specF32, specBF16, specF16].map (fun f => encodeF f .rne 0 v) = [0xBA87B5E0, 0xBA88, 0x943E]) := by decide +kernel
/-- Spec 04: one tie apart; the single rounding to BF16 is not that of the F32 value. -/
theorem test_singleRounding :
    let v := (Val.exact 0x0000404000010000#128 one32 one32).real
    encodeF specBF16 .rne 0 v = 0x3F81 ∧ encodeF specBF16 .rne 0 (f32Val (toF32 v)) = 0x3F80 := by decide +kernel
/-- Spec 05: a bias in the chain, and after a store in BF16. -/
theorem test_bias :
    fAdd 0xBA87B5E0#32 0x3A800000#32 = 0xB876BC00#32 ∧ fAdd 0xBA880000#32 0x3A800000#32 = 0xB8800000#32 := by decide +kernel
/-- Spec 07: the packed inputs of a draw (R171). -/
theorem test_draw :
    packP0 0x41 0x4B7 12302 = 0x00000041000004B7000000000000300E#128 ∧ packP1 0 0x04F3 0x000A31 = 0x000000000000000000000004F3000A31#128 := by
  decide
/-- Table 7.8: the noise of a draw whose f is 0, and the merges of the two members' records. -/
theorem test_sampler :
    mergeBest (0x40BBBAA5#32, 3) (0x40E0CF01#32, 5) = (0x40E0CF01#32, 5) ∧ mergeBest (0x40400000#32, 4) (0x40400000#32, 1) = (0x40400000#32, 1) := by
  decide +kernel
/-- Table 8.7: 3,100 clipped of 33,554,432 fail a clip threshold of 64, and 2,425 flushed groups pass a threshold of 16,384 (R208); the
scale of top 129 with a margin of 0 (R203). -/
theorem test_failCause :
    let pol : Word := BitVec.ofNat 64 (64 * 2 ^ 48 + 16384 * 2 ^ 32)
    failCauseOf pol { LedgerEntry.reset with elements := 33554432, groups := 1048576, clipped := 3100, ashUsed := 10892, flushed := 2425 } = 1
    ∧ ts32OfTop 129 0 = 0x3B800000#32 := by decide +kernel
/-- Tables 12.4 and 12.5: the requests of a busy array at G3 and stretches 64, 87 and 88, at G2 and stretch 73, and at G1, in 0.25 A (R330). -/
theorem test_requestAmps :
    arrayAmps 3 1048576 1400000 1 = 59 ∧ arrayAmps 3 (16384 * 87) 1400000 1 = 45 ∧ arrayAmps 3 (16384 * 88) 1400000 1 = 44
    ∧ arrayAmps 2 (16384 * 73) 1284000 1 = 44 ∧ arrayAmps 1 1048576 1159000 1 = 42 := by decide +kernel
/-- Spec 15: a packet of 10 lines holds a context for 213 port clocks of 0.5 ns (R284, R398). -/
theorem test_holdTicks : holdTicks 2000 (pkt tyTileCode 0 0 (List.replicate 5120 0)) = 107 := by decide +kernel
/-- CRC-32C of "123456789", and SHA-384 of "abc" (their standards' test vectors). -/
theorem test_digests :
    crc32c [0x31, 0x32, 0x33, 0x34, 0x35, 0x36, 0x37, 0x38, 0x39] = 0xE3069283#32
    ∧ (sha384 [0x61, 0x62, 0x63]).take 8 = [0xCB, 0x00, 0x75, 0x3F, 0x45, 0xA3, 0x5E, 0x8B] := by decide +kernel

end Sys2Proof.Tests
end

section
/-! SUPPORT and O36. Requests that are heard, and the context registers: what each operation makes of them (R365, R366, R370),
and that a save's end touches nothing else of its partition. -/

namespace Sys2Proof.Machine

/-- A request that Table 15.4 has the engine hear, at an aligned address, is served. -/
theorem serve_of_hears {d : Dev} {r : Requester} {addr : Nat} (f : Dev → Dev) (h : d.hears r = true) (ha : addr % 8 = 0) :
    serve r addr d f = f d := by
  obtain ⟨hdeaf, hknown⟩ : d.deaf = false ∧ isKnown r = true := by simpa [Dev.hears] using h
  simp [serve, hdeaf, hknown, ha]

/-! ## Requests on the context registers -/

@[simp] theorem Dev.part_modCtx_self (d : Dev) (p : PartId) (f : Ctx → Ctx) :
    (d.modCtx p f).part p = { d.part p with ctx := f (d.part p).ctx } := d.part_modPart_self p _

theorem Dev.part_modCtx_ne (d : Dev) {p q : PartId} (f : Ctx → Ctx) (h : q ≠ p) : (d.modCtx p f).part q = d.part q :=
  d.part_modPart_ne _ h

/-- What OP 1 makes of the context registers when the image passes (R370). -/
def Ctx.registered (i : Fin 8) (ds : Descriptor) (img : Image) (c : Ctx) : Ctx :=
  { keepDesc c i.val ds with
    reg := c.reg ||| (1#8 <<< i.val), images := tabPut c.images i.val (readImage img),
    leaving := c.leaving.filter (· != i.val), result := 2 }

/-- What OP 2 makes of the context registers (R370). -/
def Ctx.takenOut (i : Fin 8) (c : Ctx) : Ctx :=
  if c.reg.getLsbD i.val then { c with leaving := c.leaving.filter (· != i.val) ++ [i.val], result := 2 } else c

/-- What OP 3 makes of the context registers (R365). -/
def Ctx.saveAsked (i : Fin 8) (ds : Descriptor) (c : Ctx) : Ctx := { keepDesc c i.val ds with request := true }

/-- A request on the context registers: INDEX is stored (R11, Table 13.10), and the operation changes them. -/
def Dev.ctxRequest (d : Dev) (v : Requester) (i : Fin 8) (f : Ctx → Ctx) : Dev := (d.ctxOp v i).modCtx (d.reqPart v) f

theorem Dev.part_ctxRequest_self (d : Dev) (v : Requester) (i : Fin 8) (f : Ctx → Ctx) :
    (d.ctxRequest v i f).part (d.reqPart v)
      = { d.part (d.reqPart v) with ctx := f { (d.part (d.reqPart v)).ctx with index := i.val } } := by
  simp [Dev.ctxRequest, Dev.ctxOp]

theorem Dev.part_ctxRequest_ne (d : Dev) (v : Requester) (i : Fin 8) (f : Ctx → Ctx) {q : PartId} (h : q ≠ d.reqPart v) :
    (d.ctxRequest v i f).part q = d.part q := by
  simp [Dev.ctxRequest, Dev.ctxOp, Dev.part_modCtx_ne _ _ h]

section
variable {t : Tick} {v : Requester} {i : Fin 8} {ds : Descriptor} {s : State}

theorem exec_ctxRegister_passed {img : Image} (hv : s.dev.hears v = true)
    (hc : s.dev.registerCheck (s.dev.reqPart v) i.val ds (some img) = none) :
    exec (.ctxRegister t v i ds (some img)) s
      = .next { s with now := max s.now t, dev := s.dev.ctxRequest v i (.registered i ds img) } := by
  show execCtxRegister t v i ds (some img) s = _
  simp only [execCtxRegister, onDev, serve_of_hears _ hv, hc]
  rfl

theorem exec_ctxDeregister_heard (hv : s.dev.hears v = true) :
    exec (.ctxDeregister t v i) s = .next { s with now := max s.now t, dev := s.dev.ctxRequest v i (.takenOut i) } := by
  show execCtxDeregister t v i s = _
  simp only [execCtxDeregister, onDev, serve_of_hears _ hv]
  rfl

theorem exec_ctxSave_heard (hv : s.dev.hears v = true) :
    exec (.ctxSave t v i ds) s = .next { s with now := max s.now t, dev := s.dev.ctxRequest v i (.saveAsked i ds) } := by
  show execCtxSave t v i ds s = _
  simp only [execCtxSave, onDev, serve_of_hears _ hv]
  rfl

end

/-! ## The registered contexts as OP 1 leaves them -/

theorem Ctx.registered_reg_self (i : Fin 8) (ds : Descriptor) (img : Image) (c : Ctx) :
    (c.registered i ds img).reg.getLsbD i.val = true := by
  simp [Ctx.registered]

theorem Ctx.registered_reg_ne (i : Fin 8) (ds : Descriptor) (img : Image) (c : Ctx) {k : Nat} (h : k ≠ i.val) :
    (c.registered i ds img).reg.getLsbD k = c.reg.getLsbD k := by
  have hbit : (1#8 <<< i.val).getLsbD k = false := by
    rcases Nat.lt_or_gt_of_ne h with hk | hk
    · simp [hk]
    · simp [Nat.sub_ne_zero_of_lt hk]
  simp [Ctx.registered, hbit, -BitVec.getLsbD_shiftLeft]

/-! ## The end of a save -/

/-- Only the keys, the report queue and the context registers of partition p differ. -/
def CtxOnly (p : PartId) (d e : Dev) : Prop :=
  (∃ keys rpt parts, e = { d with keys := keys, rpt := rpt, parts := parts }) ∧ (∀ q, q ≠ p → e.part q = d.part q)
    ∧ e.part p = { d.part p with ctx := (e.part p).ctx }

namespace CtxOnly
variable {p : PartId} {a b c : Dev}

theorem trans (h : CtxOnly p a b) (k : CtxOnly p b c) : CtxOnly p a c := by
  obtain ⟨⟨_, _, _, rfl⟩, ho, hp⟩ := h
  obtain ⟨⟨_, _, _, rfl⟩, ko, kp⟩ := k
  exact ⟨⟨_, _, _, rfl⟩, fun q hq => (ko q hq).trans (ho q hq), by rw [kp, hp]⟩

theorem modCtx (p : PartId) (d : Dev) (f : Ctx → Ctx) : CtxOnly p d (d.modCtx p f) :=
  ⟨⟨_, _, _, rfl⟩, fun _ h => d.part_modCtx_ne f h, by rw [Dev.part_modCtx_self]⟩

theorem bumpNonce (p : PartId) (d : Dev) (h : Nat) : CtxOnly p d (d.bumpNonce p h) := ⟨⟨_, _, _, rfl⟩, fun _ _ => rfl, rfl⟩

theorem raise (p : PartId) (d : Dev) (t : Nat) (r : Report) : CtxOnly p d (d.raise t r) := by
  rw [d.raise_frame]; exact ⟨⟨_, _, _, rfl⟩, fun _ _ => rfl, rfl⟩

end CtxOnly

@[simp] theorem Dev.key_modCtx (d : Dev) (p : PartId) (f : Ctx → Ctx) (h : Nat) : (d.modCtx p f).key p h = d.key p h := by
  rw [Dev.key, Dev.key, Dev.part_modCtx_self]; rfl

@[simp] theorem Dev.maySeal_modCtx (d : Dev) (p : PartId) (f : Ctx → Ctx) (h : Nat) :
    (d.modCtx p f).maySeal p h = d.maySeal p h := by
  rw [Dev.maySeal, Dev.maySeal, Dev.key_modCtx, Dev.part_modCtx_self]

/-- A key that may seal lies in the partition's range (R351, R354). -/
theorem Dev.lt_keyCount_of_maySeal {d : Dev} {p : PartId} {h : Nat} (hm : d.maySeal p h = true) : h < (d.part p).cfg.keyCount := by
  refine Decidable.byContradiction fun hn => ?_
  simp [Dev.maySeal, Dev.key, hn, KeySlot.reset] at hm

@[simp] theorem Dev.part_bumpNonce (d : Dev) (p q : PartId) (h : Nat) : (d.bumpNonce p h).part q = d.part q := rfl

theorem Dev.key_bumpNonce {d : Dev} {p : PartId} {h : Nat} (hk : h < (d.part p).cfg.keyCount) :
    (d.bumpNonce p h).key p h = { d.key p h with count := (d.key p h).count + 1 } := by
  rw [Dev.key, Dev.part_bumpNonce, if_pos hk, Dev.key, if_pos hk]
  simp [Dev.bumpNonce, tabGet_tabMod]

/-- The context registers of a save that is done: the slot's step noted, the image kept, RESULT 2 (R365). -/
def Ctx.saved (w : SaveJob) (ds : Descriptor) (slot : Nat) (img : CtxImage) (c : Ctx) : Ctx :=
  { noteSlot (keepDesc c w.index ds) w.index slot (some w.step.toNat) with
    savedStep := w.step.setWidth 32, result := 2, retry := none, saving := none, written := some ⟨w.index, slot, w.step, img⟩,
    writes := saveWrites (slotAddr ds slot) img }

/-- The context registers of a save that has failed: RESULT 3, the slot kept for the retry, no switch (R366). -/
def Ctx.failed (slot : Nat) (c : Ctx) : Ctx := { c with result := 3, retry := some slot, saving := none, switching := false }

/-- The context registers of a save whose write k was answered with an error: the slot holds no step (R366). -/
def Ctx.cutOff (w : SaveJob) (ds : Descriptor) (slot : Nat) (img : CtxImage) (k : Fin 3) (c : Ctx) : Ctx :=
  { noteSlot (keepDesc c w.index ds) w.index slot none with writes := (saveWrites (slotAddr ds slot) img).take (k.val + 1) }

/-- The record of a failed save (R366). -/
def saveFailure (p : PartId) (slot reason : Nat) : Report :=
  { code := 0x11, severity := .info, unit := sharedUnit 1, part := some p, synd := reason + (0xC0 + slot) * 2 ^ 8 + 2 ^ 16 }

theorem Dev.saveFailed_eq (d : Dev) (t : Nat) (p : PartId) (slot reason : Nat) :
    d.saveFailed t p slot reason = (d.modCtx p (.failed slot)).raise t (saveFailure p slot reason) :=
  Dev.report_low _ t (saveFailure p slot reason) (.inl rfl)

theorem CtxOnly.saveFailed (d : Dev) (t : Nat) (p : PartId) (slot reason : Nat) : CtxOnly p d (d.saveFailed t p slot reason) := by
  rw [Dev.saveFailed_eq]; exact (modCtx p d _).trans (raise p _ t _)

@[simp] theorem Dev.saveFailed_ctx (d : Dev) (t : Nat) (p : PartId) (slot reason : Nat) :
    ((d.saveFailed t p slot reason).part p).ctx = (d.part p).ctx.failed slot := by
  rw [Dev.saveFailed_eq, Dev.raise_part, Dev.part_modCtx_self]

@[simp] theorem Dev.saveFailed_keys (d : Dev) (t : Nat) (p : PartId) (slot reason : Nat) :
    (d.saveFailed t p slot reason).keys = d.keys := by
  simp [Dev.saveFailed, Dev.modCtx]

section
variable {d : Dev} {t : Nat} {p : PartId} {w : SaveJob} {e : SaveEnd} {ds : Descriptor} {slot0 slot1 : CtxImage}

theorem CtxOnly.saveEnds : CtxOnly p d (d.saveEnds t p w e ds slot0 slot1) := by
  have kept := modCtx p d fun c => keepDesc c w.index ds
  have raised := kept.trans (bumpNonce p _ ds.key)
  simp only [Dev.saveEnds]
  split
  · cases e with
    | done => exact raised.trans (modCtx p _ _)
    | memError k => exact (raised.trans (modCtx p _ _)).trans (saveFailed _ t p _ _)
  · exact kept.trans (saveFailed _ t p _ _)

section
variable (hm : d.maySeal p ds.key = true)
include hm

theorem Dev.saveEnds_done_ctx : ((d.saveEnds t p w .done ds slot0 slot1).part p).ctx
    = (d.part p).ctx.saved w ds (d.slotFor p ds slot0 slot1) (sealBody (d.key p ds.key) w.body) := by
  simp only [Dev.saveEnds, Dev.maySeal_modCtx, hm, if_true, Dev.key_modCtx, Dev.part_modCtx_self, Dev.part_bumpNonce]
  rfl

theorem Dev.saveEnds_memError_ctx (k : Fin 3) : ((d.saveEnds t p w (.memError k) ds slot0 slot1).part p).ctx
    = ((d.part p).ctx.cutOff w ds (d.slotFor p ds slot0 slot1) (sealBody (d.key p ds.key) w.body) k).failed
        (d.slotFor p ds slot0 slot1) := by
  simp only [Dev.saveEnds, Dev.maySeal_modCtx, hm, if_true, Dev.key_modCtx, Dev.saveFailed_ctx, Dev.part_modCtx_self,
    Dev.part_bumpNonce]
  rfl

theorem Dev.saveEnds_done_count : ((d.saveEnds t p w .done ds slot0 slot1).key p ds.key).count = (d.key p ds.key).count + 1 := by
  simp only [Dev.saveEnds, Dev.maySeal_modCtx, hm, if_true, Dev.key_modCtx]
  rw [Dev.key_bumpNonce (Dev.lt_keyCount_of_maySeal ((d.maySeal_modCtx p _ _).trans hm)), Dev.key_modCtx]

end

section
variable (hm : d.maySeal p ds.key = false)
include hm

/-- Without a key that may seal, the save fails before any write (R366). -/
theorem Dev.saveEnds_unsealed : d.saveEnds t p w e ds slot0 slot1
    = (d.modCtx p fun c => keepDesc c w.index ds).saveFailed t p (d.slotFor p ds slot0 slot1) 0x0E := by
  simp only [Dev.saveEnds, Dev.maySeal_modCtx, hm, Bool.false_eq_true, if_false]

theorem Dev.saveEnds_unsealed_ctx : ((d.saveEnds t p w e ds slot0 slot1).part p).ctx
    = (keepDesc (d.part p).ctx w.index ds).failed (d.slotFor p ds slot0 slot1) := by
  rw [Dev.saveEnds_unsealed hm, Dev.saveFailed_ctx, Dev.part_modCtx_self]

theorem Dev.saveEnds_unsealed_keys : (d.saveEnds t p w e ds slot0 slot1).keys = d.keys := by
  rw [Dev.saveEnds_unsealed hm, Dev.saveFailed_keys]; rfl

end

theorem Dev.saveEnds_saving : ((d.saveEnds t p w e ds slot0 slot1).part p).ctx.saving = none := by
  cases hm : d.maySeal p ds.key with
  | false => rw [Dev.saveEnds_unsealed_ctx hm]; rfl
  | true =>
    cases e with
    | done => rw [Dev.saveEnds_done_ctx hm]; rfl
    | memError k => rw [Dev.saveEnds_memError_ctx hm]; rfl

/-- The end of a save begins no switch that was not waiting for it (R371). -/
theorem Dev.saveEnds_switching (hs : (d.part p).ctx.switching = false) :
    ((d.saveEnds t p w e ds slot0 slot1).part p).ctx.switching = false := by
  cases hm : d.maySeal p ds.key with
  | false => rw [Dev.saveEnds_unsealed_ctx hm]; rfl
  | true =>
    cases e with
    | done => rw [Dev.saveEnds_done_ctx hm]; exact hs
    | memError k => rw [Dev.saveEnds_memError_ctx hm]; rfl

end

/-- CONTEXT_SAVE_COMPLETE of a save that no switch waits for only ends the save (R365, R371). -/
theorem exec_contextSaveComplete_unswitched {t : Tick} {p : PartId} {e : SaveEnd} {ds : Descriptor} {slot0 slot1 : CtxImage}
    {next : List NextCtx} {s : State} {w : SaveJob} (hw : (s.dev.part p).ctx.saving = some w)
    (hs : (s.dev.part p).ctx.switching = false) :
    exec (.contextSaveComplete t p ⟨e, ds, slot0, slot1⟩ next) s
      = .next { s with now := max s.now t, dev := s.dev.saveEnds (max s.now t) p w e ds slot0 slot1 } := by
  show execContextSaveComplete t p ⟨e, ds, slot0, slot1⟩ next s = _
  simp [execContextSaveComplete, onAll, hw, hs, Dev.saveEnds_switching hs]

end Sys2Proof.Machine

namespace Sys2Proof
open Sys2Proof.Machine Sys2Proof.Claims

/-- A request on the context registers touches those registers and the response (R11). -/
theorem Claims.partOnly_ctxRequest (t : Tick) (v : Requester) (i : Fin 8) (f : Ctx → Ctx) (s : State) :
    PartOnly (s.dev.reqPart v) t s { s with now := max s.now t, dev := s.dev.ctxRequest v i f } :=
  ⟨rfl, fun _ h => s.dev.part_ctxRequest_ne v i f h⟩

/-- Every end of a save ends SAVING and changes nothing but keys, report queue and the context registers (R365, R366). -/
theorem Claims.saveEnds_frame (t : Tick) (p : PartId) (w : SaveJob) (e : SaveEnd) (ds : Descriptor) (slot0 slot1 : CtxImage)
    (s : State) :
    let s' : State := { s with now := max s.now t, dev := s.dev.saveEnds (max s.now t) p w e ds slot0 slot1 }
    UnitsAre t s s' { s.dev with keys := s'.dev.keys, rpt := s'.dev.rpt, parts := s'.dev.parts } ∧ OthersSame p s s'
      ∧ (s'.dev.part p).ctx.saving = none ∧ s'.dev.part p = { s.dev.part p with ctx := (s'.dev.part p).ctx } := by
  obtain ⟨⟨keys, rpt, parts, h⟩, others, self⟩ :=
    CtxOnly.saveEnds (d := s.dev) (t := max s.now t) (p := p) (w := w) (e := e) (ds := ds) (slot0 := slot0) (slot1 := slot1)
  exact ⟨by simp only [UnitsAre, h], others, Dev.saveEnds_saving, self⟩

/-- Settles O36: each request is one change of the context registers, and each end of a save is `Dev.saveEnds`, whose effect on them
depends on the key and on the answer to the writes alone. -/
theorem contextRequests : Obligations.ContextRequests := by
  unfold Obligations.ContextRequests
  intro t v i ds s p x hv
  refine ⟨fun img hc => ?_, fun hr => ?_, ?_, fun w slot0 slot1 next hw hs =>
    ⟨fun hm => ⟨?_, fun k => ?_⟩, fun hm e => ?_⟩⟩
  · refine ⟨_, exec_ctxRegister_passed hv hc, partOnly_ctxRequest t v i _ s, ?_⟩
    rw [Dev.part_ctxRequest_self]
    exact ⟨rfl, Ctx.registered_reg_self i ds img _, rfl, by simp [Ctx.registered], rfl,
      fun k _ hk => Ctx.registered_reg_ne i ds img _ hk⟩
  · refine ⟨_, exec_ctxDeregister_heard hv, partOnly_ctxRequest t v i _ s, ?_⟩
    have hr' : ({ (s.dev.part (s.dev.reqPart v)).ctx with index := i.val } : Ctx).reg.getLsbD i.val = true := hr
    rw [Dev.part_ctxRequest_self, Ctx.takenOut, if_pos hr']
    exact ⟨rfl, by simp, rfl, rfl⟩
  · refine ⟨_, exec_ctxSave_heard hv, partOnly_ctxRequest t v i _ s, ?_⟩
    rw [Dev.part_ctxRequest_self]; rfl
  · refine ⟨_, exec_contextSaveComplete_unswitched hw hs, saveEnds_frame t p w .done ds slot0 slot1 s, ?_⟩
    rw [Dev.saveEnds_done_ctx hm, Dev.saveEnds_done_count hm]
    exact ⟨rfl, rfl, rfl, rfl, rfl⟩
  · refine ⟨_, exec_contextSaveComplete_unswitched hw hs, saveEnds_frame t p w (.memError k) ds slot0 slot1 s, ?_⟩
    rw [Dev.saveEnds_memError_ctx hm]
    exact ⟨rfl, rfl, rfl⟩
  · refine ⟨_, exec_contextSaveComplete_unswitched hw hs, saveEnds_frame t p w e ds slot0 slot1 s, ?_⟩
    rw [Dev.saveEnds_unsealed_ctx hm]
    exact ⟨rfl, rfl, rfl, Dev.saveEnds_unsealed_keys hm⟩

end Sys2Proof
end

section
/-! SUPPORT and O51. Register requests (R400, R413 to R418): ENG_OPSEL, LDR_ADDR and the halves of RNG_SEED, written and read. -/

namespace Sys2Proof.Machine

/-! ## Requests of a view -/

theorem Dev.hears_cfg {d : Dev} (v : View) (h : d.deaf = false) : d.hears (.cfg v) = true := by simp [Dev.hears, isKnown, h]

section
variable {t : Tick} {v : View} {addr : BitVec 24} {a : Nat} {s : State}

theorem exec_registerWrite_heard (data : Word) (hd : s.dev.deaf = false) (haddr : addr.toNat = a) (ha : a % 8 = 0) :
    exec (.registerWrite t (.cfg v) addr data) s
      = .next { s with now := max s.now t, dev := s.dev.write (max s.now t) (.cfg v) a data } := by
  show execRegisterWrite t (.cfg v) addr data s = _
  rw [execRegisterWrite, onDev, haddr, serve_of_hears _ (Dev.hears_cfg v hd) ha]

theorem exec_loReadLatch_heard (hd : s.dev.deaf = false) (haddr : addr.toNat = a) (ha : a % 8 = 0) :
    exec (.loReadLatch t (.cfg v) addr) s
      = .next { s with now := max s.now t, dev := s.dev.read (.cfg v) a } := by
  show execLoReadLatch t (.cfg v) addr s = _
  rw [execLoReadLatch, onDev, haddr, serve_of_hears _ (Dev.hears_cfg v hd) ha]

end

/-! ## Counted writes (R418, R428) -/

section
variable (d : Dev) (v : View) (bad : Bool)

/-- A write of a view is not counted, or counted in the telemetry of its partition, or in CFG_IGNORED_OP. -/
theorem Dev.counted_cases : d.counted (.cfg v) bad = d ∨ d.counted (.cfg v) bad = d.bump (d.viewPart v) 0 1
    ∨ d.counted (.cfg v) bad = d.bumpOp := by
  cases bad with
  | false => exact .inl rfl
  | true => by_cases hv : v.val < 16 <;> simp [Dev.counted, Dev.reqIgnored, Dev.ignored, Dev.viewPart, hv]

theorem Dev.counted_frame : d.counted (.cfg v) bad = { d with
    eng := { d.eng with ignoredOp := (d.counted (.cfg v) bad).eng.ignoredOp }, parts := (d.counted (.cfg v) bad).parts } := by
  rcases d.counted_cases v bad with h | h | h <;> rw [h] <;> rfl

theorem Dev.part_counted_ne {q : PartId} (h : q ≠ d.viewPart v) : (d.counted (.cfg v) bad).part q = d.part q := by
  rcases d.counted_cases v bad with hc | hc | hc <;> rw [hc]
  · exact d.part_bump_ne 0 1 h
  · rfl

theorem Dev.part_counted_self :
    ∃ tel, (d.counted (.cfg v) bad).part (d.viewPart v) = { d.part (d.viewPart v) with tel := tel } := by
  rcases d.counted_cases v bad with hc | hc | hc <;> rw [hc]
  · exact ⟨_, rfl⟩
  · exact ⟨_, d.part_bump_self _ 0 1⟩
  · exact ⟨_, rfl⟩

end

/-! ## ENG_OPSEL and LDR_ADDR -/

/-- A word below 2^k has no ones outside its k low bits. -/
theorem extra_lowMask {w : Word} {k : Nat} (h : w.toNat < 2 ^ k) : extra w (2 ^ k - 1) = false := by
  have hz : w &&& ~~~(BitVec.ofNat 64 (2 ^ k - 1)) = 0 := by
    apply BitVec.eq_of_getLsbD_eq
    intro i hi
    rcases Nat.lt_or_ge i k with hik | hki
    · have hm : (BitVec.ofNat 64 (2 ^ k - 1)).getLsbD i = true := by
        simp [BitVec.getLsbD_ofNat, hi, hik, Nat.testBit_two_pow_sub_one]
      rw [BitVec.getLsbD_and, BitVec.getLsbD_not, hm]
      simp
    · have hw : w.getLsbD i = false := Nat.testBit_lt_two_pow (Nat.lt_of_lt_of_le h (Nat.pow_le_pow_right Nat.two_pos hki))
      simp [hw]
  simp [extra, hz]

theorem Dev.write_opsel (d : Dev) (n : Nat) {data : Word} (h : data.toNat < 16) : d.write n (.cfg 16) 0x80 data
    = { d with eng := { d.eng with opsel := Fin.ofNat 16 data.toNat }, rsp := some ⟨0, 0⟩ } := by
  have hsel : fld data 3 0 = data.toNat := by simp [fld, Nat.mod_eq_of_lt h]
  have hin : extra data 0xF = false := extra_lowMask (k := 4) h
  have hop : isOp (.cfg 16) = true := rfl
  simp [Dev.write, windowOf, Dev.engWrite, hop, hsel, hin, Dev.counted, Dev.respond]

/-- LDR_ADDR is no register of the operator's own map: its view shows the selected partition's. -/
theorem Dev.operRead_ldrAddr (d : Dev) : d.operRead 0x030000 = none := rfl

/-- A partition whose LDR_ADDR takes a word: bits 63 to 9 (Table 16.6). -/
def Part.takeLdrAddr (x : Part) (w : Word) : Part := { x with ldr := { x.ldr with addr := w &&& ~~~0x1FF#64 } }

/-- A view's write of LDR_ADDR: the register takes the word, and ones in its reserved bits are counted (R418). -/
def Dev.writeLdrAddr (d : Dev) (v : View) (w : Word) : Dev :=
  ((d.modPart (d.viewPart v) fun x => x.takeLdrAddr w).counted (.cfg v) (extra w (2 ^ 64 - 512))).respond 0 0

theorem Dev.write_ldrAddr {d : Dev} (n : Nat) {v : View} (w : Word) (h : (d.part (d.viewPart v)).cfg.state ≠ .free) :
    d.write n (.cfg v) 0x030000 w = d.writeLdrAddr v w := by
  simp [Dev.write, windowOf, bankedAt, Dev.partWrite, Dev.reqPart, Dev.operRead_ldrAddr, Part.write, h, lockedAt, Dev.modPart,
    Dev.writeLdrAddr, Part.takeLdrAddr]

section
variable (d : Dev) (v : View) (w : Word)

theorem Dev.writeLdrAddr_frame : d.writeLdrAddr v w = { d with
    eng := { d.eng with ignoredOp := (d.writeLdrAddr v w).eng.ignoredOp }, rsp := (d.writeLdrAddr v w).rsp,
    parts := (d.writeLdrAddr v w).parts } := by
  rw [Dev.writeLdrAddr, Dev.counted_frame]; rfl

theorem Dev.part_writeLdrAddr_ne {q : PartId} (h : q ≠ d.viewPart v) : (d.writeLdrAddr v w).part q = d.part q := by
  rw [Dev.writeLdrAddr, Dev.respond_part]
  exact (Dev.part_counted_ne (d.modPart _ _) v _ h).trans (d.part_modPart_ne _ h)

/-- Of its partition, a write of LDR_ADDR changes that register and, where it is counted, the telemetry. -/
theorem Dev.part_writeLdrAddr_self :
    ∃ tel, (d.writeLdrAddr v w).part (d.viewPart v) = { (d.part (d.viewPart v)).takeLdrAddr w with tel := tel } := by
  obtain ⟨tel, h⟩ := Dev.part_counted_self (d.modPart (d.viewPart v) fun x => x.takeLdrAddr w) v (extra w (2 ^ 64 - 512))
  exact ⟨tel, h.trans (by rw [show (d.modPart _ _).viewPart v = d.viewPart v from rfl, Dev.part_modPart_self])⟩

@[simp] theorem Dev.writeLdrAddr_deaf : (d.writeLdrAddr v w).deaf = d.deaf := by rw [Dev.writeLdrAddr_frame]; rfl

@[simp] theorem Dev.writeLdrAddr_viewPart : (d.writeLdrAddr v w).viewPart v = d.viewPart v := by
  rw [Dev.writeLdrAddr_frame]; rfl

end

theorem Dev.read_ldrAddr {d : Dev} {v : View} (h : (d.part (d.viewPart v)).cfg.state ≠ .free) :
    d.read (.cfg v) 0x030000 = d.respond (d.part (d.viewPart v)).ldr.addr 0 := by
  simp [Dev.read, windowOf, Part.pairAt, Dev.regRead, Dev.reqPart, Dev.operRead_ldrAddr, bankedAt, Dev.bankShown, Dev.bankRead,
    Part.ldrRead, h]

/-! ## The halves of RNG_SEED (R416) -/

theorem find?_tabPut {α : Type} (t : Tab α) (i : Nat) (x : α) : (tabPut t i x).find? (fun e => e.1 == i) = some (i, x) := by
  induction t with
  | nil => simp [tabPut]
  | cons kv t ih =>
    obtain ⟨k, y⟩ := kv
    by_cases hlt : i < k
    · simp [tabPut, hlt]
    · by_cases heq : i = k
      · simp [tabPut, heq]
      · simp [tabPut, hlt, heq, Ne.symm heq, ih]

theorem Dev.latch_modLatch (d : Dev) (r : Requester) (f : ViewLatch → ViewLatch) : (d.modLatch r f).latch r = f (d.latch r) := by
  simp [Dev.latch, Dev.modLatch, tabGet_tabMod]

@[simp] theorem Dev.respond_latch (d : Dev) (w : Word) (n : Nat) (r : Requester) : (d.respond w n).latch r = d.latch r := rfl

theorem Dev.read_seedLo {d : Dev} {v : View} (h : (d.part (d.viewPart v)).cfg.state ≠ .free) :
    d.read (.cfg v) 0x050000 = d.pairRead (.cfg v) 0x050000 (d.part (d.viewPart v)).rng.seed false := by
  simp [Dev.read, windowOf, Part.pairAt, Dev.reqPart, h]

theorem Dev.read_seedHi {d : Dev} {v : View} (h : (d.part (d.viewPart v)).cfg.state ≠ .free) :
    d.read (.cfg v) 0x050008 = d.pairRead (.cfg v) 0x050008 (d.part (d.viewPart v)).rng.seed true := by
  simp [Dev.read, windowOf, Part.pairAt, Dev.reqPart, h]

theorem Dev.pairRead_lo_rsp (d : Dev) (r : Requester) (a : Nat) (w : BitVec 128) :
    (d.pairRead r a w false).rsp = some ⟨w.setWidth 64, 0⟩ := rfl

/-- A HI read after the LO read of the pair answers what the LO read latched, whatever the register holds by then (R416). -/
theorem Dev.pairRead_hi_after_lo (d : Dev) (r : Requester) (a : Nat) (w w' : BitVec 128) :
    ((d.pairRead r a w false).pairRead r (a + 8) w' true).rsp = some ⟨BitVec.ofNat 64 (w.toNat / 2 ^ 64), 0⟩ := by
  have hpart : (d.pairRead r a w false).reqPart r = d.reqPart r := rfl
  have hlatch : ((d.pairRead r a w false).latch r).hi
      = tabPut (d.latch r).hi ((d.reqPart r).val * 2 ^ 24 + (a + 8)) (BitVec.ofNat 64 (w.toNat / 2 ^ 64)) := by
    simp [Dev.pairRead, Dev.latch_modLatch]
  rw [Dev.pairRead]
  simp [hpart, hlatch, find?_tabPut, Dev.respond]

end Sys2Proof.Machine

namespace Sys2Proof
open Sys2Proof.Machine Sys2Proof.Claims

/-- The operator's write of ENG_OPSEL, accepted, selects the partition its view shows (Table 16.3). -/
theorem exec_write_opsel (t : Tick) {data : Word} {s : State} (hd : s.dev.deaf = false) (h : data.toNat < 16) :
    exec (.registerWrite t (.cfg 16) 0x000080 data) s = .next { s with now := max s.now t, dev := { s.dev with
      eng := { s.dev.eng with opsel := Fin.ofNat 16 data.toNat }, rsp := some ⟨0, 0⟩ } } := by
  rw [exec_registerWrite_heard (a := 0x80) data hd rfl rfl, Dev.write_opsel _ _ h]

section
variable (t t' : Tick) (v : View) {s : State} (hd : s.dev.deaf = false)
  (hx : (s.dev.part (s.dev.viewPart v)).cfg.state ≠ .free)
include hd hx

/-- LDR_ADDR keeps bits 63 to 9 of what is written, and reads so in the view that wrote it (Table 16.6). -/
theorem answers_write_ldrAddr (data : Word) : Answers (.registerWrite t (.cfg v) 0x030000 data) s fun s' =>
    UnitsAre t s s' { s.dev with eng := { s.dev.eng with ignoredOp := s'.dev.eng.ignoredOp }, rsp := s'.dev.rsp,
                                 parts := s'.dev.parts }
    ∧ OthersSame (s.dev.viewPart v) s s' ∧ s'.dev.rsp = some ⟨0, 0⟩
    ∧ (s'.dev.part (s.dev.viewPart v)).ldr.addr = data &&& ~~~0x1FF#64
    ∧ (s'.dev.part (s.dev.viewPart v)).sch = (s.dev.part (s.dev.viewPart v)).sch
    ∧ Answers (.loReadLatch t' (.cfg v) 0x030000) s' fun s'' => s''.dev.rsp = some ⟨data &&& ~~~0x1FF#64, 0⟩ := by
  obtain ⟨tel, hself⟩ := s.dev.part_writeLdrAddr_self v data
  refine ⟨_, exec_registerWrite_heard (a := 0x030000) data hd rfl rfl, ?_⟩
  rw [Dev.write_ldrAddr _ data hx]
  refine ⟨congrArg (fun d => ({ s with now := max s.now t, dev := d } : State)) (s.dev.writeLdrAddr_frame v data),
    fun q hq => s.dev.part_writeLdrAddr_ne v data hq, rfl, by rw [hself]; rfl, by rw [hself]; rfl,
    _, exec_loReadLatch_heard (a := 0x030000) ((s.dev.writeLdrAddr_deaf v data).trans hd) rfl rfl, ?_⟩
  have hx' : ((s.dev.writeLdrAddr v data).part ((s.dev.writeLdrAddr v data).viewPart v)).cfg.state ≠ .free := by
    rw [Dev.writeLdrAddr_viewPart, hself]; exact hx
  rw [Dev.read_ldrAddr hx', Dev.writeLdrAddr_viewPart, hself]
  rfl

/-- A LO read of RNG_SEED latches the HI half for the next HI read (R416). -/
theorem answers_read_seed : Answers (.loReadLatch t (.cfg v) 0x050000) s fun s' =>
    s'.dev.rsp = some ⟨(s.dev.part (s.dev.viewPart v)).rng.seed.setWidth 64, 0⟩
    ∧ Answers (.loReadLatch t' (.cfg v) 0x050008) s' fun s'' =>
        s''.dev.rsp = some ⟨BitVec.ofNat 64 ((s.dev.part (s.dev.viewPart v)).rng.seed.toNat / 2 ^ 64), 0⟩ := by
  refine ⟨_, exec_loReadLatch_heard (a := 0x050000) hd rfl rfl, ?_⟩
  rw [Dev.read_seedLo hx]
  refine ⟨Dev.pairRead_lo_rsp _ _ _ _, _, exec_loReadLatch_heard (a := 0x050008) hd rfl rfl, ?_⟩
  rw [Dev.read_seedHi (d := s.dev.pairRead (.cfg v) 0x050000 _ false) hx]
  exact Dev.pairRead_hi_after_lo _ _ _ _ _

end

/-- Settles O51: ENG_OPSEL is set by the write, LDR_ADDR reads back through the frame of its write, and the HI half of RNG_SEED
comes from the latch that the LO read left. -/
theorem registerWriteReadsBack : Obligations.RegisterWriteReadsBack := by
  unfold Obligations.RegisterWriteReadsBack
  intro t t' v data s p x hd
  exact ⟨exec_write_opsel t hd, fun hx => answers_write_ldrAddr t t' v hd hx data, answers_read_seed t t' v hd⟩

end Sys2Proof
end

section
/-! SUPPORT and O24. Passing verdicts on changes waiting packets and what an attempt notes of its sent tiles, and no more (R277, R278);
so what TILE_VERDICT finds is what the attempt counts (R299, R300). -/

namespace Sys2Proof.Machine

/-! ## Passing verdicts on (R277, R278) -/

/-- Beside waiting packets, only the verdict words, the sent tiles and the owed verdicts that partition p's attempt notes differ. -/
def PassesOn (p : PartId) (d e : Dev) : Prop :=
  PortsParts d e ∧ ∃ verdicts sent owed,
    e.part p = { d.part p with att := { (d.part p).att with verdicts := verdicts, sent := sent, owed := owed } }

namespace PassesOn

variable {p : PartId} {a b c d e : Dev}

theorem refl (p : PartId) (d : Dev) : PassesOn p d d := ⟨.refl d, _, _, _, rfl⟩

theorem trans (h : PassesOn p a b) (k : PassesOn p b c) : PassesOn p a c := by
  obtain ⟨hab, _, _, _, hp⟩ := h
  obtain ⟨hbc, _, _, _, kp⟩ := k
  exact ⟨hab.trans hbc, _, _, _, by rw [kp, hp]⟩

/-- What changes the waiting packets alone. -/
theorem of_ports (p : PartId) (h : e = { d with ports := e.ports }) : PassesOn p d e := by
  rw [h]; exact ⟨⟨_, _, rfl⟩, _, _, _, rfl⟩

/-- What changes those fields of the attempt alone. -/
theorem modAtt (p : PartId) (d : Dev) {f : Attempt → Attempt}
    (h : ∀ x, ∃ verdicts sent owed, f x = { x with verdicts := verdicts, sent := sent, owed := owed }) :
    PassesOn p d (d.modAtt p f) := by
  obtain ⟨v, y, o, hf⟩ := h (d.part p).att
  exact ⟨⟨d.ports, _, rfl⟩, v, y, o, by rw [Dev.part_modAtt_self, hf]⟩

/-- Two changes of the attempt that differ in those fields alone. -/
theorem modAtt_modAtt (p : PartId) (d : Dev) {f g : Attempt → Attempt}
    (h : ∀ x, ∃ verdicts sent owed, f x = { g x with verdicts := verdicts, sent := sent, owed := owed }) :
    PassesOn p (d.modAtt p g) (d.modAtt p f) := by
  obtain ⟨v, y, o, hf⟩ := h (d.part p).att
  exact ⟨⟨d.ports, _, rfl⟩, v, y, o, by rw [Dev.part_modAtt_self, Dev.part_modAtt_self, hf]⟩

theorem foldl {α : Type} (f : Dev → α → Dev) (h : ∀ d x, PassesOn p d (f d x)) (l : List α) (d : Dev) : PassesOn p d (l.foldl f d) :=
  foldl_rel (PassesOn p) f (refl p) trans h l d

/-- A verdict to every rank that a tile went to; a member's own takes effect at once. -/
theorem sendVerdict (j : Job) (y : SentTile) (u : UnitCode) (cause : Byte) (pos : Bool) (d : Dev) :
    PassesOn j.p d (sendVerdict j y u cause pos d) := by
  unfold Machine.sendVerdict
  split
  · exact refl j.p d
  · split
    · exact refl j.p d
    · refine foldl _ (fun d n => ?_) _ d
      split
      · exact refl j.p d
      · split
        · split
          · split
            · exact modAtt j.p d fun _ => ⟨_, _, _, rfl⟩
            · exact refl j.p d
          · exact refl j.p d
        · exact of_ports j.p (d.sendTo_frame _ _ _ _ _)

theorem tryVerdict (j : Job) (row col part : Nat) (u : UnitCode) (d : Dev) : PassesOn j.p d (tryVerdict j row col part u d) := by
  unfold Machine.tryVerdict
  dsimp only
  split
  · exact refl j.p d
  · split
    · exact (sendVerdict ..).trans (modAtt j.p _ fun _ => ⟨_, _, _, rfl⟩)
    · exact refl j.p d

theorem payOne (p : PartId) (img : Image) (o : Nat × Nat × Nat × Nat × Nat) (d : Dev) : PassesOn p d (d.payOne p img o) := by
  unfold Dev.payOne
  split
  · split
    · exact modAtt p d fun _ => ⟨_, _, _, rfl⟩
    · exact of_ports p (d.sendTo_frame _ _ _ _ _)
  · exact refl p d

theorem payOwed (p : PartId) (d : Dev) : PassesOn p d (d.payOwed p) := by
  unfold Dev.payOwed
  dsimp only
  split
  · exact refl p d
  · split
    · exact refl p d
    · exact (foldl _ (fun d o => payOne p _ o d) _ d).trans (modAtt p _ fun _ => ⟨_, _, _, rfl⟩)

end PassesOn

/-! ## Positive and negative verdicts (R299) -/

/-- A positive verdict counts the tile's array tiles as judged and closes the tile; the rest is passing verdicts on. -/
theorem passTile_passesOn (j : Job) (t : Tile) (array : Nat) (d : Dev) :
    PassesOn j.p (d.modAtt j.p fun a => { a with judged := a.judged ++ (judgedTiles j t).map (·, array), openTiles := a.openTiles - 1 })
      (passTile j t array d) :=
  (PassesOn.foldl _ (fun d _ => .tryVerdict j _ _ _ _ d) _ _).trans (.payOwed j.p _)

/-- A negative verdict closes the tile; the rest is passing verdicts on. -/
theorem failTile_passesOn (j : Job) (t : Tile) (cause : Byte) (d : Dev) :
    PassesOn j.p (d.modAtt j.p fun a => { a with openTiles := a.openTiles - 1 }) (failTile j t cause d) := by
  refine .trans (.modAtt_modAtt j.p d (f := fun a => { a with
    openTiles := a.openTiles - 1, sent := a.sent.filter fun x => !(d.sentOf j (judgedTiles j t)).contains x }) ?_)
    (PassesOn.foldl _ (fun d y => .sendVerdict j y _ cause false d) _ _)
  exact fun _ => ⟨_, _, _, rfl⟩

theorem passTile_frame (j : Job) (t : Tile) (array : Nat) (d : Dev) : PortsParts d (passTile j t array d) :=
  PortsParts.trans ⟨d.ports, _, rfl⟩ (passTile_passesOn j t array d).1

theorem failTile_frame (j : Job) (t : Tile) (cause : Byte) (d : Dev) : PortsParts d (failTile j t cause d) :=
  PortsParts.trans ⟨d.ports, _, rfl⟩ (failTile_passesOn j t cause d).1

theorem passTile_att (j : Job) (t : Tile) (array : Nat) (d : Dev) : ∃ verdicts sent owed,
    ((passTile j t array d).part j.p).att = { (d.part j.p).att with
      judged := (d.part j.p).att.judged ++ (judgedTiles j t).map (·, array), openTiles := (d.part j.p).att.openTiles - 1,
      verdicts := verdicts, sent := sent, owed := owed } := by
  obtain ⟨-, v, y, o, h⟩ := passTile_passesOn j t array d
  exact ⟨v, y, o, by rw [h, Dev.part_modAtt_self]⟩

theorem failTile_att (j : Job) (t : Tile) (cause : Byte) (d : Dev) : ∃ verdicts sent owed,
    ((failTile j t cause d).part j.p).att = { (d.part j.p).att with
      openTiles := (d.part j.p).att.openTiles - 1, verdicts := verdicts, sent := sent, owed := owed } := by
  obtain ⟨-, v, y, o, h⟩ := failTile_passesOn j t cause d
  exact ⟨v, y, o, by rw [h, Dev.part_modAtt_self]⟩

theorem PortsParts.arrays {d e : Dev} (h : PortsParts d e) : e.arrays = d.arrays := by obtain ⟨_, _, rfl⟩ := h; rfl
theorem PortsParts.rpt {d e : Dev} (h : PortsParts d e) : e.rpt = d.rpt := by obtain ⟨_, _, rfl⟩ := h; rfl

/-! ## A mismatch (R300, R309) -/

/-- The job of a tile is of the tile's partition. -/
theorem Dev.tileJob_part {d : Dev} {t : Tile} {j : Job} (h : d.tileJob t = some j) : j.p = t.part := by
  unfold Dev.tileJob at h
  split at h
  · cases h
  · split at h
    · cases h; rfl
    · cases h

/-- A mismatch is a report in the step-replay severity; beside it, the tile may join the arbitration list. -/
theorem Dev.mismatch_exists (d : Dev) (n : Nat) (j : Job) (q : Judge) (a : ArrayId) (d1 c1 : List (BitVec 128)) :
    ∃ synd chk, let e := d.report n (mismatchRec j q.tile (d.checkerOf j) synd)
      (d.mismatch n j q a d1 c1).arrays = e.arrays ∧ ((d.mismatch n j q a d1 c1).part j.p) = { e.part j.p with chk := chk } := by
  unfold Dev.mismatch
  dsimp only
  split
  · exact ⟨_, _, rfl, Dev.part_modPart_self _ _ _⟩
  · exact ⟨_, _, rfl, rfl⟩

theorem Dev.mismatch_arrays (d : Dev) (n : Nat) (j : Job) (q : Judge) (a : ArrayId) (d1 c1 : List (BitVec 128)) :
    (d.mismatch n j q a d1 c1).arrays = d.arrays := by
  obtain ⟨_, _, h, -⟩ := d.mismatch_exists n j q a d1 c1
  rw [h, Dev.report_arrays]

/-- A mismatch dooms the live attempt and leaves its open tiles as they are. -/
theorem Dev.mismatch_dooms {d : Dev} {j : Job} {q : Judge} (n : Nat) (a : ArrayId) (d1 c1 : List (BitVec 128))
    (hj : j.p = q.tile.part) (hl : (d.part j.p).att.live = true) :
    ((d.mismatch n j q a d1 c1).part j.p).att.doom.isSome
      ∧ ((d.mismatch n j q a d1 c1).part j.p).att.openTiles = (d.part j.p).att.openTiles := by
  obtain ⟨synd, _, -, h⟩ := d.mismatch_exists n j q a d1 c1
  rw [h, Dev.report_stepReplay _ _ _ j.p rfl (congrArg some hj.symm) (by decide : (0x02 : Byte) ≠ 0x0A)]
  refine ⟨Dev.doom_isSome _ _ _ _ _ _ _ (by rwa [Dev.raise_part]), ?_⟩
  dsimp only
  rw [Dev.part_doom_self, Dev.raise_part]

/-! ## TILE_VERDICT (R297 to R299) -/

/-- What the checker's verdict on a drained tile makes of the units, no failure being noted with its sums. -/
def Dev.verdictOn (d : Dev) (n : Nat) (j : Job) (q : Judge) (a : ArrayId) (d1 c1 : List (BitVec 128)) : Dev :=
  if d1 = c1 then
    match q.cause with
    | some c => failTile j q.tile c d
    | none =>
      if (d.part j.p).ashLost j q.tile then failTile j q.tile 0x08 d
      else if !(d.part j.p).inAttempt n then d
      else if (d.part j.p).att.low.contains a.val then failTile j q.tile 0x02 d
      else passTile j q.tile a.val d
  else failTile j q.tile 0x02 (d.mismatch n j q a d1 c1)

/-- The units with nothing waiting for a verdict at an array. -/
def Dev.unjudged (d : Dev) (a : ArrayId) : Dev := d.setArray a.val { d.array a.val with judges := [] }

@[simp] theorem Dev.part_unjudged (d : Dev) (a : ArrayId) (p : PartId) : (d.unjudged a).part p = d.part p := rfl

theorem Dev.judges_unjudged (d : Dev) (a : ArrayId) : ((d.unjudged a).array a.val).judges = [] :=
  congrArg ArraySt.judges (tabGet_tabSet_self _ _ _ _)

/-- Units with the same arrays have nothing waiting either. -/
theorem Dev.judges_of_arrays {d e : Dev} {a : ArrayId} (h : e.arrays = (d.unjudged a).arrays) : (e.array a.val).judges = [] := by
  rw [Dev.array, h]; exact d.judges_unjudged a

/-- The one tile that waits at an array has drained, and a checker in service issues its verdict. -/
theorem exec_tileVerdict_drained (t : Tick) {a : ArrayId} {s : State} {q : Judge} {j : Job} {d1 c1 : List (BitVec 128)}
    (hq : (s.dev.array a.val).judges = [q]) (hd : (s.dev.array a.val).drained = none) (hj : s.dev.tileJob q.tile = some j)
    (hs : q.sums = some (d1, c1)) (hf : q.failure = []) (hc : s.dev.fenced (unitOf (a.val / 4) 4 0) = false) :
    exec (.tileVerdict t a) s
      = .next { s with now := max s.now t, dev := (s.dev.unjudged a).verdictOn (max s.now t) j q a d1 c1 } := by
  have hfiltered : [q].filter (· != q) = [] := by simp
  have hdrained : ((s.dev.array a.val).drained != some q.tile) = true := by rw [hd]; rfl
  have hj' : (s.dev.unjudged a).tileJob q.tile = some j := hj
  show execTileVerdict t a s = _
  simp only [execTileVerdict, onAll, hc, Bool.false_eq_true, if_false, hq, List.find?, hj, hs, Option.isSome_some, if_true, hdrained,
    hfiltered]
  rw [← Dev.unjudged]
  simp only [hj', hf, Option.map_some, Option.getD_some]
  by_cases hsums : d1 = c1
  · cases hcause : q.cause with
    | none => simp [Dev.verdictOn, hsums, hcause]
    | some c => simp [Dev.verdictOn, hsums, hcause]
  · simp [Dev.verdictOn, hsums]

section
variable {d : Dev} {n : Nat} {j : Job} {q : Judge} {a : ArrayId} {d1 c1 : List (BitVec 128)}

theorem Dev.verdictOn_positive (hs : d1 = c1) (hc : q.cause = none) (hl : (d.part j.p).ashLost j q.tile = false)
    (hn : (d.part j.p).inAttempt n = true) (hv : (d.part j.p).att.low.contains a.val = false) :
    d.verdictOn n j q a d1 c1 = passTile j q.tile a.val d := by
  rw [Dev.verdictOn, if_pos hs, hc]
  simp only [hl, hn, hv, Bool.not_true, Bool.false_eq_true, if_false]

/-- Sums that agree do not help a tile that has a cause of its own, has lost ash, or is of an array that fell below 0.65 V. -/
theorem Dev.verdictOn_negative (hs : d1 = c1)
    (hb : q.cause.isSome ∨ (d.part j.p).ashLost j q.tile = true
      ∨ (d.part j.p).inAttempt n = true ∧ (d.part j.p).att.low.contains a.val = true) :
    ∃ c, d.verdictOn n j q a d1 c1 = failTile j q.tile c d := by
  rw [Dev.verdictOn, if_pos hs]
  cases hc : q.cause with
  | some c => exact ⟨c, rfl⟩
  | none =>
    rcases hb with hb | hb | ⟨hn, hv⟩
    · rw [hc] at hb; cases hb
    · exact ⟨0x08, if_pos hb⟩
    · by_cases hl : (d.part j.p).ashLost j q.tile = true
      · exact ⟨0x08, if_pos hl⟩
      · exact ⟨0x02, by simp only [hl, hn, hv, Bool.not_true, Bool.false_eq_true, if_false, if_true]⟩

theorem Dev.verdictOn_late (hs : d1 = c1) (hc : q.cause = none) (hl : (d.part j.p).ashLost j q.tile = false)
    (hn : (d.part j.p).inAttempt n = false) : d.verdictOn n j q a d1 c1 = d := by
  rw [Dev.verdictOn, if_pos hs, hc]
  simp only [hl, hn, Bool.not_false, Bool.false_eq_true, if_false, if_true]

theorem Dev.verdictOn_mismatch (hs : d1 ≠ c1) : d.verdictOn n j q a d1 c1 = failTile j q.tile 0x02 (d.mismatch n j q a d1 c1) :=
  if_neg hs

end

end Sys2Proof.Machine

namespace Sys2Proof
open Sys2Proof.Machine Sys2Proof.Claims

/-- Settles O24: TILE_VERDICT is `Dev.verdictOn`, whose four outcomes end in `passTile`, in `failTile`, or in nothing; what those
two do to the attempt, beside passing verdicts on, is the count of open tiles and the tiles judged. -/
theorem tileVerdictJudges : Obligations.TileVerdictJudges := by
  unfold Obligations.TileVerdictJudges
  intro t a s q j d1 c1 x hq hd hj hs hf hc att lost inTime
  have hexec := exec_tileVerdict_drained t hq hd hj hs hf hc
  refine ⟨fun he hcause hlost hin hlow => ⟨_, hexec, rfl, rfl, ?_⟩, fun he hneg => ⟨_, hexec, rfl, rfl, ?_⟩,
    fun he hcause hlost hin => ⟨_, hexec, rfl, rfl, ?_⟩, fun hne hlive => ⟨_, hexec, rfl, rfl, ?_⟩⟩
  · rw [Dev.verdictOn_positive (d := s.dev.unjudged a) he hcause hlost hin hlow]
    have hframe := passTile_frame j q.tile a.val (s.dev.unjudged a)
    obtain ⟨_, _, _, hatt⟩ := passTile_att j q.tile a.val (s.dev.unjudged a)
    exact ⟨Dev.judges_of_arrays hframe.arrays, hframe.rpt, by rw [hatt]; rfl, by rw [hatt]; rfl⟩
  · obtain ⟨c, hv⟩ := Dev.verdictOn_negative (d := s.dev.unjudged a) he hneg
    obtain ⟨_, _, _, hatt⟩ := failTile_att j q.tile c (s.dev.unjudged a)
    rw [hv]
    exact ⟨Dev.judges_of_arrays (failTile_frame j q.tile c _).arrays, by rw [hatt]; rfl, by rw [hatt]; rfl⟩
  · rw [Dev.verdictOn_late (d := s.dev.unjudged a) he hcause hlost hin]
    exact ⟨s.dev.judges_unjudged a, rfl⟩
  · rw [Dev.verdictOn_mismatch hne]
    have hopen := Dev.mismatch_dooms (d := s.dev.unjudged a) (max s.now t) a d1 c1 (Dev.tileJob_part hj) hlive
    obtain ⟨_, _, _, hatt⟩ := failTile_att j q.tile 0x02 ((s.dev.unjudged a).mismatch (max s.now t) j q a d1 c1)
    refine ⟨Dev.judges_of_arrays ((failTile_frame j q.tile 0x02 _).arrays.trans (Dev.mismatch_arrays _ _ _ _ _ _ _)), ?_, ?_⟩
    · rw [hatt]; exact hopen.1
    · rw [hatt]; exact congrArg (· - 1) hopen.2

end Sys2Proof
end

section
/-! SUPPORT, O25 and O41. Each of the two has a clause that fails in a state no hypothesis of it excludes: an ash packet runs over its line
where a padding group holds ash (R60, R61), and a TILE_PF32 command whose packet is of type STREAM marks another place as landed than
the packet's own (R115, R279). -/

namespace Sys2Proof.Machine

/-! ## A partition in an attempt -/

/-- What a reading of the state finds after a command that completes. -/
def readAfter {α : Type} (c : Instr) (s : State) (f : State → α) : Option α :=
  match exec c s with
  | .next s' => some (f s')
  | _ => none

theorem readAfter_of_next {α : Type} {c : Instr} {s s' : State} (f : State → α) (h : exec c s = .next s') :
    readAfter c s f = some (f s') := by rw [readAfter, h]

/-- A slot of segment 1 on binding 101: 100 beats of slice 0. -/
def slot12 : Slot := ⟨12, false, false, 1, 0x41, 0, [100, 100, 100], [0, 0, 0], 1, 0, 101, 1⟩

/-- Its run, launched and not ended. -/
def launched12 : SlotRun := ⟨12, 0, none, false, 0, 0, false, [], [], [], [], [], []⟩

/-- An image of one segment, whose one slot works on one binding, 101, with one chain, 50. -/
def imageOf (kind : BindKind) (stages : List Stage) : Image :=
  { raw := [], header := ⟨0, [], [], 0, 0, false, 1, 0, 0, 1, 0⟩, sections := [], heads := [],
    segments := [⟨1, [8, 8, 8], [65536, 65536, 65536], 1, 2⟩],
    slots := [slot12], variants := [],
    bindings := [⟨101, [], [], [], none, kind⟩], chains := [⟨50, [], ⟨stages, [], false, .f32, .rne, 0, ⟨0, false⟩⟩⟩],
    codebooks := [], actTables := [], streams := [], ledgerLists := [], regions := [], routes := [], leases := [], base := [] }

/-- An engine in service whose partition 0 runs an image's segment 1, as member 0 of a group of two. -/
def inAttemptOf (img : Image) (held : Held) : Dev :=
  { Dev.reset with
    eng := { Dev.reset.eng with phase := .ready }
    groups := [(0, ⟨BitVec.ofNat 128 (1 + 2 * 2 ^ 21), BitVec.ofNat 128 (1 + 2 * 2 ^ 21), false⟩)]
    members := [(0, BitVec.ofNat 128 (2 ^ 64)), (1, BitVec.ofNat 128 (2 ^ 64 + 2 ^ 83 + 2 ^ 96))]
    parts := [(0, { Part.reset with
      cfg := { PCfg.reset with state := .assigned, size := 1, membCount := 2, grpCount := 1 }
      sch := { Sch.reset with state := .running, timed := true, stretch := 64, seg := 1 }
      att := { Attempt.none_ with live := true, launched := true, slots := [launched12] }
      ldr := { Ldr.reset with image := some img }
      held := held })] }

/-! ## Ash in a padding group -/

/-- A tensor of one row: of the 32 groups of its one code block, those of rows 1 to 7 are padding (R57, R60). -/
def oneRow : TensorRef :=
  ⟨40, .e2m1, 32, 1, 128, 0, none, .rne, ⟨0, false⟩, false, none, false, .buf 0 100, .buf 0 200, .buf 0 0, 4⟩

/-- A copy whose quantise-out makes it. -/
def oneRowCopy : BindKind :=
  .copy none (some ⟨4, .wide .f32, 1, 128, 512, false, .rne, ⟨0, false⟩, .buf 0 300, .buf 0 0⟩) (some 50) .viaQuant

def oneRowImage : Image := imageOf oneRowCopy [.quantOut (.code oneRow) false none none none .f32]

/-- The job of slot 12 on it. -/
def oneRowJob : Job := ⟨0, oneRowImage, slot12, ⟨101, [], [], [], none, oneRowCopy⟩⟩

/-- The last group, which is padding, comes next in the ash stream and is held with 125 entries, one more than a packet takes (R61,
Table 2.9). The ash region begins at line 0; line 1, behind the packet's, has been written with zeros. -/
def paddingAsh : State :=
  { State.reset with
    sb := { StageBufs.reset with valid := [(1, true)] }
    dev := inAttemptOf oneRowImage { Held.reset with
      asms := [⟨101, 31, 0, 0, [], false, false⟩], groups := [⟨101, 31, [], 0, List.replicate 124 0 ++ [1]⟩] } }

/-- The group is padding, so R61's rule counts no entry for it: a packet of this one group is due. -/
theorem paddingAsh_due : groupReal oneRow 31 = false ∧ (paddingAsh.dev.part 0).ashDue 101 oneRow = some 1 := by decide +kernel

/-- The packet's line holds every entry of the group: the last stands in the line behind it. -/
theorem paddingAsh_spills :
    readAfter (.ashPacketWrite 0 0 101) paddingAsh (fun s => (sbRead s.sb 0 1).head?) = some (some 1)
      ∧ (sbRead paddingAsh.sb 0 1).head? = some 0 := by decide +kernel

/-! ## A TILE_PF32 command with a STREAM packet -/

/-- A receiving binding for STREAM packets of tensor 35 in group 0. -/
def streamReceive : Receive := ⟨0, 35, tyStream, 1, 1, 1, 128, 0, 0, 1000, 128, none, none, 1, false, 0⟩

/-- The partition with it, and nothing landed. -/
def receiving : State := { State.reset with dev := inAttemptOf (imageOf (.receive streamReceive) []) Held.reset }

/-- A sealed packet for it from member 1: AUX names the kind of stream 1, and K_PART is 0. -/
def streamPacket : Packet := pktSeal
  ⟨{ pcrc := 0, aux := 0x40000000, ref := 0, kPart := 0, colTile := 0, rowTile := 0, step := 0, epoch := 0, tid := 35, zero := 0, fmt := 0,
     attempt := 0, nLines := 0, tileTag := 0, job := 0, gen := 0, group := 0, dst := 0, src := 1, flags := 0, type := tyStream }, []⟩

/-- The packet passes every check of Table 10.6, and its place is that of its stream's kind. -/
theorem streamPacket_passes :
    (receiving.dev.tileChecks 0 0 streamPacket true).2 = some (101, streamReceive) ∧ placePart streamPacket = 1 := by decide +kernel

/-- TILE_PF32 marks the part in K_PART as landed, which for a STREAM packet is not its place. -/
theorem tilePf32_misses_streamPacket :
    readAfter (.tilePf32 0 0 streamPacket) receiving (fun s => (s.dev.part 0).flu.landed) = some [(101, 0, 0, 0)] := by decide +kernel

end Sys2Proof.Machine

namespace Sys2Proof
open Sys2Proof.Machine Sys2Proof.Claims

/-- Refutes O25: the statement lets the padding groups of the output hold ash. The count that closes a packet passes over padding, the
packet itself does not; with 125 entries in a padding group it is longer than its line, and changes a line that the frame says is kept. -/
theorem not_ashPacketWritten : ¬ Obligations.AshPacketWritten := by
  unfold Obligations.AshPacketWritten
  intro h
  obtain ⟨s', hs', -, -, -, -, -, hframe⟩ :=
    (h 0 0 101 paddingAsh oneRowJob launched12 oneRow 0 false none none none .f32 0 0 (by decide +kernel) (by decide +kernel)
      (by decide +kernel) (by decide +kernel) 1 paddingAsh_due.2).1 rfl (by decide +kernel)
  have hkept : sbRead s'.sb 0 1 = sbRead paddingAsh.sb 0 1 := hframe 0 1 (by decide) (by decide +kernel) (by decide +kernel)
  obtain ⟨hafter, hbefore⟩ := paddingAsh_spills
  rw [readAfter_of_next _ hs', hkept, hbefore] at hafter
  exact absurd hafter (by decide)

/-- Refutes O41: its last clause does not say that the packet of a TILE_PF32 command is of that type. One of type STREAM that a receiving
binding takes passes the checks, and lands at K_PART, where the statement asks for its stream's kind. -/
theorem not_tilesLand : ¬ Obligations.TilesLand := by
  unfold Obligations.TilesLand
  rintro ⟨-, h⟩
  obtain ⟨hpasses, hplace⟩ := streamPacket_passes
  obtain ⟨s', hs', -, -, hlanded⟩ := (h 0 0 streamPacket receiving 101 streamReceive _ rfl).2 hpasses
  have hafter := tilePf32_misses_streamPacket
  rw [readAfter_of_next _ hs', Option.some_inj] at hafter
  rw [hafter, hplace] at hlanded
  exact absurd hlanded (by decide)

end Sys2Proof
end

section
/-! SUPPORT and O21. HANDSHAKE for the work of an array: what the dot units and the operand registers make of the units (R104), once
every landed packet is there (R279). -/

namespace Sys2Proof.Machine

@[simp] theorem Dev.array_setArray_self (d : Dev) (k : Nat) (x : ArraySt) : (d.setArray k x).array k = x :=
  tabGet_tabSet_self _ _ _ _

@[simp] theorem Dev.part_setArray (d : Dev) (k : Nat) (x : ArraySt) (p : PartId) : (d.setArray k x).part p = d.part p := rfl

@[simp] theorem Dev.setArray_ledger (d : Dev) (k : Nat) (x : ArraySt) : (d.setArray k x).ledger = d.ledger := rfl
@[simp] theorem Dev.setArray_stations (d : Dev) (k : Nat) (x : ArraySt) : (d.setArray k x).stations = d.stations := rfl
@[simp] theorem Dev.setArray_eng (d : Dev) (k : Nat) (x : ArraySt) : (d.setArray k x).eng = d.eng := rfl

theorem Dev.array_setArray_ne (d : Dev) {k b : Nat} (x : ArraySt) (h : b ≠ k) : (d.setArray k x).array b = d.array b :=
  tabGet_tabSet_ne _ _ _ h

theorem Dev.array_congr {d e : Dev} (h : e.arrays = d.arrays) (b : Nat) : e.array b = d.array b := by
  rw [Dev.array, Dev.array, h]

@[simp] theorem orFail_nil (f : Failure) : orFail f [] = f := by simp [orFail]

/-- Without a change of an exchange's window no credit is due (R281). -/
theorem settleCredits_of_dyn_eq {p : PartId} {now : Nat} {before : List DynEx} {s : StageBufs × Dev}
    (h : (s.2.part p).flu.dyn = before) : settleCredits p now before s = s := by
  simp [settleCredits, h]

/-! ## ACCUM_LIMIT (R107) -/

section
variable (d : Dev) (t : Nat) (u : UnitCode) (tile : Tile) (tid : BitVec 24) (c : Nat)

@[simp] theorem Dev.accumLimit_arrays : (d.accumLimit t u tile tid c).arrays = d.arrays := Dev.report_arrays _ _ _
@[simp] theorem Dev.accumLimit_ledger : (d.accumLimit t u tile tid c).ledger = d.ledger := Dev.report_ledger _ _ _
@[simp] theorem Dev.accumLimit_stations : (d.accumLimit t u tile tid c).stations = d.stations := Dev.report_stations _ _ _
/-- Its severity is that of a replayed step. -/
@[simp] theorem Dev.accumLimit_eng : (d.accumLimit t u tile tid c).eng = d.eng := Dev.report_eng _ _ _ nofun

@[simp] theorem Dev.accumLimit_flu (q : PartId) : ((d.accumLimit t u tile tid c).part q).flu = (d.part q).flu := by
  obtain ⟨_, _, _, _, h⟩ := d.part_report_exists t _ q
  rw [Dev.accumLimit, h]

end

/-! ## The work of an array -/

/-- The array whose dot units work, or whose operand register is loaded. -/
def workOfArray (a : Fin 4) (w : Work) : Prop := w = .dots a ∨ ∃ side i, w = .load a side i

/-- The units after the dot units' handshake: the array's step, with a record when an accumulator has overflowed for the first
time in the tile (R107). -/
def Dev.dotted (d : Dev) (n : Nat) (sl : SliceId) (a : Fin 4) (tile : Tile) (j : Job) : Dev :=
  let x := d.array (4 * sl.val + a.val)
  let e := d.setArray (4 * sl.val + a.val) x.dots
  if x.dots.overflow && !x.overflow then e.accumLimit n (unitOf sl.val 0 a.val) tile (outTid j.img j.b.kind) 0 else e

/-- An array one of whose operand registers takes a group (R29), with the failure the group brings (R298). -/
def ArraySt.take (x : ArraySt) (side : Bool) (i : Fin 64) (g : OpGroup) (f : Failure) : ArraySt :=
  let y := { x with failure := orFail x.failure f }
  if side then { y with rowOp := tabSet OpGroup.reset x.rowOp i.val g } else { y with colOp := tabSet OpGroup.reset x.colOp i.val g }

section
variable (x : ArraySt) (side : Bool) (i : Fin 64) (g : OpGroup) (f : Failure)

theorem ArraySt.take_register :
    tabGet OpGroup.reset (if side then (x.take side i g f).rowOp else (x.take side i g f).colOp) i.val = g := by
  cases side <;> exact tabGet_tabSet_self _ _ _ _

@[simp] theorem ArraySt.take_acc : (x.take side i g f).acc = x.acc := by cases side <;> rfl

end

/-- Beside the array, the dot units' handshake leaves at most a record and what it dooms (R300). -/
theorem Dev.dotted_frame (d : Dev) (n : Nat) (sl : SliceId) (a : Fin 4) (tile : Tile) (j : Job) :
    let e := d.dotted n sl a tile j
    e.arrays = (d.setArray (4 * sl.val + a.val) (d.array (4 * sl.val + a.val)).dots).arrays ∧ e.ledger = d.ledger
      ∧ e.stations = d.stations ∧ e.eng = d.eng ∧ ∀ q, (e.part q).flu = (d.part q).flu := by
  simp only [Dev.dotted]
  split
  · exact ⟨by simp, by simp, by simp, by simp, fun q => by simp⟩
  · exact ⟨rfl, rfl, rfl, rfl, fun _ => rfl⟩

section
variable {t : Tick} {sl : SliceId} {a : Fin 4} {s : State} {j : Job} {tile : Tile} {x : ArraySt}
  (hx : s.dev.array (4 * sl.val + a.val) = x) (ht : x.tile = some tile)
include hx ht

section
variable (hg : x.grp < (tileRange j.b.kind tile).2)
include hg

theorem doDots_ok {n : Nat} (hr : regsFull x.rowOp = true) (hc : regsFull x.colOp = true) :
    doDots sl.val a j n [] .ok (s.sb, s.dev) = (s.sb, s.dev.dotted n sl a tile j) := by
  simp [doDots, hx, ht, hr, hc, hg, Dev.dotted, ArraySt.upset]

theorem doLoad_groupFor {n : Nat} {side : Bool} {i : Fin 64} {g : OpGroup} {f : Failure} (hi : x.limbI = 0) (hj : x.limbJ = 0)
    (hp : x.part = 0) (hf : s.dev.groupFor j tile side i.val x.grp = some (g, f)) :
    doLoad sl.val a side i j n [] (s.sb, s.dev) = (s.sb, s.dev.setArray (4 * sl.val + a.val) (x.take side i g f)) := by
  simp [doLoad, hx, ht, hi, hj, hp, hg, hf, ArraySt.take]

end

variable (hjob : s.dev.job sl.val tile.slot (unitOf sl.val 0 a.val) = some j) (hwait : (s.dev.part j.p).waitsFor j.img j.b = [])
include hjob hwait

/-- A handshake of an array that finds nothing and waits for no packet is the work itself, with the credits its reads make due. -/
theorem exec_handshake_ofArray {w : Work} (hw : workOfArray a w) :
    exec (.handshake t sl w .ok) s = onAll t s fun n r =>
      settleCredits j.p n (s.dev.part j.p).flu.dyn (doWork sl.val w j n [] .ok r) := by
  show execHandshake t sl w .ok s = _
  rcases hw with rfl | ⟨side, i, rfl⟩ <;>
    simp [execHandshake, onAll, sbSpoil, Dev.workSlot, workUnit, hx, ht, hjob, hwait, Dev.checked]

variable (hg : x.grp < (tileRange j.b.kind tile).2)
include hg

theorem exec_handshake_dots (hr : regsFull x.rowOp = true) (hc : regsFull x.colOp = true) :
    exec (.handshake t sl (.dots a) .ok) s
      = .next { s with now := max s.now t, dev := s.dev.dotted (max s.now t) sl a tile j } := by
  obtain ⟨-, -, -, -, hflu⟩ := s.dev.dotted_frame (max s.now t) sl a tile j
  rw [exec_handshake_ofArray hx ht hjob hwait (.inl rfl)]
  simp only [onAll, doWork, doDots_ok hx ht hg hr hc]
  rw [settleCredits_of_dyn_eq (congrArg Flu.dyn (hflu j.p))]

theorem exec_handshake_load {side : Bool} {i : Fin 64} {g : OpGroup} {f : Failure} (hi : x.limbI = 0) (hj : x.limbJ = 0)
    (hp : x.part = 0) (hf : s.dev.groupFor j tile side i.val x.grp = some (g, f)) :
    exec (.handshake t sl (.load a side i) .ok) s
      = .next { s with now := max s.now t, dev := s.dev.setArray (4 * sl.val + a.val) (x.take side i g f) } := by
  rw [exec_handshake_ofArray hx ht hjob hwait (.inr ⟨side, i, rfl⟩)]
  simp only [onAll, doWork, doLoad_groupFor hx ht hg hi hj hp hf]
  rw [settleCredits_of_dyn_eq (by rw [Dev.part_setArray])]

end

end Sys2Proof.Machine

namespace Sys2Proof
open Sys2Proof.Machine Sys2Proof.Claims

/-- Settles O21: each of the two handshakes is one replacement of the array; only an overflow adds a record, whose report leaves
arrays, ledger, stations and the engine alone. -/
theorem handshakeRuns : Obligations.HandshakeRuns := by
  unfold Obligations.HandshakeRuns
  intro t sl a side i s j tile k x ht hj hwait hg
  refine ⟨fun hr hc => ?_, fun g f hli hlj hp hf => ?_⟩
  · obtain ⟨harrays, hledger, hstations, heng, -⟩ := s.dev.dotted_frame (max s.now t) sl a tile j
    refine ⟨_, exec_handshake_dots rfl ht hj hwait hg hr hc, rfl, ?_, fun b hb => ?_, hledger, hstations, heng⟩
    · exact (Dev.array_congr harrays k).trans (s.dev.array_setArray_self k _)
    · exact (Dev.array_congr harrays b).trans (s.dev.array_setArray_ne _ hb)
  · refine ⟨_, exec_handshake_load rfl ht hj hwait hg hli hlj hp hf, rfl, ?_, ?_, fun b hb => s.dev.array_setArray_ne _ hb⟩
    · rw [s.dev.array_setArray_self k]; exact ArraySt.take_register x side i g f
    · rw [s.dev.array_setArray_self k]; exact ArraySt.take_acc x side i g f

end Sys2Proof
end

section
/-! SUPPORT and O7. The passes of a group (R104, R105): the group-sum registers hold the passes so far, all of them are the sum S of
R101, and that sum fits the register; so the last handshake adds the group contribution. -/

namespace Sys2Proof.Machine
open Sys2Proof.Claims

/-! ## Tables over a range, and the registers of a side -/

/-- A table built from the keys of a list reads as the function at these keys and as zero elsewhere. -/
theorem tabGet_filterMap {w : Nat} (f : Nat → BitVec w) (k : Nat) : ∀ l : List Nat,
    tabGet 0 (l.filterMap fun i => if f i = 0 then none else some (i, f i)) k = if k ∈ l then f k else 0
  | [] => rfl
  | i :: l => by
    have ih := tabGet_filterMap f k l
    by_cases hz : f i = 0
    · rw [List.filterMap_cons_none (by simp [hz]), ih]
      by_cases hk : k = i
      · subst hk; simp [hz]
      · simp [hk]
    · rw [List.filterMap_cons_some (f := fun i => if f i = 0 then none else some (i, f i)) (if_neg hz), tabGet, ih]
      by_cases hk : k = i
      · subst hk; simp
      · simp [hk, Ne.symm hk]

theorem tabGet_tabOf {w n k : Nat} (f : Nat → BitVec w) (h : k < n) : tabGet 0 (tabOf n f) k = f k :=
  (tabGet_filterMap f k _).trans (if_pos (List.mem_range.mpr h))

theorem tabOf_congr {w n : Nat} {f g : Nat → BitVec w} (h : ∀ k < n, f k = g k) : tabOf n f = tabOf n g := by
  have hlist : ∀ l : List Nat, (∀ k ∈ l, f k = g k) → (l.filterMap fun i => if f i = 0 then none else some (i, f i))
      = l.filterMap fun i => if g i = 0 then none else some (i, g i) := fun l hl => by
    induction l with
    | nil => rfl
    | cons k l ih => simp only [List.filterMap_cons, hl k List.mem_cons_self, ih fun i hi => hl i (List.mem_cons_of_mem k hi)]
  exact hlist _ fun k hk => h k (List.mem_range.mp hk)

@[simp] theorem tabOf_zero {w n : Nat} : tabOf n (fun _ => (0 : BitVec w)) = [] := by simp [tabOf]

theorem regs_getD (m : Tab OpGroup) {i : Nat} (h : i < 64) : (regs m).getD i OpGroup.reset = tabGet OpGroup.reset m i := by
  simp [regs, h]

/-! ## Sums over the numbers below n -/

/-- The sum of f over the numbers below n (this module is kept without Mathlib, whose finite sums it would use). -/
def sumTo : Nat → (Nat → Int) → Int
  | 0, _ => 0
  | n + 1, f => sumTo n f + f n

section
variable {n : Nat} {f g : Nat → Int}

theorem sumTo_congr (h : ∀ i < n, f i = g i) : sumTo n f = sumTo n g := by
  induction n with
  | zero => rfl
  | succ n ih => rw [sumTo, sumTo, ih fun i hi => h i (Nat.lt_succ_of_lt hi), h n n.lt_succ_self]

theorem sumTo_eq_zero (h : ∀ i < n, f i = 0) : sumTo n f = 0 := by
  induction n with
  | zero => rfl
  | succ n ih => rw [sumTo, ih fun i hi => h i (Nat.lt_succ_of_lt hi), h n n.lt_succ_self, Int.add_zero]

/-- A sum whose only term is the first. -/
theorem sumTo_first (hn : 0 < n) (h : ∀ i < n, i ≠ 0 → f i = 0) : sumTo n f = f 0 := by
  obtain ⟨n, rfl⟩ := Nat.exists_eq_add_one.mpr hn
  induction n with
  | zero => rw [sumTo, sumTo, Int.zero_add]
  | succ n ih =>
    rw [sumTo, ih n.succ_pos fun i hi => h i (Nat.lt_succ_of_lt hi), h (n + 1) (n + 1).lt_succ_self n.succ_ne_zero, Int.add_zero]

theorem natAbs_sumTo_le {c : Nat} (h : ∀ i < n, (f i).natAbs ≤ c) : (sumTo n f).natAbs ≤ n * c := by
  induction n with
  | zero => exact Nat.zero_le _
  | succ n ih =>
    calc (sumTo n f + f n).natAbs ≤ (sumTo n f).natAbs + (f n).natAbs := Int.natAbs_add_le _ _
      _ ≤ n * c + c := Nat.add_le_add (ih fun i hi => h i (Nat.lt_succ_of_lt hi)) (h n n.lt_succ_self)
      _ = (n + 1) * c := (Nat.succ_mul n c).symm

end

section
variable (n m : Nat)

theorem foldl_range_add (f : Nat → Int) : (List.range n).foldl (fun s i => s + f i) 0 = sumTo n f := by
  induction n with
  | zero => rfl
  | succ n ih => rw [List.range_succ, List.foldl_append, ih]; rfl

theorem sumTo_add (f g : Nat → Int) : sumTo n (fun i => f i + g i) = sumTo n f + sumTo n g := by
  induction n with
  | zero => rfl
  | succ n ih => simp only [sumTo, ih]; omega

theorem mul_sumTo (c : Int) (f : Nat → Int) : c * sumTo n f = sumTo n fun i => c * f i := by
  induction n with
  | zero => exact Int.mul_zero c
  | succ n ih => rw [sumTo, Int.mul_add, ih, sumTo]

theorem sumTo_comm (f : Nat → Nat → Int) :
    sumTo n (fun i => sumTo m fun j => f i j) = sumTo m fun j => sumTo n fun i => f i j := by
  induction n with
  | zero => exact (sumTo_eq_zero fun _ _ => rfl).symm
  | succ n ih => simp only [sumTo, sumTo_add, ih]

theorem sumTo_mul_sumTo (f g : Nat → Int) : sumTo n f * sumTo m g = sumTo n fun i => sumTo m fun j => f i * g j := by
  rw [Int.mul_comm, mul_sumTo]
  exact sumTo_congr fun i _ => by rw [Int.mul_comm, mul_sumTo]

theorem sumTo_append (f : Nat → Int) : sumTo (n + m) f = sumTo n f + sumTo m fun i => f (n + i) := by
  induction m with
  | zero => exact (Int.add_zero _).symm
  | succ m ih => rw [← Nat.add_assoc, sumTo, sumTo, ih, Int.add_assoc]

/-- A sum over n rows of m places each. -/
theorem sumTo_divMod (f : Nat → Nat → Int) : sumTo (n * m) (fun t => f (t / m) (t % m)) = sumTo n fun i => sumTo m (f i) := by
  induction n with
  | zero => rw [Nat.zero_mul]; rfl
  | succ n ih =>
    rw [Nat.succ_mul, sumTo_append, ih, sumTo]
    refine congrArg _ (sumTo_congr fun p hp => ?_)
    rw [Nat.mul_add_mod_of_lt hp, Nat.mul_comm n m, Nat.mul_add_div (Nat.zero_lt_of_lt hp), Nat.div_eq_of_lt hp, Nat.add_zero]

end

/-! ## The model's sums as sums over positions -/

theorem dotSum_eq {a b : OpGroup} {n : Nat} (ha : a.q.length = n) (hb : b.q.length = n) :
    dotSum a b = sumTo n fun i => a.q.getD i 0 * b.q.getD i 0 := by
  have hzip : List.zipWith (· * ·) a.q b.q = (List.range n).map fun i => a.q.getD i 0 * b.q.getD i 0 := by
    refine List.ext_getElem (by rw [List.length_zipWith, List.length_map, List.length_range, ha, hb, Nat.min_self]) fun i h _ => ?_
    rw [List.length_zipWith, ha, hb, Nat.min_self] at h
    simp only [List.getElem_zipWith, List.getElem_map, List.getElem_range, List.getD_eq_getElem?_getD,
      List.getElem?_eq_getElem (ha.symm ▸ h : i < a.q.length), List.getElem?_eq_getElem (hb.symm ▸ h : i < b.q.length),
      Option.getD_some]
  rw [dotSum, hzip, List.foldl_map, foldl_range_add]

/-- What the lanes and the escape unit feed for position p in the pass of limbs i and j (R104, R105). -/
def passTerm (a b : OpGroup) (i j p : Nat) : Int :=
  if a.esc.getD p false || b.esc.getD p false then (if i = 0 ∧ j = 0 then a.q.getD p 0 * b.q.getD p 0 else 0)
  else limbOf a.wide false (a.q.getD p 0) i * limbOf b.wide false (b.q.getD p 0) j * 2 ^ (limbWeight a.wide i + limbWeight b.wide j)

theorem passSum_eq (a b : OpGroup) (i j part : Nat) :
    passSum a b i j part = sumTo 32 fun n => passTerm a b i j (32 * part + n) := by
  rw [passSum, ← foldl_range_add]
  congr 1
  funext s n
  rw [passTerm]
  by_cases h : (a.esc.getD (32 * part + n) false || b.esc.getD (32 * part + n) false) = true
  · rw [if_pos h]
    dsimp only
    rw [if_pos h, Int.add_zero]
    simp only [h, true_and]
  · rw [if_neg h]
    dsimp only
    rw [if_neg h, if_neg fun he => h he.1, Int.add_zero]

/-! ## No pass leaves anything out (R103 to R105) -/

theorem limbCount_pos : ∀ wide : Bool, 0 < limbCount wide := by decide

/-- The limbs of an integer make it up (Table 4.1); a narrow one has nothing below its limb (R100). -/
theorem sum_limbs (wide : Bool) (q : Int) (h : wide = false → q % 512 = 0) :
    (sumTo (limbCount wide) fun l => limbOf wide false q l * 2 ^ limbWeight wide l) = q := by
  cases wide with
  | false =>
    have hq := h rfl
    show 0 + q / 512 * 512 = q
    omega
  | true =>
    show 0 + q / 1 % 256 * 1 + q / 256 % 256 * 256 + q / 65536 * 65536 = q
    omega

/-- Over the limb passes, a position contributes its product: in the escape unit when one of the two is escaped, else in the lanes. -/
theorem sum_passTerm {a b : OpGroup} {p : Nat}
    (ha : a.wide = false → a.esc.getD p false = false → a.q.getD p 0 % 512 = 0)
    (hb : b.wide = false → b.esc.getD p false = false → b.q.getD p 0 % 512 = 0) :
    (sumTo (limbCount a.wide) fun i => sumTo (limbCount b.wide) fun j => passTerm a b i j p) = a.q.getD p 0 * b.q.getD p 0 := by
  by_cases hesc : (a.esc.getD p false || b.esc.getD p false) = true
  · have hterm : ∀ i j, passTerm a b i j p = if i = 0 ∧ j = 0 then a.q.getD p 0 * b.q.getD p 0 else 0 := fun _ _ => if_pos hesc
    simp only [hterm]
    rw [sumTo_first (limbCount_pos _) fun i _ hi => sumTo_eq_zero fun j _ => if_neg fun h => hi h.1,
      sumTo_first (limbCount_pos _) fun j _ hj => if_neg fun h => hj h.2]
    exact if_pos ⟨rfl, rfl⟩
  · obtain ⟨hea, heb⟩ : a.esc.getD p false = false ∧ b.esc.getD p false = false := by
      rwa [Bool.not_eq_true, Bool.or_eq_false_iff] at hesc
    have hterm : ∀ i j, passTerm a b i j p = limbOf a.wide false (a.q.getD p 0) i * 2 ^ limbWeight a.wide i
        * (limbOf b.wide false (b.q.getD p 0) j * 2 ^ limbWeight b.wide j) := fun i j => by
      rw [passTerm, if_neg hesc, Int.pow_add]
      ac_rfl
    simp only [hterm]
    rw [← sumTo_mul_sumTo, sum_limbs _ _ fun h => ha h hea, sum_limbs _ _ fun h => hb h heb]

/-- The group sum after n handshakes of a group of 32 m positions: parts run fastest, then column limbs, then row limbs (R104). -/
def passTotal (m : Nat) (a b : OpGroup) (n : Nat) : Int :=
  sumTo n fun t => passSum a b (t / m / limbCount b.wide) (t / m % limbCount b.wide) (t % m)

/-- The passes of a whole group add up to S of R101. -/
theorem passTotal_eq_dotSum {m : Nat} {wa wb : Bool} {a b : OpGroup} (ha : regOk m wa a) (hb : regOk m wb b) :
    passTotal m a b (groupHandshakes m wa wb) = dotSum a b := by
  obtain ⟨hla, -, rfl, hqa⟩ := ha
  obtain ⟨hlb, -, rfl, hqb⟩ := hb
  calc passTotal m a b (groupHandshakes m a.wide b.wide)
      = sumTo (limbCount a.wide) fun i => sumTo (limbCount b.wide) fun j => sumTo m fun p => passSum a b i j p := by
        rw [passTotal, groupHandshakes, Nat.mul_comm m,
          sumTo_divMod _ m fun u p => passSum a b (u / limbCount b.wide) (u % limbCount b.wide) p,
          sumTo_divMod _ (limbCount b.wide) fun i j => sumTo m fun p => passSum a b i j p]
    _ = sumTo m fun p => sumTo (limbCount a.wide) fun i => sumTo (limbCount b.wide) fun j => passSum a b i j p := by
        rw [sumTo_comm m]
        exact sumTo_congr fun i _ => sumTo_comm _ _ _
    _ = sumTo m fun p => sumTo 32 fun n => sumTo (limbCount a.wide) fun i => sumTo (limbCount b.wide) fun j =>
          passTerm a b i j (32 * p + n) := sumTo_congr fun p _ => by
        simp only [passSum_eq]
        rw [sumTo_comm 32]
        exact sumTo_congr fun i _ => sumTo_comm _ _ _
    _ = sumTo m fun p => sumTo 32 fun n => a.q.getD (32 * p + n) 0 * b.q.getD (32 * p + n) 0 :=
        sumTo_congr fun p hp => sumTo_congr fun n hn => by
          obtain ⟨-, -, hna⟩ := hqa (32 * p + n) (by omega)
          obtain ⟨-, -, hnb⟩ := hqb (32 * p + n) (by omega)
          exact sum_passTerm hna hnb
    _ = dotSum a b := by
        rw [dotSum_eq hla hlb, Nat.mul_comm 32, ← sumTo_divMod m 32 fun p n => a.q.getD (32 * p + n) 0 * b.q.getD (32 * p + n) 0]
        simp only [Nat.div_add_mod]

/-! ## The group-sum register is wide enough (R105) -/

theorem natAbs_dotSum_lt {m : Nat} {wa wb : Bool} {a b : OpGroup} (hm : m ≤ 4) (ha : regOk m wa a) (hb : regOk m wb b) :
    (dotSum a b).natAbs < 2 ^ 53 := by
  obtain ⟨hla, -, -, hqa⟩ := ha
  obtain ⟨hlb, -, -, hqb⟩ := hb
  have hterm : ∀ i < 32 * m, (a.q.getD i 0 * b.q.getD i 0).natAbs ≤ (2 ^ 23 - 1) * (2 ^ 23 - 1) := fun i hi => by
    obtain ⟨hal, hau, -⟩ := hqa i hi
    obtain ⟨hbl, hbu, -⟩ := hqb i hi
    rw [Int.natAbs_mul]
    exact Nat.mul_le_mul (by omega) (by omega)
  have hsum := natAbs_sumTo_le hterm
  rw [← dotSum_eq hla hlb] at hsum
  omega

theorem toInt_dotSum {m : Nat} {wa wb : Bool} {a b : OpGroup} (hm : m ≤ 4) (ha : regOk m wa a) (hb : regOk m wb b) :
    (BitVec.ofInt 54 (dotSum a b)).toInt = dotSum a b := by
  have hlt := natAbs_dotSum_lt hm ha hb
  exact BitVec.toInt_ofInt_eq_self (by decide) (by omega) (by omega)

/-! ## The handshakes of a group -/

theorem divMod_succ_within {n m : Nat} (hlt : n % m + 1 < m) : (n + 1) / m = n / m ∧ (n + 1) % m = n % m + 1 :=
  (Nat.div_mod_unique (Nat.zero_lt_of_lt hlt)).mpr ⟨by have := Nat.div_add_mod n m; omega, hlt⟩

theorem divMod_succ_wraps {n m : Nat} (hm : 0 < m) (h : ¬ n % m + 1 < m) : (n + 1) / m = n / m + 1 ∧ (n + 1) % m = 0 :=
  (Nat.div_mod_unique hm).mpr ⟨by
    have hn := Nat.div_add_mod n m
    have hr := Nat.mod_lt n hm
    rw [Nat.mul_add]
    omega, hm⟩

/-- The row register that feeds accumulator k. -/
def ArraySt.rowReg (x : ArraySt) (k : Nat) : OpGroup := (regs x.rowOp).getD (k / 64) OpGroup.reset
/-- The column register that feeds accumulator k. -/
def ArraySt.colReg (x : ArraySt) (k : Nat) : OpGroup := (regs x.colOp).getD (k % 64) OpGroup.reset

theorem ArraySt.rowReg_eq (x : ArraySt) {k : Nat} (h : k < 4096) : x.rowReg k = tabGet OpGroup.reset x.rowOp (k / 64) :=
  regs_getD _ (by omega)

theorem ArraySt.colReg_eq (x : ArraySt) (k : Nat) : x.colReg k = tabGet OpGroup.reset x.colOp (k % 64) :=
  regs_getD _ (Nat.mod_lt _ (by decide))

/-- The group-sum registers after one more pass (R104). -/
def ArraySt.passSums (x : ArraySt) : Tab (BitVec 54) := tabOf 4096 fun k =>
  tabGet 0 x.gsum k + BitVec.ofInt 54 (passSum (x.rowReg k) (x.colReg k) x.limbI x.limbJ x.part)

/-- What accumulator k takes in from a group sum (R101, R105), with the mark of R107. -/
def ArraySt.accNext (x : ArraySt) (gsum : Tab (BitVec 54)) (k : Nat) : BitVec 128 × Bool :=
  add128 (tabGet 0 x.acc k)
    (BitVec.ofInt 128 ((tabGet 0 gsum k).toInt * gs8Scale (x.rowReg k).gs8 * gs8Scale (x.colReg k).gs8))

/-- The array after a group with these group sums: they are in the accumulators, the checker has its sums, and the registers are free
(R104, R105, R297). -/
def ArraySt.groupEnded (x : ArraySt) (gsum : Tab (BitVec 54)) : ArraySt :=
  let rows := tapSums (regs x.rowOp) (regs x.colOp)
  let cols := tapSums (regs x.colOp) (regs x.rowOp)
  { x with acc := tabOf 4096 fun k => (x.accNext gsum k).1,
           overflow := x.overflow || (List.range 4096).any fun k => (x.accNext gsum k).2,
           gsum := [], rowOp := [], colOp := [], tapRow := addTaps x.tapRow rows, tapCol := addTaps x.tapCol cols,
           pureRow := addTaps x.pureRow rows, pureCol := addTaps x.pureCol cols, grp := x.grp + 1, limbI := 0, limbJ := 0, part := 0 }

theorem ArraySt.groupEnded_acc (x : ArraySt) (gsum : Tab (BitVec 54)) {k : Nat} (h : k < 4096) :
    tabGet 0 (x.groupEnded gsum).acc k = (x.accNext gsum k).1 := by
  simp only [ArraySt.groupEnded, tabGet_tabOf _ h]

/-- The end of a group leaves the tile and what waits to drain or for a verdict. -/
theorem ArraySt.groupEnded_frame (x : ArraySt) (gsum : Tab (BitVec 54)) :
    (x.groupEnded gsum).tile = x.tile ∧ (x.groupEnded gsum).latch = x.latch ∧ (x.groupEnded gsum).drained = x.drained
      ∧ (x.groupEnded gsum).judges = x.judges := by
  rw [ArraySt.groupEnded]
  exact ⟨rfl, rfl, rfl, rfl⟩

/-- The group-sum registers after n passes of a group. -/
def ArraySt.passTable (x : ArraySt) (m n : Nat) : Tab (BitVec 54) := tabOf 4096 fun k =>
  BitVec.ofInt 54 (passTotal m (x.rowReg k) (x.colReg k) n)

/-- The array after n of a group's passes, the last not among them: the group sums, and the cursor at the next pass (R104). -/
def ArraySt.afterPasses (x : ArraySt) (m : Nat) (wb : Bool) (n : Nat) : ArraySt :=
  { x with gsum := x.passTable m n, limbI := n / m / limbCount wb, limbJ := n / m % limbCount wb, part := n % m }

section
variable (x : ArraySt) (m : Nat) (wb : Bool) (n k : Nat)
@[simp] theorem ArraySt.rowReg_afterPasses : (x.afterPasses m wb n).rowReg k = x.rowReg k := by
  simp only [ArraySt.rowReg, ArraySt.afterPasses]
@[simp] theorem ArraySt.colReg_afterPasses : (x.afterPasses m wb n).colReg k = x.colReg k := by
  simp only [ArraySt.colReg, ArraySt.afterPasses]
end

/-- What a group's end leaves does not depend on the group sums and the cursor before it. -/
theorem ArraySt.groupEnded_afterPasses (x : ArraySt) (m : Nat) (wb : Bool) (n : Nat) (gsum : Tab (BitVec 54)) :
    (x.afterPasses m wb n).groupEnded gsum = x.groupEnded gsum := by
  simp only [ArraySt.groupEnded, ArraySt.accNext, ArraySt.rowReg_afterPasses, ArraySt.colReg_afterPasses]
  simp only [ArraySt.afterPasses]

theorem dotsN_succ (n : Nat) (x : ArraySt) : dotsN (n + 1) x = (dotsN n x).dots := by
  induction n generalizing x with
  | zero => rfl
  | succ n ih => rw [dotsN, ih, dotsN]

/-- The row limb of a pass is one of the operand's as long as the group lasts. -/
theorem rowLimb_lt_iff {m n : Nat} {wa wb : Bool} (hm : 0 < m) :
    n / m / limbCount wb < limbCount wa ↔ n < groupHandshakes m wa wb := by
  rw [Nat.div_lt_iff_lt_mul (limbCount_pos wb), Nat.div_lt_iff_lt_mul hm, groupHandshakes, Nat.mul_comm m]

/-- A handshake moves the cursor on by a part, a column limb or a row limb, or ends the group. -/
theorem ArraySt.dots_eq {x : ArraySt} {m : Nat} {wa wb : Bool} (hm : 0 < m) (hr : regOk m wa (x.rowReg 0))
    (hc : regOk m wb (x.colReg 0)) :
    x.dots = if x.part + 1 < m then { x with gsum := x.passSums, part := x.part + 1 }
      else if x.limbJ + 1 < limbCount wb then { x with gsum := x.passSums, part := 0, limbJ := x.limbJ + 1 }
      else if x.limbI + 1 < limbCount wa then { x with gsum := x.passSums, part := 0, limbJ := 0, limbI := x.limbI + 1 }
      else x.groupEnded x.passSums := by
  obtain ⟨hlen, -, hwa, -⟩ := hr
  obtain ⟨-, -, hwb, -⟩ := hc
  have hparts : max 1 (32 * m / 32) = m := by omega
  rw [ArraySt.rowReg, Nat.zero_div, ← List.headD_eq_getD] at hlen hwa
  rw [ArraySt.colReg, Nat.zero_mod, ← List.headD_eq_getD] at hwb
  simp only [ArraySt.dots, hlen, hwa, hwb, hparts]
  rfl

section
variable {x : ArraySt} {m : Nat} {wa wb : Bool} (h : groupReady m wa wb x)
include h

theorem regOk_rowReg {k : Nat} (hk : k < 4096) : regOk m wa (x.rowReg k) := by
  obtain ⟨-, -, -, -, -, -, hrow, -⟩ := h
  rw [x.rowReg_eq hk]
  exact hrow _ (by omega)

theorem regOk_colReg (k : Nat) : regOk m wb (x.colReg k) := by
  obtain ⟨-, -, -, -, -, -, -, hcol⟩ := h
  rw [x.colReg_eq k]
  exact hcol _ (Nat.mod_lt _ (by decide))

/-- At the start of a group no pass has been made. -/
theorem afterPasses_zero : x.afterPasses m wb 0 = x := by
  obtain ⟨-, -, hg, hi, hj, hp, -, -⟩ := h
  have htab : x.passTable m 0 = [] := tabOf_zero
  simp only [ArraySt.afterPasses, htab, Nat.zero_div, Nat.zero_mod]
  obtain ⟨⟩ := x
  simp_all only

theorem passSums_afterPasses (n : Nat) : (x.afterPasses m wb n).passSums = x.passTable m (n + 1) := by
  unfold ArraySt.passSums ArraySt.passTable
  refine tabOf_congr fun k hk => ?_
  obtain ⟨-, -, hwide, -⟩ := regOk_colReg h k
  simp only [ArraySt.rowReg_afterPasses, ArraySt.colReg_afterPasses]
  simp only [ArraySt.afterPasses, ArraySt.passTable, tabGet_tabOf _ hk, ← BitVec.ofInt_add, passTotal, sumTo, hwide]

/-- A handshake after n passes, by the cursor. -/
theorem dots_afterPasses_eq (n : Nat) : (x.afterPasses m wb n).dots
    = if n % m + 1 < m then { x.afterPasses m wb n with gsum := x.passTable m (n + 1), part := n % m + 1 }
      else if n / m % limbCount wb + 1 < limbCount wb then
        { x.afterPasses m wb n with gsum := x.passTable m (n + 1), part := 0, limbJ := n / m % limbCount wb + 1 }
      else if n / m / limbCount wb + 1 < limbCount wa then
        { x.afterPasses m wb n with gsum := x.passTable m (n + 1), part := 0, limbJ := 0, limbI := n / m / limbCount wb + 1 }
      else x.groupEnded (x.passTable m (n + 1)) := by
  obtain ⟨hm, -⟩ := id h
  have hr : regOk m wa ((x.afterPasses m wb n).rowReg 0) := by
    rw [ArraySt.rowReg_afterPasses]; exact regOk_rowReg h (by decide)
  have hc : regOk m wb ((x.afterPasses m wb n).colReg 0) := by
    rw [ArraySt.colReg_afterPasses]; exact regOk_colReg h 0
  rw [ArraySt.dots_eq hm hr hc, passSums_afterPasses h, ArraySt.groupEnded_afterPasses]
  simp only [ArraySt.afterPasses]
  rfl

/-- Before the last pass a handshake makes the next one. -/
theorem dots_afterPasses {n : Nat} (hn : n + 1 < groupHandshakes m wa wb) :
    (x.afterPasses m wb n).dots = x.afterPasses m wb (n + 1) := by
  obtain ⟨hm, -⟩ := id h
  rw [dots_afterPasses_eq h]
  by_cases hpart : n % m + 1 < m
  · obtain ⟨hd, hr⟩ := divMod_succ_within hpart
    rw [if_pos hpart]
    simp only [ArraySt.afterPasses, hd, hr]
  · obtain ⟨hd, hr⟩ := divMod_succ_wraps hm hpart
    rw [if_neg hpart]
    by_cases hj : n / m % limbCount wb + 1 < limbCount wb
    · obtain ⟨hd', hr'⟩ := divMod_succ_within hj
      rw [if_pos hj]
      simp only [ArraySt.afterPasses, hd, hr, hd', hr']
    · obtain ⟨hd', hr'⟩ := divMod_succ_wraps (limbCount_pos wb) hj
      have hi : n / m / limbCount wb + 1 < limbCount wa := by
        rw [← hd', ← hd]; exact (rowLimb_lt_iff hm).mpr hn
      rw [if_neg hj, if_pos hi]
      simp only [ArraySt.afterPasses, hd, hr, hd', hr']

/-- The last pass ends the group. -/
theorem dots_afterPasses_last {n : Nat} (hn : n + 1 = groupHandshakes m wa wb) :
    (x.afterPasses m wb n).dots = x.groupEnded (x.passTable m (n + 1)) := by
  obtain ⟨hm, -⟩ := id h
  have hcount : n + 1 = m * (limbCount wa * limbCount wb) := hn
  have hpart : ¬ n % m + 1 < m := fun hlt => by
    have hr := (divMod_succ_within hlt).2
    rw [hcount, Nat.mul_mod_right] at hr
    omega
  have hdiv : n / m + 1 = limbCount wa * limbCount wb := by
    rw [← (divMod_succ_wraps hm hpart).1, hcount, Nat.mul_div_cancel_left _ hm]
  have hj : ¬ n / m % limbCount wb + 1 < limbCount wb := fun hlt => by
    have hr := (divMod_succ_within hlt).2
    rw [hdiv, Nat.mul_mod_left] at hr
    omega
  have hi : ¬ n / m / limbCount wb + 1 < limbCount wa := by
    rw [← (divMod_succ_wraps (limbCount_pos wb) hj).1, hdiv, Nat.mul_div_cancel _ (limbCount_pos wb)]
    exact Nat.lt_irrefl _
  rw [dots_afterPasses_eq h, if_neg hpart, if_neg hj, if_neg hi]

theorem dotsN_eq_afterPasses : ∀ {n : Nat}, n < groupHandshakes m wa wb → dotsN n x = x.afterPasses m wb n
  | 0, _ => (afterPasses_zero h).symm
  | n + 1, hn => by rw [dotsN_succ, dotsN_eq_afterPasses (Nat.lt_of_succ_lt hn), dots_afterPasses h hn]

theorem passTable_groupHandshakes : x.passTable m (groupHandshakes m wa wb)
    = tabOf 4096 fun k => BitVec.ofInt 54 (dotSum (x.rowReg k) (x.colReg k)) :=
  tabOf_congr fun k hk => by rw [passTotal_eq_dotSum (regOk_rowReg h hk) (regOk_colReg h k)]

/-- The handshakes of a group end it with the sums S of R101. -/
theorem dotsN_groupHandshakes : dotsN (groupHandshakes m wa wb) x
    = x.groupEnded (tabOf 4096 fun k => BitVec.ofInt 54 (dotSum (x.rowReg k) (x.colReg k))) := by
  obtain ⟨hm, -⟩ := id h
  have hpos : 0 < groupHandshakes m wa wb := Nat.mul_pos hm (Nat.mul_pos (limbCount_pos wa) (limbCount_pos wb))
  obtain ⟨n, hn⟩ := Nat.exists_eq_add_one.mpr hpos
  rw [← passTable_groupHandshakes h, hn, dotsN_succ, dotsN_eq_afterPasses h (by omega), dots_afterPasses_last h hn.symm]

/-- So every accumulator takes in the group contribution of R101. -/
theorem accNext_contribution {k : Nat} (hk : k < 4096) :
    (x.accNext (tabOf 4096 fun k => BitVec.ofInt 54 (dotSum (x.rowReg k) (x.colReg k))) k).1
      = tabGet 0 x.acc k + BitVec.ofInt 128 (contribution (x.rowReg k) (x.colReg k)) := by
  obtain ⟨-, hm, -⟩ := id h
  rw [ArraySt.accNext, tabGet_tabOf _ hk, toInt_dotSum hm (regOk_rowReg h hk) (regOk_colReg h k), contribution, add128]

end

end Sys2Proof.Machine

namespace Sys2Proof
open Sys2Proof.Machine Sys2Proof.Claims

/-- Settles O7: the group-sum register holds the sum of the passes made, which after all of them is S of R101 and lies within its 54
bits; the last handshake scales it and adds it to the accumulator. -/
theorem groupAddsContribution : Obligations.GroupAddsContribution := by
  unfold Obligations.GroupAddsContribution
  intro m wa wb x h y
  have hy : y = x.groupEnded (tabOf 4096 fun k => BitVec.ofInt 54 (dotSum (x.rowReg k) (x.colReg k))) := dotsN_groupHandshakes h
  rw [hy]
  refine ⟨fun k hk => ?_, rfl, rfl, rfl, rfl, rfl, rfl, rfl, x.groupEnded_frame _⟩
  rw [x.groupEnded_acc _ hk, accNext_contribution h hk, x.rowReg_eq hk, x.colReg_eq k]

end Sys2Proof
end

section
/-! SUPPORT and O49. The ledger window (R205, R423): what a request of each row makes of the latches, the entry and the attempt's scales,
and that counting a request changes nothing else. -/

namespace Sys2Proof.Machine

/-! ## Counting a request -/

/-- Only the count of ignored requests and partitions differ, and no partition's attempt does. -/
def CountsOnly (d e : Dev) : Prop :=
  (∃ n parts, e = { d with eng := { d.eng with ignoredOp := n }, parts := parts }) ∧ ∀ q, (e.part q).att = (d.part q).att

namespace CountsOnly
variable {d e : Dev}

theorem refl (d : Dev) : CountsOnly d d := ⟨⟨_, _, rfl⟩, fun _ => rfl⟩

theorem bump (d : Dev) (p : PartId) (c n : Nat) : CountsOnly d (d.bump p c n) := by
  refine ⟨⟨d.eng.ignoredOp, _, rfl⟩, fun q => ?_⟩
  by_cases h : q = p
  · subst h; rw [Dev.part_bump_self]
  · rw [Dev.part_bump_ne _ _ _ h]

theorem bumpOp (d : Dev) : CountsOnly d d.bumpOp := ⟨⟨_, d.parts, rfl⟩, fun _ => rfl⟩

/-- A write with ones that no field takes is counted (R418), whoever asked. -/
theorem counted (d : Dev) (r : Requester) (bad : Bool) : CountsOnly d (d.counted r bad) := by
  cases bad with
  | false => exact refl d
  | true =>
    cases r with
    | cfg v =>
      rcases d.counted_cases v true with h | h | h <;> rw [h]
      · exact refl d
      · exact bump d _ 0 1
      · exact bumpOp d
    | sec => exact refl d
    | unknown v => exact refl d

/-- A refused write of the ledger window is counted (R205). -/
theorem lgrRefused (d : Dev) (n : Nat) : CountsOnly d (d.lgrRefused n) := by
  unfold Dev.lgrRefused
  split
  · exact bump d _ 1 1
  · exact refl d

theorem rsp (h : CountsOnly d e) : e.rsp = d.rsp := by obtain ⟨⟨_, _, rfl⟩, -⟩ := h; rfl
theorem ledger (h : CountsOnly d e) : e.ledger = d.ledger := by obtain ⟨⟨_, _, rfl⟩, -⟩ := h; rfl
theorem members (h : CountsOnly d e) : e.members = d.members := by obtain ⟨⟨_, _, rfl⟩, -⟩ := h; rfl
theorem groups (h : CountsOnly d e) : e.groups = d.groups := by obtain ⟨⟨_, _, rfl⟩, -⟩ := h; rfl
theorem keys (h : CountsOnly d e) : e.keys = d.keys := by obtain ⟨⟨_, _, rfl⟩, -⟩ := h; rfl
theorem latch (h : CountsOnly d e) (r : Requester) : e.latch r = d.latch r := by obtain ⟨⟨_, _, rfl⟩, -⟩ := h; rfl

end CountsOnly

/-! ## The window's requests -/

/-- A latch's four words of entry n as staged so far; of another entry none are (R423). -/
def ViewLatch.stagedFor (l : ViewLatch) (n : Nat) : Nat × Option Word × Option Word × Option Word :=
  (l.staged.filter fun q => q.1 == n).getD (n, none, none, none)

/-- Words 0 to 2 of entry n staged, word w new (R423). -/
def ViewLatch.stage (l : ViewLatch) (n w : Nat) (data : Word) : ViewLatch :=
  let s := l.staged.getD (n, none, none, none)
  { l with staged := some (n, if w = 0 then some data else s.2.1, if w = 1 then some data else s.2.2.1,
                           if w = 2 then some data else s.2.2.2) }

/-- A staged word is held under its entry's number, at its own place. -/
theorem ViewLatch.stage_staged (l : ViewLatch) (n : Nat) (w : Fin 3) (data : Word) :
    ∃ a b c, (l.stage n w.val data).staged = some (n, a, b, c)
      ∧ (if w = 0 then a else if w = 1 then b else c) = some data := by
  refine ⟨_, _, _, rfl, ?_⟩
  match w with
  | 0 => rfl
  | 1 => rfl
  | 2 => rfl

/-- The units when a write of entry n has been met: its latches touched, the answer given (R423). -/
def Dev.lgrMet (d : Dev) (r : Requester) (n : Nat) : Dev := (d.lgrTouch r n).respond 0 0

/-- The units once a write of word 3 has used up the words staged, counted if it carries ones that no field takes (R418, R423). -/
def Dev.lgrDone (d : Dev) (r : Requester) (data : Word) : Dev :=
  (d.modLatch r fun l => { l with staged := none }).counted r (ledgerRoBad 3 data)

/-- The units with entry n replaced and whole again (R220). -/
def Dev.lgrPut (d : Dev) (n : Nat) (e : LedgerEntry) : Dev :=
  { d with ledger := tabSet LedgerEntry.reset d.ledger n e, ledgerBad := tabSet false d.ledgerBad n false }

section
variable (d : Dev) (r : Requester) (n : Nat)

@[simp] theorem Dev.lgrMet_lgrOpen (k : Nat) : (d.lgrMet r n).lgrOpen k = d.lgrOpen k := rfl
@[simp] theorem Dev.lgrMet_scaleOpen (k : Nat) : (d.lgrMet r n).scaleOpen k = d.scaleOpen k := rfl

/-- Meeting a write leaves the words staged for its entry. -/
theorem Dev.lgrMet_stagedEntry (data : Word) : (d.lgrMet r n).stagedEntry r n data
    = let e := tabGet LedgerEntry.reset d.ledger n
      let st := (d.latch r).stagedFor n
      e.writeWords (st.2.1.getD (e.word 0)) (st.2.2.1.getD (e.word 1)) (st.2.2.2.getD (e.word 2)) data := by
  simp only [Dev.stagedEntry, Dev.lgrMet, Dev.respond_latch, Dev.lgrTouch, Dev.latch_modLatch]
  rfl

theorem Dev.lgrDone_staged (data : Word) : ((d.lgrDone r data).latch r).staged = none := by
  rw [Dev.lgrDone, (CountsOnly.counted _ r _).latch, Dev.latch_modLatch]

/-- Beside the requester's latches, the end of a write only counts. -/
theorem Dev.lgrDone_countsOnly (data : Word) :
    CountsOnly (d.modLatch r fun l => { l with staged := none }) (d.lgrDone r data) := .counted _ r _

end

section
variable {d : Dev} {r : Requester} {i n : Nat} (hn : d.entryOf r .ledger i = some n)
include hn

theorem Dev.lgrRead0_entry : d.lgrRead0 r i
    = (d.modLatch r fun l => { l with snap := some (n, tabGet LedgerEntry.reset d.ledger n) }).respond
        ((tabGet LedgerEntry.reset d.ledger n).word 0) 0 := by
  simp only [Dev.lgrRead0, hn]

theorem Dev.lgrStage_open (w : Nat) (data : Word) (h : d.lgrOpen n = true ∨ d.scaleOpen n = true) : d.lgrStage r i w data
    = ((d.lgrMet r n).modLatch r fun l => l.stage n w data).counted r (ledgerRoBad w data) := by
  have hopen : ((d.lgrMet r n).lgrOpen n || (d.lgrMet r n).scaleOpen n) = true := by simpa using h
  simp only [Dev.lgrStage, hn]
  exact if_pos hopen

theorem Dev.lgrWrite3_open (data : Word) (h : d.lgrOpen n = true) : d.lgrWrite3 r i data
    = ((d.lgrMet r n).lgrPut n ((d.lgrMet r n).stagedEntry r n data)).lgrDone r data := by
  simp only [Dev.lgrWrite3, hn]
  exact if_pos h

theorem Dev.lgrWrite3_scale (data : Word) (h : d.lgrOpen n = false) (hs : d.scaleOpen n = true) : d.lgrWrite3 r i data
    = ((d.lgrMet r n).giveScale n ((d.lgrMet r n).stagedEntry r n data).ts32).lgrDone r data := by
  have hclosed : ¬ (d.lgrMet r n).lgrOpen n = true := by simp [h]
  simp only [Dev.lgrWrite3, hn]
  exact (if_neg hclosed).trans (if_pos hs)

theorem Dev.lgrWrite3_refused (data : Word) (h : d.lgrOpen n = false) (hs : d.scaleOpen n = false) :
    d.lgrWrite3 r i data = (d.lgrMet r n).lgrRefused n := by
  have hclosed : ¬ (d.lgrMet r n).lgrOpen n = true := by simp [h]
  have hshut : ¬ (d.lgrMet r n).scaleOpen n = true := by simp [hs]
  simp only [Dev.lgrWrite3, hn]
  exact (if_neg hclosed).trans (if_neg hshut)

end

/-! ## The single scale of a two-pass quantise-out (R166) -/

/-- An association list whose pairs of a key have been replaced by one reads as that one. -/
theorem lookup_replaced {α : Type} (l : List (Nat × α)) (i : Nat) (x : α) :
    ((l.filter fun s => s.1 != i) ++ [(i, x)]).lookup i = some x := by
  have hgone : (l.filter fun s => s.1 != i).lookup i = none :=
    List.lookup_eq_none_iff.2 fun q hq => by simpa using (bne_iff_ne.1 (List.mem_filter.1 hq).2).symm
  simp [List.lookup_append, hgone]

section
variable (d : Dev) (n : Nat) (ts : BitVec 32)

/-- It changes the ledger at the entry, and attempts. -/
theorem Dev.giveScale_frame : ∃ parts, d.giveScale n ts
    = { d with ledger := tabMod LedgerEntry.reset d.ledger n fun e => { e with ts32 := ts }, parts := parts } := by
  unfold Dev.giveScale
  dsimp only
  split <;> exact ⟨_, rfl⟩

theorem Dev.giveScale_ledger :
    (d.giveScale n ts).ledger = tabMod LedgerEntry.reset d.ledger n fun e => { e with ts32 := ts } := by
  obtain ⟨_, h⟩ := d.giveScale_frame n ts; rw [h]

theorem Dev.giveScale_rsp : (d.giveScale n ts).rsp = d.rsp := by
  obtain ⟨_, h⟩ := d.giveScale_frame n ts; rw [h]

/-- The attempt of the entry's owner takes the scale for the partition's own number of the entry. -/
theorem Dev.giveScale_scales {p : PartId} (h : d.entryOwner .ledger n = some p) :
    ((d.giveScale n ts).part p).att.scales.lookup (n - (d.part p).cfg.lgrBase) = some ts := by
  have howner : Dev.entryOwner
      { d with ledger := tabMod LedgerEntry.reset d.ledger n fun e => { e with ts32 := ts } } .ledger n = some p := h
  simp only [Dev.giveScale, howner, Dev.part_modAtt_self]
  exact lookup_replaced _ _ ts

end

/-! ## The commands, heard -/

section
variable {t : Tick} {r : Requester} {s : State} (hr : s.dev.hears r = true)
include hr

theorem exec_ledgerWord0Read_heard (i : Nat) :
    exec (.ledgerWord0Read t r i) s = .next { s with now := max s.now t, dev := s.dev.lgrRead0 r i } := by
  show execLedgerWord0Read t r i s = _
  rw [execLedgerWord0Read, onDev, serve_of_hears _ hr rfl]

theorem exec_ledgerWordStage_heard (i : Nat) (w : Fin 3) (data : Word) :
    exec (.ledgerWordStage t r i w data) s = .next { s with now := max s.now t, dev := s.dev.lgrStage r i w.val data } := by
  show execLedgerWordStage t r i w data s = _
  rw [execLedgerWordStage, onDev, serve_of_hears _ hr rfl]

theorem exec_ledgerWord3Write_heard (i : Nat) (data : Word) :
    exec (.ledgerWord3Write t r i data) s = .next { s with now := max s.now t, dev := s.dev.lgrWrite3 r i data } := by
  show execLedgerWord3Write t r i data s = _
  rw [execLedgerWord3Write, onDev, serve_of_hears _ hr rfl]

end

end Sys2Proof.Machine

namespace Sys2Proof
open Sys2Proof.Machine Sys2Proof.Claims

/-- Settles O49: the entry a requester addresses being known, each request is one of five updates of the units; what each does to
latches, ledger and scales is read off it, since counting the request touches none of them. -/
theorem ledgerWindow : Obligations.LedgerWindow := by
  unfold Obligations.LedgerWindow
  intro t r i n w data s e hr hn
  refine ⟨⟨_, exec_ledgerWord0Read_heard hr i, ?_⟩, fun h => ⟨_, exec_ledgerWordStage_heard hr i w data, ?_⟩,
    fun h => ⟨_, exec_ledgerWord3Write_heard hr i data, ?_⟩, fun h hs => ⟨_, exec_ledgerWord3Write_heard hr i data, ?_⟩,
    fun h hs => ⟨_, exec_ledgerWord3Write_heard hr i data, ?_⟩⟩
  · rw [Dev.lgrRead0_entry hn]
    exact ⟨rfl, by rw [Dev.respond_latch, Dev.latch_modLatch], rfl⟩
  · rw [Dev.lgrStage_open hn w.val data h]
    have hcount := CountsOnly.counted ((s.dev.lgrMet r n).modLatch r fun l => l.stage n w.val data) r (ledgerRoBad w.val data)
    refine ⟨rfl, hcount.ledger, hcount.rsp, ?_⟩
    rw [hcount.latch, Dev.latch_modLatch]
    exact ViewLatch.stage_staged _ n w data
  · rw [Dev.lgrWrite3_open hn data h]
    have hcount := Dev.lgrDone_countsOnly ((s.dev.lgrMet r n).lgrPut n ((s.dev.lgrMet r n).stagedEntry r n data)) r data
    refine ⟨rfl, hcount.rsp, Dev.lgrDone_staged _ r data, ?_, fun k hk => ?_, hcount.members, hcount.groups, hcount.keys⟩
    · rw [hcount.ledger]; exact (tabGet_tabSet_self _ _ _ _).trans (s.dev.lgrMet_stagedEntry r n data)
    · rw [hcount.ledger]; exact tabGet_tabSet_ne _ _ _ hk
  · rw [Dev.lgrWrite3_scale hn data h hs, Dev.lgrMet_stagedEntry]
    have hcount ts := Dev.lgrDone_countsOnly ((s.dev.lgrMet r n).giveScale n ts) r data
    have hledger ts := (hcount ts).ledger.trans ((s.dev.lgrMet r n).giveScale_ledger n ts)
    refine ⟨rfl, (hcount _).rsp.trans ((s.dev.lgrMet r n).giveScale_rsp n _), Dev.lgrDone_staged _ r data, ?_, fun p hp => ?_,
      fun k hk => ?_⟩
    · rw [hledger, tabGet_tabMod, if_pos rfl]; rfl
    · rw [(hcount _).2 p]; exact (s.dev.lgrMet r n).giveScale_scales n _ hp
    · rw [hledger, tabGet_tabMod, if_neg hk]; rfl
  · rw [Dev.lgrWrite3_refused hn data h hs]
    exact (CountsOnly.lgrRefused _ n).ledger

end Sys2Proof
end

section
/-! SUPPORT and O20. Host windows (R166, R167): the three commands on SCH_HOST, and what an overrun and the end of a program leave of the
schedule and the attempt (R234, R241). -/

namespace Sys2Proof.Machine

/-! ## An overrun, and the end of a program -/

theorem Part.overrunSeverity_ne_engFatal (x : Part) : x.overrunSeverity ≠ .engFatal := by
  unfold Part.overrunSeverity
  split <;> nofun

section
variable (d : Dev) (t : Nat) (p : PartId) (u : UnitCode) (key cause port : Nat)

theorem Touches.overrun : Touches p d (d.overrun t p u key cause port) := by
  unfold Dev.overrun
  exact (report d t (d.part p).overrunSeverity_ne_engFatal rfl).trans (modAtt p _ _)

/-- An overrun leaves a live attempt doomed: its record dooms it, or is raised for information since it was doomed before (R236). -/
theorem Dev.overrun_dooms (h : (d.part p).att.live = true) : ((d.overrun t p u key cause port).part p).att.doom.isSome := by
  simp only [Dev.overrun, Dev.part_modAtt_self]
  by_cases hdoomed : (d.part p).att.doom.isSome
  · have hinfo : (d.part p).overrunSeverity = .info := if_pos hdoomed
    rw [Dev.report_low _ _ _ (.inl hinfo), Dev.raise_part]
    exact hdoomed
  · have hreplay : (d.part p).overrunSeverity = .stepReplay := if_neg hdoomed
    rw [Dev.report_stepReplay _ _ _ p hreplay rfl (by decide : (0x01 : Byte) ≠ 0x0A)]
    exact Dev.doom_isSome _ _ _ _ _ _ _ (by rwa [Dev.raise_part])

end

/-- Partition y is as x in PENDING, GO and the attempt, but for whether that is live: so the end of a program leaves it (R241). -/
def EndsAs (x y : Part) : Prop :=
  y.sch.hostPending = x.sch.hostPending ∧ y.sch.hostGo = x.sch.hostGo ∧ y.att = { x.att with live := y.att.live }

theorem EndsAs.refl (x : Part) : EndsAs x x := ⟨rfl, rfl, rfl⟩

section
variable (d : Dev) (p : PartId) (img : Image) (g : Segment) (l : Slot)

theorem Touches.programOver : Touches p d (d.programOver p) := by
  have hleft := (modAtt p d fun a => { a with live := false }).trans
    (modCtx p _ fun c => { c with reg := (d.part p).ctx.reg &&& ~~~(1#8 <<< (d.part p).ctx.active) })
  refine Touches.trans ?_ (idleFlue p p _)
  exact ite (fun _ => (hleft.trans (modSch p _ _)).trans (modCtx p _ _)) fun _ => hleft.trans (modSch p _ _)

theorem Touches.endProgram : Touches p d (d.endProgram p img g l) :=
  ite (fun _ => programOver d p) fun _ => refl p d

theorem Dev.programOver_endsAs : EndsAs (d.part p) ((d.programOver p).part p) := by
  simp only [Dev.programOver, Dev.idleFlue_part]
  split <;> simp [EndsAs]

theorem Dev.endProgram_endsAs : EndsAs (d.part p) ((d.endProgram p img g l).part p) := by
  unfold Dev.endProgram
  dsimp only
  split
  · exact d.programOver_endsAs p
  · exact .refl _

/-- A live attempt's checks find the partition as it is. -/
theorem Dev.endsToo_live (h : (d.part p).att.live = true) : d.endsToo p = d := by simp [Dev.endsToo, h]

end

/-! ## The window's end beat (R166, R167) -/

/-- SCH_HOST as the window's end leaves it: nothing pending, no GO, no slot. -/
def Sch.closeWindow (h : Sch) : Sch := { h with hostPending := false, hostGo := false, hostSlot := 0xFFFFFFFF#32 }

/-- The units at the end beat of a window that is pending: an overrun unless GO came (cause 5), and the window is closed. -/
def Dev.windowEnds (d : Dev) (n : Nat) (p : PartId) (l : Slot) (slot : Nat) : Dev :=
  (if (d.part p).sch.hostGo then d else d.overrun n p ((d.part p).launcher l) slot 5 0).modSch p .closeWindow

section
variable (d : Dev) (n : Nat) (p : PartId) (l : Slot) (slot : Nat)

theorem Touches.windowEnds : Touches p d (d.windowEnds n p l slot) :=
  (ite (fun _ => refl p d) fun _ => overrun d n p _ _ _ _).trans (modSch p _ _)

theorem Dev.windowEnds_sch : ((d.windowEnds n p l slot).part p).sch.hostPending = false
    ∧ ((d.windowEnds n p l slot).part p).sch.hostGo = false := by
  simp [Dev.windowEnds, Sch.closeWindow]

theorem Dev.windowEnds_go (h : (d.part p).sch.hostGo = true) : ((d.windowEnds n p l slot).part p).att = (d.part p).att := by
  simp [Dev.windowEnds, h]

theorem Dev.windowEnds_overrun (h : (d.part p).sch.hostGo = false) (hl : (d.part p).att.live = true) :
    ((d.windowEnds n p l slot).part p).att.doom.isSome := by
  rw [Dev.windowEnds, if_neg (by simp [h]), Dev.part_modSch_self]
  exact d.overrun_dooms n p _ _ _ _ hl

/-- The units after the end beat: the last slot of a program's last segment ends the program too (R241). -/
def Dev.windowEndsAll (img : Image) : Dev :=
  (d.part p).segment.elim (d.windowEnds n p l slot) fun g => (d.windowEnds n p l slot).endProgram p img g l

theorem Touches.windowEndsAll (img : Image) : Touches p d (d.windowEndsAll n p l slot img) := by
  unfold Dev.windowEndsAll
  cases (d.part p).segment with
  | none => exact windowEnds d n p l slot
  | some g => exact (windowEnds d n p l slot).trans (endProgram _ p img g l)

theorem Dev.windowEndsAll_endsAs (img : Image) :
    EndsAs ((d.windowEnds n p l slot).part p) ((d.windowEndsAll n p l slot img).part p) := by
  unfold Dev.windowEndsAll
  cases (d.part p).segment with
  | none => exact .refl _
  | some g => exact Dev.endProgram_endsAs _ p img g l

end

/-! ## The commands -/

section
variable {t : Tick} {p : PartId} {slot : Nat} {s : State} {img : Image} {l : Slot}
  (hi : (s.dev.part p).ldr.image = some img) (hl : slotOf img slot = some l)
include hi hl

section
variable (hk : l.kind = 6) (ht : (s.dev.part p).att.onTimeline img (s.dev.part p).sch.seg.toNat l = true)
include hk ht

theorem exec_hostWindowStart_due (hn : s.dev.launches p (max s.now t) l = true)
    (hb : (s.dev.part p).beatTick ((s.dev.part p).att.startOf img l) = some (max s.now t)) :
    exec (.hostWindowStart t p slot) s = .next { s with now := max s.now t, dev := s.dev.modSch p fun h =>
      { h with hostPending := true, hostGo := false, hostSlot := BitVec.ofNat 32 slot } } := by
  show execHostWindowStart t p slot s = _
  simp [execHostWindowStart, onDev, hi, hl, hk, ht, hn, hb]

theorem exec_hostWindowEnd_pending (hr : (s.dev.part p).running = true) (hv : (s.dev.part p).att.live = true)
    (hp : (s.dev.part p).sch.hostPending = true) (hs : (s.dev.part p).sch.hostSlot.toNat = slot)
    (hb : (s.dev.part p).beatTick ((s.dev.part p).att.endOf img l) = some (max s.now t)) :
    exec (.hostWindowEnd t p slot) s
      = .next { s with now := max s.now t, dev := s.dev.windowEndsAll (max s.now t) p l slot img } := by
  show execHostWindowEnd t p slot s = _
  simp only [execHostWindowEnd, onDev, Dev.endsToo_live _ _ hv, hi, hl, hk, ht, hr, hv, hp, hs, hb, Option.bind_some, Option.map_some,
    and_self, if_true]
  rw [Dev.windowEndsAll]
  cases (s.dev.part p).segment <;> rfl

end

/-- A GO stamped before the end beat, as far as the epoch in progress tells it, is kept. -/
theorem exec_hostGo_intime {v : Requester} (hv : s.dev.reqPart v = p) (hr : s.dev.hears v = true)
    (hp : (s.dev.part p).sch.hostPending = true) (hs : (s.dev.part p).sch.hostSlot.toNat = slot)
    (hb : ∀ e, (s.dev.part p).beatTick ((s.dev.part p).att.endOf img l) = some e → max s.now t < e) :
    exec (.hostGo t v) s
      = .next { s with now := max s.now t, dev := (s.dev.respond 0 0).modSch p fun h => { h with hostGo := true } } := by
  subst hv
  show execHostGo t v s = _
  simp only [execHostGo, onDev, serve_of_hears _ hr (Nat.zero_mod 8), hi, hs, hl, hp, Option.bind_some, Option.map_some, Bool.true_and]
  cases he : (s.dev.part (s.dev.reqPart v)).beatTick ((s.dev.part (s.dev.reqPart v)).att.endOf img l) with
  | none => rfl
  | some e => simp only [decide_eq_true (hb e he), if_true]

end

end Sys2Proof.Machine

namespace Sys2Proof
open Sys2Proof.Machine Sys2Proof.Claims

/-- What touches a partition, the report queue and waiting packets is within the frame that statements give for such a command. -/
theorem Claims.partAndFlue_of_touches {t : Tick} {p : PartId} {s : State} {e : Dev} (h : Touches p s.dev e) :
    PartAndFlue p t s { s with now := max s.now t, dev := e } := by
  obtain ⟨⟨rpt, ports, parts, rfl⟩, others⟩ := h
  exact ⟨rfl, others⟩

/-- Settles O20: the first beat and GO are one change of SCH_HOST each; the end beat is `Dev.windowEnds`, after which the program's end
leaves the window closed and of the attempt changes only whether it is live. -/
theorem hostWindowHandshake : Obligations.HostWindowHandshake := by
  unfold Obligations.HostWindowHandshake
  intro t p v slot s img l x n hi hl hk hslot
  refine ⟨fun hn ht hb => ⟨_, exec_hostWindowStart_due hi hl hk ht hn hb, ?_⟩,
    fun hr hv hp hs ht hb => ⟨_, exec_hostWindowEnd_pending hi hl hk ht hr hv hp hs hb, ?_⟩,
    fun hv hr hp hs hb => ⟨_, exec_hostGo_intime hi hl hv hr hp hs hb, ?_⟩⟩
  · refine ⟨⟨rfl, fun q hq => Dev.part_modSch_ne _ _ hq⟩, rfl, ?_⟩
    rw [Dev.part_modSch_self]
    exact ⟨rfl, rfl, BitVec.toNat_ofNat slot 32 ▸ Nat.mod_eq_of_lt hslot⟩
  · obtain ⟨hpending, hgo, hatt⟩ := s.dev.windowEndsAll_endsAs n p l slot img
    obtain ⟨hclosed, hnone⟩ := s.dev.windowEnds_sch n p l slot
    refine ⟨partAndFlue_of_touches (.windowEndsAll s.dev n p l slot img), hpending.trans hclosed, hgo.trans hnone, fun hg => ?_,
      fun hg => ?_⟩
    · rw [s.dev.windowEnds_go n p l slot hg] at hatt
      exact hatt
    · have hdoomed := s.dev.windowEnds_overrun n p l slot hg hv
      rw [hatt]
      exact hdoomed
  · refine ⟨⟨rfl, fun q hq => Dev.part_modSch_ne _ _ hq⟩, ?_, rfl⟩
    rw [Dev.part_modSch_self]

end Sys2Proof
end

section
/-! SUPPORT and O44. Softmax states: kept packets and the states they bring (R156, R268), and the merge of a node's rows (R154, R298);
both change the states that the partition keeps, each row's by a step of its own. -/

namespace Sys2Proof.Machine

/-! ## A fold whose steps each have a place of their own -/

/-- A reading that one step sets and no other step changes is set once that step is among those of the fold. -/
theorem foldl_reads {α β γ : Type} {φ : β → γ} {f : β → α → β} {a : α} {v : γ} (own : ∀ b, φ (f b a) = v)
    (others : ∀ b x, x ≠ a → φ (f b x) = φ b) : ∀ (l : List α) (b : β), a ∈ l → φ (l.foldl f b) = v
  | x :: l, b, h => by
    by_cases hx : x = a
    · subst hx
      refine foldl_invariant (φ · = v) f l _ (own b) fun b y _ hb => ?_
      by_cases hy : y = x
      · subst hy; exact own b
      · exact (others b y hy).trans hb
    · exact foldl_reads own others l _ ((List.mem_cons.1 h).resolve_left (Ne.symm hx))

/-! ## What a partition keeps of the flue -/

/-- Beside what partition p keeps of the flue, nothing differs. -/
def FluOnly (p : PartId) (d e : Dev) : Prop :=
  (∃ parts, e = { d with parts := parts }) ∧ (∀ q, q ≠ p → e.part q = d.part q) ∧ ∃ flu, e.part p = { d.part p with flu := flu }

namespace FluOnly
variable {p : PartId} {a b c : Dev}

theorem refl (p : PartId) (d : Dev) : FluOnly p d d := ⟨⟨_, rfl⟩, fun _ _ => rfl, _, rfl⟩

theorem trans (h : FluOnly p a b) (k : FluOnly p b c) : FluOnly p a c := by
  obtain ⟨⟨_, rfl⟩, ho, _, hp⟩ := h
  obtain ⟨⟨_, rfl⟩, ko, _, kp⟩ := k
  exact ⟨⟨_, rfl⟩, fun q hq => (ko q hq).trans (ho q hq), _, by rw [kp, hp]⟩

theorem modPart (p : PartId) (d : Dev) {f : Part → Part} (h : ∀ x, ∃ flu, f x = { x with flu := flu }) :
    FluOnly p d (d.modPart p f) := by
  obtain ⟨flu, hf⟩ := h (d.part p)
  exact ⟨⟨_, rfl⟩, fun _ h => d.part_modPart_ne _ h, flu, (d.part_modPart_self p _).trans hf⟩

theorem putState (p : PartId) (d : Dev) (st : ChState) : FluOnly p d (d.putState p st) := modPart p d fun _ => ⟨_, rfl⟩
theorem dropState (p : PartId) (d : Dev) (bind row level node : Nat) : FluOnly p d (d.dropState p bind row level node) :=
  modPart p d fun _ => ⟨_, rfl⟩

theorem foldl {α : Type} (f : Dev → α → Dev) (h : ∀ d x, FluOnly p d (f d x)) (l : List α) (d : Dev) : FluOnly p d (l.foldl f d) :=
  foldl_rel (FluOnly p) f (refl p) trans h l d

theorem att (h : FluOnly p a b) : (b.part p).att = (a.part p).att := by
  obtain ⟨-, -, _, hp⟩ := h
  rw [hp]

theorem rsp (h : FluOnly p a b) : b.rsp = a.rsp := by obtain ⟨⟨_, rfl⟩, -⟩ := h; rfl

end FluOnly

/-! ## States at their places -/

section
variable {α : Type} (l : List α) {q r : α → Bool}

theorem find?_without_self : (l.filter fun x => !q x).find? q = none := by
  simp [List.find?_eq_none]

theorem find?_without_of_disjoint (h : ∀ x, r x = true → q x = false) : (l.filter fun x => !q x).find? r = l.find? r := by
  have hsame : (fun x => !q x && r x) = r := by
    funext x
    cases hr : r x with
    | false => exact Bool.and_false _
    | true => rw [h x hr]; rfl
  rw [List.find?_filter]
  simp only [Bool.decide_and, Bool.decide_eq_true, hsame]

end

/-- Whether a state is that of a row at a node. -/
def ChState.isAt (bind row level node : Nat) (s : ChState) : Bool :=
  s.bind == bind && s.row == row && s.level == level && s.node == node

theorem ChState.isAt_iff {bind row level node : Nat} {s : ChState} :
    s.isAt bind row level node = true ↔ (s.bind, s.row, s.level, s.node) = (bind, row, level, node) := by
  simp [ChState.isAt, and_assoc]

/-- No state is at two places. -/
theorem ChState.isAt_disjoint {bind row level node bind' row' level' node' : Nat}
    (h : (bind', row', level', node') ≠ (bind, row, level, node)) (s : ChState) (hs : s.isAt bind' row' level' node' = true) :
    s.isAt bind row level node = false :=
  Bool.eq_false_iff.2 fun hs' => h ((ChState.isAt_iff.1 hs).symm.trans (ChState.isAt_iff.1 hs'))

theorem Part.chState_eq_find? (x : Part) (bind row level node : Nat) :
    x.chState bind row level node = x.flu.states.find? (ChState.isAt bind row level node) := rfl

/-- A state read is that of the place it was read at. -/
theorem Part.chState_place {x : Part} {bind row level node : Nat} {a : ChState} (h : x.chState bind row level node = some a) :
    a.bind = bind ∧ a.row = row ∧ a.level = level ∧ a.node = node := by
  rw [Part.chState_eq_find?] at h
  simpa using ChState.isAt_iff.1 (List.find?_some h)

section
variable (d : Dev) (p : PartId)

theorem Dev.putState_states (st : ChState) : ((d.putState p st).part p).flu.states
    = ((d.part p).flu.states.filter fun s => !s.isAt st.bind st.row st.level st.node) ++ [st] := by
  rw [Dev.putState, Dev.part_modPart_self]; rfl

theorem Dev.dropState_states (bind row level node : Nat) : ((d.dropState p bind row level node).part p).flu.states
    = (d.part p).flu.states.filter fun s => !s.isAt bind row level node := by
  rw [Dev.dropState, Dev.part_modPart_self]; rfl

theorem Dev.chState_putState_self (st : ChState) :
    ((d.putState p st).part p).chState st.bind st.row st.level st.node = some st := by
  have hst : st.isAt st.bind st.row st.level st.node = true := ChState.isAt_iff.2 rfl
  rw [Part.chState_eq_find?, Dev.putState_states, List.find?_append, find?_without_self, List.find?_singleton, if_pos hst]
  rfl

theorem Dev.chState_putState_ne {st : ChState} {bind row level node : Nat}
    (h : (bind, row, level, node) ≠ (st.bind, st.row, st.level, st.node)) :
    ((d.putState p st).part p).chState bind row level node = (d.part p).chState bind row level node := by
  have hst : ¬ st.isAt bind row level node = true := fun hst => h (ChState.isAt_iff.1 hst).symm
  rw [Part.chState_eq_find?, Dev.putState_states, List.find?_append, find?_without_of_disjoint _ (ChState.isAt_disjoint h),
    List.find?_singleton, if_neg hst, Option.or_none, ← Part.chState_eq_find?]

variable (bind row level node : Nat)

theorem Dev.chState_dropState_self : ((d.dropState p bind row level node).part p).chState bind row level node = none := by
  rw [Part.chState_eq_find?, Dev.dropState_states, find?_without_self]

theorem Dev.chState_dropState_ne {bind' row' level' node' : Nat} (h : (bind', row', level', node') ≠ (bind, row, level, node)) :
    ((d.dropState p bind row level node).part p).chState bind' row' level' node' = (d.part p).chState bind' row' level' node' := by
  rw [Part.chState_eq_find?, Dev.dropState_states, find?_without_of_disjoint _ (ChState.isAt_disjoint h), ← Part.chState_eq_find?]

end

/-! ## STATE (R156, R268) -/

/-- Whether a binding is the chained product whose states a packet carries. -/
def carriesStates (k : Packet) (b : Binding) : Bool :=
  match b.kind with
  | .chained _ _ _ c _ _ => c.pTid == k.hdr.tid.setWidth 24
  | _ => false

/-- The packets of a packet's state, itself the newest of its number. -/
def Part.statePackets (x : Part) (k : Packet) : List Packet :=
  k :: x.flu.chunks.filter fun y => sameState y k && y.hdr.aux != k.hdr.aux

/-- The bytes of a packet's state once all its packets are there. -/
def Part.stateBytesOf (x : Part) (k : Packet) (c : Chained) : Option (List Byte) :=
  stateWhole (x.statePackets k) (ceilDiv (64 * ceilDiv (4 * (c.d + 2)) 512) 128)

/-- Row i of a state's 64 (R268): m, l and the values of o from its lines, the fault bit from REF. -/
def packetState (k : Packet) (bind : Nat) (c : Chained) (bs : List Byte) (i : Nat) : ChState :=
  let v (m : Nat) : BitVec 32 := BitVec.ofNat 32 (fieldLE bs (512 * ceilDiv (4 * (c.d + 2)) 512 * i + 4 * m) 4)
  ⟨bind, 64 * k.hdr.rowTile.toNat + i, k.hdr.kPart.toNat / 2 ^ 24, k.hdr.kPart.toNat % 2 ^ 24, v 0, v 1,
    (List.range c.d).map fun m => v (2 + m), k.hdr.ref.getLsbD i, []⟩

/-- The rows of a packet's 64 that lie within a tensor of that many. -/
def packetRows (k : Packet) (rows : Nat) : List Nat :=
  (List.range 64).filter fun i => decide (64 * k.hdr.rowTile.toNat + i < rows)

section
variable (d : Dev) (p : PartId) (k : Packet)

/-- A packet of a state kept with the others (R156). -/
def Dev.keepChunk : Dev :=
  d.modPart p fun x => { x with flu := { x.flu with
    chunks := k :: x.flu.chunks.filter fun y => !(sameState y k && y.hdr.aux == k.hdr.aux) } }

/-- The kept packets of a state that is whole let go. -/
def Dev.dropChunks : Dev :=
  d.modPart p fun x => { x with flu := { x.flu with chunks := x.flu.chunks.filter fun y => !sameState y k } }

/-- The states of a whole state's rows, put at their node. -/
def Dev.putStates (bind rows : Nat) (c : Chained) (bs : List Byte) : Dev :=
  (packetRows k rows).foldl (fun d i => d.putState p (packetState k bind c bs i)) (d.dropChunks p k)

/-- What an accepted packet of a state makes of the units: it is kept until all are there (R156). -/
def Dev.takeState (bind rows : Nat) (c : Chained) : Dev :=
  ((d.part p).stateBytesOf k c).elim (d.keepChunk p k) fun bs => d.putStates p k bind rows c bs

theorem FluOnly.takeState (bind rows : Nat) (c : Chained) : FluOnly p d (d.takeState p k bind rows c) := by
  unfold Dev.takeState
  cases (d.part p).stateBytesOf k c with
  | none => exact modPart p d fun _ => ⟨_, rfl⟩
  | some bs => exact trans (modPart p d fun _ => ⟨_, rfl⟩) (foldl _ (fun d i => putState p d (packetState k bind c bs i)) _ _)

theorem Dev.takeState_kept {bind rows : Nat} {c : Chained} (h : (d.part p).stateBytesOf k c = none) :
    k ∈ ((d.takeState p k bind rows c).part p).flu.chunks := by
  simp [Dev.takeState, h, Dev.keepChunk]

/-- Once all packets are there, each row within the tensor has its state. -/
theorem Dev.takeState_whole {bind rows i : Nat} {c : Chained} (h : ((d.part p).stateBytesOf k c).isSome) (hi : i < 64)
    (hrow : 64 * k.hdr.rowTile.toNat + i < rows) :
    (((d.takeState p k bind rows c).part p).chState bind (64 * k.hdr.rowTile.toNat + i) (k.hdr.kPart.toNat / 2 ^ 24)
      (k.hdr.kPart.toNat % 2 ^ 24)).isSome := by
  obtain ⟨bs, hbs⟩ := Option.isSome_iff_exists.1 h
  have hmem : i ∈ packetRows k rows := List.mem_filter.2 ⟨List.mem_range.2 hi, by simpa using hrow⟩
  have hput := foldl_reads (φ := fun e : Dev => (e.part p).chState bind (64 * k.hdr.rowTile.toNat + i)
      (k.hdr.kPart.toNat / 2 ^ 24) (k.hdr.kPart.toNat % 2 ^ 24))
    (f := fun d i => d.putState p (packetState k bind c bs i))
    (fun e => e.chState_putState_self p (packetState k bind c bs i))
    (fun e i' hne => e.chState_putState_ne p (by simp [packetState, Ne.symm hne]))
    (packetRows k rows) (d.dropChunks p k) hmem
  rw [Dev.takeState, hbs]
  exact Option.isSome_of_eq_some hput

end

theorem exec_state_taken {t : Tick} {p : PartId} {k : Packet} {s : State} {key : Nat} {rc : Receive} {b : Binding}
    {q kk v : Operand} {c : Chained} {ch : Option Nat} {out : Output} (hk : (s.dev.recvChecks (max s.now t) p k).2 = true)
    (hr : (s.dev.part p).receiverOf k tyState = some (key, rc)) (hb : (s.dev.part p).segBindings.find? (carriesStates k) = some b)
    (hc : b.kind = .chained q kk v c ch out) (hrow : k.hdr.rowTile.toNat < rc.rowTiles)
    (hlevel : k.hdr.kPart.toNat / 2 ^ 24 ≤ rootLevel c)
    (hnode : k.hdr.kPart.toNat % 2 ^ 24 < levelNodes c (k.hdr.kPart.toNat / 2 ^ 24)) :
    exec (.state t p k) s
      = .next { s with now := max s.now t, dev := s.dev.takeState p k b.key (operandTensor q).rows c } := by
  have hplace : ¬ (rc.rowTiles ≤ k.hdr.rowTile.toNat ∨ rootLevel c < k.hdr.kPart.toNat / 2 ^ 24
      ∨ levelNodes c (k.hdr.kPart.toNat / 2 ^ 24) ≤ k.hdr.kPart.toNat % 2 ^ 24) := by omega
  show execState t p k s = _
  simp only [execState, onDev, hk, Dev.recvChecks_ok hk, hr, Bool.not_true, Bool.false_eq_true, if_false]
  split
  · next h => cases h
  · next b' hrc hb' =>
    obtain rfl : b' = b := Option.some.inj (hb'.symm.trans hb)
    cases hrc
    simp only [hc, if_neg hplace]
    rw [Dev.takeState, Part.stateBytesOf, Part.statePackets]
    split
    · next h => rw [h]; rfl
    · next bs h => rw [h]; rfl
  · next h => exact absurd (h.symm.trans hb) nofun

/-! ## STATE_MERGE (R154 to R156, R298) -/

/-- What the merge of a node's rows goes by: the place of the node, whether it has one child alone, the table of the exponential, and the
failure of the row unit. -/
structure Merging where
  p : PartId
  bind : Nat
  level : Nat
  node : Nat
  lone : Bool
  table : List Byte
  fail : Failure

theorem mem_orFail_right (a : Failure) {b : Failure} {y : Nat × UnitCode} (h : y ∈ b) : y ∈ orFail a b := by
  by_cases hy : y ∈ a <;> simp [orFail, h, hy]

namespace Merging

/-- The state that a row's children form: their merge, or the lone child; a failure of the row unit goes with it (R298). -/
def state (m : Merging) (a : ChState) (z : Option ChState) : ChState :=
  let new : ChState := match m.lone, z with
    | false, some b => chMerge m.table a b m.level m.node
    | _, _ => { a with level := m.level, node := m.node }
  { new with fail := orFail new.fail m.fail }

/-- The state of the left child of a row, as partition x keeps it. -/
def left (m : Merging) (x : Part) (r : Nat) : Option ChState := x.chState m.bind r (m.level - 1) (2 * m.node)
/-- The state of the right child of a row. -/
def right (m : Merging) (x : Part) (r : Nat) : Option ChState := x.chState m.bind r (m.level - 1) (2 * m.node + 1)

/-- The units with one row's children replaced by what they form; x is the partition before the merge, and has the children. -/
def row (m : Merging) (x : Part) (d : Dev) (r : Nat) : Dev :=
  match m.left x r with
  | none => d
  | some a => ((d.dropState m.p m.bind r (m.level - 1) (2 * m.node)).dropState m.p m.bind r (m.level - 1)
      (2 * m.node + 1)).putState m.p (m.state a (m.right x r))

variable (m : Merging) (x : Part)

theorem state_lone (h : m.lone = true) (hf : m.fail = []) (a : ChState) (z : Option ChState) :
    m.state a z = { a with level := m.level, node := m.node } := by
  simp [state, h, hf]

theorem state_both (h : m.lone = false) (hf : m.fail = []) (a z : ChState) :
    m.state a (some z) = chMerge m.table a z m.level m.node := by
  simp [state, h, hf]

/-- It takes the place of the node, at the row of its left child. -/
theorem state_place (a : ChState) (z : Option ChState) : (m.state a z).bind = a.bind ∧ (m.state a z).row = a.row
    ∧ (m.state a z).level = m.level ∧ (m.state a z).node = m.node := by
  unfold state
  dsimp only
  split <;> exact ⟨rfl, rfl, rfl, rfl⟩

theorem mem_state_fail (a : ChState) (z : Option ChState) {y : Nat × UnitCode} (h : y ∈ m.fail) : y ∈ (m.state a z).fail :=
  mem_orFail_right _ h

theorem fluOnly_row (d : Dev) (r : Nat) : FluOnly m.p d (m.row x d r) := by
  unfold row
  cases m.left x r with
  | none => exact .refl m.p d
  | some a => exact ((FluOnly.dropState m.p d ..).trans (FluOnly.dropState m.p _ ..)).trans (FluOnly.putState m.p _ _)

theorem fluOnly_rows (rows : List Nat) (d : Dev) : FluOnly m.p d (rows.foldl (m.row x) d) := .foldl _ (m.fluOnly_row x) rows d

/-- A row's step leaves the states of every other row. -/
theorem row_ne (d : Dev) {r r' : Nat} (h : r' ≠ r) (level node : Nat) :
    ((m.row x d r').part m.p).chState m.bind r level node = (d.part m.p).chState m.bind r level node := by
  unfold row
  cases ha : m.left x r' with
  | none => rfl
  | some a =>
    obtain ⟨-, hrow, -, -⟩ := m.state_place a (m.right x r')
    rw [(Part.chState_place ha).2.1] at hrow
    show ((Dev.putState _ m.p _).part m.p).chState _ _ _ _ = _
    rw [Dev.chState_putState_ne _ _ (by simp [hrow, Ne.symm h]), Dev.chState_dropState_ne _ _ _ _ _ _ (by simp [Ne.symm h]),
      Dev.chState_dropState_ne _ _ _ _ _ _ (by simp [Ne.symm h])]

section
variable {m x} {r : Nat} {a : ChState} (ha : m.left x r = some a) {rows : List Nat} (hr : r ∈ rows) (d : Dev)
include ha hr

/-- After the merge a row of it has at the node what its children formed. -/
theorem rows_node :
    ((rows.foldl (m.row x) d).part m.p).chState m.bind r m.level m.node = some (m.state a (m.right x r)) := by
  refine foldl_reads (φ := fun e : Dev => (e.part m.p).chState m.bind r m.level m.node) (fun e => ?_)
    (fun e r' h => m.row_ne x e h _ _) rows d hr
  obtain ⟨hbind, hrow, hlevel, hnode⟩ := m.state_place a (m.right x r)
  obtain ⟨habind, harow, -, -⟩ := Part.chState_place ha
  have hself := Dev.chState_putState_self ((e.dropState m.p m.bind r (m.level - 1) (2 * m.node)).dropState m.p m.bind r
    (m.level - 1) (2 * m.node + 1)) m.p (m.state a (m.right x r))
  rw [hbind, hrow, hlevel, hnode, habind, harow] at hself
  rw [row, ha]
  exact hself

variable (hl : 0 < m.level)
include hl

/-- The children of a merged row are gone. -/
theorem rows_children :
    ((rows.foldl (m.row x) d).part m.p).chState m.bind r (m.level - 1) (2 * m.node) = none
      ∧ ((rows.foldl (m.row x) d).part m.p).chState m.bind r (m.level - 1) (2 * m.node + 1) = none := by
  obtain ⟨-, -, hlevel, -⟩ := m.state_place a (m.right x r)
  have hbelow (node : Nat) : (m.bind, r, m.level - 1, node) ≠ ((m.state a (m.right x r)).bind, (m.state a (m.right x r)).row,
      (m.state a (m.right x r)).level, (m.state a (m.right x r)).node) := by
    simp only [ne_eq, Prod.mk.injEq, hlevel]
    omega
  refine ⟨foldl_reads (φ := fun e : Dev => (e.part m.p).chState m.bind r (m.level - 1) (2 * m.node)) (fun e => ?_)
      (fun e r' h => m.row_ne x e h _ _) rows d hr,
    foldl_reads (φ := fun e : Dev => (e.part m.p).chState m.bind r (m.level - 1) (2 * m.node + 1)) (fun e => ?_)
      (fun e r' h => m.row_ne x e h _ _) rows d hr⟩
  · rw [row, ha]
    refine (Dev.chState_putState_ne _ m.p (hbelow _)).trans ?_
    rw [Dev.chState_dropState_ne _ _ _ _ _ _ (by simp), Dev.chState_dropState_self]
  · rw [row, ha]
    exact (Dev.chState_putState_ne _ m.p (hbelow _)).trans (Dev.chState_dropState_self _ _ _ _ _ _)

end

end Merging

/-- Whether a slot's job is that of a binding. -/
def Dev.runsBind (d : Dev) (p : PartId) (bind : Nat) (r : SlotRun) : Bool :=
  match d.jobOf p r.key with
  | some j => j.b.key == bind
  | none => false

/-- The output rows of a job in a row tile. -/
def Job.tileRows (j : Job) (rowTile : Nat) : List Nat :=
  ((List.range 64).map (64 * rowTile + ·)).filter fun r => decide (r < (outShape j.img j.b.kind).1)

/-- What a row unit's failure in a merge leaves on the units, and what it leaves with the states (R298). -/
def Dev.mergeFault (d : Dev) (n : Nat) (j : Job) : Option (Fin 4) → Dev × Failure
  | some u =>
    let r := d.residueFail n (d.jobSlice j) (unitOf (d.jobSlice j) 3 u.val)
    (r.1, [r.2])
  | none => (d, [])

/-- The merge that a job's chained product makes of a node. -/
def Job.merging (j : Job) (c : Chained) (p : PartId) (bind level node : Nat) (f : Failure) : Merging :=
  ⟨p, bind, level, node, decide (levelNodes c (level - 1) ≤ 2 * node + 1), actRec j.img c.expHandle, f⟩

/-- The units after the merge of a node, for the rows of a row tile. -/
def Dev.mergeNode (d : Dev) (n : Nat) (p : PartId) (j : Job) (c : Chained) (bind rowTile level node : Nat) (u : Option (Fin 4)) : Dev :=
  let f := d.mergeFault n j u
  (j.tileRows rowTile).foldl ((j.merging c p bind level node f.2).row (d.part p)) f.1

/-- It changes the states that partition p keeps, and the residue record of a slice. -/
theorem Dev.mergeNode_frame (d : Dev) (n : Nat) (p : PartId) (j : Job) (c : Chained) (bind rowTile level node : Nat)
    (u : Option (Fin 4)) :
    (∃ slices parts, d.mergeNode n p j c bind rowTile level node u = { d with slices := slices, parts := parts })
      ∧ ∀ q, q ≠ p → (d.mergeNode n p j c bind rowTile level node u).part q = d.part q := by
  obtain ⟨⟨_, hdev⟩, others, -⟩ := (j.merging c p bind level node (d.mergeFault n j u).2).fluOnly_rows (d.part p)
    (j.tileRows rowTile) (d.mergeFault n j u).1
  cases u with
  | none => exact ⟨⟨d.slices, _, hdev⟩, others⟩
  | some u => exact ⟨⟨_, _, hdev⟩, others⟩

/-- States of a chained product that sends none stay where they are formed (R155). -/
theorem Dev.sendState_of_no_sends (d : Dev) (j : Job) {c : Chained} (row level node n : Nat) (h : c.sends = []) :
    d.sendState j c row level node n = d := by
  simp [Dev.sendState, h]

theorem exec_stateMerge_formed {t : Tick} {p : PartId} {bind rowTile level node : Nat} {s : State} {r : SlotRun} {j : Job}
    {q kk v : Operand} {c : Chained} {ch : Option Nat} {out : Output} (u : Option (Fin 4))
    (hr : (s.dev.part p).att.slots.find? (s.dev.runsBind p bind) = some r) (hj : s.dev.jobOf p r.key = some j)
    (hc : j.b.kind = .chained q kk v c ch out) (hsends : c.sends = []) (hl : 0 < level) (hl' : level < 64)
    (hn : node < levelNodes c level)
    (hrows : ∀ r ∈ j.tileRows rowTile, ((s.dev.part p).chState bind r (level - 1) (2 * node)).isSome
      ∧ (decide (levelNodes c (level - 1) ≤ 2 * node + 1) = true
        ∨ ((s.dev.part p).chState bind r (level - 1) (2 * node + 1)).isSome)) :
    exec (.stateMerge t p bind rowTile level ⟨node, u⟩) s
      = .next { s with now := max s.now t, dev := s.dev.mergeNode (max s.now t) p j c bind rowTile level node u } := by
  have hjob : ((s.dev.part p).att.slots.find? (s.dev.runsBind p bind)).bind (fun r => s.dev.jobOf p r.key) = some j := by
    rw [hr]; exact hj
  have hall : (j.tileRows rowTile).all (fun r => ((s.dev.part p).chState bind r (level - 1) (2 * node)).isSome
      && (decide (levelNodes c (level - 1) ≤ 2 * node + 1)
        || ((s.dev.part p).chState bind r (level - 1) (2 * node + 1)).isSome)) = true := by
    simpa only [List.all_eq_true, Bool.and_eq_true, Bool.or_eq_true] using hrows
  have hform : ¬ (level = 0 ∨ runLevel ≤ level ∨ levelNodes c level ≤ node ∨ (!(j.tileRows rowTile).all fun r =>
      ((s.dev.part p).chState bind r (level - 1) (2 * node)).isSome && (decide (levelNodes c (level - 1) ≤ 2 * node + 1)
        || ((s.dev.part p).chState bind r (level - 1) (2 * node + 1)).isSome)) = true) := by
    rw [hall]
    simp only [runLevel, Bool.not_true, Bool.false_eq_true, or_false]
    omega
  show execStateMerge t p bind rowTile level ⟨node, u⟩ s = _
  simp only [execStateMerge, onDev]
  split
  · next h => exact absurd (h.symm.trans hjob) nofun
  · next j' h =>
    obtain rfl : j' = j := Option.some.inj (h.symm.trans hjob)
    simp only [hc, Dev.sendState_of_no_sends _ _ _ _ _ _ hsends]
    simp only [Job.tileRows, hc] at hform
    rw [if_neg hform, Dev.mergeNode, Job.tileRows, hc]
    cases u <;> rfl

end Sys2Proof.Machine

namespace Sys2Proof
open Sys2Proof.Machine Sys2Proof.Claims

/-- What changes in what a partition keeps of the flue alone is within the frame of a command on that partition. -/
theorem Claims.partOnly_of_fluOnly {t : Tick} {p : PartId} {s : State} {e : Dev} (h : FluOnly p s.dev e) :
    PartOnly p t s { s with now := max s.now t, dev := e } := by
  obtain ⟨⟨_, rfl⟩, others, -⟩ := h
  exact ⟨rfl, others⟩

/-- Settles O44: a packet is kept or brings the rows of its state, and a merge is a fold over the rows of the tile, each of whose steps
changes the states of its own row; so what a row reads after the fold is what its own step has put there. -/
theorem statesMerge : Obligations.StatesMerge := by
  unfold Obligations.StatesMerge
  intro t p k s key rc b q kk v c ch out bind rowTile level node x lv nd all whole
  refine ⟨fun hk hr hb hc hrow hlv hnd => ⟨_, exec_state_taken hk hr hb hc hrow hlv hnd, ?_⟩, ?_⟩
  · have honly := FluOnly.takeState s.dev p k b.key (operandTensor q).rows c
    exact ⟨partOnly_of_fluOnly honly, honly.rsp, honly.att, s.dev.takeState_kept p k,
      fun hwhole i hi hin => s.dev.takeState_whole p k hwhole hi hin⟩
  · intro r j rows lone hr hj hc hsends hl hl' hn hrows
    refine ⟨?_, fun u => ?_⟩
    · have honly := (j.merging c p bind level node []).fluOnly_rows x rows s.dev
      refine ⟨_, exec_stateMerge_formed none hr hj hc hsends hl hl' hn hrows, partOnly_of_fluOnly honly, honly.rsp, honly.att,
        fun r hr a ha => ?_⟩
      have hnode := Merging.rows_node (m := j.merging c p bind level node []) ha hr s.dev
      obtain ⟨hleft, hright⟩ := Merging.rows_children (m := j.merging c p bind level node []) ha hr s.dev hl
      refine ⟨hleft, fun hlone => ?_, fun z hlone hz => ⟨?_, hright⟩⟩
      · exact hnode.trans (congrArg some (Merging.state_lone _ hlone rfl a _))
      · exact hnode.trans (congrArg some ((congrArg _ hz).trans (Merging.state_both _ hlone rfl a z)))
    · obtain ⟨⟨_, _, hdev⟩, others⟩ := s.dev.mergeNode_frame (max s.now t) p j c bind rowTile level node (some u)
      refine ⟨_, exec_stateMerge_formed (some u) hr hj hc hsends hl hl' hn hrows, ?_, others, fun r hr => ?_⟩
      · simp only [UnitsAre, hdev]
      · obtain ⟨a, ha⟩ := Option.isSome_iff_exists.1 (hrows r hr).1
        let m := j.merging c p bind level node (s.dev.mergeFault (max s.now t) j (some u)).2
        exact ⟨_, _, Merging.rows_node (m := m) (x := x) ha hr _, m.mem_state_fail a _ (List.mem_singleton_self _)⟩

end Sys2Proof
end

section
/-! SUPPORT and O40. The receive checks of Table 10.6 (R266, R274), one equation for each way out of them, in the order of the checks. -/

namespace Sys2Proof.Machine

/-- What ends in checks 1 and 2: the check word is wrong, another job or member is meant, or the receiver's state lets nothing in (R266). -/
def Part.unmeant (x : Part) (k : Packet) : Prop :=
  pktCrcOk k = false ∨ k.hdr.job ≠ x.flu.tag ∨ k.hdr.dst.toNat % 8192 ≠ x.self ∨ x.mayReceive k = false

/-- The record of a packet of a newer attempt (check 3): the agreement is broken, and the syndrome names the sender (R248, Table 11.11). -/
def newerReport (p : PartId) (k : Packet) : Report :=
  { code := 0x14, severity := .partFatal, unit := sharedUnit 5, part := some p, synd := 3 + k.hdr.src.toNat % 8192 * 2 ^ 16 }

section
variable {d : Dev} {p : PartId} {k : Packet} (t : Nat)

theorem Dev.recvChecks_unmeant (h : (d.part p).unmeant k) : d.recvChecks t p k = (d.bump p 3 1, false) := by
  unfold Dev.recvChecks
  dsimp only
  rcases h with hcrc | hother
  · rw [if_pos (by simp [hcrc])]
  · split
    · rfl
    · rw [if_pos (by simpa using hother)]

/-- Past checks 1 and 2, the attempt decides, and then the group. -/
theorem Dev.recvChecks_meant (h : ¬ (d.part p).unmeant k) : d.recvChecks t p k
    = if !skipsAttempt (d.part p) k && (d.part p).attemptOf k == 1 then (d.bump p 4 1, false)
      else if !skipsAttempt (d.part p) k && (d.part p).attemptOf k == 2 then (d.report t (newerReport p k), false)
      else if (d.grp p (k.hdr.group.toNat % 1024)).map gGen = some k.hdr.gen.toNat then (d, true) else (d.skew t p 4 0, false) := by
  simp only [Part.unmeant, not_or, Bool.not_eq_false] at h
  obtain ⟨hcrc, hjob, hdst, hstate⟩ := h
  unfold Dev.recvChecks
  dsimp only
  rw [if_neg (by simp [hcrc]), if_neg (by simp [hstate, Decidable.not_not.1 hjob, Decidable.not_not.1 hdst])]
  cases d.grp p (k.hdr.group.toNat % 1024) <;> simp [newerReport]

theorem Dev.recvChecks_older (h : ¬ (d.part p).unmeant k) (hs : skipsAttempt (d.part p) k = false)
    (ha : (d.part p).attemptOf k = 1) : d.recvChecks t p k = (d.bump p 4 1, false) := by
  rw [Dev.recvChecks_meant t h, if_pos (by simp [hs, ha])]

theorem Dev.recvChecks_newer (h : ¬ (d.part p).unmeant k) (hs : skipsAttempt (d.part p) k = false)
    (ha : (d.part p).attemptOf k = 2) : d.recvChecks t p k = (d.report t (newerReport p k), false) := by
  rw [Dev.recvChecks_meant t h, if_neg (by simp [ha]), if_pos (by simp [hs, ha])]

/-- A packet of the attempt, or one that check 3 passes over, comes to check 4. -/
theorem Dev.recvChecks_current (h : ¬ (d.part p).unmeant k) (ha : skipsAttempt (d.part p) k = true ∨ (d.part p).attemptOf k = 0) :
    d.recvChecks t p k
      = if (d.grp p (k.hdr.group.toNat % 1024)).map gGen = some k.hdr.gen.toNat then (d, true) else (d.skew t p 4 0, false) := by
  rw [Dev.recvChecks_meant t h, if_neg, if_neg] <;> rcases ha with ha | ha <;> simp [ha]

end

/-- A partition-fatal report leaves the partition it names in HALTED. -/
theorem Dev.report_partFatal_state (d : Dev) (t : Nat) (r : Report) (p : PartId) (hs : r.severity = .partFatal)
    (hp : r.part = some p) : ((d.report t r).part p).sch.state = .halted := by
  rw [d.report_partFatal t r p hs hp, Dev.part_haltPart_self]; rfl

/-- A step-replay report of a live attempt's own partition leaves it doomed. -/
theorem Dev.report_stepReplay_doom (d : Dev) (t : Nat) (r : Report) (p : PartId) (hs : r.severity = .stepReplay)
    (hp : r.part = some p) (hc : r.code ≠ 0x0A) (h : (d.part p).att.live = true) :
    ((d.report t r).part p).att.doom.isSome := by
  rw [d.report_stepReplay t r p hs hp hc]
  exact Dev.doom_isSome _ _ _ _ _ _ _ (by rwa [Dev.raise_part])

theorem Dev.skew_doom (d : Dev) (t : Nat) (p : PartId) (order extra : Nat) (h : (d.part p).att.live = true) :
    ((d.skew t p order extra).part p).att.doom.isSome :=
  d.report_stepReplay_doom t _ p rfl rfl (by simp) h

end Sys2Proof.Machine

namespace Sys2Proof
open Sys2Proof.Machine

/-- Settles O40: each clause is the equation of one way out of the checks, with what its report makes of the partition. -/
theorem receiveChecksInOrder : Obligations.ReceiveChecksInOrder := by
  unfold Obligations.ReceiveChecksInOrder
  intro d n p k x r first
  refine ⟨d.recvChecks_unmeant n, Dev.recvChecks_older n, fun h hs ha => ?_, fun h ha => ⟨fun g hgrp hgen => ?_, fun hgen => ?_⟩⟩
  · have hnewer : r = (d.report n (newerReport p k), false) := Dev.recvChecks_newer n h hs ha
    rw [hnewer]
    exact ⟨rfl, d.report_partFatal_state n _ p rfl rfl⟩
  · exact (Dev.recvChecks_current n h ha).trans (if_pos (by rw [hgrp, Option.map_some, hgen]))
  · have hskew : r = (d.skew n p 4 0, false) :=
      (Dev.recvChecks_current n h ha).trans (if_neg fun hg => by
        obtain ⟨g, hgrp, heq⟩ := Option.map_eq_some_iff.1 hg
        exact hgen g hgrp heq)
    rw [hskew]
    exact ⟨rfl, d.skew_doom n p 4 0⟩

end Sys2Proof
end

section
/-! SUPPORT and O50. Writes of the flue tables (R273, R424): the entry a requester addresses and its owner being known, each write is one of
four updates of the units. -/

namespace Sys2Proof.Machine

theorem exec_tableEntryWrite_heard {t : Tick} {r : Requester} {s : State} (hr : s.dev.hears r = true) (isGroup : Bool) (i : Nat)
    (w1 : Word) :
    exec (.tableEntryWrite t r isGroup i w1) s
      = .next { s with
          now := max s.now t,
          dev := if isGroup then s.dev.groupWrite (max s.now t) r i w1 else s.dev.memberWrite (max s.now t) r i w1 } := by
  show execTableEntryWrite t r isGroup i w1 s = _
  rw [execTableEntryWrite, onDev, serve_of_hears _ hr (Nat.zero_mod 8)]

/-- GRP_ERR shows in the partition (R271, R273). -/
theorem Dev.setGrpErr_grpErr (d : Dev) (t : Nat) (p : PartId) : ((d.setGrpErr t p).part p).flu.grpErr = true := by
  rw [Dev.setGrpErr, Dev.part_modPart_self]

/-- The units when a write of word 1 of a member entry has been met: what was latched and staged is gone, the answer is given (R424). -/
def Dev.memberMet (d : Dev) (r : Requester) : Dev :=
  (d.modLatch r fun l => { l with membSnap := none, membStaged := none }).respond 0 0

/-- The same for a group entry. -/
def Dev.groupMet (d : Dev) (r : Requester) : Dev :=
  (d.modLatch r fun l => { l with grpSnap := none, grpStaged := none }).respond 0 0

/-- Member entry n with the fields of word 1 (Table 10.3). -/
def Dev.memberPut (d : Dev) (n : Nat) (w1 : Word) : Dev :=
  { d with members := tabSet 0 d.members n (twoWords 0 (memberFields (BitVec.ofNat 64 ((tabGet 0 d.members n).toNat / 2 ^ 64)) w1)) }

/-- Group entry n replaced. -/
def Dev.groupPut (d : Dev) (n : Nat) (g : GroupEntry) : Dev := { d with groups := tabSet GroupEntry.reset d.groups n g }

/-- The group entry that word 1 makes of entry n and the word 0 staged for it (R418, R424). -/
def Dev.newGroup (d : Dev) (r : Requester) (n : Nat) (w1 : Word) : BitVec 128 :=
  let old := BitVec.ofNat 64 (tabGet GroupEntry.reset d.groups n).written.toNat
  twoWords (groupFields old (stagedOr (d.latch r).grpStaged n old)) w1

section
variable {d : Dev} {t : Nat} {r : Requester} {i n : Nat} {p : PartId} {w1 : Word}

/-- A member entry that no group in use names takes the write (R273 step 1). -/
theorem Dev.memberWrite_unused (hn : d.entryOf r .member i = some n) (hp : d.entryOwner .member n = some p)
    (h : d.memberUsed p (n - (d.part p).cfg.membBase) = false) : ∃ bad, d.memberWrite t r i w1
      = ((d.memberMet r).memberPut n w1).counted r bad := by
  have howner : (d.memberMet r).entryOwner .member n = some p := hp
  have hfree : ¬ (d.memberMet r).memberUsed p (n - ((d.memberMet r).part p).cfg.membBase) = true :=
    Bool.eq_false_iff.1 h
  simp only [Dev.memberMet] at howner hfree
  simp only [Dev.memberWrite, hn, howner]
  exact ⟨_, if_neg hfree⟩

theorem Dev.memberWrite_used (hn : d.entryOf r .member i = some n) (hp : d.entryOwner .member n = some p)
    (h : d.memberUsed p (n - (d.part p).cfg.membBase) = true) : d.memberWrite t r i w1 = (d.memberMet r).setGrpErr t p := by
  have howner : (d.memberMet r).entryOwner .member n = some p := hp
  have hused : (d.memberMet r).memberUsed p (n - ((d.memberMet r).part p).cfg.membBase) = true := h
  simp only [Dev.memberMet] at howner hused
  simp only [Dev.memberWrite, hn, howner]
  exact if_pos hused

/-- A group entry's write that names an epoch at least two ahead is taken: pending, or in force at once (R273, log entry 47). -/
theorem Dev.groupWrite_taken (hn : d.entryOf r .group i = some n) (hp : d.entryOwner .group n = some p)
    (h : ¬ gEffective (d.newGroup r n w1) < (d.part p).sch.epoch.toNat + 2) : ∃ bad, d.groupWrite t r i w1
      = ((d.groupMet r).groupPut n (
          if mayFlue (d.part p).sch.state ∨ d.grpValid p (tabGet GroupEntry.reset d.groups n).inForce
          then { tabGet GroupEntry.reset d.groups n with written := d.newGroup r n w1, pending := true }
          else ⟨d.newGroup r n w1, d.newGroup r n w1, false⟩)).counted r bad := by
  have howner : (d.groupMet r).entryOwner .group n = some p := hp
  simp only [Dev.groupMet] at howner
  simp only [Dev.groupWrite, hn, howner]
  exact ⟨_, if_neg h⟩

theorem Dev.groupWrite_refused (hn : d.entryOf r .group i = some n) (hp : d.entryOwner .group n = some p)
    (h : gEffective (d.newGroup r n w1) < (d.part p).sch.epoch.toNat + 2) :
    d.groupWrite t r i w1 = (d.groupMet r).setGrpErr t p := by
  have howner : (d.groupMet r).entryOwner .group n = some p := hp
  simp only [Dev.groupMet] at howner
  simp only [Dev.groupWrite, hn, howner]
  exact if_pos h

end

end Sys2Proof.Machine

namespace Sys2Proof
open Sys2Proof.Machine Sys2Proof.Claims

/-- Settles O50: each clause is read off one of the four updates, since counting the write (R418) touches no table. -/
theorem flueTableWrites : Obligations.FlueTableWrites := by
  unfold Obligations.FlueTableWrites
  intro t r i n w1 p s hr
  have hmember := exec_tableEntryWrite_heard (t := t) hr false i w1
  have hgroup := exec_tableEntryWrite_heard (t := t) hr true i w1
  refine ⟨fun hn hp => ⟨fun h => ⟨_, hmember, ?_⟩, fun h => ⟨_, hmember, ?_⟩⟩, fun hn hp => ?_⟩
  · obtain ⟨bad, hwrite⟩ := Dev.memberWrite_unused (t := max s.now t) (w1 := w1) hn hp h
    rw [if_neg nofun, hwrite]
    have hcount := CountsOnly.counted ((s.dev.memberMet r).memberPut n w1) r bad
    refine ⟨rfl, hcount.rsp, hcount.groups, hcount.ledger, ?_, fun k hk => ?_⟩
    · rw [hcount.members]; exact tabGet_tabSet_self _ _ _ _
    · rw [hcount.members]; exact tabGet_tabSet_ne _ _ _ hk
  · rw [if_neg nofun, Dev.memberWrite_used hn hp h]
    exact ⟨rfl, Dev.setGrpErr_grpErr _ _ p⟩
  · intro live g old new refused
    refine ⟨fun h => ⟨_, hgroup, ?_⟩, fun h => ⟨_, hgroup, ?_⟩⟩
    · obtain ⟨bad, hwrite⟩ := Dev.groupWrite_taken (t := max s.now t) hn hp h
      rw [if_pos rfl, hwrite]
      have hcount e := CountsOnly.counted ((s.dev.groupMet r).groupPut n e) r bad
      refine ⟨rfl, (hcount _).members, ?_, fun k hk => ?_⟩
      · rw [(hcount _).groups]
        simp only [Dev.groupPut, tabGet_tabSet_self, Bool.or_eq_true]
        rfl
      · rw [(hcount _).groups]; exact tabGet_tabSet_ne _ _ _ hk
    · rw [if_pos rfl, Dev.groupWrite_refused hn hp h]
      exact ⟨rfl, Dev.setGrpErr_grpErr _ _ p⟩

end Sys2Proof
end

section
/-! SUPPORT and O26. Flue ports (R269, R277, R284, R398): which packet goes next and on which context, what a launch makes of its port, and
what is left of a port when its link falls, the report of the fall included. -/

namespace Sys2Proof.Machine

/-! ## The next packet and its context (R269, R277) -/

/-- Whether the waiting packet at a place may pass the ones before it: a control packet does, behind the packets of its own tile. -/
def FluePort.passes (q : FluePort) (i : Nat) : Bool :=
  match q.waiting[i]? with | some w => w.control && !(q.waiting.take i).any w.speaksFor | none => false

section
variable {q : FluePort} {w : Waiting}

theorem FluePort.passes_of {k : Nat} (h : q.waiting[k]? = some w) :
    q.passes k = (w.control && !(q.waiting.take k).any w.speaksFor) := by rw [FluePort.passes, h]

/-- The first packet that may pass those before it is next; where none may, the oldest one is. -/
theorem FluePort.next_cases (h : q.next = some w) :
    (∃ k, q.waiting[k]? = some w ∧ q.passes k = true) ∨ q.waiting[0]? = some w ∧ ∀ k < q.waiting.length, q.passes k = false := by
  have hnext : q.next = match (List.range q.waiting.length).find? q.passes with
      | some i => q.waiting[i]?
      | none => q.waiting[0]? := rfl
  rw [hnext] at h
  split at h
  · next i hi => exact .inl ⟨i, h, List.find?_some hi⟩
  · next hi => exact .inr ⟨h, fun k hk => by simpa using List.find?_eq_none.1 hi k (List.mem_range.2 hk)⟩

theorem FluePort.next_mem (h : q.next = some w) : w ∈ q.waiting := by
  rcases FluePort.next_cases h with ⟨k, hk, -⟩ | ⟨h0, -⟩
  · exact List.mem_of_getElem? hk
  · exact List.mem_of_getElem? h0

/-- The next packet stands at a place where, as a control packet, it has none of its own tile before it. -/
theorem FluePort.next_place (h : q.next = some w) :
    ∃ k, q.waiting[k]? = some w ∧ (w.control = true → (q.waiting.take k).any w.speaksFor = false) := by
  rcases FluePort.next_cases h with ⟨k, hk, hpass⟩ | ⟨h0, -⟩
  · rw [FluePort.passes_of hk] at hpass
    exact ⟨k, hk, fun _ => by simpa using (Bool.and_eq_true_iff.1 hpass).2⟩
  · exact ⟨0, h0, fun _ => rfl⟩

/-- While a control packet may pass those before it, the next packet is a control packet. -/
theorem FluePort.next_control (h : q.next = some w) {k : Nat} {y : Waiting} (hk : q.waiting[k]? = some y)
    (hy : y.control = true) (hfree : (q.waiting.take k).any y.speaksFor = false) : w.control = true := by
  rcases FluePort.next_cases h with ⟨i, hi, hpass⟩ | ⟨-, hnone⟩
  · rw [FluePort.passes_of hi] at hpass
    exact (Bool.and_eq_true_iff.1 hpass).1
  · have hpass : q.passes k = true := by rw [FluePort.passes_of hk, hy, hfree]; rfl
    rw [hnone k (List.getElem?_eq_some_iff.1 hk).1] at hpass
    contradiction

/-- A context is one of 13, and the last serves control packets only. -/
theorem FluePort.freeContext_lt {n i : Nat} {control : Bool} (h : q.freeContext n control = some i) :
    i < 13 ∧ (control = false → i < 12) := by
  obtain ⟨hi, hfit⟩ := List.mem_filter.1 (List.mem_of_find?_eq_some h)
  exact ⟨List.mem_range.1 hi, fun hc => by simpa [hc] using hfit⟩

theorem eraseWaiting_eq_erase (l : List Waiting) (w : Waiting) : eraseWaiting l w = l.erase w := by
  induction l with
  | nil => rfl
  | cons x l ih => by_cases h : x = w <;> simp [eraseWaiting, h, ih]

end

/-! ## A launch (R266, R269, R284) -/

/-- The port once packet w has left on context i at tick n, which it holds until a tick. -/
def FluePort.launch (q : FluePort) (n i ends : Nat) (w : Waiting) : FluePort :=
  { q with waiting := eraseWaiting q.waiting w, contexts := q.contexts.set i ends,
           sending := (q.sending.filter fun x => decide (n < x.1)) ++ [(ends, w)] }

theorem FluePort.launch_context (q : FluePort) (n : Nat) {i : Nat} (ends : Nat) (w : Waiting) (hi : i < q.contexts.length) :
    (q.launch n i ends w).contexts.getD i 0 = ends := by simp [FluePort.launch, hi]

theorem FluePort.launch_contexts_ne (q : FluePort) (n : Nat) {i k : Nat} (ends : Nat) (w : Waiting) (hk : k ≠ i) :
    (q.launch n i ends w).contexts.getD k 0 = q.contexts.getD k 0 := by simp [FluePort.launch, hk.symm]

section
variable {t : Tick} {port : PortId} {s : State} {w : Waiting}
  (hup : (tabGet FluePort.reset s.dev.ports port.val).up = true)
  (hrun : (tabGet FluePort.reset s.dev.ports port.val).stopped = false)
  (hunit : s.dev.fenced (unitOf (port.val / 2) 7 (port.val % 2)) = false)
  (hnext : (tabGet FluePort.reset s.dev.ports port.val).next = some w)
include hup hrun hunit hnext

theorem exec_sendLaunch_barred (h : (s.dev.part w.part).maySend = false) :
    exec (.sendLaunch t port) s = .next { s with now := max s.now t } := by
  show execSendLaunch t port s = _
  simp [execSendLaunch, onDev, hup, hrun, hunit, hnext, h]

theorem exec_sendLaunch_free {i : Nat} (h : (s.dev.part w.part).maySend = true)
    (hi : (tabGet FluePort.reset s.dev.ports port.val).freeContext (max s.now t) w.control = some i) :
    exec (.sendLaunch t port) s = .next { s with now := max s.now t, dev := { s.dev with
      ports := tabSet FluePort.reset s.dev.ports port.val ((tabGet FluePort.reset s.dev.ports port.val).launch (max s.now t) i
        (max s.now t + holdTicks s.dev.straps.flueMhz w.pkt) w),
      flueOut := s.dev.flueOut ++ [w] } } := by
  show execSendLaunch t port s = _
  simp [execSendLaunch, onDev, hup, hrun, hunit, hnext, h, hi, FluePort.launch]

end

/-! ## What a report leaves of the ports -/

/-- A port as it is beside its waiting packets: its link, its contexts, and what it is sending or has been cut off from. -/
def Dev.wire (d : Dev) (k : Nat) : FluePort := { tabGet FluePort.reset d.ports k with waiting := [] }

section
variable (d : Dev) (k : Nat)

@[simp] theorem Dev.modAtt_wire (p : PartId) (f : Attempt → Attempt) : (d.modAtt p f).wire k = d.wire k := rfl

@[simp] theorem Dev.raise_wire (t : Nat) (r : Report) : (d.raise t r).wire k = d.wire k := by simp [Dev.wire]

@[simp] theorem Dev.sendAt_wire (p : PartId) (i : Nat) (w : Waiting) : (d.sendAt p i w).wire k = d.wire k := by
  unfold Dev.sendAt
  split
  · simp only [Dev.wire, tabGet_tabMod]
    split
    · next hk => rw [hk]
    · rfl
  · rfl

@[simp] theorem Dev.sendNotice_wire (p : PartId) (u : UnitCode) (c : Byte) : (d.sendNotice p u c).wire k = d.wire k :=
  foldl_keeps (fun e : Dev => e.wire k) _ (fun e _ => e.sendAt_wire k p 0 _) _ d

@[simp] theorem Dev.releaseLeases_wire (p : PartId) : (d.releaseLeases p).wire k = d.wire k := by
  unfold Dev.releaseLeases
  dsimp only
  split
  · rfl
  · refine foldl_keeps (fun e : Dev => e.wire k) _ (fun e r => ?_) _ d
    split
    · split
      · exact e.sendAt_wire k p 0 _
      · rfl
    · rfl

/-- Dooming an attempt sends packets and touches none on its way (R289, R301). -/
theorem Dev.doom_wire (t : Nat) (p : PartId) (c : Byte) (y : Nat) (own : Bool) (u : UnitCode) :
    (d.doom t p c y own u).wire k = d.wire k := by
  have hnoted : Dev.wire (if own = true then d.modAtt p fun a => a.own c y else d) k = d.wire k := by split <;> rfl
  simp only [Dev.doom]
  generalize (if own = true then d.modAtt p fun a => a.own c y else d) = e at hnoted ⊢
  split
  · rfl
  · split
    · split
      · rw [Dev.modAtt_wire, hnoted]
      · exact hnoted
    · split
      · rw [Dev.sendNotice_wire, Dev.releaseLeases_wire, Dev.modAtt_wire, hnoted]
      · rw [Dev.releaseLeases_wire, Dev.modAtt_wire, hnoted]

/-- A step-replay report dooms at most. -/
theorem Dev.report_stepReplay_wire (t : Nat) (r : Report) (hs : r.severity = .stepReplay) :
    (d.report t r).wire k = d.wire k := by
  simp only [Dev.report, hs]
  split
  · split
    · exact d.raise_wire k t r
    · rw [Dev.doom_wire, Dev.raise_wire]
  · exact d.raise_wire k t r

end

/-! ## Links (R293, R398) -/

/-- A cut-off ends what a partition is sending and notes it as cut. -/
theorem FluePort.cutOff_hit (q : FluePort) {n : Nat} {p : PartId} {x : Nat × Waiting} (hx : x ∈ q.sending) (hn : n < x.1)
    (hp : x.2.part = p) : x ∉ (q.cutOff n p).sending ∧ (n, x.2) ∈ (q.cutOff n p).cut := by
  have hhit : (decide (n < x.1) && x.2.part == p) = true := by simp [hn, hp]
  constructor
  · intro hstays
    have hmiss : (!(decide (n < x.1) && x.2.part == p)) = true := (List.mem_filter.1 hstays).2
    rw [hhit] at hmiss
    contradiction
  · exact List.mem_append_right _ (List.mem_map_of_mem (f := fun y => (n, y.2)) (List.mem_filter.2 ⟨hx, hhit⟩))

/-- A port of partition p whose link has fallen while p may send. -/
def FluePort.fallen (q : FluePort) (n : Nat) (p : PartId) : FluePort := { q.cutOff n p with up := false, stopped := true }

/-- The report of the fall of a port's link (Table 11.11). -/
def linkReport (port : PortId) (p : PartId) : Report :=
  { code := 0x0D, severity := .stepReplay, unit := unitOf (port.val / 2) 7 (port.val % 2), part := some p, synd := 1 + port.val * 2 ^ 8 }

/-- The units as the link of a port of partition p falls, before the report. -/
def Dev.linkFallen (d : Dev) (n : Nat) (port : PortId) (p : PartId) : Dev :=
  { d with ports := tabSet FluePort.reset d.ports port.val ((tabGet FluePort.reset d.ports port.val).fallen n p) }

theorem exec_linkDown_busy {t : Tick} {port : PortId} {s : State} {p : PartId}
    (hup : (tabGet FluePort.reset s.dev.ports port.val).up = true) (hp : s.dev.ownerOf (port.val / 2) = some p)
    (h : (s.dev.part p).maySend = true) :
    exec (.linkDown t port) s = .next { s with
      now := max s.now t
      dev := (s.dev.linkFallen (max s.now t) port p).report (max s.now t) (linkReport port p) } := by
  show execLinkDown t port s = _
  simp [execLinkDown, onDev, hup, hp, h, Dev.linkFallen, FluePort.fallen, linkReport]

/-- After the report of the fall the port stands, beside its waiting packets, as the fall has left it. -/
theorem Dev.linkFallen_report_wire (d : Dev) (n : Nat) (port : PortId) (p : PartId) :
    ((d.linkFallen n port p).report n (linkReport port p)).wire port.val
      = { (tabGet FluePort.reset d.ports port.val).fallen n p with waiting := [] } := by
  rw [Dev.report_stepReplay_wire _ _ _ _ rfl, Dev.wire, Dev.linkFallen, tabGet_tabSet_self]

end Sys2Proof.Machine

namespace Sys2Proof
open Sys2Proof.Machine Sys2Proof.Claims

/-- The fall of a link: the port is down and stopped, its sends are cut off, and the live attempt is doomed (R293, R398). -/
theorem Claims.linkDown_answers {t : Tick} {port : PortId} {s : State} {p : PartId}
    (hup : (tabGet FluePort.reset s.dev.ports port.val).up = true) (hp : s.dev.ownerOf (port.val / 2) = some p)
    (h : (s.dev.part p).maySend = true) :
    Answers (.linkDown t port) s fun s' =>
      let q := tabGet FluePort.reset s.dev.ports port.val
      let q' := tabGet FluePort.reset s'.dev.ports port.val
      PartAndFlue p t s s' ∧ q'.up = false ∧ q'.stopped = true
      ∧ (∀ x ∈ q.sending, max s.now t < x.1 → x.2.part = p → x ∉ q'.sending ∧ (max s.now t, x.2) ∈ q'.cut)
      ∧ ((s.dev.part p).att.live = true → (s'.dev.part p).att.doom.isSome) := by
  have hwire := s.dev.linkFallen_report_wire (max s.now t) port p
  have hsending := (congrArg FluePort.sending hwire :)
  have hcut := (congrArg FluePort.cut hwire :)
  refine ⟨_, exec_linkDown_busy hup hp h, partAndFlue_of_touches ?_, (congrArg FluePort.up hwire :),
    (congrArg FluePort.stopped hwire :), fun x hx hn hxp => ?_, fun hlive => ?_⟩
  · exact (Touches.of_ports p rfl).trans (Touches.report _ _ nofun rfl)
  · have hhit := FluePort.cutOff_hit _ hx hn hxp
    exact ⟨fun hstays => hhit.1 (hsending ▸ hstays), hcut ▸ hhit.2⟩
  · exact Dev.report_stepReplay_doom _ _ _ p rfl rfl nofun hlive

/-- Settles O26: a link level changes its own port, and the fall is one report more; the packet and the context of a launch are what the
port's own choice of them says. -/
theorem fluePortsSend : Obligations.FluePortsSend := by
  unfold Obligations.FluePortsSend
  refine ⟨fun t port s => ⟨⟨_, rfl, rfl, ?_, fun k hk => ?_⟩, fun p hup hp hcfg hsch => ?_⟩,
    fun t port s w i hup hrun hunit hnext => ⟨exec_sendLaunch_barred hup hrun hunit hnext, fun hi hlen hmay => ?_⟩⟩
  · rw [tabGet_tabMod, if_pos rfl]
  · rw [tabGet_tabMod, if_neg hk]
  · exact linkDown_answers hup hp (by rw [Part.maySend, hcfg, hsch]; rfl)
  · obtain ⟨hi13, hi12⟩ := FluePort.freeContext_lt hi
    refine ⟨_, exec_sendLaunch_free hup hrun hunit hnext hmay hi, rfl, fun k hk => tabGet_tabSet_ne _ _ _ hk, ?_⟩
    dsimp only
    rw [tabGet_tabSet_self]
    refine ⟨?_, fun k y hk hy hfree => FluePort.next_control hnext hk hy hfree, FluePort.next_place hnext, hi12, ?_, fun k hk => ?_⟩
    · have hmem := FluePort.next_mem hnext
      rw [FluePort.launch, eraseWaiting_eq_erase, List.length_erase_of_mem hmem]
      exact Nat.sub_add_cancel (List.length_pos_of_mem hmem)
    · exact FluePort.launch_context _ _ _ w (hlen ▸ hi13)
    · exact FluePort.launch_contexts_ne _ _ _ w hk

end Sys2Proof
end

section
/-! SUPPORT and O8. The checker's taps (R297): what they add for a group is, for every row and every column, the sum of the group's
contributions to the accumulators there, since the two sums over the group and over the other side may be exchanged. -/

namespace Sys2Proof.Machine
open Sys2Proof.Claims

/-! ## What the taps add for a group -/

@[simp] theorem length_scaled (g : OpGroup) : (scaled g).length = g.q.length := List.length_map _

theorem scaled_getD (g : OpGroup) (p : Nat) : (scaled g).getD p 0 = g.q.getD p 0 * gs8Scale g.gs8 := by
  rw [scaled, List.getD_eq_getElem?_getD, List.getD_eq_getElem?_getD, List.getElem?_map]
  cases g.q[p]? with
  | none => exact (Int.zero_mul _).symm
  | some q => rfl

theorem dotInts_eq {a b : List Int} {n : Nat} (ha : a.length = n) (hb : b.length = n) :
    dotInts a b = sumTo n fun p => a.getD p 0 * b.getD p 0 :=
  dotSum_eq (a := { OpGroup.reset with q := a }) (b := { OpGroup.reset with q := b }) ha hb

/-- The group contribution of R101 is the product sum of the scaled integers. -/
theorem contribution_eq {a b : OpGroup} {n : Nat} (ha : a.q.length = n) (hb : b.q.length = n) :
    contribution a b = sumTo n fun p => (scaled a).getD p 0 * (scaled b).getD p 0 := by
  rw [contribution, dotSum_eq ha hb, Int.mul_assoc, Int.mul_comm, mul_sumTo]
  refine sumTo_congr fun p _ => ?_
  rw [scaled_getD, scaled_getD]
  ac_rfl

theorem contribution_comm {a b : OpGroup} {n : Nat} (ha : a.q.length = n) (hb : b.q.length = n) :
    contribution a b = contribution b a := by
  rw [contribution_eq ha hb, contribution_eq hb ha]
  exact sumTo_congr fun p _ => Int.mul_comm _ _

theorem length_sumLists (n : Nat) (l : List (List Int)) : (sumLists n l).length = n :=
  foldl_invariant (fun s : List Int => s.length = n) _ l _ (List.length_replicate ..) fun _ _ _ _ =>
    (List.length_map _).trans (List.length_range ..)

/-- A position of a sum of lists is the sum of the lists' positions. -/
theorem sumLists_getD {n p : Nat} (hp : p < n) (f : Nat → List Int) (k : Nat) :
    (sumLists n ((List.range k).map f)).getD p 0 = sumTo k fun j => (f j).getD p 0 := by
  induction k with
  | zero => simp [sumLists, sumTo, hp]
  | succ k ih =>
    rw [sumTo, ← ih, List.range_succ, List.map_append, sumLists, List.foldl_append]
    simp [sumLists, hp]

/-- Tap i of a side adds the contributions of its register with every register of the other side. -/
theorem tapSums_getD {a b : Tab OpGroup} {n i : Nat} (ha : ∀ k < 64, (tabGet OpGroup.reset a k).q.length = n)
    (hb : ∀ k < 64, (tabGet OpGroup.reset b k).q.length = n) (hi : i < 64) :
    (tapSums (regs a) (regs b)).getD i 0
      = sumTo 64 fun j => contribution (tabGet OpGroup.reset a i) (tabGet OpGroup.reset b j) := by
  have hhead : ((regs b).headD OpGroup.reset).q.length = n := by
    rw [List.headD_eq_getD, regs_getD b (by decide)]; exact hb 0 (by decide)
  have hother : ∀ p < n, (sumLists n ((regs b).map scaled)).getD p 0
      = sumTo 64 fun j => (scaled (tabGet OpGroup.reset b j)).getD p 0 := fun p hp => by
    rw [regs, List.map_map]; exact sumLists_getD hp _ 64
  calc (tapSums (regs a) (regs b)).getD i 0
      = dotInts (scaled (tabGet OpGroup.reset a i)) (sumLists n ((regs b).map scaled)) := by
        simp only [tapSums, hhead]
        simp [regs, hi]
    _ = sumTo n fun p => sumTo 64 fun j =>
          (scaled (tabGet OpGroup.reset a i)).getD p 0 * (scaled (tabGet OpGroup.reset b j)).getD p 0 := by
        rw [dotInts_eq ((length_scaled _).trans (ha i hi)) (length_sumLists _ _)]
        exact sumTo_congr fun p hp => by rw [hother p hp, mul_sumTo]
    _ = sumTo 64 fun j => contribution (tabGet OpGroup.reset a i) (tabGet OpGroup.reset b j) := by
        rw [sumTo_comm n]
        exact sumTo_congr fun j hj => (contribution_eq (ha i hi) (hb j hj)).symm

/-! ## Row and column sums of the accumulators -/

/-- Sum of accumulator row i. -/
def rowSum (acc : Tab (BitVec 128)) (i : Nat) : BitVec 128 := (List.range 64).foldl (fun s j => s + tabGet 0 acc (64 * i + j)) 0
/-- Sum of accumulator column j. -/
def colSum (acc : Tab (BitVec 128)) (j : Nat) : BitVec 128 := (List.range 64).foldl (fun s i => s + tabGet 0 acc (64 * i + j)) 0

/-- Reference sums agree with the sums of the accumulators when each row and each column does. -/
theorem eq_tileSums_iff (f g : Nat → BitVec 128) (acc : Tab (BitVec 128)) :
    (List.range 64).map f ++ (List.range 64).map g = tileSums acc ↔ ∀ i < 64, f i = rowSum acc i ∧ g i = colSum acc i := by
  have hsplit : tileSums acc = (List.range 64).map (rowSum acc) ++ (List.range 64).map (colSum acc) := rfl
  rw [hsplit]
  refine ⟨fun h i hi => ?_, fun h => ?_⟩
  · obtain ⟨hrow, hcol⟩ := List.append_inj h (by rw [List.length_map, List.length_map])
    exact ⟨List.map_inj_left.mp hrow i (List.mem_range.mpr hi), List.map_inj_left.mp hcol i (List.mem_range.mpr hi)⟩
  · rw [List.map_inj_left.mpr fun i hi => (h i (List.mem_range.mp hi)).1, List.map_inj_left.mpr fun i hi => (h i (List.mem_range.mp hi)).2]

/-- What is added to every term is added to the sum, modulo 2^128. -/
theorem foldl_range_add_ofInt {n : Nat} {f g : Nat → BitVec 128} {c : Nat → Int} (h : ∀ j < n, g j = f j + BitVec.ofInt 128 (c j)) :
    (List.range n).foldl (fun s j => s + g j) 0 = (List.range n).foldl (fun s j => s + f j) 0 + BitVec.ofInt 128 (sumTo n c) := by
  induction n with
  | zero => rfl
  | succ n ih =>
    simp only [List.range_succ, List.foldl_append, List.foldl_cons, List.foldl_nil, sumTo, BitVec.ofInt_add]
    rw [ih fun j hj => h j (Nat.lt_succ_of_lt hj), h n n.lt_succ_self]
    ac_rfl

/-- A group leaves the checker's sums with what its taps add (R297). -/
theorem ArraySt.groupEnded_taps (x : ArraySt) (gsum : Tab (BitVec 54)) {i : Nat} (h : i < 64) :
    tabGet 0 (x.groupEnded gsum).tapRow i
        = tabGet 0 x.tapRow i + BitVec.ofInt 128 ((tapSums (regs x.rowOp) (regs x.colOp)).getD i 0)
      ∧ tabGet 0 (x.groupEnded gsum).tapCol i
        = tabGet 0 x.tapCol i + BitVec.ofInt 128 ((tapSums (regs x.colOp) (regs x.rowOp)).getD i 0) := by
  simp only [ArraySt.groupEnded, addTaps, tabGet_tabOf _ h, and_self]

section
variable {x y : ArraySt} {m : Nat} {wa wb : Bool} (h : groupReady m wa wb x)
include h

theorem groupReady_rowLength {k : Nat} (hk : k < 64) : (tabGet OpGroup.reset x.rowOp k).q.length = 32 * m := by
  obtain ⟨-, -, -, -, -, -, hrow, -⟩ := h
  exact (hrow k hk).1

theorem groupReady_colLength {k : Nat} (hk : k < 64) : (tabGet OpGroup.reset x.colOp k).q.length = 32 * m := by
  obtain ⟨-, -, -, -, -, -, -, hcol⟩ := h
  exact (hcol k hk).1

variable (hacc : ∀ k < 4096, tabGet 0 y.acc k = tabGet 0 x.acc k
  + BitVec.ofInt 128 (contribution (tabGet OpGroup.reset x.rowOp (k / 64)) (tabGet OpGroup.reset x.colOp (k % 64))))
include hacc

/-- A group adds to the sum of a row what the checker's row tap adds. -/
theorem rowSum_group {i : Nat} (hi : i < 64) : rowSum y.acc i
    = rowSum x.acc i + BitVec.ofInt 128 ((tapSums (regs x.rowOp) (regs x.colOp)).getD i 0) := by
  rw [tapSums_getD (fun _ => groupReady_rowLength h) (fun _ => groupReady_colLength h) hi]
  refine foldl_range_add_ofInt fun j hj => ?_
  rw [hacc _ (by omega), (by omega : (64 * i + j) / 64 = i), (by omega : (64 * i + j) % 64 = j)]

/-- A group adds to the sum of a column what the checker's column tap adds. -/
theorem colSum_group {j : Nat} (hj : j < 64) : colSum y.acc j
    = colSum x.acc j + BitVec.ofInt 128 ((tapSums (regs x.colOp) (regs x.rowOp)).getD j 0) := by
  rw [tapSums_getD (fun _ => groupReady_colLength h) (fun _ => groupReady_rowLength h) hj]
  refine foldl_range_add_ofInt fun i hi => ?_
  rw [hacc _ (by omega), (by omega : (64 * i + j) / 64 = i), (by omega : (64 * i + j) % 64 = j),
    contribution_comm (groupReady_rowLength h hi) (groupReady_colLength h hj)]

end

end Sys2Proof.Machine

namespace Sys2Proof
open Sys2Proof.Machine Sys2Proof.Claims

/-- Settles O8: by O7 a group adds its contributions to the accumulators, and their sums over a row or a column are what the tap adds
there to the reference sum. -/
theorem checkerAgrees : Obligations.CheckerAgrees := by
  unfold Obligations.CheckerAgrees
  intro m wa wb x h refs hbefore y
  obtain ⟨hacc, -⟩ := groupAddsContribution m wa wb x h
  have hy : y = x.groupEnded (tabOf 4096 fun k => BitVec.ofInt 54 (dotSum (x.rowReg k) (x.colReg k))) := dotsN_groupHandshakes h
  have hsums := (eq_tileSums_iff _ _ _).mp hbefore
  refine (eq_tileSums_iff _ _ _).mpr fun i hi => ?_
  obtain ⟨hrow, hcol⟩ := hsums i hi
  obtain ⟨htapRow, htapCol⟩ := x.groupEnded_taps (tabOf 4096 fun k => BitVec.ofInt 54 (dotSum (x.rowReg k) (x.colReg k))) hi
  rw [rowSum_group h hacc hi, colSum_group h hacc hi, hy, htapRow, htapCol, hrow, hcol]
  exact ⟨rfl, rfl⟩

end Sys2Proof
end

section
/-! SUPPORT and O39. Fences asked for (R317, R383): what an operation may change that raises records and asks for fences, and that what has
been asked for stays asked for; the count of an in-service burn (R315) and the judgement of one that failed (R317). -/

namespace Sys2Proof.Machine

/-! ## Operations that ask for fences -/

/-- Beside fences asked for, only the report queue, the waiting packets and partitions differ. -/
def AsksFences (d e : Dev) : Prop := ∃ reqs secOut rpt ports parts,
  e = { d with eng := { d.eng with fenceReqs := d.eng.fenceReqs ++ reqs }, secOut := secOut, rpt := rpt, ports := ports, parts := parts }

/-- A fence of the unit has been asked for and not yet confirmed (R383). -/
def Dev.asked (d : Dev) (u : UnitCode) : Prop := ∃ q ∈ d.eng.fenceReqs, q.1 = u

namespace AsksFences

variable {a b c d e : Dev}

theorem of_eng (h : ∃ secOut rpt ports parts, e = { d with secOut := secOut, rpt := rpt, ports := ports, parts := parts }) :
    AsksFences d e := by
  obtain ⟨secOut, rpt, ports, parts, rfl⟩ := h
  exact ⟨[], secOut, rpt, ports, parts, by rw [List.append_nil]⟩

theorem refl (d : Dev) : AsksFences d d := of_eng ⟨_, _, _, _, rfl⟩

theorem of_touches {p : PartId} (h : Touches p d e) : AsksFences d e := by
  obtain ⟨⟨rpt, ports, parts, rfl⟩, -⟩ := h
  exact of_eng ⟨_, _, _, _, rfl⟩

theorem trans (h : AsksFences a b) (k : AsksFences b c) : AsksFences a c := by
  obtain ⟨_, _, _, _, _, rfl⟩ := h
  obtain ⟨_, _, _, _, _, rfl⟩ := k
  exact ⟨_, _, _, _, _, by rw [List.append_assoc]⟩

theorem report (d : Dev) (t : Nat) {r : Report} (h : r.severity ≠ .engFatal) : AsksFences d (d.report t r) := by
  rw [d.report_frame, d.report_eng t r h]
  exact of_eng ⟨_, _, _, _, rfl⟩

theorem requestFence (d : Dev) (t : Nat) (u : UnitCode) (r : Option Report) : AsksFences d (d.requestFence t u r) :=
  ⟨_, _, _, _, _, rfl⟩

/-- An operation that is perhaps carried out. -/
theorem ite {q : Prop} [Decidable q] (h : AsksFences d e) : AsksFences d (if q then e else d) := by
  split
  · exact h
  · exact refl d

/-- What was asked for before is still asked for. -/
theorem asked {u : UnitCode} (h : AsksFences d e) (k : d.asked u) : e.asked u := by
  obtain ⟨reqs, _, _, _, _, rfl⟩ := h
  obtain ⟨q, hq, hu⟩ := k
  exact ⟨q, List.mem_append_left reqs hq, hu⟩

theorem fences (h : AsksFences d e) : e.eng.fences = d.eng.fences := by obtain ⟨_, _, _, _, _, rfl⟩ := h; rfl
theorem burnFails (h : AsksFences d e) : e.eng.burnFails = d.eng.burnFails := by obtain ⟨_, _, _, _, _, rfl⟩ := h; rfl

end AsksFences

theorem Dev.requestFence_asked (d : Dev) (t : Nat) (u : UnitCode) (r : Option Report) : (d.requestFence t u r).asked u :=
  ⟨_, List.mem_append_right _ (List.mem_singleton_self _), rfl⟩

/-! ## IN_SERVICE_BURN (R315) -/

/-- A slice's registers after one burn of its arrays more. -/
def SliceSt.burned (x : SliceSt) (t : Nat) (passed : Bool) : SliceSt :=
  { x with burnCount := x.burnCount + 1, burnLast := if passed then BitVec.ofNat 32 (t / 2 ^ 20) else x.burnLast }

/-- The registers of the slices with one burn more in slice k. -/
def burnCounted (t : Nat) (passed : Bool) (m : Tab SliceSt) (k : Nat) : Tab SliceSt :=
  tabMod SliceSt.reset m k fun x => x.burned t passed

theorem burnCounted_self (t : Nat) (passed : Bool) (m : Tab SliceSt) (k : Nat) :
    tabGet SliceSt.reset (burnCounted t passed m k) k = (tabGet SliceSt.reset m k).burned t passed := by
  rw [burnCounted, tabGet_tabMod, if_pos rfl]

theorem burnCounted_ne (t : Nat) (passed : Bool) (m : Tab SliceSt) {i k : Nat} (h : i ≠ k) :
    tabGet SliceSt.reset (burnCounted t passed m k) i = tabGet SliceSt.reset m i := by
  rw [burnCounted, tabGet_tabMod, if_neg h]

section
variable (d : Dev) (t : Nat) (a b : ArrayId) (passed : Bool)

theorem Dev.countBurn_same (h : a.val / 4 = b.val / 4) :
    d.countBurn t a b passed = { d with slices := burnCounted t passed d.slices (a.val / 4) } := if_pos h

theorem Dev.countBurn_two (h : a.val / 4 ≠ b.val / 4) : d.countBurn t a b passed
    = { d with slices := burnCounted t passed (burnCounted t passed d.slices (a.val / 4)) (b.val / 4) } := if_neg h

theorem Dev.countBurn_frame : d.countBurn t a b passed = { d with slices := (d.countBurn t a b passed).slices } := by
  by_cases h : a.val / 4 = b.val / 4
  · rw [d.countBurn_same t a b passed h]
  · rw [d.countBurn_two t a b passed h]

/-- Each slice of the pair counts the burn once, the two being one slice or two. -/
theorem Dev.countBurn_own {k : Nat} (hk : k = a.val / 4 ∨ k = b.val / 4) :
    tabGet SliceSt.reset (d.countBurn t a b passed).slices k = (tabGet SliceSt.reset d.slices k).burned t passed := by
  by_cases h : a.val / 4 = b.val / 4
  · obtain rfl : k = a.val / 4 := hk.elim id fun hb => hb.trans h.symm
    rw [d.countBurn_same t a b passed h, burnCounted_self]
  · rw [d.countBurn_two t a b passed h]
    rcases hk with rfl | rfl
    · rw [burnCounted_ne _ _ _ h, burnCounted_self]
    · rw [burnCounted_self, burnCounted_ne _ _ _ (Ne.symm h)]

theorem Dev.countBurn_ne {k : Nat} (ha : k ≠ a.val / 4) (hb : k ≠ b.val / 4) :
    tabGet SliceSt.reset (d.countBurn t a b passed).slices k = tabGet SliceSt.reset d.slices k := by
  by_cases h : a.val / 4 = b.val / 4
  · rw [d.countBurn_same t a b passed h, burnCounted_ne _ _ _ ha]
  · rw [d.countBurn_two t a b passed h, burnCounted_ne _ _ _ hb, burnCounted_ne _ _ _ ha]

end

/-- A burn that ends, as it waits for its record if it failed (R315, R317). -/
def Dev.burnOf (d : Dev) (a b : BurnRun) : FailedBurn :=
  ⟨a, b, 0x100 + a.array.val / 4, (tabGet SliceSt.reset d.slices (a.array.val / 4)).burnCount.toNat⟩

/-- The units with a burn of a pair counted, and waiting if it failed. -/
def Dev.burnEnds (d : Dev) (t : Nat) (a b : BurnRun) : Dev :=
  { d with slices := (d.countBurn t a.array b.array (d.burnOf a b).passes).slices,
           eng := { d.eng with burnFails := if (d.burnOf a b).passes then d.eng.burnFails else d.eng.burnFails ++ [d.burnOf a b] } }

theorem exec_inServiceBurn_pair {t : Tick} {a b : BurnRun} {s : State} (hp : s.dev.eng.phase = .ready) (hr : s.dev.stk.running = true)
    (hb : s.dev.burnPair (max s.now t) a.array b.array = true) :
    exec (.inServiceBurn t a b) s = .next { s with now := max s.now t, dev := s.dev.burnEnds (max s.now t) a b } := by
  show execInServiceBurn t a b s = _
  have hburn : ⟨a, b, burnStream a.array, (tabGet SliceSt.reset s.dev.slices (a.array.val / 4)).burnCount.toNat⟩
      = s.dev.burnOf a b := rfl
  simp only [execInServiceBurn, onDev, hburn]
  rw [if_pos ⟨hp, hr, hb⟩, Dev.burnEnds, Dev.countBurn_frame]
  cases (s.dev.burnOf a b).passes <;> rfl

/-! ## PROVING_FAIL (R317) -/

section
variable (d : Dev) (t : Nat) (judged partner : ArrayId) (third : Option ArrayId)

theorem AsksFences.provingFail (fence : Option UnitCode) (cause : Nat) :
    AsksFences d (d.provingFail t judged partner third fence cause) := by
  unfold Dev.provingFail
  cases fence with
  | none => exact report d t (fun h => Severity.noConfusion h)
  | some u => exact (report d t (fun h => Severity.noConfusion h)).trans (requestFence _ _ _ _)

theorem Dev.provingFail_asked (u : UnitCode) (cause : Nat) : (d.provingFail t judged partner third (some u) cause).asked u :=
  Dev.requestFence_asked _ _ _ _

end

/-- The record and the fence of an array whose result differs from the other two's. -/
def Dev.arrayDiffers (t : Nat) (x y c : ArrayId) (d : Dev) : Dev := d.provingFail t x y (some c) (some (arrayUnit x.val)) 0
/-- The record and the fence of a checker that missed its flipped sum. -/
def Dev.sumMissed (t : Nat) (x y : ArrayId) (d : Dev) : Dev := d.provingFail t x y none (some (unitOf (x.val / 4) 4 0)) 1

/-- The arrays of a failed burn judged with a third one's run. -/
def Dev.judgeThree (d : Dev) (t : Nat) (f : FailedBurn) (c : BurnRun) : Dev :=
  let d := if !burnAgrees c f.a then d.arrayDiffers t f.a.array f.b.array c.array else d
  let d := if !burnAgrees c f.b then d.arrayDiffers t f.b.array f.a.array c.array else d
  if !burnAgrees c f.a && !burnAgrees c f.b then d.arrayDiffers t c.array f.a.array c.array else d

/-- The arrays of a failed burn judged: with a third one's run where the two differ and there is one. -/
def Dev.judgeArrays (d : Dev) (t : Nat) (f : FailedBurn) (third : Option BurnRun) : Dev :=
  if burnAgrees f.a f.b then (if f.a.missed || f.b.missed then d else d.provingFail t f.a.array f.b.array none none 0)
  else match third with
    | none => d.provingFail t f.a.array f.b.array none none 0
    | some c => d.judgeThree t f c

/-- The checkers of a failed burn judged. -/
def Dev.judgeCheckers (d : Dev) (t : Nat) (f : FailedBurn) : Dev :=
  let d := if f.a.missed then d.sumMissed t f.a.array f.b.array else d
  if f.b.missed then d.sumMissed t f.b.array f.a.array else d

section
variable (d : Dev) (t : Nat) (f : FailedBurn)

theorem AsksFences.arrayDiffers (x y c : ArrayId) : AsksFences d (d.arrayDiffers t x y c) := provingFail d t x y _ _ _
theorem AsksFences.sumMissed (x y : ArrayId) : AsksFences d (d.sumMissed t x y) := provingFail d t x y _ _ _
theorem Dev.arrayDiffers_asked (x y c : ArrayId) : (d.arrayDiffers t x y c).asked (arrayUnit x.val) := d.provingFail_asked t x y _ _ _
theorem Dev.sumMissed_asked (x y : ArrayId) : (d.sumMissed t x y).asked (unitOf (x.val / 4) 4 0) := d.provingFail_asked t x y _ _ _

theorem Dev.judgeBurn_eq (third : Option BurnRun) : d.judgeBurn t f third = (d.judgeArrays t f third).judgeCheckers t f := rfl

theorem AsksFences.judgeThree (c : BurnRun) : AsksFences d (d.judgeThree t f c) :=
  ((ite (arrayDiffers d t _ _ _)).trans (ite (arrayDiffers _ t _ _ _))).trans (ite (arrayDiffers _ t _ _ _))

theorem AsksFences.judgeArrays (third : Option BurnRun) : AsksFences d (d.judgeArrays t f third) := by
  unfold Dev.judgeArrays
  split
  · split
    · exact refl d
    · exact provingFail d t _ _ _ _ _
  · split
    · exact provingFail d t _ _ _ _ _
    · exact judgeThree d t f _

theorem AsksFences.judgeCheckers : AsksFences d (d.judgeCheckers t f) :=
  (ite (sumMissed d t _ _)).trans (ite (sumMissed _ t _ _))

theorem AsksFences.judgeBurn (third : Option BurnRun) : AsksFences d (d.judgeBurn t f third) :=
  (judgeArrays d t f third).trans (judgeCheckers _ t f)

section
variable {f} {c : BurnRun}

/-- With a third array's run, an array whose result differs from it is to be fenced. -/
theorem Dev.judgeThree_asks_first (ha : burnAgrees c f.a = false) : (d.judgeThree t f c).asked (arrayUnit f.a.array.val) := by
  refine (AsksFences.ite (.arrayDiffers ..)).asked ((AsksFences.ite (.arrayDiffers ..)).asked ?_)
  rw [ha]; exact d.arrayDiffers_asked t _ _ _

theorem Dev.judgeThree_asks_second (hb : burnAgrees c f.b = false) : (d.judgeThree t f c).asked (arrayUnit f.b.array.val) := by
  refine (AsksFences.ite (.arrayDiffers ..)).asked ?_
  rw [hb]; exact Dev.arrayDiffers_asked _ t _ _ _

/-- When all three results differ, the third array is to be fenced too. -/
theorem Dev.judgeThree_asks_third (ha : burnAgrees c f.a = false) (hb : burnAgrees c f.b = false) :
    (d.judgeThree t f c).asked (arrayUnit c.array.val) := by
  rw [Dev.judgeThree, ha, hb]; exact Dev.arrayDiffers_asked _ t _ _ _

end

/-- A checker that missed its flipped sum is to be fenced. -/
theorem Dev.judgeBurn_asks_checkers (third : Option BurnRun) :
    (f.a.missed = true → (d.judgeBurn t f third).asked (unitOf (f.a.array.val / 4) 4 0))
      ∧ (f.b.missed = true → (d.judgeBurn t f third).asked (unitOf (f.b.array.val / 4) 4 0)) := by
  rw [Dev.judgeBurn_eq, Dev.judgeCheckers]
  refine ⟨fun ha => ?_, fun hb => ?_⟩
  · refine (AsksFences.ite (.sumMissed ..)).asked ?_
    rw [ha]; exact Dev.sumMissed_asked _ t _ _
  · rw [hb]; exact Dev.sumMissed_asked _ t _ _

/-- The third array's run that a judgement uses: of a healthy array that is none of the pair's. -/
def Dev.thirdRun (third : Option BurnRun) : Option BurnRun :=
  third.filter fun c => c.array != f.a.array && c.array != f.b.array && !d.fenced (arrayUnit c.array.val)

/-- The third run given is one that a judgement uses, the pair's runs differ from each other, and the third from run r. -/
def Dev.differs (third : Option BurnRun) (c r : BurnRun) : Prop :=
  third = some c ∧ c.array ≠ f.a.array ∧ c.array ≠ f.b.array ∧ d.fenced (arrayUnit c.array.val) = false
    ∧ burnAgrees f.a f.b = false ∧ burnAgrees c r = false

/-- The burn that has waited longest for its record taken off. -/
def Dev.burnTaken (rest : List FailedBurn) : Dev := { d with eng := { d.eng with burnFails := rest } }

end

section
variable {d : Dev} {f : FailedBurn} {third : Option BurnRun} {c r : BurnRun} (h : d.differs f third c r)
include h

theorem Dev.differs.thirdRun : d.thirdRun f third = some c := by
  obtain ⟨rfl, ha, hb, hf, -, -⟩ := h
  simp [Dev.thirdRun, ha, hb, hf]

theorem Dev.differs.pair : burnAgrees f.a f.b = false := by obtain ⟨-, -, -, -, hpair, -⟩ := h; exact hpair
theorem Dev.differs.run : burnAgrees c r = false := by obtain ⟨-, -, -, -, -, hrun⟩ := h; exact hrun

/-- What the comparison of three runs asks for is still asked for once the checkers are judged. -/
theorem Dev.judgeBurn_asks_arrays {u : UnitCode} {rest : List FailedBurn} {t : Nat} (hu : ((d.burnTaken rest).judgeThree t f c).asked u) :
    ((d.burnTaken rest).judgeBurn t f (d.thirdRun f third)).asked u := by
  rw [h.thirdRun, Dev.judgeBurn_eq, Dev.judgeArrays, h.pair]
  exact (AsksFences.judgeCheckers _ t f).asked hu

end

theorem exec_provingFail_waiting {t : Tick} {s : State} {f : FailedBurn} {rest : List FailedBurn} (third : Option BurnRun)
    (hp : s.dev.eng.phase = .ready) (hr : s.dev.stk.running = true) (hw : s.dev.eng.burnFails = f :: rest) :
    exec (.provingFail t third) s
      = .next { s with now := max s.now t, dev := (s.dev.burnTaken rest).judgeBurn (max s.now t) f (s.dev.thirdRun f third) } := by
  show execProvingFail t third s = _
  simp only [execProvingFail, onDev, hw]
  rw [if_pos ⟨hp, hr⟩]
  rfl

end Sys2Proof.Machine

namespace Sys2Proof
open Sys2Proof.Machine Sys2Proof.Claims

/-- Settles O39: a burn is counted once in each slice of its pair; the judgement of one that failed is a chain of records that each ask for
one fence, and what has been asked for stays asked for. -/
theorem provingBurns : Obligations.ProvingBurns := by
  unfold Obligations.ProvingBurns
  intro t a b s sl hp hr
  refine ⟨fun hpair => ⟨_, exec_inServiceBurn_pair hp hr hpair, ?_⟩,
    fun f rest third hw => ⟨_, exec_provingFail_waiting third hp hr hw, ?_⟩⟩
  · refine ⟨rfl, fun k hk => ?_, fun k ha hb => s.dev.countBurn_ne _ _ _ _ ha hb, rfl⟩
    have hsl : sl (s.dev.burnEnds (max s.now t) a b) k = (sl s.dev k).burned (max s.now t) (s.dev.burnOf a b).passes :=
      s.dev.countBurn_own _ _ _ _ hk
    dsimp only
    rw [hsl]
    exact ⟨rfl, fun hpass => if_pos hpass, fun hfail => if_neg (Bool.eq_false_iff.mp hfail)⟩
  · have hasks := AsksFences.judgeBurn (s.dev.burnTaken rest) (max s.now t) f (s.dev.thirdRun f third)
    refine ⟨?_, hasks.fences, hasks.burnFails, fun c (h : s.dev.differs f third c f.a) => ?_,
      fun c (h : s.dev.differs f third c f.b) => ?_,
      fun c (ha : s.dev.differs f third c f.a) (hb : s.dev.differs f third c f.b) => ?_, Dev.judgeBurn_asks_checkers _ _ f _⟩
    · obtain ⟨_, _, _, _, _, h⟩ := hasks
      simp only [UnitsAre, h]
      rfl
    · exact Dev.judgeBurn_asks_arrays h (Dev.judgeThree_asks_first _ _ h.run)
    · exact Dev.judgeBurn_asks_arrays h (Dev.judgeThree_asks_second _ _ h.run)
    · exact Dev.judgeBurn_asks_arrays ha (Dev.judgeThree_asks_third _ _ ha.run hb.run)

end Sys2Proof
end

section
/-! SUPPORT and O38. Verdict arbitration (R310 to R313). What an arbitration's steps, and the release of a hold that may follow the last of
them, may change: beside records and fences only the partition, and of it neither the mode nor the attempt's number, while a doomed attempt
stays doomed and a listed tile keeps its arbiter and its end as long as it is listed. -/

namespace Sys2Proof.Machine

/-! ## What an arbitration leaves of a partition -/

/-- Item y is item i at a later time: of the same record and attempt, with an arbiter if it had one, and ended if it was. -/
def ArbItem.Continues (i y : ArbItem) : Prop :=
  y.seq = i.seq ∧ y.att = i.att ∧ (i.arbiter.isSome → y.arbiter.isSome) ∧ (i.done = true → y.done = true)

theorem ArbItem.Continues.refl (i : ArbItem) : i.Continues i := ⟨rfl, rfl, id, id⟩

theorem ArbItem.Continues.trans {i y z : ArbItem} (h : i.Continues y) (k : y.Continues z) : i.Continues z := by
  obtain ⟨hseq, hatt, harb, hdone⟩ := h
  obtain ⟨kseq, katt, karb, kdone⟩ := k
  exact ⟨kseq.trans hseq, katt.trans hatt, karb ∘ harb, kdone ∘ hdone⟩

/-- Partition y is x further on in an arbitration. -/
def Part.Arbitrates (x y : Part) : Prop :=
  y.mode = x.mode ∧ y.att.number = x.att.number ∧ (x.att.doom.isSome → y.att.doom.isSome)
    ∧ ∀ j ∈ y.chk.list, ∃ i ∈ x.chk.list, i.Continues j

namespace Part.Arbitrates

variable {x y z : Part}

theorem of_same (hmode : y.mode = x.mode) (hnumber : y.att.number = x.att.number) (hdoom : y.att.doom = x.att.doom)
    (hlist : y.chk.list = x.chk.list) : x.Arbitrates y :=
  ⟨hmode, hnumber, fun h => by rwa [hdoom], fun j hj => ⟨j, hlist ▸ hj, .refl j⟩⟩

theorem refl (x : Part) : x.Arbitrates x := of_same rfl rfl rfl rfl

theorem trans (h : x.Arbitrates y) (k : y.Arbitrates z) : x.Arbitrates z := by
  obtain ⟨hmode, hnumber, hdoom, hlist⟩ := h
  obtain ⟨kmode, knumber, kdoom, klist⟩ := k
  refine ⟨kmode.trans hmode, knumber.trans hnumber, kdoom ∘ hdoom, fun m hm => ?_⟩
  obtain ⟨j, hj, hjm⟩ := klist m hm
  obtain ⟨i, hi, hij⟩ := hlist j hj
  exact ⟨i, hi, hij.trans hjm⟩

end Part.Arbitrates

/-- The units further on in an arbitration of partition p. -/
def Arbitrating (p : PartId) (d e : Dev) : Prop :=
  AsksFences d e ∧ (∀ q, q ≠ p → e.part q = d.part q) ∧ (d.part p).Arbitrates (e.part p)

namespace Arbitrating

variable {p : PartId} {a b c d e : Dev}

theorem refl (p : PartId) (d : Dev) : Arbitrating p d d := ⟨.refl d, fun _ _ => rfl, .refl _⟩

theorem trans (h : Arbitrating p a b) (k : Arbitrating p b c) : Arbitrating p a c := by
  obtain ⟨hasks, hothers, hself⟩ := h
  obtain ⟨kasks, kothers, kself⟩ := k
  exact ⟨hasks.trans kasks, fun q hq => (kothers q hq).trans (hothers q hq), hself.trans kself⟩

theorem of_touches (h : Touches p d e) (k : (d.part p).Arbitrates (e.part p)) : Arbitrating p d e :=
  ⟨.of_touches h, fun _ hq => h.others hq, k⟩

theorem of_ports (p : PartId) (h : e = { d with ports := e.ports }) : Arbitrating p d e := by
  rw [h]; exact ⟨.of_touches (p := p) (.of_ports p rfl), fun _ _ => rfl, .refl _⟩

theorem modPart (p : PartId) (d : Dev) {f : Part → Part} (h : ∀ x : Part, x.Arbitrates (f x)) : Arbitrating p d (d.modPart p f) :=
  of_touches (.modPart p d f) (by rw [Dev.part_modPart_self]; exact h _)

theorem modSch (p : PartId) (d : Dev) (f : Sch → Sch) : Arbitrating p d (d.modSch p f) := modPart p d fun _ => .of_same rfl rfl rfl rfl
theorem modCtx (p : PartId) (d : Dev) (f : Ctx → Ctx) : Arbitrating p d (d.modCtx p f) := modPart p d fun _ => .of_same rfl rfl rfl rfl

theorem requestFence (p : PartId) (d : Dev) (t : Nat) (u : UnitCode) (r : Option Report) : Arbitrating p d (d.requestFence t u r) :=
  ⟨.requestFence d t u r, fun _ _ => rfl, .refl _⟩

theorem raise (p : PartId) (d : Dev) (t : Nat) (r : Report) : Arbitrating p d (d.raise t r) :=
  of_touches (.raise p d t r) (by rw [Dev.raise_part]; exact .refl _)

/-- A choice of two operations. -/
theorem ite {q : Prop} [Decidable q] (h : q → Arbitrating p d a) (k : ¬ q → Arbitrating p d b) :
    Arbitrating p d (if q then a else b) := by
  split
  · next hq => exact h hq
  · next hq => exact k hq

theorem foldl {α : Type} (f : Dev → α → Dev) (h : ∀ d x, Arbitrating p d (f d x)) (l : List α) (d : Dev) :
    Arbitrating p d (l.foldl f d) :=
  foldl_rel (Arbitrating p) f (refl p) trans h l d

theorem mode (h : Arbitrating p d e) : (e.part p).mode = (d.part p).mode := by obtain ⟨-, -, hmode, -⟩ := h; exact hmode
theorem number (h : Arbitrating p d e) : (e.part p).att.number = (d.part p).att.number := by
  obtain ⟨-, -, -, hnumber, -⟩ := h; exact hnumber
theorem doom_isSome (h : Arbitrating p d e) (k : (d.part p).att.doom.isSome) : (e.part p).att.doom.isSome := by
  obtain ⟨-, -, -, -, hdoom, -⟩ := h; exact hdoom k
theorem listed (h : Arbitrating p d e) {j : ArbItem} (hj : j ∈ (e.part p).chk.list) :
    ∃ i ∈ (d.part p).chk.list, i.Continues j := by
  obtain ⟨-, -, -, -, -, hlist⟩ := h; exact hlist j hj

end Arbitrating

/-- A doomed attempt stays doomed. -/
theorem Dev.doom_doomed {d : Dev} {p : PartId} (t : Nat) (c : Byte) (y : Nat) (own : Bool) (u : UnitCode)
    (h : (d.part p).att.doom.isSome) : ((d.doom t p c y own u).part p).att.doom.isSome := by
  cases hl : (d.part p).att.live with
  | true => exact d.doom_isSome t p c y own u hl
  | false => rwa [d.doom_dead t p c y own u hl]

namespace Arbitrating

variable (p : PartId) (d : Dev)

theorem doom (t : Nat) (c : Byte) (y : Nat) (own : Bool) (u : UnitCode) : Arbitrating p d (d.doom t p c y own u) := by
  refine of_touches (.doom p d t c y own u) ⟨?_, ?_, d.doom_doomed t c y own u, fun j hj => ⟨j, ?_, .refl j⟩⟩
  · rw [Dev.part_doom_self]
  · rw [Dev.part_doom_self]
  · rwa [Dev.part_doom_self] at hj

theorem report (t : Nat) {r : Report} (hs : r.severity = .stepReplay) (hp : r.part = some p) (hc : r.code ≠ 0x0A) :
    Arbitrating p d (d.report t r) := by
  rw [d.report_stepReplay t r p hs hp hc]
  exact (raise p d t r).trans (doom p _ t _ _ _ _)

/-! ## The release of a hold (R240, R249) -/

theorem bump (c n : Nat) : Arbitrating p d (d.bump p c n) :=
  of_touches (.bump p d c n) (by rw [Dev.part_bump_self]; exact .of_same rfl rfl rfl rfl)

theorem decided (c : Decision) : Arbitrating p d (d.decided p c) := by
  refine modPart p d fun x => ?_
  dsimp only
  split
  · unfold Part.streamsForward
    split <;> exact .of_same rfl rfl rfl rfl
  · exact .of_same rfl rfl rfl rfl

end Arbitrating

/-- The units with the ledger put back (R212). -/
def Dev.putLedger (d : Dev) (l : Tab LedgerEntry) : Dev := { d with ledger := l }

theorem Dev.putLedger_modPart (d : Dev) (l : Tab LedgerEntry) (p : PartId) (f : Part → Part) :
    (d.modPart p f).putLedger l = (d.putLedger l).modPart p f := rfl
theorem Dev.putLedger_modCtx (d : Dev) (l : Tab LedgerEntry) (p : PartId) (f : Ctx → Ctx) :
    (d.modCtx p f).putLedger l = (d.putLedger l).modCtx p f := rfl
theorem Dev.putLedger_modLgr (d : Dev) (l : Tab LedgerEntry) (p : PartId) (i : Nat) (f : LedgerEntry → LedgerEntry) :
    (d.modLgr p i f).putLedger l = d.putLedger l := rfl

namespace Arbitrating

variable (p : PartId) (d : Dev)

/-- Beside the ledger, an update changes of its partition that it is done. -/
theorem applyUpdate : Arbitrating p d ((d.applyUpdate p).putLedger d.ledger) := by
  unfold Dev.applyUpdate
  split
  · exact refl p d
  · dsimp only
    rw [Dev.putLedger_modPart, foldl_keeps (fun e => Dev.putLedger e d.ledger) _ fun e i => e.putLedger_modLgr _ _ _ _]
    exact modPart p _ fun _ => .of_same rfl rfl rfl rfl

theorem saveStart : Arbitrating p d (((d.applyUpdate p).saveStart p).putLedger d.ledger) := by
  unfold Dev.saveStart
  dsimp only
  rw [Dev.putLedger_modCtx]
  exact (applyUpdate p d).trans (modCtx p _ _)

theorem commitContexts : Arbitrating p d (d.commitContexts p) := by
  unfold Dev.commitContexts
  refine Arbitrating.trans (ite (fun _ => ?_) fun _ => refl p d) (modCtx p _ _)
  exact (saveStart p d).trans (modPart p _ fun _ => .of_same rfl rfl rfl rfl)

theorem finalise (replay : Bool) : Arbitrating p d (d.finalise p replay) := by
  unfold Dev.finalise
  dsimp only
  refine Arbitrating.trans (b := Dev.bump _ p _ 1) ((Arbitrating.trans (decided p d _) (modPart p _ fun x => ?_)).trans (bump p _ _ _))
    (ite (fun _ => refl p _) fun _ => commitContexts p _)
  cases replay <;> exact .of_same rfl rfl rfl rfl

theorem tryRelease : Arbitrating p d (d.tryRelease p) := by
  unfold Dev.tryRelease
  dsimp only
  split
  · exact refl p d
  · exact ite (fun _ => Arbitrating.trans (ite (fun _ => refl p d) fun _ => finalise p d _) (modSch p _ _)) fun _ => refl p d

theorem sendAgree (w : Nat) (l : List Byte) : Arbitrating p d (d.sendAgree p w l) := of_ports p (d.sendJob_frame p _)

theorem sendResume : Arbitrating p d (d.sendResume p) := by
  unfold Dev.sendResume
  dsimp only
  refine Arbitrating.trans ?_ ((sendAgree p _ _ _).trans (tryRelease p _))
  exact modPart p d fun _ => .of_same rfl rfl rfl rfl

theorem resumeIfClear : Arbitrating p d (d.resumeIfClear p) := ite (fun _ => sendResume p d) fun _ => refl p d

theorem clearHolds (f : HoldCause → Bool) : Arbitrating p d (d.clearHolds p f) := by
  unfold Dev.clearHolds
  exact (modSch p d _).trans (resumeIfClear p _)

/-! ## The end of a re-run (R311, R312, Table 11.4) -/

theorem modItem (seq : BitVec 32) {f : ArbItem → ArbItem} (h : ∀ i : ArbItem, i.Continues (f i)) :
    Arbitrating p d (d.modItem p seq f) := by
  refine modPart p d fun x => ⟨rfl, rfl, id, fun j hj => ?_⟩
  obtain ⟨i, hi, rfl⟩ := List.mem_map.mp hj
  refine ⟨i, hi, ?_⟩
  split
  · exact h i
  · exact .refl i

theorem arbOver : Arbitrating p d (d.arbOver p) := by
  unfold Dev.arbOver
  dsimp only
  refine ite (fun _ => refl p d) fun _ => ite (fun _ => modPart p d fun _ => .of_same rfl rfl rfl rfl) fun _ => ?_
  refine Arbitrating.trans ?_ (clearHolds p _ _)
  refine modPart p d fun x => ⟨rfl, rfl, id, fun j hj => ⟨j, ?_, .refl j⟩⟩
  exact (List.mem_filter.mp hj).1

end Arbitrating

/-- A re-run's item as its end leaves it. -/
def ArbItem.finish (i : ArbItem) : ArbItem := { i with done := true }

/-- The syndrome of a record of a re-run's end: the unit, the arbiter, and the record of the mismatch (Table 11.11). -/
def Dev.arbSynd (d : Dev) (i : ArbItem) (u : UnitCode) : Nat :=
  u.toNat + (i.arbiter.map (·.toNat)).getD noUnit * 2 ^ 16 + (d.rpt.seqOf i.seq).toNat * 2 ^ 32

/-- A record of a re-run's end. -/
def arbReport (p : PartId) (i : ArbItem) (code : Byte) (u : UnitCode) (synd : Nat) : Report :=
  { code := code, severity := .stepReplay, unit := u, part := some p, synd := synd, slot := i.tile.slot, tag := some i.tile.tag }

/-- The units at fault by the finding of a re-run (Table 11.4). -/
def ArbItem.faulty (i : ArbItem) (finding : Nat) : List UnitCode :=
  if finding = 1 then [unitOf (i.array.val / 4) 4 0]
  else if finding = 2 then [arrayUnit i.array.val]
  else [arrayUnit i.array.val, unitOf (i.array.val / 4) 4 0]

/-- Fences asked for with one record. -/
def Dev.requestFences (d : Dev) (t : Nat) (r : Report) (l : List UnitCode) : Dev := l.foldl (fun d u => d.requestFence t u (some r)) d

theorem AsksFences.requestFences (d : Dev) (t : Nat) (r : Report) (l : List UnitCode) : AsksFences d (d.requestFences t r l) :=
  foldl_rel AsksFences (fun d u => d.requestFence t u (some r)) refl trans (fun d u => requestFence d t u (some r)) l d

theorem Arbitrating.requestFences (p : PartId) (d : Dev) (t : Nat) (r : Report) (l : List UnitCode) :
    Arbitrating p d (d.requestFences t r l) :=
  foldl (fun d u => d.requestFence t u (some r)) (fun d u => requestFence p d t u (some r)) l d

theorem Dev.requestFences_nil (d : Dev) (t : Nat) (r : Report) : d.requestFences t r [] = d := rfl

theorem Dev.requestFences_cons (d : Dev) (t : Nat) (r : Report) (u : UnitCode) (l : List UnitCode) :
    d.requestFences t r (u :: l) = (d.requestFence t u (some r)).requestFences t r l := rfl

theorem Dev.requestFences_asked {t : Nat} {r : Report} {u : UnitCode} {l : List UnitCode} (hu : u ∈ l) (d : Dev) :
    (d.requestFences t r l).asked u := by
  induction l generalizing d with
  | nil => cases hu
  | cons v l ih =>
    rw [Dev.requestFences_cons]
    rcases List.mem_cons.mp hu with rfl | hu
    · exact (AsksFences.requestFences _ t r l).asked (d.requestFence_asked t u _)
    · exact ih hu _

section
variable (d : Dev) (t : Nat) (p : PartId) (i : ArbItem)

/-- The units with the item ended. -/
def Dev.itemEnds : Dev := d.modItem p i.seq .finish

theorem Dev.itemEnds_mode : ((d.itemEnds p i).part p).mode = (d.part p).mode := by
  rw [Dev.itemEnds, Dev.modItem, Dev.part_modPart_self]

theorem Dev.arbFinding_host (finding : Nat) (h : (d.part p).mode.getLsbD 2 = true) : d.arbFinding t p i finding
    = ((d.itemEnds p i).modPart p fun x => { x with chk := { x.chk with arbResult := finding, arbDone := true } }).arbOver p := by
  have hm : ((d.modItem p i.seq fun y => { y with done := true }).part p).mode.getLsbD 2 = true :=
    (congrArg (·.getLsbD 2) (d.itemEnds_mode p i)).trans h
  unfold Dev.arbFinding
  dsimp only
  rw [if_pos hm]
  rfl

/-- In hardware mode a finding raises one record, and with it a fence of each unit at fault is asked for. -/
theorem Dev.arbFinding_hardware (finding : Nat) (h : (d.part p).mode.getLsbD 2 = false) :
    ∃ r : Report, r.severity = .stepReplay ∧ r.part = some p ∧ r.code ≠ 0x0A
      ∧ d.arbFinding t p i finding = (((d.itemEnds p i).report t r).requestFences t r (i.faulty finding)).arbOver p := by
  have hends : (d.modItem p i.seq fun y => { y with done := true }) = d.itemEnds p i := rfl
  have hm : ((d.itemEnds p i).part p).mode.getLsbD 2 = false := (congrArg (·.getLsbD 2) (d.itemEnds_mode p i)).trans h
  unfold Dev.arbFinding ArbItem.faulty
  dsimp only
  rw [hends, if_neg (Bool.eq_false_iff.mp hm)]
  split
  · refine ⟨arbReport p i 0x04 (unitOf (i.array.val / 4) 4 0)
      ((d.itemEnds p i).arbSynd i (unitOf (i.array.val / 4) 4 0)), rfl, rfl, (by decide : (0x04 : Byte) ≠ 0x0A), ?_⟩
    rw [Dev.requestFences_cons, Dev.requestFences_nil, arbReport, Dev.arbSynd]
  · split
    · refine ⟨arbReport p i 0x03 (arrayUnit i.array.val)
        ((d.itemEnds p i).arbSynd i (arrayUnit i.array.val)), rfl, rfl, (by decide : (0x03 : Byte) ≠ 0x0A), ?_⟩
      rw [Dev.requestFences_cons, Dev.requestFences_nil, arbReport, Dev.arbSynd]
    · refine ⟨arbReport p i 0x05 (arrayUnit i.array.val)
        ((d.itemEnds p i).arbSynd i (arrayUnit i.array.val) + (unitOf (i.array.val / 4) 4 0).toNat * 2 ^ 64),
        rfl, rfl, (by decide : (0x05 : Byte) ≠ 0x0A), ?_⟩
      rw [Dev.requestFences_cons, Dev.requestFences_cons, Dev.requestFences_nil, arbReport, Dev.arbSynd]

theorem Dev.arbFinding_asked {finding : Nat} (h : (d.part p).mode.getLsbD 2 = false) {u : UnitCode} (hu : u ∈ i.faulty finding) :
    (d.arbFinding t p i finding).asked u := by
  obtain ⟨r, -, -, -, he⟩ := d.arbFinding_hardware t p i finding h
  rw [he]
  obtain ⟨hasks, -⟩ := Arbitrating.arbOver p (((d.itemEnds p i).report t r).requestFences t r (i.faulty finding))
  exact hasks.asked (Dev.requestFences_asked hu _)

theorem Arbitrating.itemEnds : Arbitrating p d (d.itemEnds p i) := modItem p d _ fun _ => ⟨rfl, rfl, id, fun _ => rfl⟩

/-- Once the item has ended, its finding goes on with records, fences and perhaps the release of the hold. -/
theorem Arbitrating.itemFound (finding : Nat) : Arbitrating p (d.itemEnds p i) (d.arbFinding t p i finding) := by
  cases h : (d.part p).mode.getLsbD 2 with
  | true =>
    rw [d.arbFinding_host t p i _ h]
    refine Arbitrating.trans ?_ (arbOver p _)
    exact modPart p _ fun _ => .of_same rfl rfl rfl rfl
  | false =>
    obtain ⟨r, hs, hp, hc, he⟩ := d.arbFinding_hardware t p i finding h
    rw [he]
    exact ((report p _ t hs hp hc).trans (requestFences p _ t r _)).trans (arbOver p _)

theorem Arbitrating.arbFinding (finding : Nat) : Arbitrating p d (d.arbFinding t p i finding) :=
  (itemEnds d p i).trans (itemFound d t p i finding)

end

/-- A change of the items of one record shows in each of them. -/
theorem Dev.modItem_listed {d : Dev} {p : PartId} {seq : BitVec 32} {f : ArbItem → ArbItem} {j : ArbItem}
    (hj : j ∈ ((d.modItem p seq f).part p).chk.list) (hs : j.seq = seq) : ∃ i, j = f i := by
  rw [Dev.modItem, Dev.part_modPart_self] at hj
  obtain ⟨i, -, rfl⟩ := List.mem_map.mp hj
  split at hs
  · next hi => exact ⟨i, if_pos hi⟩
  · next hi => exact absurd hs hi

/-- After a finding, what is still listed under its record is done. -/
theorem Dev.arbFinding_done {d : Dev} {t : Nat} {p : PartId} {i j : ArbItem} {finding : Nat}
    (hj : j ∈ ((d.arbFinding t p i finding).part p).chk.list) (hs : j.seq = i.seq) : j.done = true := by
  obtain ⟨y, hy, hseq, -, -, hdone⟩ := (Arbitrating.itemFound d t p i finding).listed hj
  obtain ⟨z, rfl⟩ := Dev.modItem_listed hy (hseq.symm.trans hs)
  exact hdone rfl

/-! ## ARBITRATION_RERUN (R310) -/

/-- The attempt of an arbitration doomed, with notice to the other members, if it was not. -/
def Dev.doomForArb (d : Dev) (t : Nat) (p : PartId) : Dev :=
  if (d.part p).att.doom.isSome then d else (d.doom t p 0x02 0 false 0).sendNotice p (sharedUnit 1) 0x02

/-- One listed tile given its arbiter, or ended where there is no candidate (hardware mode). -/
def Dev.giveArbiter (t : Nat) (p : PartId) (d : Dev) (i : ArbItem) : Dev :=
  match (d.arbiters p i.array)[0]? with
  | some u => d.modItem p i.seq fun y => { y with arbiter := some u, tries := 1 }
  | none => d.arbFinding t p i 3

/-- The units after the listed tiles have been given their arbiters. -/
def Dev.rerun (d : Dev) (t : Nat) (p : PartId) : Dev := (d.arbItems p).foldl (Dev.giveArbiter t p) d

section
variable {d : Dev} {t : Nat} {p : PartId}

theorem Arbitrating.doomForArb : Arbitrating p d (d.doomForArb t p) :=
  ite (fun _ => refl p d) fun _ => (doom p d t _ _ _ _).trans (of_ports p (Dev.sendNotice_frame _ p _ _))

theorem Dev.doomForArb_isSome (hl : (d.part p).att.live = true) : ((d.doomForArb t p).part p).att.doom.isSome := by
  unfold Dev.doomForArb
  split
  · assumption
  · rw [Dev.sendNotice_part]; exact d.doom_isSome t p _ _ _ _ hl

theorem Arbitrating.giveArbiter (i : ArbItem) : Arbitrating p d (d.giveArbiter t p i) := by
  unfold Dev.giveArbiter
  split
  · exact modItem p d _ fun _ => ⟨rfl, rfl, fun _ => rfl, id⟩
  · exact arbFinding d t p i 3

/-- The tile has an arbiter then, or its end. -/
theorem Dev.giveArbiter_settles {i j : ArbItem} (hj : j ∈ ((d.giveArbiter t p i).part p).chk.list) (hs : j.seq = i.seq) :
    j.arbiter.isSome ∨ j.done = true := by
  unfold Dev.giveArbiter at hj
  split at hj
  · obtain ⟨y, rfl⟩ := Dev.modItem_listed hj hs
    exact .inl rfl
  · exact .inr (Dev.arbFinding_done hj hs)

theorem Arbitrating.rerun : Arbitrating p d (d.rerun t p) := foldl _ (fun _ i => giveArbiter i) _ d

theorem Dev.mem_arbItems_hardware (hm : (d.part p).mode.getLsbD 2 = false) {i : ArbItem} :
    i ∈ d.arbItems p ↔ i ∈ (d.part p).chk.list ∧ i.att ≠ (d.part p).att.number := by
  simp only [Dev.arbItems, List.mem_filter, hm, Bool.false_eq_true, if_false, bne_iff_ne]

end

/-- Each step of a fold has its place in it. -/
theorem exists_foldl_step {α β : Type} {R : β → β → Prop} {f : β → α → β} (refl : ∀ b, R b b)
    (trans : ∀ {a b c}, R a b → R b c → R a c) (h : ∀ b a, R b (f b a)) {x : α} : ∀ {l : List α} (b : β), x ∈ l → ∃ c, R (f c x) (l.foldl f b)
  | y :: l, b, hx => by
    rcases List.mem_cons.mp hx with rfl | hx
    · exact ⟨b, foldl_rel R f refl trans h l _⟩
    · exact exists_foldl_step refl trans h (f b y) hx

/-- Every listed tile of an earlier attempt has an arbiter after the re-run began, or its end. -/
theorem Dev.rerun_settles {d : Dev} {t : Nat} {p : PartId} (hm : (d.part p).mode.getLsbD 2 = false) {j : ArbItem}
    (hj : j ∈ (d.rerun t p).arbItems p) : j.arbiter.isSome ∨ j.done = true := by
  have hrerun : Arbitrating p d (d.rerun t p) := .rerun
  rw [Dev.mem_arbItems_hardware (by rw [hrerun.mode, hm]), hrerun.number] at hj
  obtain ⟨hlisted, hatt⟩ := hj
  obtain ⟨i, hi, hseq, hsame, -, -⟩ := hrerun.listed hlisted
  have hitem : i ∈ d.arbItems p := (Dev.mem_arbItems_hardware hm).mpr ⟨hi, hsame ▸ hatt⟩
  obtain ⟨c, hafter⟩ : ∃ c, Arbitrating p (Dev.giveArbiter t p c i) (d.rerun t p) :=
    exists_foldl_step (.refl p) .trans (fun _ i => .giveArbiter i) d hitem
  obtain ⟨y, hy, hyseq, -, harb, hdone⟩ := hafter.listed hlisted
  exact (Dev.giveArbiter_settles hy (hyseq.symm.trans hseq)).imp harb hdone

theorem exec_arbitrationRerun_due {t : Tick} {p : PartId} {s : State} {img : Image} (hi : (s.dev.part p).ldr.image = some img)
    (hr : (s.dev.part p).running = true) (hl : (s.dev.part p).att.live = true) (ha : (s.dev.part p).att.arb = true)
    (hk : s.dev.stk.running = true) (hm : (s.dev.part p).mode = 0)
    (hb : ((s.dev.arbBeat p img).bind (s.dev.part p).beatTick) = some (max s.now t))
    (hopen : ((s.dev.arbItems p).all fun i => i.arbiter.isNone && !i.done) = true) :
    exec (.arbitrationRerun t p) s
      = .next { s with now := max s.now t, dev := (s.dev.doomForArb (max s.now t) p).rerun (max s.now t) p } := by
  show execArbitrationRerun t p s = _
  simp only [execArbitrationRerun, onDev, hi]
  rw [if_pos ⟨hr, hl, ha, hk, hb, hopen⟩]
  simp only [hm]
  rfl

/-! ## ARBITRATION_RESULT (R310, R311) -/

/-- The finding that the sums of a re-run lead to (Table 11.4). -/
def ArbItem.finding (i : ArbItem) (d3 : List (BitVec 128)) : Nat := if d3 = i.d1 then 1 else if d3 = i.c1 then 2 else 3

section
variable {i : ArbItem} {d3 : List (BitVec 128)}

theorem ArbItem.faulty_agrees (h : d3 = i.d1) : unitOf (i.array.val / 4) 4 0 ∈ i.faulty (i.finding d3) := by
  rw [ArbItem.finding, if_pos h]; exact List.mem_singleton_self _

theorem ArbItem.faulty_differs (h : d3 ≠ i.d1) : arrayUnit i.array.val ∈ i.faulty (i.finding d3) := by
  by_cases hc : d3 = i.c1
  · rw [ArbItem.finding, if_neg h, if_pos hc]; exact List.mem_singleton_self _
  · rw [ArbItem.finding, if_neg h, if_neg hc]; exact List.mem_cons_self

theorem ArbItem.faulty_unresolved (h : d3 ≠ i.d1) (hc : d3 ≠ i.c1) : unitOf (i.array.val / 4) 4 0 ∈ i.faulty (i.finding d3) := by
  rw [ArbItem.finding, if_neg h, if_neg hc]; exact List.mem_cons_of_mem _ (List.mem_singleton_self _)

end

section
variable {t : Tick} {p : PartId} {item : Nat} {s : State} {i : ArbItem} (hitem : (s.dev.part p).chk.list[item]? = some i)
  (hd : i.done = false) (ha : i.arbiter.isSome) (harb : (s.dev.part p).att.arb = true)
  (hs : ((s.dev.part p).att.slots.any fun r => r.done.isNone && !r.aborted) = false)
include hd ha harb hs

theorem arbitrationResult_not_ignored :
    ¬ (i.done = true ∨ i.arbiter.isNone = true ∨ (!(s.dev.part p).att.arb) = true
      ∨ ((s.dev.part p).att.slots.any fun r => r.done.isNone && !r.aborted) = true) := by
  have hnone : i.arbiter.isNone = false := by rw [Option.isNone_eq_false_iff, ha]
  simp [hd, hnone, harb, hs]

include hitem

theorem exec_arbitrationResult_sums (flips : List (Fin 128 × BitVec 128)) : exec (.arbitrationResult t p item (some flips)) s
    = .next { s with now := max s.now t, dev := s.dev.arbFinding (max s.now t) p i (i.finding (rerunSums i flips)) } := by
  show execArbitrationResult t p item (some flips) s = _
  simp only [execArbitrationResult, onDev, hitem]
  rw [if_neg (arbitrationResult_not_ignored hd ha harb hs)]
  rfl

theorem exec_arbitrationResult_retry {u : UnitCode} (htries : i.tries < 2)
    (hnext : ((s.dev.arbiters p i.array).filter fun u => some u != i.arbiter)[0]? = some u) :
    exec (.arbitrationResult t p item none) s
      = .next { s with now := max s.now t, dev := s.dev.modItem p i.seq fun y => { y with arbiter := some u, tries := 2 } } := by
  show execArbitrationResult t p item none s = _
  simp only [execArbitrationResult, onDev, hitem]
  rw [if_neg (arbitrationResult_not_ignored hd ha harb hs), hnext, if_pos ⟨htries, rfl⟩]

end

/-! ## CHK_ARB.GO (R313) -/

/-- Whether 1 written to CHK_ARB.GO names a listed record and a healthy array of the partition. -/
def Dev.arbNames (d : Dev) (p : PartId) (seq : BitVec 32) (u : UnitCode) : Bool :=
  (d.part p).mode.getLsbD 2 && (unitKind u == 0 && decide (unitIdx u < 4) && (d.part p).cfg.covers (unitSlice u) && !d.fenced u)
    && (d.part p).chk.list.any fun i => d.rpt.seqOf i.seq == seq

/-- A partition with CHK_ARB as a GO leaves it, and the listed tile of the record put back if the GO is taken. -/
def Dev.arbGone (d : Dev) (p : PartId) (seq : BitVec 32) (u : UnitCode) (x : Part) : Part :=
  { x with chk := { x.chk with
      arbUnit := u, arbSeq := seq, arbGo := d.arbNames p seq u, arbDone := false, arbResult := if d.arbNames p seq u then 0 else 7,
      list := if d.arbNames p seq u then
          x.chk.list.map fun i => if d.rpt.seqOf i.seq = seq then { i with arbiter := none, tries := 0, done := false } else i
        else x.chk.list } }

/-- The units after a GO that is heard. -/
def Dev.takeArbGo (d : Dev) (p : PartId) (seq : BitVec 32) (u : UnitCode) : Dev := (d.respond 0 0).modPart p (d.arbGone p seq u)

theorem exec_chkArbGo_heard {t : Tick} {v : Requester} {seq : BitVec 32} {u : UnitCode} {s : State} (h : s.dev.hears v = true) :
    exec (.chkArbGo t v seq u) s = .next { s with now := max s.now t, dev := s.dev.takeArbGo (s.dev.reqPart v) seq u } := by
  show execChkArbGo t v seq u s = _
  simp only [execChkArbGo, onDev, serve_of_hears _ h]
  rfl

end Sys2Proof.Machine

namespace Sys2Proof
open Sys2Proof.Machine Sys2Proof.Claims

/-- What goes on in an arbitration of a partition keeps to the frame that its statements give. -/
theorem Claims.arbitrating_frame {t : Tick} {p : PartId} {s : State} {e : Dev} (h : Arbitrating p s.dev e) :
    let s' : State := { s with now := max s.now t, dev := e }
    UnitsAre t s s' { s.dev with eng := s'.dev.eng, secOut := s'.dev.secOut, rpt := s'.dev.rpt, ports := s'.dev.ports,
                                 parts := s'.dev.parts } ∧ OthersSame p s s' := by
  obtain ⟨⟨_, _, _, _, _, he⟩, others, -⟩ := h
  exact ⟨by simp only [UnitsAre, he], others⟩

/-- Settles O38: a GO is one change of CHK_ARB; a re-run's request dooms the attempt and then settles its tiles one by one, and what has
an arbiter or an end keeps it; a result's finding asks for the fences of the units at fault. -/
theorem arbitrationRuns : Obligations.ArbitrationRuns := by
  unfold Obligations.ArbitrationRuns
  refine ⟨fun t v p seq u s => ⟨fun hv => ⟨_, exec_chkArbGo_heard hv, ?_⟩, fun img hi hr hl ha hk hm hb hopen =>
      ⟨_, exec_arbitrationRerun_due hi hr hl ha hk hm hb hopen, ?_⟩⟩, ?_⟩
  · refine ⟨⟨rfl, fun q hq => Dev.part_modPart_ne _ _ hq⟩, ?_⟩
    dsimp only
    rw [Dev.takeArbGo, Dev.part_modPart_self]
    exact ⟨rfl, rfl, rfl, rfl, rfl, rfl, fun hno => if_neg (Bool.eq_false_iff.mp hno)⟩
  · have hdoomed : Arbitrating p s.dev (s.dev.doomForArb (max s.now t) p) := .doomForArb
    have hrerun : Arbitrating p _ ((s.dev.doomForArb (max s.now t) p).rerun (max s.now t) p) := .rerun
    obtain ⟨hunits, hothers⟩ := arbitrating_frame (t := t) (hdoomed.trans hrerun)
    exact ⟨hunits, hothers, hrerun.doom_isSome (Dev.doomForArb_isSome hl),
      fun i => Dev.rerun_settles (by rw [hdoomed.mode, hm]; rfl)⟩
  · intro t p item flips s i x sums next checker asked hitem hd ha harb hm hs
    refine ⟨fun u htries hnext => ⟨_, exec_arbitrationResult_retry hitem hd ha harb hs htries hnext, ?_⟩,
      _, exec_arbitrationResult_sums hitem hd ha harb hs flips, ?_⟩
    · refine ⟨⟨rfl, fun q hq => Dev.part_modPart_ne _ _ hq⟩, rfl, ?_⟩
      dsimp only
      rw [Dev.modItem, Dev.part_modPart_self]
      dsimp only
      rw [List.getElem?_map, hitem]
      exact congrArg some (if_pos rfl)
    · obtain ⟨hunits, hothers⟩ := arbitrating_frame (t := t) (.arbFinding s.dev (max s.now t) p i (i.finding sums))
      have hasked : ∀ {u}, u ∈ i.faulty (i.finding sums) → (s.dev.arbFinding (max s.now t) p i (i.finding sums)).asked u :=
        s.dev.arbFinding_asked _ p i hm
      exact ⟨hunits, hothers, fun h => hasked (ArbItem.faulty_agrees h), fun h => hasked (ArbItem.faulty_differs h),
        fun h hc => hasked (ArbItem.faulty_unresolved h hc), fun y => Dev.arbFinding_done⟩

end Sys2Proof
end
